-- ==== Sys2Proof/Word.lean ====
section
/-!
DEFINITION. The plain value types of the avrdude-ftdi PMCF: bytes, 16-bit masks, four-byte commands.
Bit-field and byte-order helpers stand in Sys2Proof/Machine/Operands.lean.
-/

namespace Sys2Proof

/-- One byte of a frame or of a stream (R8). -/
abbrev Byte := BitVec 8

/-- A pin mask: bit `n - 1` stands for physical pin `n` (R12). -/
abbrev Mask := BitVec 16

/-- Four bytes in wire order, `b0` first: a command or a response of an exchange (R42: byte arrays, not integers). -/
structure Quad where
  b0 : Byte
  b1 : Byte
  b2 : Byte
  b3 : Byte
deriving DecidableEq, Repr, Inhabited

/-- The bytes in the order they go on the wire. -/
def Quad.toList (q : Quad) : List Byte := [q.b0, q.b1, q.b2, q.b3]

end Sys2Proof
end

