-- ==== Sys2Proof/Syntax.lean ====
section
/-!
DEFINITION. The pin roles and the operations, one constructor of `Instr` per row of spec/opcode_table.json.
-/

namespace Sys2Proof

/-- The eight single-pin roles, indices 0 to 7 (R11). -/
inductive SRole where
  | clk | dout | din | reset | led0 | led1 | led2 | led3
deriving DecidableEq, Repr

/-- The two group roles, indices 8 and 9 (R11). -/
inductive GRole where
  | pwr | buf
deriving DecidableEq, Repr

/-- A pin role of either kind: what an error names. -/
inductive Role where
  | single (r : SRole)
  | group (g : GRole)
deriving DecidableEq, Repr

/-- The table's rows: operations (R67), reserved ranges (R70), engine frames (R63 to R65), configuration formats
(R60, R62) and the result format (R68). -/
inductive Instr where
  /-- OPEN, R157. -/
  | openOp
  /-- CLOSE, R185. -/
  | closeOp
  /-- INITIALIZE, R163. -/
  | initializeOp
  /-- PROGRAM_ENABLE, R170. -/
  | programEnable
  /-- CHIP_ERASE, R178. -/
  | chipErase
  /-- EXCHANGE, R145: the four command bytes. -/
  | exchange (c : Quad)
  /-- SET_LED0, R148: the logical value. -/
  | setLed0 (v : Bool)
  /-- SET_LED1, R149. -/
  | setLed1 (v : Bool)
  /-- SET_LED2, R150. -/
  | setLed2 (v : Bool)
  /-- SET_LED3, R151. -/
  | setLed3 (v : Bool)
  /-- ASSIGN_SINGLE, R91: role and raw pin spec. -/
  | assignSingle (r : SRole) (raw : Byte)
  /-- ASSIGN_GROUP, R94: group role and raw mask. -/
  | assignGroup (g : GRole) (mask : Mask)
  /-- VALIDATE_LAYOUT, R97: the four sampled raw specs. -/
  | validateLayout (clk dout din reset : Byte)
  /-- PIN_SETUP, R99. -/
  | pinSetup
  /-- COMPUTE_DIVISOR, R110: the requested frequency. -/
  | computeDivisor (hz : BitVec 32)
  /-- SET_CLOCK, R115: the requested frequency. -/
  | setClock (hz : BitVec 32)
  /-- ENCODE_GPIO_SET, R120. -/
  | encodeGpioSet
  /-- SHIFT, R123: mode byte, length and payload; illegal values can be written and are refused by the machine. -/
  | shift (mode : Byte) (length : BitVec 24) (payload : List Byte)
  /-- SET_PIN, R140: role and logical value. -/
  | setPin (r : SRole) (v : Bool)
  /-- Reserved OP 0x0A to 0x0F, R70. -/
  | reservedLow (op : BitVec 5)
  /-- Reserved OP 0x19 to 0x1F, R70. -/
  | reservedHigh (op : BitVec 5)
  /-- CLKFRAME, R63: the divisor. -/
  | clkFrame (divisor : BitVec 16)
  /-- GPIOFRAME, R64: the two masks. -/
  | gpioFrame (val dir : Mask)
  /-- SHIFTFRAME, R65: mode byte and payload. -/
  | shiftFrame (mode : Byte) (payload : List Byte)
  /-- PINSPEC, R60: a raw pin spec on its way into CFG_PIN[role]. -/
  | pinSpec (r : SRole) (raw : Byte)
  /-- GROUPMASK, R62: a raw mask on its way into CFG_GROUP[role]. -/
  | groupMask (g : GRole) (mask : Mask)
  /-- HOSTRES, R68: a result word. -/
  | hostRes (status : BitVec 4) (data : BitVec 32)
deriving DecidableEq, Repr

end Sys2Proof
end

