-- ==== Sys2Proof/Config.lean ====
section
/-!
DEFINITION. What is fixed for one machine and what nothing fixes: the parameters of R6, the event history of R9 (what the
oracle sees), and the free values: the transport's answers (R47) and the part-descriptor registers at power-on (R21).
The numeric constants of R5 stand in Sys2Proof/Machine/Constants.lean.
-/

namespace Sys2Proof

/-- `LAYOUT_POLICY` of R6 and D6. -/
inductive LayoutPolicy where
  | autocorrect | strict
deriving DecidableEq, Repr

/-- The parameters the source leaves open (R6). They are held by the state and never change (log entry 12), so a
statement over all states is a statement for every choice of them. -/
structure Params where
  /-- `LAYOUT_POLICY` -/
  layout : LayoutPolicy
  /-- `MODE_TX` -/
  modeTx : Byte
  /-- `MODE_RX` -/
  modeRx : Byte
  /-- `MODE_SELECT` -/
  modeSelect : Byte
deriving DecidableEq, Repr

/-- `MODE_TRX`, the combined mode (R73). -/
def Params.modeTrx (p : Params) : Byte := p.modeTx ||| p.modeRx

/-- The constraints of R73 on a choice of the mode bytes. -/
def Params.wf (p : Params) : Bool :=
  p.modeTx &&& p.modeRx == 0#8 && p.modeTx != 0#8 && p.modeRx != 0#8 &&
  [0x80#8, 0x82#8, 0x86#8, 0x87#8].all (fun b => p.modeTx != b && p.modeTrx != b)

/-- What a `TWrite` call answers (R40): a count accepted, or an error. -/
inductive WriteAns where
  | accepted (n : Nat)
  | error
deriving DecidableEq, Repr, Inhabited

/-- What a `TRead` call answers (R40): bytes (possibly none), or an error. -/
inductive ReadAns where
  | bytes (l : List Byte)
  | error
deriving DecidableEq, Repr, Inhabited

/-- The kinds of diagnostic (R204). -/
inductive DiagKind where
  | layoutCorrected | resetDefaulted | cappedMax | cappedMin
deriving DecidableEq, Repr

/-- What a diagnostic reports (R204): a role index for the layout kinds; the requested frequency for the capped kinds, with the
effective frequency beside it (R114, log entry 16). -/
inductive DiagInfo where
  | role (index : BitVec 32)
  | clock (requested : BitVec 32) (effective : Nat)
deriving DecidableEq, Repr

/-- A result word, format HOSTRES (R68). -/
structure HostRes where
  status : BitVec 4
  data : BitVec 32
deriving DecidableEq, Repr

/-- The events of the history H (R9). `result` names the operation by its OP code (R67). -/
inductive Event where
  | opened (vid pid : BitVec 16) (ok : Bool)
  | setMode (dir : Mask) (mode : Byte) (ok : Bool)
  | write (bytes : List Byte) (ans : WriteAns)
  | read (asked : Nat) (ans : ReadAns)
  | close
  | wait (micros : Nat)
  | diag (kind : DiagKind) (info : DiagInfo)
  | result (op : BitVec 5) (res : HostRes)
deriving DecidableEq, Repr

/-- The part-descriptor registers (R21). -/
structure PdRegs where
  /-- `PD_PE_DEF` -/
  peDef : Bool
  /-- `PD_PE_CMD` -/
  peCmd : Quad
  /-- `PD_CE_DEF` -/
  ceDef : Bool
  /-- `PD_CE_CMD` -/
  ceCmd : Quad
  /-- `PD_POLL_INDEX` -/
  pollIndex : BitVec 3
  /-- `PD_POLL_VALUE` -/
  pollValue : Byte
  /-- `PD_ERASE_DELAY`, microseconds -/
  eraseDelay : BitVec 32
deriving DecidableEq, Repr, Inhabited

namespace Config

/-- Free value (R47, log entry 2): whether `TOpen` succeeds after the history `h`. -/
opaque freeOpen (h : List Event) (vid pid : BitVec 16) : Bool

/-- Free value (R47, log entry 2): whether `TSetMode` succeeds after the history `h`. -/
opaque freeSetMode (h : List Event) (dir : Mask) (mode : Byte) : Bool

/-- Free value (R47, log entry 2): what `TWrite` answers after the history `h`. -/
opaque freeWrite (h : List Event) (bytes : List Byte) : WriteAns

/-- Free value (R47, log entry 2): what `TRead` answers after the history `h`. -/
opaque freeRead (h : List Event) (room : Nat) : ReadAns

/-- Free value (R21, R26, U20, log entry 4): the part-descriptor registers at power-on, which the spec leaves
unspecified and forbids to take as zero. -/
opaque pdAtReset : PdRegs

end Config

end Sys2Proof
end

