-- ==== Sys2Proof/Machine/Constants.lean ====
section
/-!
DEFINITION. The constants the source fixes (R5), the default parameters (R6) and the OP codes of the host port (R67).
-/

namespace Sys2Proof.Machine

/-- `F_MASTER`, Hz (R5). -/
def fMaster : Nat := 6000000

/-- `DIV_MAX` (R5). -/
def divMax : Int := 65535

/-- `PIN_MIN` (R5). -/
def pinMin : Nat := 1

/-- `PIN_MAX` (R5). -/
def pinMax : Nat := 11

/-- `GROUP_BITS` (R5). -/
def groupBits : Nat := 12

/-- `PIN_CLK`, `PIN_DOUT`, `PIN_DIN` (R5). -/
def pinClk : BitVec 7 := 1#7
def pinDout : BitVec 7 := 2#7
def pinDin : BitVec 7 := 3#7

/-- `PIN_RESET_MIN`, `PIN_RESET_DEFAULT` (R5). -/
def pinResetMin : Nat := 4
def pinResetDefault : BitVec 7 := 4#7

/-- `T_INIT`, microseconds (R5). -/
def tInit : Nat := 20000

/-- `T_PULSE`, microseconds (R5). -/
def tPulse : Nat := 20

/-- `PE_ATTEMPTS` (R5). -/
def peAttempts : Nat := 4

/-- `XCHG_LEN`, bytes (R5). -/
def xchgLen : Nat := 4

/-- The engine command bytes (R5, R129). -/
def opcGpioLow : Byte := 0x80#8
def opcGpioHigh : Byte := 0x82#8
def opcClkDiv : Byte := 0x86#8
def opcFlush : Byte := 0x87#8

/-- The greatest `length` of a shift frame (R65). -/
def shiftMax : Nat := 65536

/-- The configuration defaults (R5, R20). -/
def vidDefault : BitVec 16 := 0x0403#16
def pidDefault : BitVec 16 := 0x6010#16
def hzDefault : BitVec 32 := 150000#32

/-- The defaults of the open parameters (R6; the three bytes are the spec's "from general knowledge", U1). -/
def defaultParams : Params :=
  { layout := .autocorrect, modeTx := 0x11#8, modeRx := 0x20#8, modeSelect := 0x02#8 }

/-- The OP codes (R67). -/
def opOpen : BitVec 5 := 0x00#5
def opClose : BitVec 5 := 0x01#5
def opInitialize : BitVec 5 := 0x02#5
def opProgramEnable : BitVec 5 := 0x03#5
def opChipErase : BitVec 5 := 0x04#5
def opExchange : BitVec 5 := 0x05#5
def opSetLed0 : BitVec 5 := 0x06#5
def opSetLed1 : BitVec 5 := 0x07#5
def opSetLed2 : BitVec 5 := 0x08#5
def opSetLed3 : BitVec 5 := 0x09#5
def opAssignSingle : BitVec 5 := 0x10#5
def opAssignGroup : BitVec 5 := 0x11#5
def opValidateLayout : BitVec 5 := 0x12#5
def opPinSetup : BitVec 5 := 0x13#5
def opComputeDivisor : BitVec 5 := 0x14#5
def opSetClock : BitVec 5 := 0x15#5
def opEncodeGpioSet : BitVec 5 := 0x16#5
def opShift : BitVec 5 := 0x17#5
def opSetPin : BitVec 5 := 0x18#5

end Sys2Proof.Machine
end

