-- ==== Sys2Proof/Machine/Operands.lean ====
section
/-!
DEFINITION. Every place a value is assembled from bits or bytes (R69), the role-to-pin bit map (R12) and the claim mask (R90).
None is sign-extended.
-/

namespace Sys2Proof.Machine

/-- `lo8(v)` (R8). -/
def lo8 (v : BitVec 16) : Byte := v.extractLsb' 0 8

/-- `hi8(v)` (R8). -/
def hi8 (v : BitVec 16) : Byte := v.extractLsb' 8 8

/-- Two bytes, low byte first, as a 16-bit value (R42). -/
def word16 (lo hi : Byte) : BitVec 16 := hi ++ lo

/-- `pinfield(raw) = raw[6:0]` (R8, R60). -/
def pinfield (raw : Byte) : BitVec 7 := raw.extractLsb' 0 7

/-- `invflag(raw) = raw[7]` (R8, R60). -/
def invflag (raw : Byte) : Bool := raw.getLsbD 7

/-- `{ raw[7], pin }`: the pin field replaced, the flag kept (R97). -/
def withPin (raw : Byte) (pin : BitVec 7) : Byte := raw.extractLsb' 7 1 ++ pin

/-- The pin field is a legal pin number of a single-pin role (R60, R91). -/
def pinInRange (pin : BitVec 7) : Bool := pinMin ≤ pin.toNat && pin.toNat ≤ pinMax

/-- `b = pin - 1` (R12). -/
def pinBit (pin : BitVec 7) : Nat := pin.toNat - 1

/-- `bit(n)`, the 16-bit value `1 << n` (R8). -/
def bit (n : Nat) : Mask := 1#16 <<< n

/-- `v[b] <- x`: one bit written, all others unchanged (R8). -/
def setBit (v : Mask) (b : Nat) (x : Bool) : Mask := if x then v ||| bit b else v &&& ~~~(bit b)

/-- `dinmask` of R90, from the data-in role's assigned spec. -/
def dinMask (dinSpec : Byte) : Mask := if pinfield dinSpec = 0#7 then 0#16 else bit (pinBit (pinfield dinSpec))

/-- `claimed = DIR | dinmask` (R90). -/
def claimed (dir : Mask) (dinSpec : Byte) : Mask := dir ||| dinMask dinSpec

/-- The group mask fits in 12 bits: `mask[15:12] = 0` (R62, R94). -/
def groupInRange (mask : Mask) : Bool := mask.extractLsb' groupBits 4 == 0#4

/-- The role index of R11, as the `info` of a diagnostic (R204). -/
def roleIndex : SRole → BitVec 32
  | .clk => 0#32 | .dout => 1#32 | .din => 2#32 | .reset => 3#32
  | .led0 => 4#32 | .led1 => 5#32 | .led2 => 6#32 | .led3 => 7#32

/-- The role index in three bits, as an internal operand of ARG (log entry 8). -/
def roleCode (r : SRole) : BitVec 3 := (roleIndex r).extractLsb' 0 3

/-- The single-pin role of an index. -/
def roleOfCode (c : BitVec 3) : SRole :=
  match c.toNat with
  | 0 => .clk | 1 => .dout | 2 => .din | 3 => .reset | 4 => .led0 | 5 => .led1 | 6 => .led2 | _ => .led3

/-- The group role in one bit: index 8 is 0, index 9 is 1 (log entry 8). -/
def groupCode : GRole → Bool
  | .pwr => false
  | .buf => true

/-- The group role of a code. -/
def groupOfCode (c : Bool) : GRole := if c then .buf else .pwr

/-- `command[i] = ARG[8i+7:8i]` (R67, R69). -/
def quadOfWord (w : BitVec 32) : Quad :=
  { b0 := w.extractLsb' 0 8, b1 := w.extractLsb' 8 8, b2 := w.extractLsb' 16 8, b3 := w.extractLsb' 24 8 }

/-- `DATA[8i+7:8i] = response[i]` (R68, R69). -/
def wordOfQuad (q : Quad) : BitVec 32 := q.b3 ++ q.b2 ++ q.b1 ++ q.b0

/-- The first four received bytes as a response (R42: `response[0]` is the first byte received). -/
def quadOfList (l : List Byte) : Quad :=
  { b0 := l.getD 0 0#8, b1 := l.getD 1 0#8, b2 := l.getD 2 0#8, b3 := l.getD 3 0#8 }

/-- The poll index is legal: 1 to 4 (R21, R171). -/
def pollIndexLegal (i : BitVec 3) : Bool := 1 ≤ i.toNat && i.toNat ≤ xchgLen

/-- `response[PD_POLL_INDEX - 1]` (R69, R170). -/
def polledByte (q : Quad) (i : BitVec 3) : Byte := q.toList.getD (i.toNat - 1) 0#8

/-- "includes a transmit phase" (R73). -/
def modeSends (p : Params) (mode : Byte) : Bool := mode &&& p.modeTx != 0#8

/-- "includes a receive phase" (R73). -/
def modeReceives (p : Params) (mode : Byte) : Bool := mode &&& p.modeRx != 0#8

/-- The only legal mode bytes (R73). -/
def modeLegal (p : Params) (mode : Byte) : Bool := mode == p.modeTx || mode == p.modeRx || mode == p.modeTrx

/-- The bytes of a CLKFRAME (R63). -/
def clkBytes (divisor : BitVec 16) : List Byte := [opcClkDiv, lo8 divisor, hi8 divisor]

/-- The bytes of a GPIOFRAME (R64, R120). -/
def gpioBytes (val dir : Mask) : List Byte := [opcGpioLow, lo8 val, lo8 dir, opcGpioHigh, hi8 val, hi8 dir]

/-- The 16-bit length field `length - 1` (R65). -/
def lengthField (length : Nat) : BitVec 16 := BitVec.ofNat 16 (length - 1)

/-- The bytes of a SHIFTFRAME: header, payload, trailer (R65, R125). -/
def shiftBytes (mode : Byte) (payload : List Byte) : List Byte :=
  [mode, lo8 (lengthField payload.length), hi8 (lengthField payload.length)] ++ payload ++ [opcFlush]

end Sys2Proof.Machine
end

