-- ==== Sys2Proof/WellFormed.lean ====
section
/-!
DEFINITION. Which terms of `Instr` the encodings of the spec can carry: a reserved OP lies in its range (R70), a shift frame has
a transmitting mode byte and 1 to 65536 payload bytes (R65, R73). Every other constructor's fields are exactly its encoding's.
-/

namespace Sys2Proof

/-- The encodings can carry `i` under the parameters `p`. -/
def Instr.wf (p : Params) : Instr → Bool
  | .reservedLow op => 0x0A ≤ op.toNat && op.toNat ≤ 0x0F
  | .reservedHigh op => 0x19 ≤ op.toNat
  | .shiftFrame mode payload =>
      (mode == p.modeTx || mode == p.modeTrx) && 1 ≤ payload.length && payload.length ≤ Machine.shiftMax
  | .openOp | .closeOp | .initializeOp | .programEnable | .chipErase | .exchange _
  | .setLed0 _ | .setLed1 _ | .setLed2 _ | .setLed3 _ | .assignSingle _ _ | .assignGroup _ _
  | .validateLayout _ _ _ _ | .pinSetup | .computeDivisor _ | .setClock _ | .encodeGpioSet
  | .shift _ _ _ | .setPin _ _ | .clkFrame _ | .gpioFrame _ _ | .pinSpec _ _ | .groupMask _ _ | .hostRes _ _ => true

end Sys2Proof
end

