-- ==== Sys2Proof/Decode.lean ====
section
/-!
DEFINITION. The decoder, total on any bits and rejecting by name, and after it the encoder (30_encoding R60 to R74).
An instruction stands in one of the places the block reads from: the host command port, the frame buffer, a host
write of a configuration register, the result latch (log entries 7 to 11).
-/

namespace Sys2Proof

open Machine

/-- An instruction as it stands where the block reads it. -/
inductive Wire where
  /-- A HOSTCMD word with the operand bytes ARG has no room for (the payload of SHIFT; none for any other operation). -/
  | cmd (w : BitVec 37) (operand : List Byte)
  /-- The bytes of one engine frame. -/
  | frame (bytes : List Byte)
  /-- A PINSPEC byte for one CFG_PIN register. -/
  | pin (r : SRole) (raw : Byte)
  /-- A GROUPMASK for one CFG_GROUP register. -/
  | group (g : GRole) (mask : Mask)
  /-- A HOSTRES word. -/
  | result (w : BitVec 36)
deriving DecidableEq, Repr

/-- Why bytes are no engine frame (R74). -/
inductive DecodeError where
  /-- There is no byte. -/
  | empty
  /-- The first byte starts no frame the block emits. -/
  | unknownFirst (b : Byte)
  /-- The frame ends too early, or bytes are left after it. -/
  | wrongLength
  /-- Byte 3 of a GPIOFRAME is not 0x82. -/
  | noGpioHigh
  /-- The last byte of a shift frame is not 0x87. -/
  | noFlush
deriving DecidableEq, Repr

/-! ### The host command word (R66, R67) -/

/-- `HOSTCMD[36:32]`. -/
def opField (w : BitVec 37) : BitVec 5 := w.extractLsb' 32 5

/-- `HOSTCMD[31:0]`. -/
def argField (w : BitVec 37) : BitVec 32 := w.extractLsb' 0 32

/-- `{OP, ARG}`. -/
def mkCmd (op : BitVec 5) (arg : BitVec 32) : BitVec 37 := op ++ arg

/-- The operation of a command word: every OP value has a row (R67, R70). The packing of the internal operations' operands
is the model's (log entry 8). -/
def decodeCmd (w : BitVec 37) (operand : List Byte) : Instr :=
  let a := argField w
  match (opField w).toNat with
  | 0x00 => .openOp
  | 0x01 => .closeOp
  | 0x02 => .initializeOp
  | 0x03 => .programEnable
  | 0x04 => .chipErase
  | 0x05 => .exchange (quadOfWord a)
  | 0x06 => .setLed0 (a.getLsbD 0)
  | 0x07 => .setLed1 (a.getLsbD 0)
  | 0x08 => .setLed2 (a.getLsbD 0)
  | 0x09 => .setLed3 (a.getLsbD 0)
  | 0x10 => .assignSingle (roleOfCode (a.extractLsb' 8 3)) (a.extractLsb' 0 8)
  | 0x11 => .assignGroup (groupOfCode (a.getLsbD 16)) (a.extractLsb' 0 16)
  | 0x12 => .validateLayout (a.extractLsb' 0 8) (a.extractLsb' 8 8) (a.extractLsb' 16 8) (a.extractLsb' 24 8)
  | 0x13 => .pinSetup
  | 0x14 => .computeDivisor a
  | 0x15 => .setClock a
  | 0x16 => .encodeGpioSet
  | 0x17 => .shift (a.extractLsb' 0 8) (a.extractLsb' 8 24) operand
  | 0x18 => .setPin (roleOfCode (a.extractLsb' 8 3)) (a.getLsbD 0)
  | n => if n ≤ 0x0F then .reservedLow (opField w) else .reservedHigh (opField w)

/-! ### Engine frames (R63 to R65, R73, R74) -/

/-- The first frame of a byte stream, with the bytes after it (R74). -/
def takeFrame (p : Params) : List Byte → Except DecodeError (Instr × List Byte)
  | [] => .error .empty
  | b :: rest =>
    if b = opcClkDiv then
      match rest with
      | lo :: hi :: tail => .ok (.clkFrame (word16 lo hi), tail)
      | _ => .error .wrongLength
    else if b = opcGpioLow then
      match rest with
      | vl :: dl :: second :: vh :: dh :: tail =>
        if second = opcGpioHigh then .ok (.gpioFrame (word16 vl vh) (word16 dl dh), tail) else .error .noGpioHigh
      | _ => .error .wrongLength
    else if b = p.modeTx || b = p.modeTrx then
      match rest with
      | lo :: hi :: tail =>
        let n := (word16 lo hi).toNat + 1
        match tail.drop n with
        | last :: after =>
          if last = opcFlush then .ok (.shiftFrame b (tail.take n), after) else .error .noFlush
        | [] => .error .wrongLength
      | _ => .error .wrongLength
    else .error (.unknownFirst b)

/-- The one frame standing in the frame buffer. -/
def decodeFrame (p : Params) (bytes : List Byte) : Except DecodeError Instr :=
  match takeFrame p bytes with
  | .ok (i, []) => .ok i
  | .ok (_, _ :: _) => .error .wrongLength
  | .error e => .error e

/-- The frames of an outgoing stream (R74); every frame takes at least one byte, so the stream's length bounds their number. -/
def parseFrames (p : Params) : Nat → List Byte → Except DecodeError (List Instr)
  | _, [] => .ok []
  | 0, _ :: _ => .error .wrongLength
  | fuel + 1, b :: rest =>
    match takeFrame p (b :: rest) with
    | .error e => .error e
    | .ok (i, tail) =>
      match parseFrames p fuel tail with
      | .error e => .error e
      | .ok l => .ok (i :: l)

/-- The frames of an outgoing stream (R74). -/
def parseStream (p : Params) (bytes : List Byte) : Except DecodeError (List Instr) :=
  parseFrames p bytes.length bytes

/-! ### The result word (R68) -/

/-- `HOSTRES` (R68). -/
def decodeRes (w : BitVec 36) : Instr := .hostRes (w.extractLsb' 32 4) (w.extractLsb' 0 32)

/-- The instruction that stands in one of the places the block reads from. -/
def decode (p : Params) : Wire → Except DecodeError Instr
  | .cmd w operand => .ok (decodeCmd w operand)
  | .frame bytes => decodeFrame p bytes
  | .pin r raw => .ok (.pinSpec r raw)
  | .group g mask => .ok (.groupMask g mask)
  | .result w => .ok (decodeRes w)

/-! ### The encoder, from the same tables -/

/-- An ARG with one bit, `ARG[0]` (R67). -/
def argOfBit (v : Bool) : BitVec 32 := if v then 1#32 else 0#32

/-- ARG of a role and a byte (log entry 8). -/
def argOfRoleByte (r : SRole) (b : Byte) : BitVec 32 := 0#21 ++ roleCode r ++ b

/-- ARG of a group role and a mask (log entry 8). -/
def argOfGroupMask (g : GRole) (m : Mask) : BitVec 32 := 0#15 ++ BitVec.ofBool (groupCode g) ++ m

/-- The bytes of an engine frame; none for any other instruction (R63 to R65). -/
def frameBytes : Instr → List Byte
  | .clkFrame d => clkBytes d
  | .gpioFrame v d => gpioBytes v d
  | .shiftFrame m pl => shiftBytes m pl
  | .openOp | .closeOp | .initializeOp | .programEnable | .chipErase | .exchange _
  | .setLed0 _ | .setLed1 _ | .setLed2 _ | .setLed3 _ | .assignSingle _ _ | .assignGroup _ _
  | .validateLayout _ _ _ _ | .pinSetup | .computeDivisor _ | .setClock _ | .encodeGpioSet
  | .shift _ _ _ | .setPin _ _ | .reservedLow _ | .reservedHigh _ | .pinSpec _ _ | .groupMask _ _ | .hostRes _ _ => []

/-- The words of an instruction (R60 to R68). -/
def encode : Instr → Wire
  | .openOp => .cmd (mkCmd opOpen 0#32) []
  | .closeOp => .cmd (mkCmd opClose 0#32) []
  | .initializeOp => .cmd (mkCmd opInitialize 0#32) []
  | .programEnable => .cmd (mkCmd opProgramEnable 0#32) []
  | .chipErase => .cmd (mkCmd opChipErase 0#32) []
  | .exchange c => .cmd (mkCmd opExchange (wordOfQuad c)) []
  | .setLed0 v => .cmd (mkCmd opSetLed0 (argOfBit v)) []
  | .setLed1 v => .cmd (mkCmd opSetLed1 (argOfBit v)) []
  | .setLed2 v => .cmd (mkCmd opSetLed2 (argOfBit v)) []
  | .setLed3 v => .cmd (mkCmd opSetLed3 (argOfBit v)) []
  | .assignSingle r raw => .cmd (mkCmd opAssignSingle (argOfRoleByte r raw)) []
  | .assignGroup g m => .cmd (mkCmd opAssignGroup (argOfGroupMask g m)) []
  | .validateLayout c o i r => .cmd (mkCmd opValidateLayout (wordOfQuad ⟨c, o, i, r⟩)) []
  | .pinSetup => .cmd (mkCmd opPinSetup 0#32) []
  | .computeDivisor hz => .cmd (mkCmd opComputeDivisor hz) []
  | .setClock hz => .cmd (mkCmd opSetClock hz) []
  | .encodeGpioSet => .cmd (mkCmd opEncodeGpioSet 0#32) []
  | .shift mode len pl => .cmd (mkCmd opShift (len ++ mode)) pl
  | .setPin r v => .cmd (mkCmd opSetPin (argOfRoleByte r (if v then 1#8 else 0#8))) []
  | .reservedLow op => .cmd (mkCmd op 0#32) []
  | .reservedHigh op => .cmd (mkCmd op 0#32) []
  | .clkFrame d => .frame (clkBytes d)
  | .gpioFrame v d => .frame (gpioBytes v d)
  | .shiftFrame m pl => .frame (shiftBytes m pl)
  | .pinSpec r raw => .pin r raw
  | .groupMask g m => .group g m
  | .hostRes st d => .result (st ++ d)

/-! ### The table's numbering of an instruction's bits -/

/-- `k` bytes of a number, least significant byte first. -/
def bytesOfNat : Nat → Nat → List Byte
  | 0, _ => []
  | k + 1, w => BitVec.ofNat 8 w :: bytesOfNat k (w / 256)

/-- Where an instruction of `nbits` bits stands (log entry 27): 8 bits are a PINSPEC and 16 a GROUPMASK, each for the role
of index 0 of its kind (the register select is above the table's bits), 36 a HOSTRES, 37 a HOSTCMD, 40 a HOSTCMD when the
three bits above it are 0; every other whole number of bytes is an engine frame, its first byte the lowest. -/
def wireOfTable (nbits w : Nat) : Option Wire :=
  if nbits = 8 then some (.pin .clk (BitVec.ofNat 8 w))
  else if nbits = 16 then some (.group .pwr (BitVec.ofNat 16 w))
  else if nbits = 36 then some (.result (BitVec.ofNat 36 w))
  else if nbits = 37 || (nbits = 40 && w < 2 ^ 37) then some (.cmd (BitVec.ofNat 37 w) [])
  else if nbits % 8 = 0 then some (.frame (bytesOfNat (nbits / 8) w))
  else none

/-- What the decoder reads from an instruction whose bits are `w`, under the default parameters. -/
def decodeTableWord (nbits w : Nat) : Option Instr :=
  match wireOfTable nbits w with
  | none => none
  | some x =>
    match decode defaultParams x with
    | .ok i => some i
    | .error _ => none

end Sys2Proof
end

