-- ==== Sys2Proof/Machine/Flags.lean ====
section
/-!
DEFINITION. The divisor arithmetic with its two condition flags CAP_MAX and CAP_MIN (R110 to R114): the block's only flags (R19).
-/

namespace Sys2Proof.Machine

/-- The transient result of COMPUTE_DIVISOR: DIVISOR with its flags and the effective frequency (R19, R110). -/
structure ClkResult where
  /-- `DIVISOR` -/
  divisor : BitVec 16
  /-- `effective_hz` (R114) -/
  effective : Nat
  /-- `CAP_MAX` (R112) -/
  capMax : Bool
  /-- `CAP_MIN` (R112) -/
  capMin : Bool
deriving DecidableEq, Repr

/-- `round_half_up(a / b)` for positive `b` (R8, R111). -/
def roundHalfUp (a b : Nat) : Nat := (2 * a + b) / (2 * b)

/-- `clamp(x, lo, hi)` (R8). -/
def clampInt (x lo hi : Int) : Int := if x < lo then lo else if hi < x then hi else x

/-- The raw divisor, a mathematical integer that can be -1 (R110, R111); not used for a frequency of 0. -/
def rawDivisor (hz : Nat) : Int := (roundHalfUp fMaster hz : Int) - 1

/-- The divisor after the clamp; the slowest clock for a frequency of 0 (R110, R113). -/
def divisorOf (hz : Nat) : BitVec 16 :=
  if hz = 0 then BitVec.ofNat 16 divMax.toNat else BitVec.ofNat 16 (clampInt (rawDivisor hz) 0 divMax).toNat

/-- CAP_MAX: the request is above the master clock (R112). -/
def capMaxOf (hz : Nat) : Bool := fMaster < hz

/-- CAP_MIN: the raw divisor exceeds 65535, or the frequency is 0 (R112, R113). -/
def capMinOf (hz : Nat) : Bool := if hz = 0 then true else divMax < rawDivisor hz

/-- The effective frequency (R114). -/
def effectiveOf (divisor : BitVec 16) : Nat := fMaster / (divisor.toNat + 1)

/-- COMPUTE_DIVISOR as a function (R110). -/
def computeDivisor (hz : BitVec 32) : ClkResult :=
  { divisor := divisorOf hz.toNat, effective := effectiveOf (divisorOf hz.toNat),
    capMax := capMaxOf hz.toNat, capMin := capMinOf hz.toNat }

end Sys2Proof.Machine
end

