-- ==== Sys2Proof/Machine/State.lean ====
section
/-!
DEFINITION. The state of the block (10_state R10 to R28), the moves and answers of its environment that it has yet to see, the
reasons a step can stop, and the state after a power-on reset (R26, R220). The block has no addressable memory (R23).
-/

namespace Sys2Proof.Machine

/-- One 8-bit entry per single-pin role: the shape of PINMAP and of CFG_PIN (R11, R20). -/
structure PinTable where
  clk : Byte
  dout : Byte
  din : Byte
  reset : Byte
  led0 : Byte
  led1 : Byte
  led2 : Byte
  led3 : Byte
deriving DecidableEq, Repr

/-- One 16-bit entry per group role: the shape of GMASK and of CFG_GROUP (R11, R20). -/
structure GroupTable where
  pwr : Mask
  buf : Mask
deriving DecidableEq, Repr

/-- The sequencer states (R16). Code 7 is never taken, so there is no value for it. -/
inductive St where
  | closed | opened | resetAsserted | resetReleased | enabled | erasing | failed
deriving DecidableEq, Repr

/-- The configuration registers (R20). -/
structure CfgRegs where
  /-- `CFG_PIN[0..7]` -/
  pin : PinTable
  /-- `CFG_GROUP[8..9]` -/
  group : GroupTable
  /-- `CFG_VID` -/
  vid : BitVec 16
  /-- `CFG_PID` -/
  pid : BitVec 16
  /-- `CFG_HZ` -/
  hz : BitVec 32
deriving DecidableEq, Repr

/-- Whether an operation was presented by the host or called by another operation (R67, R190). -/
inductive Level where
  | host | inner
deriving DecidableEq, Repr

/-- What goes on when the receive loop is satisfied (R127): who called SHIFT. -/
inductive RxClient where
  /-- SHIFT itself, called alone. -/
  | shift
  /-- EXCHANGE as an operation (R145). -/
  | exchange
  /-- An attempt of the program-enable handshake (R170). -/
  | handshake
  /-- The erase command of CHIP_ERASE (R178). -/
  | erase
deriving DecidableEq, Repr

/-- A receive loop that is short of bytes (R127, R128): who waits, the `length` it waits for, and at which level its
operation ends. -/
structure RxWait where
  client : RxClient
  length : Nat
  level : Level
deriving DecidableEq, Repr

/-- A move of the host (R7, R20, R21, R66; the directives of R72). -/
inductive HostMove where
  /-- Present a HOSTCMD word, with the operand bytes ARG has no room for. -/
  | present (w : BitVec 37) (operand : List Byte)
  /-- `.cfg_pin` -/
  | writePin (r : SRole) (raw : Byte)
  /-- `.cfg_group` -/
  | writeGroup (g : GRole) (mask : Mask)
  /-- `.cfg_vid` -/
  | writeVid (v : BitVec 16)
  /-- `.cfg_pid` -/
  | writePid (v : BitVec 16)
  /-- `.cfg_hz` -/
  | writeHz (v : BitVec 32)
  /-- `.pd_pe`; `none` is "undefined" -/
  | writePe (c : Option Quad)
  /-- `.pd_ce`; `none` is "undefined" -/
  | writeCe (c : Option Quad)
  /-- `.pd_poll` -/
  | writePoll (index : BitVec 3) (value : Byte)
  /-- `.pd_erase_delay` -/
  | writeEraseDelay (d : BitVec 32)
deriving DecidableEq, Repr

/-- The transport's answers decided in advance, oldest first, one queue per call; beyond them the answers are free
values (R47, log entry 2). -/
structure Env where
  opens : List Bool
  modes : List Bool
  writes : List WriteAns
  reads : List ReadAns
deriving DecidableEq, Repr

/-- The state. Fields up to `hostRes` are the spec's; `env`, `hist` and `par` are the model's own (R25). -/
structure State where
  /-- `PINMAP[0..7]` (R11) -/
  pinmap : PinTable
  /-- `GMASK[8..9]` (R11) -/
  gmask : GroupTable
  /-- `DIR` (R13) -/
  dir : Mask
  /-- `INV` (R14) -/
  inv : Mask
  /-- `VAL` (R15) -/
  val : Mask
  /-- `ST` (R16) -/
  st : St
  /-- `LIVE` (R17) -/
  live : Bool
  /-- `ATTEMPT` (R18) -/
  attempt : BitVec 3
  /-- `DIVISOR` and its flags, while they exist (R19) -/
  clk : Option ClkResult
  /-- the sampled specs `c[0..7]` (R99) -/
  samp : PinTable
  /-- the frame buffer (R22) -/
  frame : List Byte
  /-- `RXBUF` (R22) -/
  rxBuf : List Byte
  /-- the receive loop in progress (R127, R128) -/
  rx : Option RxWait
  /-- `CFG_*` (R20) -/
  cfg : CfgRegs
  /-- `PD_*` (R21) -/
  pd : PdRegs
  /-- the host's coming moves, oldest first (R66) -/
  port : List HostMove
  /-- the OP code of the operation being run; none while idle (R50, R66) -/
  running : Option (BitVec 5)
  /-- how the innermost called operation ended (R190) -/
  ret : HostRes
  /-- the result about to be presented (R66) -/
  resBuf : Option HostRes
  /-- the HOSTRES word last presented (R68) -/
  hostRes : Option HostRes
  /-- the transport's answers decided in advance (R47) -/
  env : Env
  /-- the history H (R9) -/
  hist : List Event
  /-- the parameters (R6) -/
  par : Params
deriving DecidableEq, Repr

/-- Why a step stops. The block itself has no fault (R190: it never halts on an error). -/
inductive Fault where
  /-- Raised by the step when the frame buffer holds bytes that are no engine frame (R74). Safe: no run from reset fills the
  frame buffer across steps, and the machine stops instead of sending them. -/
  | badFrame (e : DecodeError)
deriving DecidableEq, Repr

/-- Why a step has no meaning. -/
inductive Refusal where
  /-- Raised by `exec` for an instruction without a meaning; no arm does so now. Safe. -/
  | notModelled (mnemonic : String)
  /-- Raised by PROGRAM_ENABLE, and so by INITIALIZE and CHIP_ERASE, when the handshake is reached with a poll index outside
  1..4: the spec gives no step (R171, R196). Safe. -/
  | pollIndexOutOfRange
  /-- Raised by SHIFT for a mode, length or payload that is not legal: the spec gives no step (R124, R196). Safe. -/
  | shiftOperands
deriving DecidableEq, Repr

/-- The errors an operation raises (R190, R191), with the `info` of its pseudocode. -/
inductive Err where
  | pinOutOfRange (r : Role)
  | pinConflict (mask : Mask)
  | pinLayoutInvalid (r : SRole)
  | openFailed
  | writeShort
  | readFailed
  | modeSetFailed
  | operationUnsupported
  | programEnableFailed
  | badState
  | illegalOp
deriving DecidableEq, Repr

/-- Every role unassigned. -/
def PinTable.zero : PinTable := ⟨0#8, 0#8, 0#8, 0#8, 0#8, 0#8, 0#8, 0#8⟩

/-- No pin in either group. -/
def GroupTable.zero : GroupTable := ⟨0#16, 0#16⟩

/-- The state after a power-on reset (R26, R220). The part-descriptor registers are a free value (R21, log entry 4); the
transient buffers and the model's own fields are log entries 2, 5, 6, 12 and 20. -/
def State.reset : State :=
  { pinmap := .zero
    gmask := .zero
    dir := 0#16
    inv := 0#16
    val := 0#16
    st := .closed
    live := false
    attempt := 0#3
    clk := none
    samp := .zero
    frame := []
    rxBuf := []
    rx := none
    cfg := { pin := .zero, group := .zero, vid := vidDefault, pid := pidDefault, hz := hzDefault }
    pd := Config.pdAtReset
    port := []
    running := none
    ret := { status := 0#4, data := 0#32 }
    resBuf := none
    hostRes := none
    env := { opens := [], modes := [], writes := [], reads := [] }
    hist := []
    par := defaultParams }

end Sys2Proof.Machine
end

