-- ==== Sys2Proof/Machine/Ops.lean ====
section
/-!
DEFINITION. The named operations every meaning is made of: the tables, the history, the transport calls (R40 to R47), raising an
error and ending an operation (R190), acceptance (R155), presenting a result (R66).
-/

namespace Sys2Proof.Machine

/-- What every step and every meaning answers. -/
abbrev Out := Host.Outcome State Fault Refusal

/-! ### Tables -/

/-- `PINMAP[r]`, `CFG_PIN[r]`, `c[r]`. -/
def PinTable.get (t : PinTable) : SRole → Byte
  | .clk => t.clk | .dout => t.dout | .din => t.din | .reset => t.reset
  | .led0 => t.led0 | .led1 => t.led1 | .led2 => t.led2 | .led3 => t.led3

/-- `PINMAP[r] <- v`. -/
def PinTable.set (t : PinTable) (r : SRole) (v : Byte) : PinTable :=
  match r with
  | .clk => { t with clk := v } | .dout => { t with dout := v } | .din => { t with din := v }
  | .reset => { t with reset := v } | .led0 => { t with led0 := v } | .led1 => { t with led1 := v }
  | .led2 => { t with led2 := v } | .led3 => { t with led3 := v }

/-- `GMASK[g]`, `CFG_GROUP[g]`. -/
def GroupTable.get (t : GroupTable) : GRole → Mask
  | .pwr => t.pwr
  | .buf => t.buf

/-- `GMASK[g] <- v`. -/
def GroupTable.set (t : GroupTable) (g : GRole) (v : Mask) : GroupTable :=
  match g with
  | .pwr => { t with pwr := v }
  | .buf => { t with buf := v }

/-- The numeric code of a sequencer state (R16). -/
def St.code : St → BitVec 3
  | .closed => 0#3 | .opened => 1#3 | .resetAsserted => 2#3 | .resetReleased => 3#3
  | .enabled => 4#3 | .erasing => 5#3 | .failed => 6#3

/-- `RXCNT`, the bytes accumulated so far (R22). -/
def State.rxCnt (s : State) : Nat := s.rxBuf.length

/-- `claimed` of R90 in the state. -/
def State.claimed (s : State) : Mask := Machine.claimed s.dir s.pinmap.din

/-! ### The history, waits and diagnostics (R9, R204, R236) -/

/-- Append one event to the history. -/
def State.emit (s : State) (e : Event) : State := { s with hist := s.hist ++ [e] }

/-- `Wait(d)`, recorded and otherwise without effect (R236, log entry 19). -/
def State.waitFor (s : State) (micros : Nat) : State := s.emit (.wait micros)

/-- `Diag(kind, info)` (R204). -/
def State.diag (s : State) (kind : DiagKind) (info : DiagInfo) : State := s.emit (.diag kind info)

/-- The code of a diagnostic kind (R204). -/
def diagCode : DiagKind → Nat
  | .layoutCorrected => 1 | .resetDefaulted => 2 | .cappedMax => 3 | .cappedMin => 4

/-! ### The transport calls (R40): what the transport answers, and the state after the call -/

/-- A write answers a count of at most `len` (R40). -/
def clampWrite (len : Nat) : WriteAns → WriteAns
  | .accepted n => .accepted (min n len)
  | .error => .error

/-- A read answers at most the room asked for (R40). -/
def clampRead (room : Nat) : ReadAns → ReadAns
  | .bytes l => .bytes (l.take room)
  | .error => .error

/-- What `TOpen(vid, pid)` answers (R47). -/
def openAnswer (vid pid : BitVec 16) (s : State) : Bool :=
  match s.env.opens with
  | a :: _ => a
  | [] => Config.freeOpen s.hist vid pid

/-- The state after `TOpen(vid, pid)`. -/
def tOpen (vid pid : BitVec 16) (s : State) : State :=
  { s with env := { s.env with opens := s.env.opens.tail }, hist := s.hist ++ [.opened vid pid (openAnswer vid pid s)] }

/-- What `TSetMode(dir, mode)` answers (R47). -/
def modeAnswer (dir : Mask) (mode : Byte) (s : State) : Bool :=
  match s.env.modes with
  | a :: _ => a
  | [] => Config.freeSetMode s.hist dir mode

/-- The state after `TSetMode(dir, mode)`. -/
def tSetMode (dir : Mask) (mode : Byte) (s : State) : State :=
  { s with env := { s.env with modes := s.env.modes.tail }, hist := s.hist ++ [.setMode dir mode (modeAnswer dir mode s)] }

/-- What `TWrite(bytes)` answers (R47). -/
def writeAnswer (bytes : List Byte) (s : State) : WriteAns :=
  clampWrite bytes.length
    (match s.env.writes with
     | a :: _ => a
     | [] => Config.freeWrite s.hist bytes)

/-- The state after `TWrite(bytes)`. -/
def tWrite (bytes : List Byte) (s : State) : State :=
  { s with env := { s.env with writes := s.env.writes.tail }, hist := s.hist ++ [.write bytes (writeAnswer bytes s)] }

/-- What `TRead(room)` answers (R47). -/
def readAnswer (room : Nat) (s : State) : ReadAns :=
  clampRead room
    (match s.env.reads with
     | a :: _ => a
     | [] => Config.freeRead s.hist room)

/-- The state after `TRead(room)`. -/
def tRead (room : Nat) (s : State) : State :=
  { s with env := { s.env with reads := s.env.reads.tail }, hist := s.hist ++ [.read room (readAnswer room s)] }

/-- `TClose()`; its result is ignored (R40). -/
def tClose (s : State) : State := s.emit .close

/-- The write was accepted whole (R45). -/
def sentWhole (bytes : List Byte) (s : State) : Bool := writeAnswer bytes s == .accepted bytes.length

/-! ### Running a (sub-)operation (R190) -/

/-- How a piece of an operation goes: it ends with a value; it raises an error, with the state as written so far (nothing is
rolled back); it is short of bytes in the receive loop and goes on in the next step; or the spec gives it no step. -/
inductive Res (α : Type) where
  | ok (a : α) (s : State)
  | raise (e : Err) (s : State)
  | wait (c : RxClient) (length : Nat) (s : State)
  | refuse (r : Refusal)

/-- `r <- OP(...)` without a handler: an error is re-raised (R8). -/
def Res.bind {α β : Type} (r : Res α) (f : α → State → Res β) : Res β :=
  match r with
  | .ok a s => f a s
  | .raise e s => .raise e s
  | .wait c n s => .wait c n s
  | .refuse x => .refuse x

/-- "on any error e raised: <state writes>; raise e". -/
def Res.onRaise {α : Type} (r : Res α) (f : State → State) : Res α :=
  match r with
  | .ok a s => .ok a s
  | .raise e s => .raise e (f s)
  | .wait c n s => .wait c n s
  | .refuse x => .refuse x

/-- State writes made whether the piece ends well or with an error. -/
def Res.finally {α : Type} (r : Res α) (f : State → State) : Res α :=
  match r with
  | .ok a s => .ok a (f s)
  | .raise e s => .raise e (f s)
  | .wait c n s => .wait c n s
  | .refuse x => .refuse x

/-- The value replaced by one for the host's DATA field, which is 0 but for EXCHANGE (R68). -/
def Res.withData {α : Type} (r : Res α) (f : α → BitVec 32) : Res (BitVec 32) :=
  r.bind (fun a s => .ok (f a) s)

/-- The code of an error kind (R191). -/
def Err.code : Err → BitVec 4
  | .pinOutOfRange _ => 1#4
  | .pinConflict _ => 2#4
  | .pinLayoutInvalid _ => 3#4
  | .openFailed => 4#4
  | .writeShort => 5#4
  | .readFailed => 6#4
  | .modeSetFailed => 7#4
  | .operationUnsupported => 8#4
  | .programEnableFailed => 9#4
  | .badState => 10#4
  | .illegalOp => 11#4

/-- The DATA an error reports: the conflict mask, else 0 (R191). -/
def Err.data : Err → BitVec 32
  | .pinConflict m => m.setWidth 32
  | .pinOutOfRange _ | .pinLayoutInvalid _ | .openFailed | .writeShort | .readFailed | .modeSetFailed
  | .operationUnsupported | .programEnableFailed | .badState | .illegalOp => 0#32

/-- The operation has ended with a status and data: a host operation leaves its HOSTRES word to be presented, a called
operation hands its ending to the caller (R190). -/
def conclude (l : Level) (status : BitVec 4) (data : BitVec 32) (s : State) : State :=
  match l with
  | .host => { s with resBuf := some ⟨status, data⟩ }
  | .inner => { s with ret := ⟨status, data⟩ }

/-- Ending an operation: the one place where a raised error becomes a status (R190). -/
def settle (l : Level) (r : Res (BitVec 32)) : Out :=
  match r with
  | .ok d s => .next (conclude l 0#4 d s)
  | .raise e s => .next (conclude l e.code e.data s)
  | .wait c n s => .next { s with rx := some ⟨c, n, l⟩ }
  | .refuse x => .refused x

/-- The level at which the next operation is invoked: the host's while the block is idle (R66, R67, log entry 7). -/
def State.level (s : State) : Level := if s.running.isNone then .host else .inner

/-- The block takes the operation of OP code `op`; a called operation runs under its caller's. -/
def State.accept (s : State) (op : BitVec 5) : State :=
  match s.running with
  | none => { s with running := some op }
  | some _ => s

/-! ### Acceptance (R155) -/

/-- OPEN is accepted in `Closed`. -/
def St.takesOpen (st : St) : Bool := st == .closed

/-- INITIALIZE and PROGRAM_ENABLE are accepted in `Open`, `Enabled` and `Failed`. -/
def St.takesBringUp (st : St) : Bool := st == .opened || st == .enabled || st == .failed

/-- CHIP_ERASE is accepted in `Enabled`. -/
def St.takesErase (st : St) : Bool := st == .enabled

/-- EXCHANGE and the LED setters are accepted in every state but `Closed`. -/
def St.takesSession (st : St) : Bool := st != .closed

/-- A host operation whose acceptance is checked whoever invokes it (OPEN, CLOSE, CHIP_ERASE, SET_LED0 to SET_LED3, which
no operation calls: R186). -/
def runChecked (op : BitVec 5) (takes : Bool) (body : State → Res (BitVec 32)) (s : State) : Out :=
  settle s.level (if takes then body (s.accept op) else .raise .badState (s.accept op))

/-- A host operation that others call too, without its acceptance check (INITIALIZE, PROGRAM_ENABLE, EXCHANGE: R163, R170,
R178). -/
def runCallable (op : BitVec 5) (takes : Bool) (body : State → Res (BitVec 32)) (s : State) : Out :=
  runChecked op (takes || !s.running.isNone) body s

/-- An internal operation: IllegalOp at the host port (R70), its effect when another operation calls it. -/
def runInternal (op : BitVec 5) (body : State → Res (BitVec 32)) (s : State) : Out :=
  match s.running with
  | none => settle .host (.raise .illegalOp (s.accept op))
  | some _ => settle .inner (body s)

/-! ### Sending a frame (R44, R45) -/

/-- One `TWrite` of a whole frame; anything but a full count is WriteShort, not retried. -/
def sendFrame (bytes : List Byte) (s : State) : Res Unit :=
  if sentWhole bytes s then .ok () (tWrite bytes s) else .raise .writeShort (tWrite bytes s)

/-- A frame standing in the frame buffer is handed to the transport; how it went is the caller's (log entry 9). -/
def emitFrame (bytes : List Byte) (s : State) : Out :=
  .next (conclude .inner (if sentWhole bytes s then 0#4 else Err.writeShort.code) 0#32 (tWrite bytes s))

/-! ### Presenting a result, and the host's register writes -/

/-- HOSTRES is presented and the block is idle again (R66, R190, R194). -/
def presentResult (r : HostRes) (s : State) : State :=
  { s with
    hostRes := some r
    running := none
    hist := s.hist ++ (match s.running with
                       | some op => [.result op r]
                       | none => []) }

/-- The host writes one CFG_PIN register (R20). -/
def writeCfgPin (r : SRole) (raw : Byte) (s : State) : State :=
  { s with cfg := { s.cfg with pin := s.cfg.pin.set r raw } }

/-- The host writes one CFG_GROUP register (R20). -/
def writeCfgGroup (g : GRole) (mask : Mask) (s : State) : State :=
  { s with cfg := { s.cfg with group := s.cfg.group.set g mask } }

end Sys2Proof.Machine
end

