-- ==== Sys2Proof/Machine/HostPort.lean ====
section
/-!
DEFINITION. The host port: reserved operations (R70), the result word (R68), the host's moves (R20, R21, R66) and what the
sequencer reads next.
-/

namespace Sys2Proof.Machine

/-- Reserved OP 0x0A to 0x0F (R70): IllegalOp, whoever presents it. -/
def execReservedLow (op : BitVec 5) (s : State) : Out := settle s.level (.raise .illegalOp (s.accept op))

/-- Reserved OP 0x19 to 0x1F (R70): IllegalOp, whoever presents it. -/
def execReservedHigh (op : BitVec 5) (s : State) : Out := settle s.level (.raise .illegalOp (s.accept op))

/-- A HOSTRES word is presented on the result port (R66, R68). -/
def execHostRes (status : BitVec 4) (data : BitVec 32) (s : State) : Out := .next (presentResult ⟨status, data⟩ s)

/-- A host move that only writes input registers (R20, R21); presenting a command and the two encoded formats are
instructions and change nothing here. -/
def writeRegister (m : HostMove) (s : State) : State :=
  match m with
  | .writeVid v => { s with cfg := { s.cfg with vid := v } }
  | .writePid v => { s with cfg := { s.cfg with pid := v } }
  | .writeHz v => { s with cfg := { s.cfg with hz := v } }
  | .writePe (some c) => { s with pd := { s.pd with peDef := true, peCmd := c } }
  | .writePe none => { s with pd := { s.pd with peDef := false } }
  | .writeCe (some c) => { s with pd := { s.pd with ceDef := true, ceCmd := c } }
  | .writeCe none => { s with pd := { s.pd with ceDef := false } }
  | .writePoll i v => { s with pd := { s.pd with pollIndex := i, pollValue := v } }
  | .writeEraseDelay d => { s with pd := { s.pd with eraseDelay := d } }
  | .present _ _ | .writePin _ _ | .writeGroup _ _ => s

/-- The instruction in a host move, where it is one. -/
def HostMove.wire : HostMove → Option Wire
  | .present w operand => some (.cmd w operand)
  | .writePin r raw => some (.pin r raw)
  | .writeGroup g mask => some (.group g mask)
  | .writeVid _ | .writePid _ | .writeHz _ | .writePe _ | .writeCe _ | .writePoll _ _ | .writeEraseDelay _ => none

/-- What the sequencer reads next when no receive loop is in progress. -/
inductive Fetched where
  /-- An instruction, with the state after it was taken from its place. -/
  | instr (w : Wire) (s : State)
  /-- A register write by the host, already made. -/
  | written (s : State)
  /-- Nothing: the block is idle (R26). -/
  | nothing

/-- The order of the places: a frame in the frame buffer is sent (R22), a result is presented (R66), then the host's next
move (R50: the port is read only when nothing else is to be done). -/
def fetch (s : State) : Fetched :=
  if s.frame ≠ [] then .instr (.frame s.frame) { s with frame := [] }
  else
    match s.resBuf with
    | some r => .instr (.result (r.status ++ r.data)) { s with resBuf := none }
    | none =>
      match s.port with
      | [] => .nothing
      | m :: rest =>
        match m.wire with
        | some w => .instr w { s with port := rest }
        | none => .written (writeRegister m { s with port := rest })

/-- `s` with an instruction placed where the next step reads it. -/
def placeWire (w : Wire) (s : State) : State :=
  let s := { s with rx := none, frame := [], resBuf := none }
  match w with
  | .cmd w operand => { s with port := .present w operand :: s.port }
  | .frame bytes => { s with frame := bytes }
  | .pin r raw => { s with port := .writePin r raw :: s.port }
  | .group g mask => { s with port := .writeGroup g mask :: s.port }
  | .result w => { s with resBuf := some ⟨w.extractLsb' 32 4, w.extractLsb' 0 32⟩ }

end Sys2Proof.Machine
end

