-- ==== Sys2Proof/Machine/Clock.lean ====
section
/-!
DEFINITION. ClockConfigurator (41_clock R110 to R116): COMPUTE_DIVISOR, SET_CLOCK and the CLKFRAME.
-/

namespace Sys2Proof.Machine

/-- The diagnostics of a capped frequency, before the write (R112, R115); each reports the effective frequency too (R114). -/
def reportCaps (r : ClkResult) (hz : BitVec 32) (s : State) : State :=
  let s := if r.capMax then s.diag .cappedMax (.clock hz r.effective) else s
  if r.capMin then s.diag .cappedMin (.clock hz r.effective) else s

/-- SET_CLOCK(hz) (R115). DIVISOR exists from COMPUTE_DIVISOR to the end of SET_CLOCK (R19). -/
def setClock (hz : BitVec 32) (s : State) : Res Unit :=
  let r := computeDivisor hz
  (sendFrame (clkBytes r.divisor) (reportCaps r hz { s with clk := some r })).finally fun s => { s with clk := none }

/-! ### Meanings -/

/-- COMPUTE_DIVISOR (R110): its result stands in DIVISOR and the two flags. -/
def execComputeDivisor (hz : BitVec 32) (s : State) : Out :=
  runInternal opComputeDivisor (fun s => .ok 0#32 { s with clk := some (computeDivisor hz) }) s

/-- SET_CLOCK (R115). -/
def execSetClock (hz : BitVec 32) (s : State) : Out :=
  runInternal opSetClock (fun s => (setClock hz s).withData fun _ => 0#32) s

/-- A CLKFRAME is handed to the transport (R44, R45, R63). -/
def execClkFrame (divisor : BitVec 16) (s : State) : Out := emitFrame (clkBytes divisor) s

end Sys2Proof.Machine
end

