-- ==== Sys2Proof/Machine/PinMapper.lean ====
section
/-!
DEFINITION. PinMapper (40_pinmapper R90 to R99): ASSIGN_SINGLE, ASSIGN_GROUP, VALIDATE_LAYOUT, PIN_SETUP, and the two
configuration formats PINSPEC and GROUPMASK.
-/

namespace Sys2Proof.Machine

/-- ASSIGN_SINGLE(role, raw) (R91, with the data-in exception of R92). -/
def assignSingle (r : SRole) (raw : Byte) (s : State) : Res Unit :=
  if raw = 0#8 then .ok () s
  else if !pinInRange (pinfield raw) then .raise (.pinOutOfRange (.single r)) s
  else
    let b := pinBit (pinfield raw)
    if s.claimed.getLsbD b then .raise (.pinConflict (bit b)) s
    else .ok () { s with
      pinmap := s.pinmap.set r raw
      dir := if r = .din then s.dir else setBit s.dir b true
      inv := if invflag raw then setBit s.inv b true else s.inv }

/-- ASSIGN_GROUP(role, mask) (R94, R95). -/
def assignGroup (g : GRole) (mask : Mask) (s : State) : Res Unit :=
  if !groupInRange mask then .raise (.pinOutOfRange (.group g)) s
  else if mask &&& s.claimed ≠ 0#16 then .raise (.pinConflict (mask &&& s.claimed)) s
  else .ok () { s with gmask := s.gmask.set g mask, dir := s.dir ||| mask }

/-- One fixed role of VALIDATE_LAYOUT (R97): the sampled pin must be `want`. -/
def fixRole (r : SRole) (want : BitVec 7) (s : State) : Res Unit :=
  if pinfield (s.samp.get r) = want then .ok () s
  else if s.par.layout = .strict then .raise (.pinLayoutInvalid r) s
  else .ok () ({ s with samp := s.samp.set r (withPin (s.samp.get r) want) }.diag .layoutCorrected (.role (roleIndex r)))

/-- The reset role's legal pins, 4 to 11 (R96). -/
def resetPinLegal (pin : BitVec 7) : Bool := pinResetMin ≤ pin.toNat && pin.toNat ≤ pinMax

/-- The reset role of VALIDATE_LAYOUT (R97). -/
def fixReset (s : State) : Res Unit :=
  if resetPinLegal (pinfield s.samp.reset) then .ok () s
  else if s.par.layout = .strict then .raise (.pinLayoutInvalid .reset) s
  else .ok () ({ s with samp := { s.samp with reset := withPin s.samp.reset pinResetDefault } }.diag
    .resetDefaulted (.role (roleIndex .reset)))

/-- VALIDATE_LAYOUT on the sampled copies (R97). -/
def validateLayout (s : State) : Res Unit :=
  (fixRole .clk pinClk s).bind fun _ s =>
  (fixRole .dout pinDout s).bind fun _ s =>
  (fixRole .din pinDin s).bind fun _ s =>
  fixReset s

/-- Assign the given roles from the sampled copies, in order. -/
def assignRoles : List SRole → State → Res Unit
  | [], s => .ok () s
  | r :: rs, s => (assignSingle r (s.samp.get r) s).bind fun _ s => assignRoles rs s

/-- The order of assignment in PIN_SETUP (R99). -/
def roleOrder : List SRole := [.clk, .dout, .din, .reset, .led0, .led1, .led2, .led3]

/-- The sampling and clearing at the start of PIN_SETUP (R99, R221). -/
def clearSession (s : State) : State :=
  { s with samp := s.cfg.pin, pinmap := .zero, gmask := .zero, dir := 0#16, inv := 0#16, val := 0#16 }

/-- PIN_SETUP (R99). The group masks are read from CFG_GROUP where they are used, which is the same as sampling them: the host
cannot write during an operation (R231). -/
def pinSetup (s : State) : Res Unit :=
  (validateLayout (clearSession s)).bind fun _ s =>
  (assignRoles roleOrder s).bind fun _ s =>
  (assignGroup .pwr (s.cfg.group.get .pwr) s).bind fun _ s =>
  assignGroup .buf (s.cfg.group.get .buf) s

/-! ### Meanings -/

/-- ASSIGN_SINGLE (R91). -/
def execAssignSingle (r : SRole) (raw : Byte) (s : State) : Out :=
  runInternal opAssignSingle (fun s => (assignSingle r raw s).withData fun _ => 0#32) s

/-- ASSIGN_GROUP (R94). -/
def execAssignGroup (g : GRole) (mask : Mask) (s : State) : Out :=
  runInternal opAssignGroup (fun s => (assignGroup g mask s).withData fun _ => 0#32) s

/-- VALIDATE_LAYOUT (R97): the four operands stand in the sampled copies, where the corrected specs are returned. -/
def execValidateLayout (clk dout din reset : Byte) (s : State) : Out :=
  runInternal opValidateLayout
    (fun s => (validateLayout { s with samp := { s.samp with clk := clk, dout := dout, din := din, reset := reset } }).withData
      fun _ => 0#32) s

/-- PIN_SETUP (R99). -/
def execPinSetup (s : State) : Out :=
  runInternal opPinSetup (fun s => (pinSetup s).withData fun _ => 0#32) s

/-- A PINSPEC word: the host's write of CFG_PIN[role] (R20, R60; "any; checked by PIN_SETUP"). -/
def execPinSpec (r : SRole) (raw : Byte) (s : State) : Out := .next (writeCfgPin r raw s)

/-- A GROUPMASK word: the host's write of CFG_GROUP[role] (R20, R62; "any; checked by ASSIGN_GROUP"). -/
def execGroupMask (g : GRole) (mask : Mask) (s : State) : Out := .next (writeCfgGroup g mask s)

end Sys2Proof.Machine
end

