-- ==== Sys2Proof/Machine/FrameCodec.lean ====
section
/-!
DEFINITION. FrameCodec (42_framecodec R120 to R129): ENCODE_GPIO_SET, SHIFT with its receive loop, and the two frames.
-/

namespace Sys2Proof.Machine

/-- ENCODE_GPIO_SET() (R120): the frame of the current masks. -/
def encodeGpioSet (s : State) : List Byte := gpioBytes s.val s.dir

/-- The legal operands of SHIFT (R124). A transmitting shift has exactly `length` payload bytes (R123, log entry 15). -/
def shiftLegal (p : Params) (mode : Byte) (length : Nat) (payload : List Byte) : Bool :=
  modeLegal p mode && 1 ≤ length && length ≤ shiftMax && (!modeSends p mode || payload.length == length)

/-- One pass of the receive loop (R127): a read of the room left. It ends when `length` bytes have been accumulated, it is
`wait` while bytes are missing, and a read error discards what was accumulated. -/
def receive (length : Nat) (s : State) : Res (List Byte) :=
  if s.rxCnt < length then
    let room := length - s.rxCnt
    match readAnswer room s with
    | .error => .raise .readFailed { tRead room s with rxBuf := [] }
    | .bytes l =>
      let got := s.rxBuf ++ l
      if got.length < length then .wait .shift length { tRead room s with rxBuf := got }
      else .ok got { tRead room s with rxBuf := got }
  else .ok s.rxBuf s

/-- SHIFT(mode, length, payload) (R123 to R127). -/
def shift (mode : Byte) (length : Nat) (payload : List Byte) (s : State) : Res (List Byte) :=
  if !shiftLegal s.par mode length payload then .refuse .shiftOperands
  else
    (if modeSends s.par mode then sendFrame (shiftBytes mode payload) s else .ok () s).bind fun _ s =>
    if modeReceives s.par mode then receive length { s with rxBuf := [] } else .ok [] s

/-! ### Meanings -/

/-- ENCODE_GPIO_SET (R120): the frame is returned in the frame buffer (R22). -/
def execEncodeGpioSet (s : State) : Out :=
  runInternal opEncodeGpioSet (fun s => .ok 0#32 { s with frame := encodeGpioSet s }) s

/-- SHIFT (R123): the received bytes are returned in RXBUF. -/
def execShift (mode : Byte) (length : BitVec 24) (payload : List Byte) (s : State) : Out :=
  runInternal opShift (fun s => (shift mode length.toNat payload s).withData fun _ => 0#32) s

/-- A GPIOFRAME is handed to the transport (R44, R45, R64). -/
def execGpioFrame (val dir : Mask) (s : State) : Out := emitFrame (gpioBytes val dir) s

/-- A SHIFTFRAME is handed to the transport (R44, R45, R65). -/
def execShiftFrame (mode : Byte) (payload : List Byte) (s : State) : Out := emitFrame (shiftBytes mode payload) s

end Sys2Proof.Machine
end

