-- ==== Sys2Proof/Machine/Transaction.lean ====
section
/-!
DEFINITION. TransactionEngine (43_transaction R140 to R152): SET_PIN, EXCHANGE and the four LED setters.
-/

namespace Sys2Proof.Machine

/-- The write of one pin's value bit, after inversion (R140, R141). -/
def writePinBit (b : Nat) (v : Bool) (s : State) : State := { s with val := setBit s.val b (v ^^ s.inv.getLsbD b) }

/-- SET_PIN(role, v) (R140, R142): VAL is written before the frame is sent and keeps its update when the write fails. -/
def setPin (r : SRole) (v : Bool) (s : State) : Res Unit :=
  let pin := pinfield (s.pinmap.get r)
  if pin = 0#7 then .ok () s
  else
    let s := writePinBit (pinBit pin) v s
    sendFrame (encodeGpioSet s) s

/-- The response of an exchange, from the received bytes; the accumulator lives only inside the receive loop (R22). -/
def asResponse (r : Res (List Byte)) : Res Quad :=
  r.bind fun l s => .ok (quadOfList l) { s with rxBuf := [] }

/-- The receive loop of an operation waits on behalf of `c`. -/
def Res.waitingFor {α : Type} (c : RxClient) : Res α → Res α
  | .wait _ n s => .wait c n s
  | .ok a s => .ok a s
  | .raise e s => .raise e s
  | .refuse x => .refuse x

/-- EXCHANGE(command) (R145). -/
def exchange (c : Quad) (s : State) : Res Quad :=
  asResponse (shift s.par.modeTrx xchgLen c.toList s)

/-! ### Meanings -/

/-- SET_PIN (R140). -/
def execSetPin (r : SRole) (v : Bool) (s : State) : Out :=
  runInternal opSetPin (fun s => (setPin r v s).withData fun _ => 0#32) s

/-- EXCHANGE (R145). -/
def execExchange (c : Quad) (s : State) : Out :=
  runCallable opExchange s.st.takesSession (fun s => (((exchange c s).waitingFor .exchange).withData wordOfQuad)) s

/-- SET_LED0 (R148). -/
def execSetLed0 (v : Bool) (s : State) : Out :=
  runChecked opSetLed0 s.st.takesSession (fun s => (setPin .led0 v s).withData fun _ => 0#32) s

/-- SET_LED1 (R149). -/
def execSetLed1 (v : Bool) (s : State) : Out :=
  runChecked opSetLed1 s.st.takesSession (fun s => (setPin .led1 v s).withData fun _ => 0#32) s

/-- SET_LED2 (R150). -/
def execSetLed2 (v : Bool) (s : State) : Out :=
  runChecked opSetLed2 s.st.takesSession (fun s => (setPin .led2 v s).withData fun _ => 0#32) s

/-- SET_LED3 (R151). -/
def execSetLed3 (v : Bool) (s : State) : Out :=
  runChecked opSetLed3 s.st.takesSession (fun s => (setPin .led3 v s).withData fun _ => 0#32) s

end Sys2Proof.Machine
end

