-- ==== Sys2Proof/Machine/Sequencer.lean ====
section
/-!
DEFINITION. ProgrammingStateMachine (44_sequencer R155 to R186): OPEN, INITIALIZE, PROGRAM_ENABLE, CHIP_ERASE, CLOSE, and how an
operation goes on when its receive loop gets its next read.
-/

namespace Sys2Proof.Machine

/-! ### OPEN (R157, R158) -/

/-- The clock frame of OPEN, with the release of the transport on failure. -/
def openClock (hz : BitVec 32) (s : State) : Res Unit :=
  ((setClock hz s).onRaise fun s => { tClose s with live := false }).bind fun _ s => .ok () { s with st := .opened }

/-- OPEN from `TSetMode` on. -/
def openMode (hz : BitVec 32) (s : State) : Res Unit :=
  if modeAnswer s.dir s.par.modeSelect s then openClock hz { tSetMode s.dir s.par.modeSelect s with live := true }
  else .raise .modeSetFailed (tClose (tSetMode s.dir s.par.modeSelect s))

/-- OPEN from `TOpen` on. -/
def openTransport (vid pid : BitVec 16) (hz : BitVec 32) (s : State) : Res Unit :=
  if openAnswer vid pid s then openMode hz (tOpen vid pid s) else .raise .openFailed (tOpen vid pid s)

/-- OPEN after its acceptance check (R157). -/
def openBody (s : State) : Res Unit :=
  (pinSetup s).bind fun _ t => openTransport s.cfg.vid s.cfg.pid s.cfg.hz t

/-! ### PROGRAM_ENABLE (R170 to R173) -/

/-- The session has failed; the attempt counter is 0 outside PROGRAM_ENABLE (R18, R170). -/
def handshakeFailed (s : State) : State := { s with attempt := 0#3, st := .failed }

/-- The reset pulse of a failed attempt (R170), then `next`. -/
def pulseReset (next : State → Res Unit) (s : State) : Res Unit :=
  (((setPin .reset true s).bind fun _ s => setPin .reset false (s.waitFor tPulse)).onRaise handshakeFailed).bind
    fun _ s => next s

/-- What an attempt's exchange leads to: a match ends the handshake; a mismatch or a transport error is a failed attempt (R170,
R173). -/
def judgeAttempt (next : State → Res Unit) : Res Quad → Res Unit
  | .ok q s =>
    if polledByte q s.pd.pollIndex = s.pd.pollValue then .ok () { s with attempt := 0#3, st := .enabled }
    else pulseReset next s
  | .raise _ s => pulseReset next s
  | .wait _ n s => .wait .handshake n s
  | .refuse x => .refuse x

/-- The handshake loop with `left` attempts left (R170). -/
def handshake : Nat → State → Res Unit
  | 0, s => .raise .programEnableFailed (handshakeFailed s)
  | left + 1, s => judgeAttempt (handshake left) (exchange s.pd.peCmd { s with attempt := s.attempt + 1#3 })

/-- PROGRAM_ENABLE after its acceptance check (R170 to R172). -/
def programEnable (s : State) : Res Unit :=
  if !pollIndexLegal s.pd.pollIndex then .refuse .pollIndexOutOfRange
  else if !s.pd.peDef then .raise .operationUnsupported { s with st := .failed }
  else handshake peAttempts { s with attempt := 0#3 }

/-! ### INITIALIZE (R163) -/

/-- The four pin writes and three waits of INITIALIZE. -/
def resetSequence (s : State) : Res Unit :=
  (setPin .reset false s).bind fun _ s =>
  (setPin .clk false s).bind fun _ s =>
  (setPin .reset true (s.waitFor tInit)).bind fun _ s =>
  (setPin .reset false ({ s with st := .resetAsserted }.waitFor tInit)).bind fun _ s =>
  .ok () ({ s with st := .resetReleased }.waitFor tInit)

/-- INITIALIZE after its acceptance check. -/
def initializeBody (s : State) : Res Unit :=
  ((resetSequence s).onRaise fun s => { s with st := .failed }).bind fun _ s => programEnable s

/-! ### CHIP_ERASE (R178) -/

/-- What the erase exchange leads to: its response is discarded, its error ends the operation. -/
def judgeErase : Res Quad → Res Unit
  | .ok _ s => initializeBody (s.waitFor s.pd.eraseDelay.toNat)
  | .raise e s => .raise e { s with st := .failed }
  | .wait _ n s => .wait .erase n s
  | .refuse x => .refuse x

/-- CHIP_ERASE after its acceptance check. -/
def chipEraseBody (s : State) : Res Unit :=
  if !s.pd.ceDef then .raise .operationUnsupported s
  else judgeErase (exchange s.pd.ceCmd { s with st := .erasing })

/-! ### CLOSE (R185) -/

/-- The state `r` was left in: an error in `r` is ignored. -/
def stateOf (s : State) : Res Unit → State
  | .ok _ t => t
  | .raise _ t => t
  | .wait _ _ t => t
  | .refuse _ => s

/-- CLOSE: it always succeeds. -/
def closeBody (s : State) : State :=
  if s.live then { tClose (stateOf s (setPin .reset true s)) with live := false, st := .closed }
  else { s with st := .closed }

/-! ### Going on with a receive loop (R127, R128) -/

/-- What the operation of a receive loop does with the outcome of its next read. -/
def resumeBody (c : RxClient) (s : State) (r : Res (List Byte)) : Res (BitVec 32) :=
  match c with
  | .shift => r.withData fun _ => 0#32
  | .exchange => ((asResponse r).waitingFor .exchange).withData wordOfQuad
  | .handshake => (judgeAttempt (handshake (peAttempts - s.attempt.toNat)) (asResponse r)).withData fun _ => 0#32
  | .erase => (judgeErase (asResponse r)).withData fun _ => 0#32

/-- The next pass of the receive loop `w`, with all that follows it up to the end of the operation or the next short read. -/
def resumeReceive (w : RxWait) (s : State) : Out :=
  settle w.level (resumeBody w.client s (receive w.length { s with rx := none }))

/-! ### Meanings -/

/-- OPEN (R157). -/
def execOpen (s : State) : Out :=
  runChecked opOpen s.st.takesOpen (fun s => (openBody s).withData fun _ => 0#32) s

/-- INITIALIZE (R163). -/
def execInitialize (s : State) : Out :=
  runCallable opInitialize s.st.takesBringUp (fun s => (initializeBody s).withData fun _ => 0#32) s

/-- PROGRAM_ENABLE (R170). -/
def execProgramEnable (s : State) : Out :=
  runCallable opProgramEnable s.st.takesBringUp (fun s => (programEnable s).withData fun _ => 0#32) s

/-- CHIP_ERASE (R178). -/
def execChipErase (s : State) : Out :=
  runChecked opChipErase s.st.takesErase (fun s => (chipEraseBody s).withData fun _ => 0#32) s

/-- CLOSE (R185), accepted in every state. -/
def execClose (s : State) : Out :=
  runChecked opClose true (fun s => .ok 0#32 (closeBody s)) s

end Sys2Proof.Machine
end

