-- ==== Sys2Proof/Machine/Dispatch.lean ====
section
/-!
DEFINITION. One arm per constructor of Instr, each one direct call of its meaning.
-/

namespace Sys2Proof.Machine

def exec (i : Instr) (s : State) : Host.Outcome State Fault Refusal :=
  match i with
  | .openOp => Sys2Proof.Machine.execOpen s
  | .closeOp => Sys2Proof.Machine.execClose s
  | .initializeOp => Sys2Proof.Machine.execInitialize s
  | .programEnable => Sys2Proof.Machine.execProgramEnable s
  | .chipErase => Sys2Proof.Machine.execChipErase s
  | .exchange c => Sys2Proof.Machine.execExchange c s
  | .setLed0 v => Sys2Proof.Machine.execSetLed0 v s
  | .setLed1 v => Sys2Proof.Machine.execSetLed1 v s
  | .setLed2 v => Sys2Proof.Machine.execSetLed2 v s
  | .setLed3 v => Sys2Proof.Machine.execSetLed3 v s
  | .assignSingle r raw => Sys2Proof.Machine.execAssignSingle r raw s
  | .assignGroup g mask => Sys2Proof.Machine.execAssignGroup g mask s
  | .validateLayout clk dout din reset => Sys2Proof.Machine.execValidateLayout clk dout din reset s
  | .pinSetup => Sys2Proof.Machine.execPinSetup s
  | .computeDivisor hz => Sys2Proof.Machine.execComputeDivisor hz s
  | .setClock hz => Sys2Proof.Machine.execSetClock hz s
  | .encodeGpioSet => Sys2Proof.Machine.execEncodeGpioSet s
  | .shift mode length payload => Sys2Proof.Machine.execShift mode length payload s
  | .setPin r v => Sys2Proof.Machine.execSetPin r v s
  | .reservedLow op => Sys2Proof.Machine.execReservedLow op s
  | .reservedHigh op => Sys2Proof.Machine.execReservedHigh op s
  | .clkFrame divisor => Sys2Proof.Machine.execClkFrame divisor s
  | .gpioFrame val dir => Sys2Proof.Machine.execGpioFrame val dir s
  | .shiftFrame mode payload => Sys2Proof.Machine.execShiftFrame mode payload s
  | .pinSpec r raw => Sys2Proof.Machine.execPinSpec r raw s
  | .groupMask g mask => Sys2Proof.Machine.execGroupMask g mask s
  | .hostRes status data => Sys2Proof.Machine.execHostRes status data s

end Sys2Proof.Machine
end

