-- ==== Sys2Proof/Machine/Step.lean ====
section
/-!
DEFINITION. One step: a receive loop in progress makes its next read; otherwise the sequencer runs the instruction it reads next,
takes a register write of the host, or stays idle.
-/

namespace Sys2Proof.Machine

/-- One step (log entry 1). -/
def step (s : State) : Host.Outcome State Fault Refusal :=
  match s.rx with
  | some w => resumeReceive w s
  | none =>
    match fetch s with
    | .instr w t =>
      match decode s.par w with
      | .ok i => exec i t
      | .error e => .fault (.badFrame e)
    | .written t => .next t
    | .nothing => .next s

/-- `s` with the instruction of the bits `w` placed where the next step reads it (log entry 3). -/
def State.withFetchWord (s : State) (nbits w : Nat) : State :=
  match wireOfTable nbits w with
  | some x => placeWire x s
  | none => s

end Sys2Proof.Machine
end

