-- ==== Sys2Proof/Safety.lean ====
section
/-!
DEFINITION. The terms claims are stated in: the invariants of the control state (R16 to R19, R22, R50), of the pin table and the
masks (R24), the outgoing stream (R41, R74), and the lists of operations of one shape.
-/

namespace Sys2Proof.Machine

/-! ### Control -/

/-- The states the host can observe between operations (R16). -/
def St.stable : St → Bool
  | .closed | .opened | .enabled | .failed => true
  | .resetAsserted | .resetReleased | .erasing => false

/-- Whose handshake it is, along the call tree (R186), and the ST it leaves as it is (R170). -/
def State.HandshakeCaller (s : State) : Prop :=
  (s.running = some opProgramEnable ∧ s.st.takesBringUp = true) ∨
  ((s.running = some opInitialize ∨ s.running = some opChipErase) ∧ s.st = .resetReleased)

/-- What holds while a host operation waits in its receive loop: the loop is an exchange's four bytes (R145), it is short of
bytes (R127), and ST is where the operation last wrote it (R128). -/
structure State.Waiting (s : State) (w : RxWait) : Prop where
  /-- the operation was presented by the host -/
  level : w.level = .host
  /-- the only length the core uses (R41) -/
  length : w.length = xchgLen
  /-- fewer bytes than asked for have come -/
  short : s.rxCnt < xchgLen
  /-- no host operation is a bare SHIFT (R123) -/
  called : w.client ≠ .shift
  /-- there is a session -/
  session : s.st ≠ .closed
  /-- EXCHANGE changes no ST (R145) -/
  exchange : w.client = .exchange → s.running = some opExchange ∧ s.st.stable = true ∧ s.attempt = 0#3
  /-- a handshake of PROGRAM_ENABLE runs in the state that took it (R155), one inside INITIALIZE in `ResetReleased` (R163, R178); an
  attempt is counted (R170), and the descriptor was legal (R171, R172) -/
  handshake : w.client = .handshake → s.HandshakeCaller ∧ 1 ≤ s.attempt.toNat ∧ s.attempt.toNat ≤ peAttempts ∧
    pollIndexLegal s.pd.pollIndex = true
  /-- the erase exchange runs in `Erasing` (R178) -/
  erase : w.client = .erase → s.running = some opChipErase ∧ s.st = .erasing ∧ s.attempt = 0#3

/-- The control state between two steps. -/
structure State.Control (s : State) : Prop where
  /-- the frame buffer is no state between operations (R22) -/
  frame : s.frame = []
  /-- DIVISOR does not outlive OPEN (R19) -/
  divisor : s.clk = none
  /-- the liveness bit (R17) -/
  live : s.live = true ↔ s.st ≠ .closed
  /-- an idle block has nothing to go on with (R66) -/
  idle : s.running = none → s.rx = none ∧ s.resBuf = none
  /-- a running operation waits in its receive loop or has its result ready, never both (R50) -/
  busy : s.running ≠ none → (s.rx = none ↔ s.resBuf ≠ none)
  /-- outside a receive loop ST is stable, ATTEMPT is 0 and nothing is accumulated (R16, R18, R22) -/
  rest : s.rx = none → s.st.stable = true ∧ s.attempt = 0#3 ∧ s.rxBuf = []
  /-- inside one, the loop is as its operation left it -/
  loop : ∀ w, s.rx = some w → s.Waiting w

/-! ### Pin table and masks (R24) -/

/-- The role has a pin (R11). -/
def State.assigned (s : State) (r : SRole) : Bool := pinfield (s.pinmap.get r) != 0#7

/-- The mask bit of the role's pin (R12). -/
def State.bitOf (s : State) (r : SRole) : Nat := pinBit (pinfield (s.pinmap.get r))

/-- The invariants of R24, items 1 to 6. -/
structure State.Masks (s : State) : Prop where
  /-- assigned pins are 1 to 11 (R11) -/
  range : ∀ r, s.assigned r = true → pinInRange (pinfield (s.pinmap.get r)) = true
  /-- item 1 -/
  disjoint : ∀ r q, r ≠ q → s.assigned r = true → s.assigned q = true →
    pinfield (s.pinmap.get r) ≠ pinfield (s.pinmap.get q)
  /-- item 2 -/
  fixed : pinfield s.pinmap.clk = 1#7 ∧ pinfield s.pinmap.dout = 2#7 ∧ pinfield s.pinmap.din = 3#7 ∧
    4 ≤ (pinfield s.pinmap.reset).toNat ∧ (pinfield s.pinmap.reset).toNat ≤ 11
  /-- item 3 -/
  groups : s.gmask.pwr &&& s.gmask.buf = 0#16 ∧
    ∀ g r, s.assigned r = true → (s.gmask.get g).getLsbD (s.bitOf r) = false
  /-- item 4, bit by bit -/
  dirBits : ∀ b, s.dir.getLsbD b = true ↔
    (∃ r, r ≠ .din ∧ s.assigned r = true ∧ s.bitOf r = b) ∨ s.gmask.pwr.getLsbD b = true ∨ s.gmask.buf.getLsbD b = true
  /-- item 5, bit by bit -/
  invBits : ∀ b, s.inv.getLsbD b = true ↔
    ∃ r, s.assigned r = true ∧ invflag (s.pinmap.get r) = true ∧ s.bitOf r = b
  /-- item 6, the reserved bits -/
  high : s.dir.extractLsb' 12 4 = 0#4 ∧ s.inv.extractLsb' 11 5 = 0#5 ∧ s.val.extractLsb' 11 5 = 0#5
  /-- item 6, the value bits -/
  valBits : ∀ b, s.val.getLsbD b = true → ∃ r, s.assigned r = true ∧ s.bitOf r = b

/-- A configuration OPEN takes as it is: the layout of R96, pins 1 to 11, no pin claimed twice (R91, R94). -/
structure CfgRegs.Legal (c : CfgRegs) : Prop where
  fixed : pinfield c.pin.clk = 1#7 ∧ pinfield c.pin.dout = 2#7 ∧ pinfield c.pin.din = 3#7 ∧
    4 ≤ (pinfield c.pin.reset).toNat ∧ (pinfield c.pin.reset).toNat ≤ 11
  range : ∀ r, c.pin.get r ≠ 0#8 → 1 ≤ (pinfield (c.pin.get r)).toNat ∧ (pinfield (c.pin.get r)).toNat ≤ 11
  disjoint : ∀ r q, r ≠ q → c.pin.get r ≠ 0#8 → c.pin.get q ≠ 0#8 →
    pinfield (c.pin.get r) ≠ pinfield (c.pin.get q)
  groupRange : c.group.pwr.extractLsb' 12 4 = 0#4 ∧ c.group.buf.extractLsb' 12 4 = 0#4
  groups : c.group.pwr &&& c.group.buf = 0#16 ∧
    ∀ g r, c.pin.get r ≠ 0#8 → (c.group.get g).getLsbD (pinBit (pinfield (c.pin.get r))) = false

/-! ### The outgoing stream (R41) -/

/-- The bytes of the writes accepted in full, in call order (R41). -/
def outgoing : List Event → List Byte
  | [] => []
  | .write bytes (.accepted n) :: es => if n = bytes.length then bytes ++ outgoing es else outgoing es
  | .write _ .error :: es => outgoing es
  | .opened _ _ _ :: es => outgoing es
  | .setMode _ _ _ :: es => outgoing es
  | .read _ _ :: es => outgoing es
  | .close :: es => outgoing es
  | .wait _ :: es => outgoing es
  | .diag _ _ :: es => outgoing es
  | .result _ _ :: es => outgoing es

/-- An engine frame (R63 to R65). -/
def isFrame : Instr → Bool
  | .clkFrame _ | .gpioFrame _ _ | .shiftFrame _ _ => true
  | .openOp | .closeOp | .initializeOp | .programEnable | .chipErase | .exchange _
  | .setLed0 _ | .setLed1 _ | .setLed2 _ | .setLed3 _ | .assignSingle _ _ | .assignGroup _ _
  | .validateLayout _ _ _ _ | .pinSetup | .computeDivisor _ | .setClock _ | .encodeGpioSet
  | .shift _ _ _ | .setPin _ _ | .reservedLow _ | .reservedHigh _ | .pinSpec _ _ | .groupMask _ _ | .hostRes _ _ => false

/-- Bytes that are whole frames end to end, under the parameters `p` (R74). -/
def WholeFrames (p : Params) (bytes : List Byte) : Prop :=
  ∃ frames : List Instr, (∀ f ∈ frames, isFrame f = true ∧ f.wf p = true) ∧ bytes = frames.flatMap frameBytes

/-- A transport call (R40): what an event of the history records of one. -/
def isTransportCall : Event → Bool
  | .opened _ _ _ | .setMode _ _ _ | .write _ _ | .read _ _ | .close => true
  | .wait _ | .diag _ _ | .result _ _ => false

/-- The event lies within the ranges a transport call may answer in (R40). -/
def answerInRange : Event → Prop
  | .write bytes (.accepted n) => 1 ≤ bytes.length ∧ n ≤ bytes.length
  | .write bytes .error => 1 ≤ bytes.length
  | .read asked (.bytes l) => 1 ≤ asked ∧ l.length ≤ asked
  | .read asked .error => 1 ≤ asked
  | .opened _ _ _ | .setMode _ _ _ | .close | .wait _ | .diag _ _ | .result _ _ => True

/-- The transport was opened and not released again, by the events so far (R157, R185). -/
def handleOpen : List Event → Bool → Bool
  | [], now => now
  | .opened _ _ ok :: es, now => handleOpen es (ok || now)
  | .close :: es, _ => handleOpen es false
  | .setMode _ _ _ :: es, now => handleOpen es now
  | .write _ _ :: es, now => handleOpen es now
  | .read _ _ :: es, now => handleOpen es now
  | .wait _ :: es, now => handleOpen es now
  | .diag _ _ :: es, now => handleOpen es now
  | .result _ _ :: es, now => handleOpen es now

/-! ### PIN_SETUP's checks (R97, R99) -/

/-- The pin specs with the corrections of R97: the pin replaced, the flag kept, the LEDs untouched. -/
def correctedLayout (c : PinTable) : PinTable :=
  { c with
    clk := c.clk.extractLsb' 7 1 ++ 1#7, dout := c.dout.extractLsb' 7 1 ++ 2#7, din := c.din.extractLsb' 7 1 ++ 3#7
    reset := if 4 ≤ (pinfield c.reset).toNat ∧ (pinfield c.reset).toNat ≤ 11 then c.reset else c.reset.extractLsb' 7 1 ++ 4#7 }

/-- The mask bit of the pin a raw spec names, nothing for pin 0 (R12, R60). -/
def pinMask (raw : Byte) : Mask := if pinfield raw = 0#7 then 0#16 else BitVec.ofNat 16 (2 ^ ((pinfield raw).toNat - 1))

/-- The pins that the specs of `roles` name. -/
def pinMasks (c : PinTable) (roles : List SRole) : Mask := roles.foldr (fun r m => pinMask (c.get r) ||| m) 0#16

/-- The error of ASSIGN_SINGLE for the spec `raw` once the pins `taken` are claimed (R91, R191). -/
def singleError (taken : Mask) (raw : Byte) : Option HostRes :=
  if raw = 0#8 then none
  else if (pinfield raw).toNat < 1 ∨ 11 < (pinfield raw).toNat then some ⟨1#4, 0#32⟩
  else if pinMask raw &&& taken ≠ 0#16 then some ⟨2#4, (pinMask raw).setWidth 32⟩
  else none

/-- The error of ASSIGN_GROUP for `mask` once the pins `taken` are claimed (R94, R191). -/
def groupError (taken mask : Mask) : Option HostRes :=
  if mask.extractLsb' 12 4 ≠ 0#4 then some ⟨1#4, 0#32⟩
  else if mask &&& taken ≠ 0#16 then some ⟨2#4, (mask &&& taken).setWidth 32⟩
  else none

/-- The error of each of the ten assignments of PIN_SETUP, in its order, were all before it done (R99). -/
def setupErrors (c : PinTable) (g : GroupTable) : List (Option HostRes) :=
  [singleError (pinMasks c []) c.clk, singleError (pinMasks c [.clk]) c.dout, singleError (pinMasks c [.clk, .dout]) c.din,
    singleError (pinMasks c [.clk, .dout, .din]) c.reset, singleError (pinMasks c [.clk, .dout, .din, .reset]) c.led0,
    singleError (pinMasks c [.clk, .dout, .din, .reset, .led0]) c.led1,
    singleError (pinMasks c [.clk, .dout, .din, .reset, .led0, .led1]) c.led2,
    singleError (pinMasks c [.clk, .dout, .din, .reset, .led0, .led1, .led2]) c.led3,
    groupError (pinMasks c [.clk, .dout, .din, .reset, .led0, .led1, .led2, .led3]) g.pwr,
    groupError (pinMasks c [.clk, .dout, .din, .reset, .led0, .led1, .led2, .led3] ||| g.pwr) g.buf]

/-- How many assignments come before the first error. -/
def setupDone (c : PinTable) (g : GroupTable) : Nat := ((setupErrors c g).takeWhile Option.isNone).length

/-- The first error, or success. -/
def setupResult (c : PinTable) (g : GroupTable) : HostRes := ((setupErrors c g).findSome? id).getD ⟨0#4, 0#32⟩

/-- PINMAP after the first `n` assignments. -/
def tableAfter (c : PinTable) (n : Nat) : PinTable :=
  { clk := if 0 < n then c.clk else 0#8, dout := if 1 < n then c.dout else 0#8, din := if 2 < n then c.din else 0#8
    reset := if 3 < n then c.reset else 0#8, led0 := if 4 < n then c.led0 else 0#8, led1 := if 5 < n then c.led1 else 0#8
    led2 := if 6 < n then c.led2 else 0#8, led3 := if 7 < n then c.led3 else 0#8 }

/-- GMASK after the first `n` assignments. -/
def groupsAfter (g : GroupTable) (n : Nat) : GroupTable :=
  { pwr := if 8 < n then g.pwr else 0#16, buf := if 9 < n then g.buf else 0#16 }

/-- DIR of a pin table and group masks (R24 item 4). -/
def dirOf (p : PinTable) (g : GroupTable) : Mask :=
  pinMasks p [.clk, .dout, .reset, .led0, .led1, .led2, .led3] ||| g.pwr ||| g.buf

/-- INV of a pin table (R24 item 5). -/
def invOf (p : PinTable) : Mask :=
  pinMasks p ([.clk, .dout, .din, .reset, .led0, .led1, .led2, .led3].filter fun r => invflag (p.get r))

/-- The block after the first `n` assignments of PIN_SETUP from the specs `c` and the group masks `g`. -/
def State.assignedTo (s : State) (c : PinTable) (g : GroupTable) (n : Nat) : State :=
  { s with
    pinmap := tableAfter c n, gmask := groupsAfter g n, dir := dirOf (tableAfter c n) (groupsAfter g n)
    inv := invOf (tableAfter c n) }

/-! ### Diagnostics and attempts, as events -/

/-- The diagnostics of VALIDATE_LAYOUT under `AUTOCORRECT` for the four raw specs, in order (R97). -/
def layoutDiags (clk dout din reset : Byte) : List Event :=
  (if pinfield clk = 1#7 then [] else [.diag .layoutCorrected (.role 0#32)]) ++
  (if pinfield dout = 2#7 then [] else [.diag .layoutCorrected (.role 1#32)]) ++
  (if pinfield din = 3#7 then [] else [.diag .layoutCorrected (.role 2#32)]) ++
  (if 4 ≤ (pinfield reset).toNat ∧ (pinfield reset).toNat ≤ 11 then [] else [.diag .resetDefaulted (.role 3#32)])

/-- The diagnostics of SET_CLOCK (R112, R115), each with the requested and the effective frequency: 6 MHz at the cap to the fastest
clock, 91 Hz at the cap to the slowest (R114). -/
def capDiags (hz : BitVec 32) : List Event :=
  (if 6000000 < hz.toNat then [.diag .cappedMax (.clock hz 6000000)] else []) ++
  (if hz.toNat ≤ 91 then [.diag .cappedMin (.clock hz 91)] else [])

/-- A way an attempt of the handshake fails (R170, R173). -/
inductive AttemptFail where
  /-- the response does not match -/
  | mismatch (q : Quad)
  /-- the shift frame is accepted in part only -/
  | shortWrite (n : Nat)
  /-- the write of the shift frame answers an error -/
  | writeError
  /-- the read answers an error -/
  | readError
deriving DecidableEq, Repr

/-- It is a failure under the descriptor. -/
def AttemptFail.fails (pd : PdRegs) : AttemptFail → Bool
  | .mismatch q => polledByte q pd.pollIndex != pd.pollValue
  | .shortWrite n => n < 8
  | .writeError | .readError => true

/-- The transport's answer to the shift frame of the attempt. -/
def AttemptFail.sent : AttemptFail → WriteAns
  | .mismatch _ | .readError => .accepted 8
  | .shortWrite n => .accepted n
  | .writeError => .error

/-- The transport's answers to the writes of the attempt and of the reset pulse after it, which it accepts. -/
def AttemptFail.writes (f : AttemptFail) : List WriteAns := [f.sent, .accepted 6, .accepted 6]

/-- The transport's answers to the reads of the attempt. -/
def AttemptFail.reads : AttemptFail → List ReadAns
  | .mismatch q => [.bytes q.toList]
  | .shortWrite _ | .writeError => []
  | .readError => [.error]

/-- The events of the attempt's exchange, whose shift frame is `frame`. -/
def AttemptFail.events (frame : List Byte) : AttemptFail → List Event
  | .mismatch q => [.write frame (.accepted 8), .read 4 (.bytes q.toList)]
  | .shortWrite n => [.write frame (.accepted n)]
  | .writeError => [.write frame .error]
  | .readError => [.write frame (.accepted 8), .read 4 .error]

/-- The events of a reset pulse that writes the value masks `on` and `off` (R170). -/
def pulseEvents (on off dir : Mask) : List Event :=
  [.write (gpioBytes on dir) (.accepted 6), .wait 20, .write (gpioBytes off dir) (.accepted 6)]

/-- A reset pulse one of whose pin writes fails with the answer `a` (R170): the first, or after it and the wait the second. -/
structure PulseCut where
  second : Bool
  a : WriteAns
deriving DecidableEq, Repr

/-- The failing write is not accepted in full. -/
def PulseCut.Fails (c : PulseCut) : Prop := ∀ n, c.a = .accepted n → n < 6

/-- The transport's answers to the writes of the pulse. -/
def PulseCut.writes (c : PulseCut) : List WriteAns := if c.second then [.accepted 6, c.a] else [c.a]

/-- The events of the pulse. -/
def PulseCut.events (on off dir : Mask) (c : PulseCut) : List Event :=
  if c.second then [.write (gpioBytes on dir) (.accepted 6), .wait 20, .write (gpioBytes off dir) c.a]
  else [.write (gpioBytes on dir) c.a]

/-- VAL after it: the update of the failed write is kept (R140). -/
def PulseCut.val (on off : Mask) (c : PulseCut) : Mask := if c.second then off else on

/-- How a handshake goes on after failed attempts, up to its end or to a read that leaves its receive loop short (R170, R127): the
response of the next attempt matches, it comes in part only, the next attempt fails and its pulse too, or no attempt is left. -/
inductive HandshakeEnd where
  | matched (q : Quad)
  | short (l : List Byte)
  | cut (f : AttemptFail) (c : PulseCut)
  | exhausted
deriving DecidableEq, Repr

/-- It can happen under the descriptor with `left` attempts left. -/
def HandshakeEnd.Fits (pd : PdRegs) (left : Nat) : HandshakeEnd → Prop
  | .matched q => 1 ≤ left ∧ q.toList.getD (pd.pollIndex.toNat - 1) 0#8 = pd.pollValue
  | .short l => 1 ≤ left ∧ l.length < 4
  | .cut f c => 1 ≤ left ∧ f.fails pd = true ∧ c.Fails
  | .exhausted => left = 0

/-- The transport's answers to its writes. -/
def HandshakeEnd.writes : HandshakeEnd → List WriteAns
  | .matched _ | .short _ => [.accepted 8]
  | .cut f c => f.sent :: c.writes
  | .exhausted => []

/-- The transport's answers to its reads. -/
def HandshakeEnd.reads : HandshakeEnd → List ReadAns
  | .matched q => [.bytes q.toList]
  | .short l => [.bytes l]
  | .cut f _ => f.reads
  | .exhausted => []

/-- Its events. -/
def HandshakeEnd.events (frame : List Byte) (on off dir : Mask) : HandshakeEnd → List Event
  | .matched q => [.write frame (.accepted 8), .read 4 (.bytes q.toList)]
  | .short l => [.write frame (.accepted 8), .read 4 (.bytes l)]
  | .cut f c => f.events frame ++ c.events on off dir
  | .exhausted => []

/-- The session and the result it leaves, after `made` attempts before it (R170, R191). -/
def HandshakeEnd.leave (on off : Mask) (made : Nat) (s : State) : HandshakeEnd → State
  | .matched _ => { s with st := .enabled, attempt := 0#3, resBuf := some ⟨0#4, 0#32⟩ }
  | .short l => { s with attempt := BitVec.ofNat 3 (made + 1), rxBuf := l, rx := some ⟨.handshake, 4, .host⟩ }
  | .cut _ c => { s with st := .failed, attempt := 0#3, val := c.val on off, resBuf := some ⟨5#4, 0#32⟩ }
  | .exhausted => { s with st := .failed, attempt := 0#3, resBuf := some ⟨9#4, 0#32⟩ }

/-- VAL with the role's bit written to the logical value `v` (R140, R141). -/
def State.valWith (s : State) (r : SRole) (v : Bool) (val : Mask) : Mask :=
  setBit val (s.bitOf r) (v ^^ s.inv.getLsbD (s.bitOf r))

/-- The shift frame of an exchange (R145). -/
def State.exchangeFrame (s : State) (c : Quad) : List Byte :=
  [s.par.modeTrx, 0x03#8, 0x00#8, c.b0, c.b1, c.b2, c.b3, 0x87#8]

/-- The block after the attempts `fails`, each with its pulse, and the ending `e` of a handshake that has made `made` attempts before
them (R170, R173); `w` and `rs` are the answers left. -/
def State.afterAttempts (s : State) (made : Nat) (fails : List AttemptFail) (e : HandshakeEnd) (w : List WriteAns)
    (rs : List ReadAns) : State :=
  let on := s.valWith .reset true s.val
  let off := s.valWith .reset false s.val
  let frame := s.exchangeFrame s.pd.peCmd
  e.leave on off (made + fails.length) { s with
    val := if fails = [] then s.val else off
    env := { s.env with writes := w, reads := rs }
    hist := s.hist ++ fails.flatMap (fun f => f.events frame ++ pulseEvents on off s.dir) ++ e.events frame on off s.dir }

/-- The value masks INITIALIZE writes, in order: reset `OFF`, clock `OFF`, reset `ON`, reset `OFF` (R163). -/
def State.initVals (s : State) : Mask × Mask × Mask × Mask :=
  let v1 := s.valWith .reset false s.val
  let v2 := s.valWith .clk false v1
  let v3 := s.valWith .reset true v2
  (v1, v2, v3, s.valWith .reset false v3)

/-- The events of INITIALIZE before its handshake (R163). -/
def State.initEvents (s : State) : List Event :=
  [ .write (gpioBytes s.initVals.1 s.dir) (.accepted 6),
    .write (gpioBytes s.initVals.2.1 s.dir) (.accepted 6), .wait 20000,
    .write (gpioBytes s.initVals.2.2.1 s.dir) (.accepted 6), .wait 20000,
    .write (gpioBytes s.initVals.2.2.2 s.dir) (.accepted 6), .wait 20000 ]

/-- What a host operation needs before its handshake can run: it is presented to an idle block in an open session, with a usable
part descriptor and a reset pin (R155, R170, R171, R172, R98). -/
structure State.ReadyToEnable (s : State) : Prop where
  idle : s.running = none
  quiet : s.rxBuf = []
  modes : s.par.wf = true
  index : 1 ≤ s.pd.pollIndex.toNat ∧ s.pd.pollIndex.toNat ≤ 4
  defined : s.pd.peDef = true
  reset : s.assigned .reset = true
  clock : s.assigned .clk = true

/-! ### Operations of one shape -/

/-- The four LED setters with their roles and OP codes (R148 to R151). -/
def ledOps (v : Bool) : List (Instr × SRole × BitVec 5) :=
  [(.setLed0 v, .led0, 0x06#5), (.setLed1 v, .led1, 0x07#5), (.setLed2 v, .led2, 0x08#5), (.setLed3 v, .led3, 0x09#5)]

/-- The host operations with their OP codes and the stable states in which each is accepted, the table of R155. -/
def hostOps : List (Instr × BitVec 5 × List St) :=
  [ (.openOp, 0x00#5, [.closed]),
    (.closeOp, 0x01#5, [.closed, .opened, .enabled, .failed]),
    (.initializeOp, 0x02#5, [.opened, .enabled, .failed]),
    (.programEnable, 0x03#5, [.opened, .enabled, .failed]),
    (.chipErase, 0x04#5, [.enabled]) ]

end Sys2Proof.Machine
end

