-- ==== Sys2Proof/Certificates/Slice0/Obligations.lean ====
section
/-!
DEFINITION. The statements for the provers. An operation is called by another one where `running` is not `none`, and presented by the
host where it is `none` (log entry 7); a called operation ends in `ret`, a host operation in `resBuf` (R190).
-/

section
open Sys2Proof Sys2Proof.Machine

/-! ### Encodings -/

/-- Words written out from the spec's examples decode to what they stand for (R145, R63, R64, R65, R60, R62, R68, R67). It rests on
the spec's decisions D1 and D2 (the host port's codes) and log entries 12 (mode bytes) and 27 (the table's numbering). -/
def Obligations.SpecWordsDecode : Prop :=
  decodeTableWord 37 0x05000053AC = some (.exchange ⟨0xAC#8, 0x53#8, 0x00#8, 0x00#8⟩) ∧
  decodeTableWord 37 0x0700000001 = some (.setLed1 true) ∧
  decodeTableWord 37 0x0A00000000 = some (.reservedLow 0x0A#5) ∧
  decodeTableWord 24 0x002786 = some (.clkFrame 39#16) ∧
  decodeTableWord 48 0x0101820B0880 = some (.gpioFrame 0x0108#16 0x010B#16) ∧
  decodeTableWord 64 0x87000053AC000331 = some (.shiftFrame 0x31#8 [0xAC#8, 0x53#8, 0x00#8, 0x00#8]) ∧
  decodeTableWord 8 0x85 = some (.pinSpec .clk 0x85#8) ∧
  decodeTableWord 16 0x00C0 = some (.groupMask .pwr 0x00C0#16) ∧
  decodeTableWord 36 0x200000080 = some (.hostRes 2#4 0x80#32)

/-- Decoding the words of a well-formed instruction gives it back, for every instruction and every choice of the mode bytes R73
allows. The packing of the internal operations' operands in ARG is log entry 8's. It rests on the spec's decisions D1, D2 and D15
and log entry 8. -/
def Obligations.DecodeOfEncode : Prop :=
  ∀ (p : Params) (i : Instr), p.wf = true → i.wf p = true → decode p (encode i) = .ok i

/-- What the frame decoder takes is a well-formed frame, and the bytes it took are that frame's own (R63, R64, R65, R74). It rests
on the spec's decision D15 and its derivation in R74. -/
def Obligations.FrameDecodingIsExact : Prop :=
  ∀ (p : Params) (bytes rest : List Byte) (i : Instr), takeFrame p bytes = .ok (i, rest) →
    isFrame i = true ∧ i.wf p = true ∧ frameBytes i ++ rest = bytes

/-- A stream of whole frames parses into exactly those frames from its first byte (R74). It rests on the spec's decision D15 and its
derivation in R74. -/
def Obligations.StreamOfFramesParses : Prop :=
  ∀ (p : Params) (frames : List Instr), p.wf = true → (∀ f ∈ frames, isFrame f = true ∧ f.wf p = true) →
    parseStream p (frames.flatMap frameBytes) = .ok frames

/-! ### The step and the host port -/

/-- A step runs the decoded instruction: the one in the frame buffer, else the result to be presented, else the host's next move;
what it took is gone from its place. A word of the opcode table placed for the next step is what that step runs. It rests on log
entries 1, 3, 9, 11 and 27: what a step is and where an instruction stands are the model's choice. -/
def Obligations.StepRunsDecodedInstr : Prop :=
  ∀ (s : State), s.rx = none →
    (∀ i, s.frame ≠ [] → decode s.par (.frame s.frame) = .ok i → step s = exec i { s with frame := [] }) ∧
    (∀ r, s.frame = [] → s.resBuf = some r →
      step s = exec (.hostRes r.status r.data) { s with resBuf := none }) ∧
    (∀ m rest w i, s.frame = [] → s.resBuf = none → s.port = m :: rest → m.wire = some w → decode s.par w = .ok i →
      step s = exec i { s with port := rest }) ∧
    (∀ nbits w x i, s.frame = [] → s.resBuf = none → wireOfTable nbits w = some x → decode s.par x = .ok i →
      step (s.withFetchWord nbits w) = exec i s)

/-- The host's register writes, each by a step of an idle block: the named register takes the value, nothing else changes but the
host's list of moves (R20, R21). It rests on log entry 3: the host's list of moves is the model's; the spec's decision D30. -/
def Obligations.HostWritesItsRegisters : Prop :=
  ∀ (s : State) (rest : List HostMove), s.rx = none → s.frame = [] → s.resBuf = none →
    (∀ v, s.port = .writeVid v :: rest → step s = .next { s with port := rest, cfg := { s.cfg with vid := v } }) ∧
    (∀ v, s.port = .writePid v :: rest → step s = .next { s with port := rest, cfg := { s.cfg with pid := v } }) ∧
    (∀ v, s.port = .writeHz v :: rest → step s = .next { s with port := rest, cfg := { s.cfg with hz := v } }) ∧
    (∀ c, s.port = .writePe (some c) :: rest →
      step s = .next { s with port := rest, pd := { s.pd with peDef := true, peCmd := c } }) ∧
    (s.port = .writePe none :: rest → step s = .next { s with port := rest, pd := { s.pd with peDef := false } }) ∧
    (∀ c, s.port = .writeCe (some c) :: rest →
      step s = .next { s with port := rest, pd := { s.pd with ceDef := true, ceCmd := c } }) ∧
    (s.port = .writeCe none :: rest → step s = .next { s with port := rest, pd := { s.pd with ceDef := false } }) ∧
    (∀ i v, s.port = .writePoll i v :: rest →
      step s = .next { s with port := rest, pd := { s.pd with pollIndex := i, pollValue := v } }) ∧
    (∀ d, s.port = .writeEraseDelay d :: rest →
      step s = .next { s with port := rest, pd := { s.pd with eraseDelay := d } })

/-- The two decoded configuration formats: a PINSPEC goes into CFG_PIN of its role and a GROUPMASK into CFG_GROUP of its role, any
value; nothing else changes (R20, R60, R62). It rests on log entry 10. -/
def Obligations.ConfigWordsAreStored : Prop :=
  (∀ (r : SRole) (raw : Byte) (s : State), ∃ t, exec (.pinSpec r raw) s = .next t ∧
    (∀ q, t.cfg.pin.get q = if q = r then raw else s.cfg.pin.get q) ∧
    t = { s with cfg := { s.cfg with pin := t.cfg.pin } }) ∧
  (∀ (g : GRole) (mask : Mask) (s : State), ∃ t, exec (.groupMask g mask) s = .next t ∧
    (∀ k, t.cfg.group.get k = if k = g then mask else s.cfg.group.get k) ∧
    t = { s with cfg := { s.cfg with group := t.cfg.group } })

/-- A result word is presented: it stands on the result port, the block is idle again, and the history has it under the operation
that ran; with none running it only stands on the port (R66, R190, R9). It rests on log entries 11 and 31 and the spec's decisions
D1 and D2. -/
def Obligations.ResultIsPresented : Prop :=
  ∀ (st : BitVec 4) (d : BitVec 32) (s : State),
    (∀ op, s.running = some op → exec (.hostRes st d) s = .next { s with
      hostRes := some ⟨st, d⟩, running := none, hist := s.hist ++ [.result op ⟨st, d⟩] }) ∧
    (s.running = none → exec (.hostRes st d) s = .next { s with hostRes := some ⟨st, d⟩ })

/-- While an operation runs, a step leaves the host's moves where they are, and the operation stays the one that runs until its
result is presented (R50, R230). It rests on log entries 1 and 11 and the spec's decision D1; the premise is the invariant of
StepsKeepControl. -/
def Obligations.BusyBlockTakesNoOperation : Prop :=
  ∀ (s t : State), s.Control → s.running ≠ none → step s = .next t →
    t.port = s.port ∧ (t.running = s.running ∨ t.running = none ∧ t.hostRes = s.resBuf ∧ s.resBuf ≠ none)

/-- The acceptance table: presented in a stable state without the mark `accepted`, a host operation ends with BadState and changes
nothing else; presented in a state with it, it never does (R155). It rests on the spec's decision D21; the last two clauses also
hold in a transient ST (log entry 28). -/
def Obligations.AcceptanceTable : Prop :=
  (∀ (i : Instr) (op : BitVec 5) (sts : List St) (s : State), (i, op, sts) ∈ hostOps →
    s.running = none → s.st.stable = true →
    (s.st ∉ sts → exec i s = .next { s with running := some op, resBuf := some ⟨10#4, 0#32⟩ }) ∧
    (s.st ∈ sts → s.resBuf = none → ∀ t, exec i s = .next t → t.resBuf ≠ some ⟨10#4, 0#32⟩)) ∧
  (∀ (c : Quad) (s : State), s.running = none →
    (s.st = .closed → exec (.exchange c) s = .next { s with running := some 0x05#5, resBuf := some ⟨10#4, 0#32⟩ }) ∧
    (s.st ≠ .closed → s.resBuf = none → ∀ t, exec (.exchange c) s = .next t → t.resBuf ≠ some ⟨10#4, 0#32⟩)) ∧
  (∀ (v : Bool) (i : Instr) (r : SRole) (op : BitVec 5) (s : State), (i, r, op) ∈ ledOps v → s.running = none →
    (s.st = .closed → exec i s = .next { s with running := some op, resBuf := some ⟨10#4, 0#32⟩ }) ∧
    (s.st ≠ .closed → ∀ t, exec i s = .next t → t.resBuf ≠ some ⟨10#4, 0#32⟩))

/-- At the host port every internal or reserved operation ends with IllegalOp and changes nothing else (R70). It rests on the spec's
decisions D1 and D2 and log entries 7 and 8. -/
def Obligations.InternalOpsAreIllegalAtPort : Prop :=
  ∀ (i : Instr) (w : BitVec 37) (operand : List Byte) (s : State), encode i = .cmd w operand →
    0x0A ≤ (opField w).toNat → s.running = none →
    exec i s = .next { s with running := some (opField w), resBuf := some ⟨11#4, 0#32⟩ }

/-! ### Reset -/

/-- The power-on values the spec gives; nothing has been sent, and no handle is open (R26, R220, R20). It rests on the spec's
decision D11; the empty history is log entry 20's, no running operation log entry 6's. -/
def Obligations.ResetLeavesPowerOnValues : Prop :=
  State.reset.st = .closed ∧ State.reset.live = false ∧ (∀ r, State.reset.pinmap.get r = 0#8) ∧
  (∀ g, State.reset.gmask.get g = 0#16) ∧ State.reset.dir = 0#16 ∧ State.reset.inv = 0#16 ∧ State.reset.val = 0#16 ∧
  State.reset.attempt = 0#3 ∧ (∀ r, State.reset.cfg.pin.get r = 0#8) ∧ (∀ g, State.reset.cfg.group.get g = 0#16) ∧
  State.reset.cfg.vid = 0x0403#16 ∧ State.reset.cfg.pid = 0x6010#16 ∧ State.reset.cfg.hz = 150000#32 ∧
  State.reset.running = none ∧ State.reset.hist = []

/-- Reset meets the invariants stated below: the control state, `LIVE = 1` only with the masks of R24 (as StepsKeepTheMasks has it),
the parameters' constraints, and whole frames in the outgoing stream (R26, R16, R17, R18, R19, R22, R24, R50, R73, R74). It rests on
the spec's decisions D5, D11, D15, D19, D21 and D22, its derivation in R24 and log entries 1, 5, 6, 11 and 12. -/
def Obligations.ResetMeetsTheInvariants : Prop :=
  State.reset.Control ∧ (State.reset.live = true → State.reset.Masks) ∧ State.reset.par.wf = true ∧
    WholeFrames State.reset.par (outgoing State.reset.hist)

/-! ### PinMapper -/

/-- ASSIGN_SINGLE for every raw spec: unused, out of range, claimed, assigned; what it writes and nothing else (R91, R92). It rests
on the spec's decisions D5 and D8. -/
def Obligations.AssignSingleFollowsR91 : Prop :=
  ∀ (r : SRole) (raw : Byte) (s : State), s.running ≠ none →
    (raw = 0#8 → exec (.assignSingle r raw) s = .next { s with ret := ⟨0#4, 0#32⟩ }) ∧
    (raw ≠ 0#8 → ((pinfield raw).toNat < 1 ∨ 11 < (pinfield raw).toNat) →
      exec (.assignSingle r raw) s = .next { s with ret := ⟨1#4, 0#32⟩ }) ∧
    (∀ b, (pinfield raw).toNat = b + 1 → b ≤ 10 →
      (s.claimed.getLsbD b = true →
        exec (.assignSingle r raw) s = .next { s with ret := ⟨2#4, BitVec.ofNat 32 (2 ^ b)⟩ }) ∧
      (s.claimed.getLsbD b = false → ∃ t, exec (.assignSingle r raw) s = .next t ∧
        (∀ q, t.pinmap.get q = if q = r then raw else s.pinmap.get q) ∧
        (∀ i, t.dir.getLsbD i = true ↔ s.dir.getLsbD i = true ∨ (i = b ∧ r ≠ .din)) ∧
        (∀ i, t.inv.getLsbD i = true ↔ s.inv.getLsbD i = true ∨ (i = b ∧ raw.getLsbD 7 = true)) ∧
        t = { s with pinmap := t.pinmap, dir := t.dir, inv := t.inv, ret := ⟨0#4, 0#32⟩ }))

/-- The claim mask is the direction mask with the data-in pin added (R90). It rests on the spec's decision D5. -/
def Obligations.ClaimsAreDirAndDataIn : Prop :=
  ∀ (s : State) (b : Nat), b < 16 →
    (s.claimed.getLsbD b = true ↔ s.dir.getLsbD b = true ∨ (pinfield s.pinmap.din).toNat = b + 1)

/-- The laws of R93: a pin taken by one role conflicts for another, pin 12 or higher is out of range, and 0x85 sets direction bit 4
and inversion bit 4 and leaves VAL alone. -/
def Obligations.AssignSingleLaws : Prop :=
  (∀ (r q : SRole) (raw raw' : Byte) (s t : State), s.running ≠ none → r ≠ q → raw ≠ 0#8 →
    exec (.assignSingle r raw) s = .next t → t.ret.status = 0#4 → pinfield raw' = pinfield raw →
    ∃ u, exec (.assignSingle q raw') t = .next u ∧ u.ret.status = 2#4 ∧ u = { t with ret := u.ret }) ∧
  (∀ (r : SRole) (raw : Byte) (s : State), s.running ≠ none → 12 ≤ (pinfield raw).toNat →
    exec (.assignSingle r raw) s = .next { s with ret := ⟨1#4, 0#32⟩ }) ∧
  (∀ (r : SRole) (s : State), s.running ≠ none → r ≠ .din → s.claimed.getLsbD 4 = false →
    ∃ t, exec (.assignSingle r 0x85#8) s = .next t ∧ t.dir.getLsbD 4 = true ∧ t.inv.getLsbD 4 = true ∧ t.val = s.val)

/-- ASSIGN_GROUP: range, then conflict with the reported intersection, then the claim (R94, R95). It rests on the spec's decisions
D8 and D25. -/
def Obligations.AssignGroupFollowsR94 : Prop :=
  ∀ (g : GRole) (mask : Mask) (s : State), s.running ≠ none →
    (mask.extractLsb' 12 4 ≠ 0#4 → exec (.assignGroup g mask) s = .next { s with ret := ⟨1#4, 0#32⟩ }) ∧
    (mask.extractLsb' 12 4 = 0#4 → mask &&& s.claimed ≠ 0#16 →
      exec (.assignGroup g mask) s = .next { s with ret := ⟨2#4, BitVec.ofNat 32 (mask &&& s.claimed).toNat⟩ }) ∧
    (mask.extractLsb' 12 4 = 0#4 → mask &&& s.claimed = 0#16 → ∃ t, exec (.assignGroup g mask) s = .next t ∧
      (∀ k, t.gmask.get k = if k = g then mask else s.gmask.get k) ∧ t.dir = s.dir ||| mask ∧
      t = { s with gmask := t.gmask, dir := t.dir, ret := ⟨0#4, 0#32⟩ })

/-- VALIDATE_LAYOUT under `AUTOCORRECT`: the corrected specs with their flags, one diagnostic for each correction (R97). It rests on
the spec's decisions D6 and D7 and log entry 26. -/
def Obligations.LayoutIsCorrected : Prop :=
  ∀ (clk dout din reset : Byte) (s : State), s.running ≠ none → s.par.layout = .autocorrect →
    ∃ t, exec (.validateLayout clk dout din reset) s = .next t ∧
      (t.samp.clk.toNat = 128 * (clk.toNat / 128) + 1) ∧ (t.samp.dout.toNat = 128 * (dout.toNat / 128) + 2) ∧
      (t.samp.din.toNat = 128 * (din.toNat / 128) + 3) ∧
      (t.samp.reset.toNat = 128 * (reset.toNat / 128) +
        if 4 ≤ reset.toNat % 128 ∧ reset.toNat % 128 ≤ 11 then reset.toNat % 128 else 4) ∧
      t.hist = s.hist ++ layoutDiags clk dout din reset ∧
      t = { s with samp := { s.samp with clk := t.samp.clk, dout := t.samp.dout, din := t.samp.din, reset := t.samp.reset },
                   hist := t.hist, ret := ⟨0#4, 0#32⟩ }

/-- VALIDATE_LAYOUT under `STRICT`: a right layout is returned as it is; of wrong ones the first in the order CLK, DOUT, DIN, RESET
is named, without a diagnostic (R97). It rests on the spec's decision D6 and log entry 26. -/
def Obligations.StrictLayoutIsRefused : Prop :=
  ∀ (clk dout din reset : Byte) (s : State), s.running ≠ none → s.par.layout = .strict →
    let given : State := { s with samp := { s.samp with clk := clk, dout := dout, din := din, reset := reset } }
    (layoutDiags clk dout din reset = [] →
      exec (.validateLayout clk dout din reset) s = .next { given with ret := ⟨0#4, 0#32⟩ }) ∧
    (layoutDiags clk dout din reset ≠ [] →
      exec (.validateLayout clk dout din reset) s = .next { given with ret := ⟨3#4, 0#32⟩ } ∧
      validateLayout given = .raise (.pinLayoutInvalid
        (if pinfield clk ≠ 1#7 then .clk else if pinfield dout ≠ 2#7 then .dout else if pinfield din ≠ 3#7 then .din
         else .reset)) given)

/-- PIN_SETUP accepts every legal configuration as it stands: the pin table is the configuration's, VAL is clear, the masks meet
R24, and nothing is reported (R99, R24). It rests on the spec's decisions D5, D8 and D11 and its derivation in R24. -/
def Obligations.PinSetupAcceptsLegalConfig : Prop :=
  ∀ (s : State), s.running ≠ none → s.cfg.Legal → ∃ t, exec .pinSetup s = .next t ∧
    t.Masks ∧
    t = { s with pinmap := s.cfg.pin, gmask := s.cfg.group, dir := t.dir, inv := t.inv, val := 0#16, samp := s.cfg.pin,
                 ret := ⟨0#4, 0#32⟩ }

/-- PIN_SETUP of any configuration. Under `STRICT` a wrong layout ends it with status 3, nothing assigned and no diagnostic.
Otherwise it works on the specs with R97's corrections, whose diagnostics it emits, and ends at the first error of its ten
assignments in their order, with that error's status and data and what the earlier ones wrote, or with all of them done: then PINMAP
is the corrected specs, GMASK is CFG_GROUP, and the masks meet R24. No transport call is made, only diagnostics are emitted, and
nothing else changes (R99, R97, R91, R94, R24). It rests on the spec's decisions D5, D6, D7, D8 (the order), D11 (VAL cleared) and
D25, its derivation in R24 and log entries 26 and 33. -/
def Obligations.PinSetupBuildsTheMasks : Prop :=
  ∀ (s : State), s.running ≠ none → ∃ t l, exec .pinSetup s = .next t ∧ t.hist = s.hist ++ l ∧
    (∀ e ∈ l, ∃ k d, e = .diag k d) ∧ (t.ret.status = 0#4 → t.Masks ∧ t.val = 0#16) ∧
    (t.ret.status = 0#4 ∨ t.ret.status = 1#4 ∨ t.ret.status = 2#4 ∨ t.ret.status = 3#4) ∧
    t = { s with pinmap := t.pinmap, gmask := t.gmask, dir := t.dir, inv := t.inv, val := t.val, samp := t.samp,
                 hist := t.hist, ret := t.ret } ∧
    (let diags := layoutDiags s.cfg.pin.clk s.cfg.pin.dout s.cfg.pin.din s.cfg.pin.reset
    let c := correctedLayout s.cfg.pin
    (s.par.layout = .strict → diags ≠ [] → t = { s with
      pinmap := .zero, gmask := .zero, dir := 0#16, inv := 0#16, val := 0#16, samp := s.cfg.pin, ret := ⟨3#4, 0#32⟩ }) ∧
    (s.par.layout = .autocorrect ∨ diags = [] → l = diags ∧
      t = { s.assignedTo c s.cfg.group (setupDone c s.cfg.group) with
        val := 0#16, samp := c, hist := s.hist ++ diags, ret := setupResult c s.cfg.group }) ∧
    (t.ret.status = 0#4 → t.pinmap = c ∧ t.gmask = s.cfg.group ∧ l = diags))

/-! ### ClockConfigurator -/

/-- COMPUTE_DIVISOR over unbounded integers, with the frequency 0 (R110, R111, R113, R114). It rests on the spec's decisions D12,
D13 and D14; the divisor is held in State between the operations (log entry 5). -/
def Obligations.DivisorIsComputedExactly : Prop :=
  ∀ (hz : BitVec 32) (s : State), s.running ≠ none → ∃ r, exec (.computeDivisor hz) s = .next { s with
      clk := some r, ret := ⟨0#4, 0#32⟩ } ∧
    (hz = 0#32 → r = ⟨65535#16, 91, false, true⟩) ∧
    (hz ≠ 0#32 →
      let raw : Int := ((2 * 6000000 + hz.toNat) / (2 * hz.toNat) : Nat) - 1
      (r.divisor.toNat : Int) = max 0 (min raw 65535) ∧ (r.capMax = true ↔ 6000000 < hz.toNat) ∧
      (r.capMin = true ↔ 65535 < raw) ∧ r.effective = 6000000 / (r.divisor.toNat + 1))

/-- From 92 Hz to 6 MHz the divisor plus one is the nearest integer to the quotient, a tie going up, and no cap is reported (R110,
R111). It rests on the spec's decision D12 (ties, integer Hz). -/
def Obligations.DivisorIsNearestInRange : Prop :=
  ∀ (hz : BitVec 32), 92 ≤ hz.toNat → hz.toNat ≤ 6000000 →
    2 * hz.toNat * ((computeDivisor hz).divisor.toNat + 1) ≤ 12000000 + hz.toNat ∧
    12000000 + hz.toNat < 2 * hz.toNat * ((computeDivisor hz).divisor.toNat + 2) ∧
    (computeDivisor hz).capMax = false ∧ (computeDivisor hz).capMin = false

/-- When each cap is reported; never both; the fastest clock from 4,000,001 Hz on, the slowest up to 91 Hz (R112). It rests on the
spec's decisions D12 and D13. -/
def Obligations.CapsAreReportedAtTheirBounds : Prop :=
  ∀ (hz : BitVec 32), ((computeDivisor hz).capMax = true ↔ 6000000 < hz.toNat) ∧
    ((computeDivisor hz).capMin = true ↔ hz.toNat ≤ 91) ∧
    ¬ ((computeDivisor hz).capMax = true ∧ (computeDivisor hz).capMin = true) ∧
    (4000001 ≤ hz.toNat → (computeDivisor hz).divisor = 0#16) ∧
    (hz.toNat ≤ 91 → (computeDivisor hz).divisor = 65535#16)

/-- SET_CLOCK: the diagnostics of a capped request, each with the requested and the effective frequency, then one write of the three
bytes; anything but a full count is WriteShort, and DIVISOR is gone afterwards (R115, R114, R19, R45). It rests on the spec's
decisions D13 (order of the diagnostics), D14 (the effective frequency) and D18 (a transport error is WriteShort) and log entry 16
(what a capped diagnostic carries). -/
def Obligations.SetClockSendsTheDivisor : Prop :=
  ∀ (hz : BitVec 32) (s : State), s.running ≠ none →
    let d := (computeDivisor hz).divisor
    let bytes := [0x86#8, BitVec.ofNat 8 (d.toNat % 256), BitVec.ofNat 8 (d.toNat / 256)]
    let ans := writeAnswer bytes { s with hist := s.hist ++ capDiags hz }
    exec (.setClock hz) s = .next { s with
      clk := none
      env := { s.env with writes := s.env.writes.tail }
      hist := s.hist ++ capDiags hz ++ [.write bytes ans]
      ret := ⟨if ans = .accepted 3 then 0#4 else 5#4, 0#32⟩ }

/-! ### FrameCodec -/

/-- A frame handed to the transport is one write of its bytes, low bytes first; it succeeds when the count is full and is WriteShort
otherwise, without a retry; nothing else changes (R42, R44, R45, R63, R64, R65). It rests on the spec's decision D18 and log entry
9. -/
def Obligations.FramesAreOneWriteEach : Prop :=
  ∀ (s : State),
    let sent : List Byte → State := fun bytes => { s with
      env := { s.env with writes := s.env.writes.tail }
      hist := s.hist ++ [.write bytes (writeAnswer bytes s)]
      ret := ⟨if writeAnswer bytes s = .accepted bytes.length then 0#4 else 5#4, 0#32⟩ }
    (∀ d : BitVec 16, exec (.clkFrame d) s =
      .next (sent [0x86#8, BitVec.ofNat 8 (d.toNat % 256), BitVec.ofNat 8 (d.toNat / 256)])) ∧
    (∀ v d : Mask, exec (.gpioFrame v d) s =
      .next (sent [0x80#8, BitVec.ofNat 8 (v.toNat % 256), BitVec.ofNat 8 (d.toNat % 256),
        0x82#8, BitVec.ofNat 8 (v.toNat / 256), BitVec.ofNat 8 (d.toNat / 256)])) ∧
    (∀ (m : Byte) (pl : List Byte), 1 ≤ pl.length → pl.length ≤ 65536 → exec (.shiftFrame m pl) s =
      .next (sent ([m, BitVec.ofNat 8 ((pl.length - 1) % 256), BitVec.ofNat 8 ((pl.length - 1) / 256)] ++ pl ++ [0x87#8])))

/-- ENCODE_GPIO_SET returns the six bytes of the current masks, and the step after it sends them in one write (R120, R121). It rests
on log entries 9 (the frame buffer between the two steps) and 26 (a result stands where the next operation reads it). -/
def Obligations.GpioFrameOfTheMasks : Prop :=
  ∀ (s : State), s.running ≠ none →
    let bytes := [0x80#8, s.val.extractLsb' 0 8, s.dir.extractLsb' 0 8, 0x82#8, s.val.extractLsb' 8 8, s.dir.extractLsb' 8 8]
    exec .encodeGpioSet s = .next { s with frame := bytes, ret := ⟨0#4, 0#32⟩ } ∧
    (s.rx = none → ∃ t, step { s with frame := bytes, ret := ⟨0#4, 0#32⟩ } = .next t ∧
      t.frame = [] ∧ t.val = s.val ∧ t.dir = s.dir ∧ ∃ a, t.hist = s.hist ++ [.write bytes a])

/-- SHIFT with a transmit phase only: header, payload and trailer in one write, and no read (R123, R125, R126). It rests on the
spec's decisions D16 and D18. -/
def Obligations.ShiftTransmits : Prop :=
  ∀ (n : BitVec 24) (payload : List Byte) (s : State), s.running ≠ none → s.par.wf = true → 1 ≤ n.toNat → n.toNat ≤ 65536 →
    payload.length = n.toNat →
    let bytes := [s.par.modeTx, BitVec.ofNat 8 ((n.toNat - 1) % 256), BitVec.ofNat 8 ((n.toNat - 1) / 256)] ++ payload ++ [0x87#8]
    exec (.shift s.par.modeTx n payload) s = .next { s with
      env := { s.env with writes := s.env.writes.tail }
      hist := s.hist ++ [.write bytes (writeAnswer bytes s)]
      ret := ⟨if writeAnswer bytes s = .accepted (n.toNat + 4) then 0#4 else 5#4, 0#32⟩ }

/-- SHIFT with a receive phase only: it writes nothing and reads, once, the room left; what comes decides whether it ends, fails or
goes on in its receive loop (R123, R126, R127). It rests on the spec's decisions D16 and D17 and log entry 1 (a step ends at the
first read that leaves the loop short). -/
def Obligations.ShiftReceives : Prop :=
  ∀ (n : BitVec 24) (payload : List Byte) (s : State), s.running ≠ none → s.par.wf = true → 1 ≤ n.toNat → n.toNat ≤ 65536 →
    let read : ReadAns → State := fun a => { s with
      env := { s.env with reads := s.env.reads.tail }, hist := s.hist ++ [.read n.toNat a] }
    (∀ l, readAnswer n.toNat s = .bytes l → l.length = n.toNat →
      exec (.shift s.par.modeRx n payload) s = .next { read (.bytes l) with rxBuf := l, ret := ⟨0#4, 0#32⟩ }) ∧
    (∀ l, readAnswer n.toNat s = .bytes l → l.length < n.toNat →
      exec (.shift s.par.modeRx n payload) s = .next { read (.bytes l) with
        rxBuf := l, rx := some ⟨.shift, n.toNat, .inner⟩ }) ∧
    (readAnswer n.toNat s = .error →
      exec (.shift s.par.modeRx n payload) s = .next { read .error with rxBuf := [], ret := ⟨6#4, 0#32⟩ })

/-- SHIFT in the combined mode: the write, then the receive phase; a failed write ends it before any read; what the first read
brings decides whether it ends, fails with its bytes discarded, or goes on in its receive loop (R123, R125, R127). It rests on the
spec's decisions D16, D17 and D18 and log entry 1 (a step ends at the first read that leaves the loop short). -/
def Obligations.ShiftExchanges : Prop :=
  ∀ (n : BitVec 24) (payload : List Byte) (s : State), s.running ≠ none → s.par.wf = true → 1 ≤ n.toNat → n.toNat ≤ 65536 →
    payload.length = n.toNat →
    let bytes := [s.par.modeTrx, BitVec.ofNat 8 ((n.toNat - 1) % 256), BitVec.ofNat 8 ((n.toNat - 1) / 256)] ++ payload ++ [0x87#8]
    (writeAnswer bytes s ≠ .accepted (n.toNat + 4) → exec (.shift s.par.modeTrx n payload) s = .next { s with
      env := { s.env with writes := s.env.writes.tail }
      hist := s.hist ++ [.write bytes (writeAnswer bytes s)]
      ret := ⟨5#4, 0#32⟩ }) ∧
    (∀ w q a, s.env.writes = .accepted (n.toNat + 4) :: w → s.env.reads = a :: q →
      let sent : State := { s with
        env := { s.env with writes := w, reads := q }
        hist := s.hist ++ [.write bytes (.accepted (n.toNat + 4)), .read n.toNat a] }
      (∀ l, a = .bytes l → l.length = n.toNat →
        exec (.shift s.par.modeTrx n payload) s = .next { sent with rxBuf := l, ret := ⟨0#4, 0#32⟩ }) ∧
      (∀ l, a = .bytes l → l.length < n.toNat →
        exec (.shift s.par.modeTrx n payload) s = .next { sent with rxBuf := l, rx := some ⟨.shift, n.toNat, .inner⟩ }) ∧
      (a = .error →
        exec (.shift s.par.modeTrx n payload) s = .next { sent with rxBuf := [], ret := ⟨6#4, 0#32⟩ }))

/-- SHIFT is refused for a mode byte or a length that is not legal (R124). It rests on the spec's decision D16. -/
def Obligations.IllegalShiftIsRefused : Prop :=
  ∀ (mode : Byte) (n : BitVec 24) (payload : List Byte) (s : State), s.running ≠ none →
    ((mode ≠ s.par.modeTx ∧ mode ≠ s.par.modeRx ∧ mode ≠ s.par.modeTrx) ∨ n.toNat = 0 ∨ 65536 < n.toNat) →
    exec (.shift mode n payload) s = .refused .shiftOperands

/-- The receive loop, pass by pass: each read asks for the room left; bytes are appended in arrival order while some are missing, an
empty read included; an error discards them (R127). What the last bytes and an error do is said for each operation that waits. A
called SHIFT returns the bytes in RXBUF, or ReadFailed (R123). EXCHANGE answers the four bytes, or ReadFailed (R145). The erase
exchange of CHIP_ERASE goes on with the part's delay and all that INITIALIZE does, or ends in `Failed` with ReadFailed (R178). The
handshake ends in `Enabled` on a match; on a mismatch or an error its pulse follows: a failed pulse write ends the operation at once
with WriteShort, and after a full pulse come further attempts, each failed one with its pulse, and an ending: a match, a response
that comes in part only, a failed attempt with a failed pulse, or no attempt left of four (R170, R173). It rests on the spec's
decisions D17, D18, D20 and D23 and log entry 1; the handshake's clause also holds in states that no run reaches. -/
def Obligations.ReceiveLoopGoesOn : Prop :=
  ∀ (s : State) (w : RxWait), s.rx = some w → s.rxCnt < w.length →
    let room := w.length - s.rxCnt
    let read : ReadAns → State := fun a => { s with
      env := { s.env with reads := s.env.reads.tail }, hist := s.hist ++ [.read room a] }
    (∀ l, readAnswer room s = .bytes l → s.rxCnt + l.length < w.length →
      step s = .next { read (.bytes l) with rxBuf := s.rxBuf ++ l }) ∧
    (w.client = .shift → w.level = .inner → readAnswer room s = .error →
      step s = .next { read .error with rx := none, rxBuf := [], ret := ⟨6#4, 0#32⟩ }) ∧
    (∀ l, w.client = .shift → w.level = .inner → readAnswer room s = .bytes l → s.rxCnt + l.length = w.length →
      step s = .next { read (.bytes l) with rx := none, rxBuf := s.rxBuf ++ l, ret := ⟨0#4, 0#32⟩ }) ∧
    (w.client = .exchange → w.level = .host → readAnswer room s = .error →
      step s = .next { read .error with rx := none, rxBuf := [], resBuf := some ⟨6#4, 0#32⟩ }) ∧
    (∀ l (q : Quad), w.client = .exchange → w.level = .host → readAnswer room s = .bytes l → s.rxBuf ++ l = q.toList → w.length = 4 →
      step s = .next { read (.bytes l) with
        rx := none, rxBuf := [], resBuf := some ⟨0#4, q.b3 ++ q.b2 ++ q.b1 ++ q.b0⟩ }) ∧
    (w.client = .erase → w.level = .host → readAnswer room s = .error →
      step s = .next { read .error with rx := none, rxBuf := [], st := .failed, resBuf := some ⟨6#4, 0#32⟩ }) ∧
    (∀ l (q : Quad), w.client = .erase → w.level = .host → readAnswer room s = .bytes l → s.rxBuf ++ l = q.toList → w.length = 4 →
      step s =
        match exec .initializeOp { read (.bytes l) with
          hist := (read (.bytes l)).hist ++ [.wait s.pd.eraseDelay.toNat], rx := none, rxBuf := [], st := .enabled,
          running := none } with
        | .next t => .next { t with running := s.running }
        | .fault x => .fault x
        | .refused x => .refused x) ∧
    (∀ l (q : Quad), w.client = .handshake → w.level = .host → readAnswer room s = .bytes l → s.rxBuf ++ l = q.toList → w.length = 4 →
      1 ≤ s.pd.pollIndex.toNat → s.pd.pollIndex.toNat ≤ 4 → q.toList.getD (s.pd.pollIndex.toNat - 1) 0#8 = s.pd.pollValue →
      step s = .next { read (.bytes l) with
        rx := none, rxBuf := [], st := .enabled, attempt := 0#3, resBuf := some ⟨0#4, 0#32⟩ }) ∧
    (∀ a, w.client = .handshake → w.level = .host → w.length = 4 → readAnswer room s = a → s.par.wf = true →
      s.assigned .reset = true → s.attempt.toNat ≤ 4 → 1 ≤ s.pd.pollIndex.toNat → s.pd.pollIndex.toNat ≤ 4 →
      (a = .error ∨ ∃ l, ∃ q : Quad, a = .bytes l ∧ s.rxBuf ++ l = q.toList ∧
        q.toList.getD (s.pd.pollIndex.toNat - 1) 0#8 ≠ s.pd.pollValue) →
      let on := s.valWith .reset true s.val
      let off := s.valWith .reset false s.val
      let failed : State := { read a with rx := none, rxBuf := [] }
      (∀ (c : PulseCut) ws, c.Fails → s.env.writes = c.writes ++ ws → step s = .next { failed with
        val := c.val on off, st := .failed, attempt := 0#3, resBuf := some ⟨5#4, 0#32⟩,
        env := { failed.env with writes := ws }, hist := failed.hist ++ c.events on off s.dir }) ∧
      (∀ (fails : List AttemptFail) (e : HandshakeEnd) ws rs, s.attempt.toNat + fails.length ≤ 4 →
        (∀ f ∈ fails, f.fails s.pd = true) → e.Fits s.pd (4 - (s.attempt.toNat + fails.length)) →
        s.env.writes = [.accepted 6, .accepted 6] ++ (fails.flatMap AttemptFail.writes ++ (e.writes ++ ws)) →
        s.env.reads.tail = fails.flatMap AttemptFail.reads ++ (e.reads ++ rs) →
        step s = .next ({ failed with val := off, hist := failed.hist ++ pulseEvents on off s.dir }.afterAttempts
          s.attempt.toNat fails e ws rs)))

/-- There is no timeout: under `k` empty reads the operation is where it was, `k` reads later, for every `k` (R128). It rests on the
spec's decision D17 (the room each read asks for, no timeout) and log entry 1 (one read a step). -/
def Obligations.EmptyReadsHang : Prop :=
  ∀ (k : Nat) (s : State) (w : RxWait) (rest : List ReadAns), s.rx = some w → s.rxCnt < w.length →
    s.env.reads = List.replicate k (.bytes []) ++ rest →
    core.run k s = .next { s with
      env := { s.env with reads := rest }
      hist := s.hist ++ List.replicate k (.read (w.length - s.rxCnt) (.bytes [])) }

/-- An exchange ends as soon as its four bytes have come, in however many pieces, and answers them in arrival order (R127, R145). It
rests on the spec's decision D17 and log entry 1. -/
def Obligations.ExchangeEndsWithItsBytes : Prop :=
  ∀ (pieces : List (List Byte)) (s : State) (q : Quad) (rest : List ReadAns), s.rx = some ⟨.exchange, 4, .host⟩ →
    s.rxBuf ++ pieces.flatten = q.toList → (∃ l, pieces.getLast? = some l ∧ l ≠ []) →
    s.env.reads = pieces.map .bytes ++ rest →
    ∃ t, core.run pieces.length s = .next t ∧ t.rx = none ∧ t.rxBuf = [] ∧ t.st = s.st ∧ t.env.reads = rest ∧
      t.resBuf = some ⟨0#4, q.b3 ++ q.b2 ++ q.b1 ++ q.b0⟩

/-! ### TransactionEngine -/

/-- SET_PIN: one bit of VAL is written, after inversion, then the whole masks are sent in one write; a short or failed write is
WriteShort and VAL keeps its update; an unassigned role is a successful no-op (R140, R142). It rests on the spec's decisions D9, D10
and D18. -/
def Obligations.SetPinFollowsR140 : Prop :=
  ∀ (r : SRole) (v : Bool) (s : State), s.running ≠ none →
    (pinfield (s.pinmap.get r) = 0#7 → exec (.setPin r v) s = .next { s with ret := ⟨0#4, 0#32⟩ }) ∧
    (∀ b, (pinfield (s.pinmap.get r)).toNat = b + 1 → b ≤ 10 → ∃ val : Mask,
      (∀ i, val.getLsbD i = if i = b then v ^^ s.inv.getLsbD b else s.val.getLsbD i) ∧
      let bytes := [0x80#8, val.extractLsb' 0 8, s.dir.extractLsb' 0 8, 0x82#8, val.extractLsb' 8 8, s.dir.extractLsb' 8 8]
      exec (.setPin r v) s = .next { s with
        val := val
        env := { s.env with writes := s.env.writes.tail }
        hist := s.hist ++ [.write bytes (writeAnswer bytes s)]
        ret := ⟨if writeAnswer bytes s = .accepted 6 then 0#4 else 5#4, 0#32⟩ })

/-- The source's law of inversion: `ON` to an inverted pin leaves the value bit that `OFF` to a plain pin leaves (R141). It rests on
the spec's decision D9. -/
def Obligations.InvertedOnIsPlainOff : Prop :=
  ∀ (r : SRole) (v : Bool) (s t u : State) (inv : Mask) (b : Nat), s.running ≠ none →
    (pinfield (s.pinmap.get r)).toNat = b + 1 → b ≤ 10 → s.inv.getLsbD b = false → inv.getLsbD b = true →
    exec (.setPin r v) { s with inv := inv } = .next t → exec (.setPin r (!v)) s = .next u → t.val = u.val

/-- The four LED setters: SET_PIN of their role as a host operation. `ST` and the rest of the session stay as they are, a failed
write included; an unassigned LED is a successful no-op (R148, R149, R150, R151). It rests on the spec's decisions D9 (polarity),
D10 (the no-op), D18 (VAL kept, WriteShort) and D21 (BadState in Closed). -/
def Obligations.LedSettersSetTheirPin : Prop :=
  ∀ (v : Bool) (i : Instr) (r : SRole) (op : BitVec 5) (s : State), (i, r, op) ∈ ledOps v → s.running = none →
    (s.st = .closed → exec i s = .next { s with running := some op, resBuf := some ⟨10#4, 0#32⟩ }) ∧
    (s.st ≠ .closed → pinfield (s.pinmap.get r) = 0#7 →
      exec i s = .next { s with running := some op, resBuf := some ⟨0#4, 0#32⟩ }) ∧
    (∀ b, s.st ≠ .closed → (pinfield (s.pinmap.get r)).toNat = b + 1 → b ≤ 10 → ∃ val : Mask,
      (∀ i, val.getLsbD i = if i = b then v ^^ s.inv.getLsbD b else s.val.getLsbD i) ∧
      let bytes := [0x80#8, val.extractLsb' 0 8, s.dir.extractLsb' 0 8, 0x82#8, val.extractLsb' 8 8, s.dir.extractLsb' 8 8]
      exec i s = .next { s with
        val := val
        env := { s.env with writes := s.env.writes.tail }
        hist := s.hist ++ [.write bytes (writeAnswer bytes s)]
        running := some op
        resBuf := some ⟨if writeAnswer bytes s = .accepted 6 then 0#4 else 5#4, 0#32⟩ })

/-- EXCHANGE as a host operation: the eight bytes in one write, then the receive loop; its result is the four bytes that came, or
WriteShort, or ReadFailed; `ST` does not change (R145). It rests on the spec's decisions D17, D18 and D21 and log entry 1. -/
def Obligations.ExchangeFollowsR145 : Prop :=
  ∀ (c : Quad) (s : State), s.running = none → s.par.wf = true →
    let bytes := [s.par.modeTrx, 0x03#8, 0x00#8, c.b0, c.b1, c.b2, c.b3, 0x87#8]
    (s.st = .closed → exec (.exchange c) s = .next { s with running := some 0x05#5, resBuf := some ⟨10#4, 0#32⟩ }) ∧
    (s.st ≠ .closed → writeAnswer bytes s ≠ .accepted 8 → exec (.exchange c) s = .next { s with
      env := { s.env with writes := s.env.writes.tail }
      hist := s.hist ++ [.write bytes (writeAnswer bytes s)]
      running := some 0x05#5
      resBuf := some ⟨5#4, 0#32⟩ }) ∧
    (∀ w q a, s.st ≠ .closed → s.env.writes = .accepted 8 :: w → s.env.reads = a :: q →
      let sent : State := { s with
        env := { s.env with writes := w, reads := q }
        hist := s.hist ++ [.write bytes (.accepted 8), .read 4 a]
        running := some 0x05#5
        rxBuf := [] }
      (∀ r : Quad, a = .bytes r.toList →
        exec (.exchange c) s = .next { sent with resBuf := some ⟨0#4, r.b3 ++ r.b2 ++ r.b1 ++ r.b0⟩ }) ∧
      (∀ l, a = .bytes l → l.length < 4 →
        exec (.exchange c) s = .next { sent with rxBuf := l, rx := some ⟨.exchange, 4, .host⟩ }) ∧
      (a = .error → exec (.exchange c) s = .next { sent with resBuf := some ⟨6#4, 0#32⟩ }))

/-! ### ProgrammingStateMachine -/

/-- OPEN from the power-on configuration: the history of the spec's worked example and the session it leaves (R157). It rests on the
spec's decisions D6, D8, D11 and D27. -/
def Obligations.OpenOfPowerOnConfig : Prop :=
  ∀ (s : State) (o m : List Bool) (w : List WriteAns), s.running = none → s.st = .closed →
    s.cfg = State.reset.cfg → s.par.layout = .autocorrect →
    s.env.opens = true :: o → s.env.modes = true :: m → s.env.writes = .accepted 3 :: w →
    exec .openOp s = .next { s with
      pinmap := ⟨0x01#8, 0x02#8, 0x03#8, 0x04#8, 0#8, 0#8, 0#8, 0#8⟩, gmask := .zero,
      dir := 0x000B#16, inv := 0#16, val := 0#16,
      samp := ⟨0x01#8, 0x02#8, 0x03#8, 0x04#8, 0#8, 0#8, 0#8, 0#8⟩,
      st := .opened, live := true, clk := none, running := some 0x00#5, resBuf := some ⟨0#4, 0#32⟩,
      env := { s.env with opens := o, modes := m, writes := w },
      hist := s.hist ++ [.diag .layoutCorrected (.role 0#32), .diag .layoutCorrected (.role 1#32), .diag .layoutCorrected (.role 2#32),
        .diag .resetDefaulted (.role 3#32), .opened 0x0403#16 0x6010#16 true, .setMode 0x000B#16 s.par.modeSelect true,
        .write [0x86#8, 0x27#8, 0x00#8] (.accepted 3)] }

/-- OPEN on a legal configuration and a transport that answers well: the pin table is the configuration's, the masks meet R24, the
calls are TOpen, TSetMode with the whole `DIR`, and the clock frame, in this order; a capped frequency is reported before the clock
frame, with the requested and the effective frequency (R157, R158, R99, R112, R114, R115). It rests on the spec's decisions D5, D8,
D11 (VAL cleared), D13, D14 (the effective frequency) and D27 and log entry 16 (what a capped diagnostic carries). -/
def Obligations.OpenOfLegalConfig : Prop :=
  ∀ (s : State) (o m : List Bool) (w : List WriteAns), s.running = none → s.st = .closed → s.cfg.Legal →
    s.env.opens = true :: o → s.env.modes = true :: m → s.env.writes = .accepted 3 :: w →
    ∃ t, exec .openOp s = .next t ∧ t.Masks ∧
      t = { s with
        pinmap := s.cfg.pin, gmask := s.cfg.group, dir := t.dir, inv := t.inv, val := 0#16, samp := s.cfg.pin,
        st := .opened, live := true, clk := none, running := some 0x00#5, resBuf := some ⟨0#4, 0#32⟩,
        env := { s.env with opens := o, modes := m, writes := w },
        hist := s.hist ++ [.opened s.cfg.vid s.cfg.pid true, .setMode t.dir s.par.modeSelect true] ++ capDiags s.cfg.hz ++
          [.write (clkBytes (computeDivisor s.cfg.hz).divisor) (.accepted 3)] }

/-- OPEN, whatever happens: on success `ST` is Open, `LIVE` 1 and the handle held; on a failure `ST` stays Closed, `LIVE` is 0 and a
handle that was opened is released. Its pin table and masks are those PIN_SETUP leaves. Where PIN_SETUP fails, the status, the data
and the history are PIN_SETUP's own and no transport call is made. Where it succeeds, DATA is 0, and the history goes on from
PIN_SETUP's with TOpen, TSetMode with the whole `DIR` that PIN_SETUP left, and the clock frame: 4 exactly when TOpen failed; 7
exactly when TSetMode failed, with TClose after it; 5 exactly when the clock frame was not accepted in full, with TClose after it; 0
exactly when it was (R157, R158, R193, R192, R191, R195, R99). It rests on the spec's decisions D8, D13, D14, D18, D22 and D27, its
derivations in R192 and R193 and log entry 16. -/
def Obligations.FailedOpenReleasesTheHandle : Prop :=
  ∀ (s : State), s.running = none → s.st = .closed → s.live = false → ∃ t d l status p,
    exec .openOp s = .next t ∧ t.resBuf = some ⟨status, d⟩ ∧ t.hist = s.hist ++ l ∧
    exec .pinSetup { s with running := some 0x00#5 } = .next p ∧
    t.pinmap = p.pinmap ∧ t.gmask = p.gmask ∧ t.dir = p.dir ∧ t.inv = p.inv ∧ t.val = p.val ∧
    (status = 0#4 → t.st = .opened ∧ t.live = true ∧ handleOpen l false = true) ∧
    (status ≠ 0#4 → t.st = .closed ∧ t.live = false ∧ handleOpen l false = false ∧
      status ∈ [1#4, 2#4, 3#4, 4#4, 5#4, 7#4]) ∧
    (status ∈ [1#4, 2#4, 3#4] → ∀ e ∈ l, isTransportCall e = false) ∧
    (p.ret.status ≠ 0#4 → status = p.ret.status ∧ status ∈ [1#4, 2#4, 3#4] ∧ d = p.ret.data ∧ t.hist = p.hist) ∧
    (p.ret.status = 0#4 →
      let vid := s.cfg.vid
      let pid := s.cfg.pid
      let mode := s.par.modeSelect
      let clock := clkBytes (computeDivisor s.cfg.hz).divisor
      let called : List Event := [.opened vid pid true, .setMode p.dir mode true] ++ capDiags s.cfg.hz
      d = 0#32 ∧ status ∉ [1#4, 2#4, 3#4] ∧
      (status = 4#4 ↔ t.hist = p.hist ++ [.opened vid pid false]) ∧
      (status = 7#4 ↔ t.hist = p.hist ++ [.opened vid pid true, .setMode p.dir mode false, .close]) ∧
      (status = 5#4 ↔ ∃ a, a ≠ .accepted 3 ∧ t.hist = p.hist ++ called ++ [.write clock a, .close]) ∧
      (status = 0#4 ↔ t.hist = p.hist ++ called ++ [.write clock (.accepted 3)]))

/-- Every session starts clean: the outcome of OPEN, and of PIN_SETUP in it, does not depend on what stood in the pin table and the
masks before, and `LIVE` and `ATTEMPT` are 0 whenever `ST` is Closed, in every state that meets the invariant of StepsKeepControl
(R221). -/
def Obligations.OpenForgetsTheLastSession : Prop :=
  (∀ (s : State) (pinmap samp : PinTable) (gmask : GroupTable) (dir inv val : Mask),
    let other : State := { s with pinmap := pinmap, gmask := gmask, dir := dir, inv := inv, val := val, samp := samp }
    (s.running = none → s.st = .closed → exec .openOp other = exec .openOp s) ∧
    (s.running ≠ none → exec .pinSetup other = exec .pinSetup s)) ∧
  (∀ (s : State), s.Control → s.st = .closed → s.live = false ∧ s.attempt = 0#3)

/-- INITIALIZE up to a match at the first attempt: exactly four GPIO frames and three waits before the handshake, and `Enabled`
after it. The handshake inside it, however it goes and in however many reads, is PROGRAM_ENABLE's on the session the four frames
leave; while its response is short, `ST` is `ResetReleased` (R163, R170). It rests on the spec's decisions D9, D19 and D20 and log
entry 1. -/
def Obligations.InitializeFollowsR163 : Prop :=
  (∀ (s : State) (q : Quad) (w : List WriteAns) (rs : List ReadAns), s.ReadyToEnable →
    (s.st = .opened ∨ s.st = .enabled ∨ s.st = .failed) → polledByte q s.pd.pollIndex = s.pd.pollValue →
    s.env.writes = List.replicate 4 (.accepted 6) ++ .accepted 8 :: w → s.env.reads = .bytes q.toList :: rs →
    exec .initializeOp s = .next { s with
      val := s.initVals.2.2.2, st := .enabled, attempt := 0#3, running := some 0x02#5, resBuf := some ⟨0#4, 0#32⟩,
      env := { s.env with writes := w, reads := rs },
      hist := s.hist ++ s.initEvents ++ [.write (s.exchangeFrame s.pd.peCmd) (.accepted 8), .read 4 (.bytes q.toList)] }) ∧
  (∀ (s : State) (w : List WriteAns), s.running = none → s.rx = none →
    (s.st = .opened ∨ s.st = .enabled ∨ s.st = .failed) → s.assigned .reset = true → s.assigned .clk = true →
    s.env.writes = List.replicate 4 (.accepted 6) ++ w →
    exec .initializeOp s =
      match exec .programEnable { s with
        val := s.initVals.2.2.2, st := .opened, env := { s.env with writes := w }, hist := s.hist ++ s.initEvents } with
      | .next t => .next { t with running := some 0x02#5, st := if t.rx = none then t.st else .resetReleased }
      | .fault x => .fault x
      | .refused x => .refused x)

/-- A failed pin write ends INITIALIZE at once: WriteShort, `Failed`, and no call after it (R163). It rests on the spec's decisions
D18 and D19. -/
def Obligations.InitializeStopsAtFailedWrite : Prop :=
  ∀ (s : State) (k : Nat) (a : WriteAns) (w : List WriteAns), s.running = none →
    (s.st = .opened ∨ s.st = .enabled ∨ s.st = .failed) → s.assigned .reset = true → s.assigned .clk = true → k < 4 →
    (∀ n, a = .accepted n → n < 6) → s.env.writes = List.replicate k (.accepted 6) ++ a :: w →
    ∃ t l, exec .initializeOp s = .next t ∧ t.st = .failed ∧ t.resBuf = some ⟨5#4, 0#32⟩ ∧ t.running = some 0x02#5 ∧
      t.env.writes = w ∧ t.hist = s.hist ++ l ∧ (l.filter isTransportCall).length = k + 1 ∧
      (∃ bytes, l.getLast? = some (.write bytes a))

/-- PROGRAM_ENABLE after fewer than four failed attempts: each is followed by its reset pulse; then a response whose polled byte
alone decides that it matches, or a read that leaves the response short, after which the operation waits with the attempt counted
and the bytes kept (R170, R173, R127). What the following reads do is said by ReceiveLoopGoesOn. It rests on the spec's decisions
D17 and D20 and log entry 1. -/
def Obligations.HandshakeMatches : Prop :=
  (∀ (s : State) (fails : List AttemptFail) (q : Quad) (w : List WriteAns) (rs : List ReadAns), s.ReadyToEnable →
    (s.st = .opened ∨ s.st = .enabled ∨ s.st = .failed) → fails.length < 4 → (∀ f ∈ fails, f.fails s.pd = true) →
    q.toList.getD (s.pd.pollIndex.toNat - 1) 0#8 = s.pd.pollValue →
    s.env.writes = fails.flatMap AttemptFail.writes ++ .accepted 8 :: w →
    s.env.reads = fails.flatMap AttemptFail.reads ++ .bytes q.toList :: rs →
    let on := s.valWith .reset true s.val
    let off := s.valWith .reset false s.val
    let frame := s.exchangeFrame s.pd.peCmd
    exec .programEnable s = .next { s with
      val := if fails = [] then s.val else off
      st := .enabled, attempt := 0#3, running := some 0x03#5, resBuf := some ⟨0#4, 0#32⟩,
      env := { s.env with writes := w, reads := rs },
      hist := s.hist ++ fails.flatMap (fun f => f.events frame ++ pulseEvents on off s.dir) ++
        [.write frame (.accepted 8), .read 4 (.bytes q.toList)] }) ∧
  (∀ (s : State) (fails : List AttemptFail) (l : List Byte) (w : List WriteAns) (rs : List ReadAns), s.ReadyToEnable →
    (s.st = .opened ∨ s.st = .enabled ∨ s.st = .failed) → fails.length < 4 → (∀ f ∈ fails, f.fails s.pd = true) → l.length < 4 →
    s.env.writes = fails.flatMap AttemptFail.writes ++ .accepted 8 :: w →
    s.env.reads = fails.flatMap AttemptFail.reads ++ .bytes l :: rs →
    let on := s.valWith .reset true s.val
    let off := s.valWith .reset false s.val
    let frame := s.exchangeFrame s.pd.peCmd
    exec .programEnable s = .next { s with
      val := if fails = [] then s.val else off
      attempt := BitVec.ofNat 3 (fails.length + 1), running := some 0x03#5, rxBuf := l, rx := some ⟨.handshake, 4, .host⟩,
      env := { s.env with writes := w, reads := rs },
      hist := s.hist ++ fails.flatMap (fun f => f.events frame ++ pulseEvents on off s.dir) ++
        [.write frame (.accepted 8), .read 4 (.bytes l)] })

/-- Four failed attempts, by mismatch or by transport error in any mix: four pulses, ProgramEnableFailed, `Failed`, the reset role
left at `OFF`. A failed pin write of a pulse, the first or the second, after any of the attempts, ends PROGRAM_ENABLE at once:
WriteShort, `Failed`, ATTEMPT 0, and no call after it (R170, R173). It rests on the spec's decisions D18 and D20 (the fourth pulse,
a transport error counted as an attempt, a pulse error that ends the operation). -/
def Obligations.HandshakeFailsAfterFour : Prop :=
  (∀ (s : State) (fails : List AttemptFail) (w : List WriteAns) (rs : List ReadAns), s.ReadyToEnable →
    (s.st = .opened ∨ s.st = .enabled ∨ s.st = .failed) → fails.length = 4 → (∀ f ∈ fails, f.fails s.pd = true) →
    s.env.writes = fails.flatMap AttemptFail.writes ++ w → s.env.reads = fails.flatMap AttemptFail.reads ++ rs →
    let on := s.valWith .reset true s.val
    let off := s.valWith .reset false s.val
    exec .programEnable s = .next { s with
      val := off, st := .failed, attempt := 0#3, running := some 0x03#5, resBuf := some ⟨9#4, 0#32⟩,
      env := { s.env with writes := w, reads := rs },
      hist := s.hist ++
        fails.flatMap (fun f => f.events (s.exchangeFrame s.pd.peCmd) ++ pulseEvents on off s.dir) }) ∧
  (∀ (s : State) (fails : List AttemptFail) (f : AttemptFail) (c : PulseCut) (w : List WriteAns) (rs : List ReadAns), s.ReadyToEnable →
    (s.st = .opened ∨ s.st = .enabled ∨ s.st = .failed) → fails.length < 4 → (∀ g ∈ fails, g.fails s.pd = true) →
    f.fails s.pd = true → c.Fails →
    s.env.writes = fails.flatMap AttemptFail.writes ++ f.sent :: (c.writes ++ w) →
    s.env.reads = fails.flatMap AttemptFail.reads ++ (f.reads ++ rs) →
    let on := s.valWith .reset true s.val
    let off := s.valWith .reset false s.val
    let frame := s.exchangeFrame s.pd.peCmd
    exec .programEnable s = .next { s with
      val := c.val on off
      st := .failed, attempt := 0#3, running := some 0x03#5, resBuf := some ⟨5#4, 0#32⟩,
      env := { s.env with writes := w, reads := rs },
      hist := s.hist ++ fails.flatMap (fun f => f.events frame ++ pulseEvents on off s.dir) ++ f.events frame ++
        c.events on off s.dir })

/-- A descriptor the handshake cannot run with: a poll index outside 1..4 has no step; an undefined opcode is OperationUnsupported
before any exchange, `Failed` (R171, R172). Inside INITIALIZE both come after the reset sequence. It rests on the spec's decision
D20 and log entry 14 (the refusal takes the whole step of INITIALIZE). -/
def Obligations.UnusableDescriptor : Prop :=
  ∀ (s : State), s.running = none → (s.st = .opened ∨ s.st = .enabled ∨ s.st = .failed) →
    ((s.pd.pollIndex.toNat < 1 ∨ 4 < s.pd.pollIndex.toNat) →
      exec .programEnable s = .refused .pollIndexOutOfRange) ∧
    (1 ≤ s.pd.pollIndex.toNat → s.pd.pollIndex.toNat ≤ 4 → s.pd.peDef = false →
      exec .programEnable s = .next { s with st := .failed, running := some 0x03#5, resBuf := some ⟨8#4, 0#32⟩ }) ∧
    (∀ w, s.assigned .reset = true → s.assigned .clk = true → s.env.writes = List.replicate 4 (.accepted 6) ++ w →
      ((s.pd.pollIndex.toNat < 1 ∨ 4 < s.pd.pollIndex.toNat) →
        exec .initializeOp s = .refused .pollIndexOutOfRange) ∧
      (1 ≤ s.pd.pollIndex.toNat → s.pd.pollIndex.toNat ≤ 4 → s.pd.peDef = false →
        exec .initializeOp s = .next { s with
          val := s.initVals.2.2.2, st := .failed, running := some 0x02#5, resBuf := some ⟨8#4, 0#32⟩,
          env := { s.env with writes := w }, hist := s.hist ++ s.initEvents }))

/-- CHIP_ERASE: without an opcode OperationUnsupported and nothing else; a failed exchange ends it in `Failed` with no wait;
otherwise the erase exchange, the part's delay, and the whole of INITIALIZE, however it goes. A read that leaves the erase
exchange's response short keeps it waiting in `Erasing` (R178, R163, R127). It rests on the spec's decisions D17, D19 and D23 and
log entry 1. -/
def Obligations.ChipEraseFollowsR178 : Prop :=
  ∀ (s : State), s.running = none → s.st = .enabled →
    (s.pd.ceDef = false →
      exec .chipErase s = .next { s with running := some 0x04#5, resBuf := some ⟨8#4, 0#32⟩ }) ∧
    (s.pd.ceDef = true → s.par.wf = true → writeAnswer (s.exchangeFrame s.pd.ceCmd) s ≠ .accepted 8 →
      exec .chipErase s = .next { s with
        st := .failed, running := some 0x04#5, resBuf := some ⟨5#4, 0#32⟩,
        env := { s.env with writes := s.env.writes.tail },
        hist := s.hist ++ [.write (s.exchangeFrame s.pd.ceCmd) (writeAnswer (s.exchangeFrame s.pd.ceCmd) s)] }) ∧
    (∀ w rs, s.pd.ceDef = true → s.par.wf = true → s.env.writes = .accepted 8 :: w → s.env.reads = .error :: rs →
      exec .chipErase s = .next { s with
        st := .failed, rxBuf := [], running := some 0x04#5, resBuf := some ⟨6#4, 0#32⟩,
        env := { s.env with writes := w, reads := rs },
        hist := s.hist ++ [.write (s.exchangeFrame s.pd.ceCmd) (.accepted 8), .read 4 .error] }) ∧
    (∀ q0 q w rs, s.pd.ceDef = true → s.ReadyToEnable → polledByte q s.pd.pollIndex = s.pd.pollValue →
      s.env.writes = .accepted 8 :: (List.replicate 4 (.accepted 6) ++ .accepted 8 :: w) →
      s.env.reads = .bytes (Quad.toList q0) :: .bytes (Quad.toList q) :: rs →
      exec .chipErase s = .next { s with
        val := s.initVals.2.2.2, st := .enabled, attempt := 0#3, running := some 0x04#5, resBuf := some ⟨0#4, 0#32⟩,
        env := { s.env with writes := w, reads := rs },
        hist := s.hist ++ [.write (s.exchangeFrame s.pd.ceCmd) (.accepted 8), .read 4 (.bytes q0.toList),
          .wait s.pd.eraseDelay.toNat] ++ s.initEvents ++
          [.write (s.exchangeFrame s.pd.peCmd) (.accepted 8), .read 4 (.bytes q.toList)] }) ∧
    (∀ l w rs, s.pd.ceDef = true → s.par.wf = true → s.env.writes = .accepted 8 :: w → s.env.reads = .bytes l :: rs → l.length < 4 →
      exec .chipErase s = .next { s with
        st := .erasing, rxBuf := l, rx := some ⟨.erase, 4, .host⟩, running := some 0x04#5,
        env := { s.env with writes := w, reads := rs },
        hist := s.hist ++ [.write (s.exchangeFrame s.pd.ceCmd) (.accepted 8), .read 4 (.bytes l)] }) ∧
    (∀ (q : Quad) w rs, s.pd.ceDef = true → s.par.wf = true → s.env.writes = .accepted 8 :: w → s.env.reads = .bytes q.toList :: rs →
      exec .chipErase s =
        match exec .initializeOp { s with
          rxBuf := [], env := { s.env with writes := w, reads := rs },
          hist := s.hist ++ [.write (s.exchangeFrame s.pd.ceCmd) (.accepted 8), .read 4 (.bytes q.toList),
            .wait s.pd.eraseDelay.toNat] } with
        | .next t => .next { t with running := some 0x04#5 }
        | .fault x => .fault x
        | .refused x => .refused x)

/-- CLOSE, always successful: with no live transport it makes no call; with one it writes reset `ON`, whose error is dropped, and
releases the handle. A second CLOSE changes nothing but the port's own fields (R185). It rests on the spec's decision D22. -/
def Obligations.CloseFollowsR185 : Prop :=
  ∀ (s : State), s.running = none →
    (s.live = false →
      exec .closeOp s = .next { s with st := .closed, running := some 0x01#5, resBuf := some ⟨0#4, 0#32⟩ }) ∧
    (∀ b, s.live = true → (pinfield s.pinmap.reset).toNat = b + 1 → b ≤ 10 →
      let val := s.valWith .reset true s.val
      let bytes := gpioBytes val s.dir
      exec .closeOp s = .next { s with
        val := val, st := .closed, live := false, running := some 0x01#5, resBuf := some ⟨0#4, 0#32⟩,
        env := { s.env with writes := s.env.writes.tail },
        hist := s.hist ++ [.write bytes (writeAnswer bytes s), .close] }) ∧
    (∀ t, exec .closeOp s = .next t →
      exec .closeOp { t with running := none, resBuf := none } =
        .next { t with running := some 0x01#5, resBuf := some ⟨0#4, 0#32⟩ })

/-! ### The machine as a whole -/

/-- Every step keeps the control state: `LIVE` is 1 exactly in an open session, a host sees only stable states with ATTEMPT 0 and
empty buffers, and a waiting operation is where its rule left it (R16, R17, R18, R19, R22, R50). It rests on the spec's decisions
D19, D21 and D22 and log entries 1 and 11. -/
def Obligations.StepsKeepControl : Prop :=
  ∀ (s t : State), s.Control → step s = .next t → t.Control

/-- Every step keeps the masks of an open session: the invariants of R24, items 1 to 6. It rests on the spec's decision D5 and its
derivation in R24. -/
def Obligations.StepsKeepTheMasks : Prop :=
  ∀ (s t : State), s.Control → (s.live = true → s.Masks) → step s = .next t → (t.live = true → t.Masks)

/-- The pin table, the direction and the inversion masks are fixed for the session (R24 item 7, R11, R13). It rests on the spec's
derivation in R24. -/
def Obligations.PinTableIsFixedInSession : Prop :=
  ∀ (s t : State), s.Control → s.live = true → step s = .next t →
    t.pinmap = s.pinmap ∧ t.gmask = s.gmask ∧ t.dir = s.dir ∧ t.inv = s.inv

/-- What the block has written in full is whole frames end to end, so the outgoing stream parses from its first byte (R41, R43,
R74). It rests on the spec's decision D18 and its derivations in R41 and R74. -/
def Obligations.OutgoingStreamIsWholeFrames : Prop :=
  ∀ (s t : State), s.par.wf = true → WholeFrames s.par (outgoing s.hist) → step s = .next t →
    WholeFrames t.par (outgoing t.hist) ∧ ∃ frames, parseStream t.par (outgoing t.hist) = .ok frames

/-- Every step only appends to the history; of the transport calls it adds none is empty, and no write is answered with more than
its length, no read with more than was asked for; the parameters never change (R9, R40, R47, R25). It rests on the spec's decisions
D17 and D24 and log entries 2 and 20. -/
def Obligations.HistoryGrowsWithinRanges : Prop :=
  ∀ (s t : State), step s = .next t → t.par = s.par ∧ ∃ l, t.hist = s.hist ++ l ∧ ∀ e ∈ l, answerInRange e

/-- With no session, only OPEN calls the transport (R155, R185). It rests on the spec's decisions D21 and D22. -/
def Obligations.ClosedBlockIsSilent : Prop :=
  ∀ (s t : State) (l : List Event), s.Control → s.st = .closed → step s = .next t → t.hist = s.hist ++ l →
    (∃ e ∈ l, isTransportCall e = true) → s.running = none ∧ t.running = some 0x00#5

/-- The transitions of `ST`, as a step shows them, each with the operation that makes it (R156): a session begins only by OPEN, ends
only by CLOSE, and a step moves between the states of an open session only along the table's arrows; CHIP_ERASE moves it only from
`Enabled`, `Erasing` or `ResetReleased`, PROGRAM_ENABLE never through `ResetReleased`. It rests on the spec's decisions D19 and D21
and log entry 1 (a step may take several arrows). -/
def Obligations.StatesFollowTheTable : Prop :=
  ∀ (s t : State), s.Control → step s = .next t → t.st ≠ s.st →
    (s.st = .closed ∧ t.st = .opened ∧ t.running = some 0x00#5) ∨
    (s.st ≠ .closed ∧ t.st = .closed ∧ t.running = some 0x01#5) ∨
    (t.running = some 0x02#5 ∧ (s.st = .opened ∨ s.st = .enabled ∨ s.st = .failed ∨ s.st = .resetReleased) ∧
      (t.st = .enabled ∨ t.st = .failed ∨ t.st = .resetReleased)) ∨
    (t.running = some 0x03#5 ∧ (s.st = .opened ∨ s.st = .enabled ∨ s.st = .failed) ∧ (t.st = .enabled ∨ t.st = .failed)) ∨
    (t.running = some 0x04#5 ∧ (s.st = .enabled ∨ s.st = .erasing ∨ s.st = .resetReleased) ∧
      (t.st = .enabled ∨ t.st = .failed ∨ t.st = .resetReleased)) ∨
    (t.running = some 0x04#5 ∧ s.st = .enabled ∧ t.st = .erasing)

/-- `ST` and `LIVE` after a host operation has ended with an error, and the statuses each operation can end with, at the step that
ends it (R192, R193). It rests on the spec's derivations in R192 and R193 and its decision D21. -/
def Obligations.StateAfterError : Prop :=
  ∀ (s t : State) (status : BitVec 4) (d : BitVec 32), s.Control → s.resBuf = none → step s = .next t →
    t.resBuf = some ⟨status, d⟩ → status ≠ 0#4 →
    ((status = 10#4 ∨ status = 11#4) → t.st = s.st ∧ t.live = s.live ∧ t.hist = s.hist) ∧
    (status ≠ 10#4 → status ≠ 11#4 →
      (t.running = some 0x00#5 ∧ t.st = .closed ∧ t.live = false ∧ status ∈ [1#4, 2#4, 3#4, 4#4, 5#4, 7#4]) ∨
      ((t.running = some 0x02#5 ∨ t.running = some 0x03#5) ∧ t.st = .failed ∧ t.live = true ∧
        status ∈ [5#4, 8#4, 9#4]) ∨
      (t.running = some 0x04#5 ∧ t.live = true ∧ status ∈ [5#4, 6#4, 8#4, 9#4] ∧
        (t.st = .failed ∨ status = 8#4 ∧ s.pd.ceDef = false ∧ t.st = .enabled ∧ t.hist = s.hist)) ∨
      (t.running = some 0x05#5 ∧ t.st = s.st ∧ t.live = true ∧ status ∈ [5#4, 6#4]) ∨
      ((t.running = some 0x06#5 ∨ t.running = some 0x07#5 ∨ t.running = some 0x08#5 ∨ t.running = some 0x09#5) ∧
        t.st = s.st ∧ t.live = true ∧ status = 5#4))

/-- Nothing stops the machine but a poll index out of range: it never halts on an error (R190, R171, R196). It rests on the spec's
decision D20 and log entries 14, 15 and 17. -/
def Obligations.OnlyThePollIndexStops : Prop :=
  ∀ (s : State), s.Control → (∃ t, step s = .next t) ∨
    (step s = .refused .pollIndexOutOfRange ∧ ¬ (1 ≤ s.pd.pollIndex.toNat ∧ s.pd.pollIndex.toNat ≤ 4))

/-- The waits the block makes: 20,000 and 20 microseconds and the part's erase delay, no other (R236). It rests on the spec's
decision D24 (waits are events of the history). -/
def Obligations.WaitsAreTheTables : Prop :=
  ∀ (s t : State) (l : List Event) (d : Nat), step s = .next t → t.hist = s.hist ++ l → Event.wait d ∈ l →
    d = 20000 ∨ d = 20 ∨ d = s.pd.eraseDelay.toNat

/-- Configuration registers are read by OPEN alone: to any other operation their values make no difference (R28, R231). It rests on
the spec's decision D26 and its derivation in R28. -/
def Obligations.OnlyOpenReadsConfig : Prop :=
  ∀ (i : Instr) (s : State) (c : CfgRegs), i ≠ .openOp → i ≠ .pinSetup → (∀ r raw, i ≠ .pinSpec r raw) →
    (∀ g m, i ≠ .groupMask g m) → exec i { s with cfg := c } =
      match exec i s with
      | .next t => .next { t with cfg := c }
      | .fault x => .fault x
      | .refused x => .refused x

end
end

