-- ==== Sys2Proof/Laws/Operands.lean ====
section
/-!
SUPPORT. What the bit-field helpers do, bit by bit, and what the frame builders are made of.
-/

namespace Sys2Proof.Machine

/-! ### What the legality checks say -/

theorem pinInRange_iff (p : BitVec 7) : pinInRange p = true ↔ 1 ≤ p.toNat ∧ p.toNat ≤ 11 := by
  unfold pinInRange; rw [Bool.and_eq_true, decide_eq_true_iff, decide_eq_true_iff]; exact Iff.rfl

theorem resetPinLegal_iff (p : BitVec 7) : resetPinLegal p = true ↔ 4 ≤ p.toNat ∧ p.toNat ≤ 11 := by
  unfold resetPinLegal; rw [Bool.and_eq_true, decide_eq_true_iff, decide_eq_true_iff]; exact Iff.rfl

theorem pollIndexLegal_iff (i : BitVec 3) : pollIndexLegal i = true ↔ 1 ≤ i.toNat ∧ i.toNat ≤ 4 := by
  unfold pollIndexLegal; rw [Bool.and_eq_true, decide_eq_true_iff, decide_eq_true_iff]; exact Iff.rfl

theorem groupInRange_iff (m : Mask) : groupInRange m = true ↔ m.extractLsb' 12 4 = 0#4 := by
  unfold groupInRange; rw [beq_iff_eq]; exact Iff.rfl

theorem shiftLegal_iff (p : Params) (mode : Byte) (n : Nat) (pl : List Byte) :
    shiftLegal p mode n pl = true ↔
      (mode = p.modeTx ∨ mode = p.modeRx ∨ mode = p.modeTrx) ∧ 1 ≤ n ∧ n ≤ 65536 ∧
        (modeSends p mode = true → pl.length = n) := by
  unfold shiftLegal modeLegal
  rw [Bool.and_eq_true, Bool.and_eq_true, Bool.and_eq_true, decide_eq_true_iff, decide_eq_true_iff]
  simp only [Bool.or_eq_true, beq_iff_eq, Bool.not_eq_true', or_assoc, and_assoc, shiftMax]
  cases modeSends p mode <;> simp

/-- The constraints of R73, one by one. -/
theorem params_wf_iff (p : Params) : p.wf = true ↔
    p.modeTx &&& p.modeRx = 0#8 ∧ p.modeTx ≠ 0#8 ∧ p.modeRx ≠ 0#8 ∧
      ∀ b ∈ [0x80#8, 0x82#8, 0x86#8, 0x87#8], p.modeTx ≠ b ∧ p.modeTrx ≠ b := by
  simp [Params.wf, and_assoc]

/-- A transmit-only mode sends and does not receive; the combined mode does both; a receive-only mode receives only (R73). -/
theorem modes_of_wf {p : Params} (h : p.wf = true) :
    modeSends p p.modeTx = true ∧ modeReceives p p.modeTx = false ∧ modeSends p p.modeRx = false ∧
      modeReceives p p.modeRx = true ∧ modeSends p p.modeTrx = true ∧ modeReceives p p.modeTrx = true := by
  obtain ⟨h1, h2, h3, -⟩ := (params_wf_iff p).mp h
  have h4 : (p.modeTx ||| p.modeRx) &&& p.modeTx = p.modeTx := by
    apply BitVec.eq_of_getLsbD_eq; intro i hi; simp only [BitVec.getLsbD_and, BitVec.getLsbD_or]
    cases p.modeTx.getLsbD i <;> simp
  have h5 : (p.modeTx ||| p.modeRx) &&& p.modeRx = p.modeRx := by
    apply BitVec.eq_of_getLsbD_eq; intro i hi; simp only [BitVec.getLsbD_and, BitVec.getLsbD_or]
    cases p.modeRx.getLsbD i <;> simp
  have h6 : p.modeRx &&& p.modeTx = 0#8 := by rw [BitVec.and_comm]; exact h1
  simp [modeSends, modeReceives, Params.modeTrx, h1, h2, h3, h4, h5, h6]

/-! ### Bit fields -/

/-- `bit n` has exactly bit `n`. -/
theorem bit_getLsbD (n i : Nat) : (bit n).getLsbD i = (decide (i < 16) && decide (i = n)) := by
  simp only [bit, BitVec.getLsbD_shiftLeft, BitVec.getLsbD_one]
  rw [Bool.eq_iff_iff]
  simp only [Bool.and_eq_true, decide_eq_true_iff, Bool.not_eq_true', decide_eq_false_iff_not]
  omega

/-- A bit write, bit by bit (R8: "writes one bit, all others unchanged"). -/
theorem setBit_getLsbD (v : Mask) (b : Nat) (x : Bool) (i : Nat) :
    (setBit v b x).getLsbD i = if i = b ∧ i < 16 then x else v.getLsbD i := by
  unfold setBit
  by_cases hi : i < 16
  · by_cases h : i = b
    · subst h; cases x <;> simp [BitVec.getLsbD_or, BitVec.getLsbD_and, BitVec.getLsbD_not, bit_getLsbD, hi, -BitVec.getLsbD_eq_getElem]
    · cases x <;> simp [BitVec.getLsbD_or, BitVec.getLsbD_and, BitVec.getLsbD_not, bit_getLsbD, hi, h, -BitVec.getLsbD_eq_getElem]
  · rw [BitVec.getLsbD_of_ge _ _ (by omega), if_neg (by omega), BitVec.getLsbD_of_ge _ _ (by omega)]

/-- The bit of a legal pin number is below 11. -/
theorem pinBit_lt {p : BitVec 7} (h : pinInRange p = true) : pinBit p < 11 := by
  rw [pinInRange_iff] at h
  simp only [pinBit]; omega

/-- Two legal pins with the same bit are the same pin. -/
theorem pinBit_inj {p q : BitVec 7} (hp : pinInRange p = true) (hq : pinInRange q = true) (h : pinBit p = pinBit q) : p = q := by
  rw [pinInRange_iff] at hp hq
  simp only [pinBit] at h
  exact BitVec.eq_of_toNat_eq (by omega)

@[simp] theorem pinfield_withPin (raw : Byte) (p : BitVec 7) : pinfield (withPin raw p) = p := by
  apply BitVec.eq_of_getLsbD_eq
  intro i hi
  simp only [pinfield, withPin, BitVec.getLsbD_extractLsb', BitVec.getLsbD_append]
  simp [hi]

@[simp] theorem invflag_withPin (raw : Byte) (p : BitVec 7) : invflag (withPin raw p) = invflag raw := by
  simp only [invflag, withPin, BitVec.getLsbD_append, BitVec.getLsbD_extractLsb']
  simp

/-- A raw spec whose pin field is not 0 is not the "unused" byte. -/
theorem raw_ne_zero {raw : Byte} (h : pinfield raw ≠ 0#7) : raw ≠ 0#8 := by
  rintro rfl
  exact h (by decide)

@[simp] theorem clkBytes_length (d : BitVec 16) : (clkBytes d).length = 3 := rfl
@[simp] theorem gpioBytes_length (v d : Mask) : (gpioBytes v d).length = 6 := rfl
@[simp] theorem shiftBytes_length (m : Byte) (pl : List Byte) : (shiftBytes m pl).length = pl.length + 4 := by
  simp [shiftBytes]

@[simp] theorem quad_toList_length (q : Quad) : q.toList.length = 4 := rfl

/-- Taking the response of four bytes loses nothing. -/
@[simp] theorem quadOfList_toList (q : Quad) : quadOfList q.toList = q := by
  cases q; rfl

/-! ### Stream and frames -/

theorem outgoing_append (a b : List Event) : outgoing (a ++ b) = outgoing a ++ outgoing b := by
  induction a with
  | nil => rfl
  | cons e es ih =>
    cases e with
    | write bytes ans =>
      cases ans with
      | accepted n => simp only [List.cons_append, outgoing]; split <;> simp [ih]
      | error => simpa [outgoing] using ih
    | _ => simpa [outgoing] using ih

theorem WholeFrames.nil (p : Params) : WholeFrames p [] := ⟨[], by simp, rfl⟩

theorem WholeFrames.append {p : Params} {a b : List Byte} (ha : WholeFrames p a) (hb : WholeFrames p b) :
    WholeFrames p (a ++ b) := by
  obtain ⟨fa, ha, rfl⟩ := ha
  obtain ⟨fb, hb, rfl⟩ := hb
  refine ⟨fa ++ fb, ?_, by simp⟩
  intro f hf
  rcases List.mem_append.mp hf with h | h
  · exact ha f h
  · exact hb f h

/-- One well-formed frame is whole frames. -/
theorem WholeFrames.one {p : Params} {f : Instr} (h1 : isFrame f = true) (h2 : f.wf p = true) : WholeFrames p (frameBytes f) :=
  ⟨[f], by simp [h1, h2], by simp⟩

theorem WholeFrames.clk (p : Params) (d : BitVec 16) : WholeFrames p (clkBytes d) :=
  WholeFrames.one (f := .clkFrame d) rfl rfl

theorem WholeFrames.gpio (p : Params) (v d : Mask) : WholeFrames p (gpioBytes v d) :=
  WholeFrames.one (f := .gpioFrame v d) rfl rfl

/-- What a write of frame bytes adds to the stream: nothing or the frame. -/
theorem WholeFrames.write {p : Params} {bytes : List Byte} (h : WholeFrames p bytes) (a : WriteAns) :
    WholeFrames p (outgoing [.write bytes a]) := by
  cases a with
  | accepted n => simp only [outgoing]; split <;> simp [h, WholeFrames.nil]
  | error => exact WholeFrames.nil p

end Sys2Proof.Machine
end

