-- ==== Sys2Proof/Laws/Decode.lean ====
section
/-!
SUPPORT. The encodings: the bits of a concatenation, the fields of a command word, and the frame decoder on the bytes of a frame.
-/

namespace Sys2Proof.Machine
theorem extract_low {n m : Nat} (x : BitVec n) (y : BitVec m) : (x ++ y).extractLsb' 0 m = y := by
  apply BitVec.eq_of_getLsbD_eq
  intro i hi
  rw [BitVec.getLsbD_extractLsb', BitVec.getLsbD_append]
  simp [hi]

theorem extract_high {n m : Nat} (x : BitVec n) (y : BitVec m) : (x ++ y).extractLsb' m n = x := by
  apply BitVec.eq_of_getLsbD_eq
  intro i hi
  rw [BitVec.getLsbD_extractLsb', BitVec.getLsbD_append]
  simp [hi]

theorem extract_append_self {n m : Nat} (w : BitVec (n + m)) : w.extractLsb' m n ++ w.extractLsb' 0 m = w := by
  apply BitVec.eq_of_getLsbD_eq
  intro i hi
  rw [BitVec.getLsbD_append]
  split <;> simp only [BitVec.getLsbD_extractLsb'] <;> grind

theorem quad_word (c : Quad) : quadOfWord (wordOfQuad c) = c := by
  obtain ⟨a, b, d, e⟩ := c
  simp only [quadOfWord, wordOfQuad, Quad.mk.injEq]
  refine ⟨?_, ?_, ?_, ?_⟩ <;>
  · apply BitVec.eq_of_getLsbD_eq
    intro i hi
    simp only [BitVec.getLsbD_extractLsb', BitVec.getLsbD_append]
    grind

theorem word16_bytes (v : BitVec 16) : word16 (lo8 v) (hi8 v) = v := extract_append_self (n := 8) (m := 8) v
theorem lo8_word16 (l h : Byte) : lo8 (word16 l h) = l := extract_low h l
theorem hi8_word16 (l h : Byte) : hi8 (word16 l h) = h := extract_high h l
theorem lo8_eq (v : BitVec 16) : lo8 v = BitVec.ofNat 8 (v.toNat % 256) := by
  apply BitVec.eq_of_toNat_eq; simp [lo8]
theorem hi8_eq (v : BitVec 16) : hi8 v = BitVec.ofNat 8 (v.toNat / 256) := by
  apply BitVec.eq_of_toNat_eq; simp [hi8, Nat.shiftRight_eq_div_pow]

theorem lengthField_toNat {n : Nat} (h : n ≤ 65536) (h1 : 1 ≤ n) : (lengthField n).toNat = n - 1 := by
  simp [lengthField]; omega


/-! ### Command words -/

@[simp] theorem opField_mkCmd (op : BitVec 5) (a : BitVec 32) : opField (mkCmd op a) = op := extract_high op a
@[simp] theorem argField_mkCmd (op : BitVec 5) (a : BitVec 32) : argField (mkCmd op a) = a := extract_low op a

@[simp] theorem argOfBit_zero (v : Bool) : (argOfBit v).getLsbD 0 = v := by cases v <;> rfl

theorem roleOfCode_roleCode (r : SRole) : roleOfCode (roleCode r) = r := by cases r <;> rfl

theorem argOfRoleByte_role (r : SRole) (b : Byte) : (argOfRoleByte r b).extractLsb' 8 3 = roleCode r := by
  apply BitVec.eq_of_getLsbD_eq
  intro i hi
  simp only [argOfRoleByte, BitVec.getLsbD_extractLsb', BitVec.getLsbD_append]
  grind

theorem argOfRoleByte_byte (r : SRole) (b : Byte) : (argOfRoleByte r b).extractLsb' 0 8 = b :=
  extract_low (0#21 ++ roleCode r) b

theorem argOfGroupMask_mask (g : GRole) (m : Mask) : (argOfGroupMask g m).extractLsb' 0 16 = m :=
  extract_low (0#15 ++ BitVec.ofBool (groupCode g)) m

theorem argOfGroupMask_role (g : GRole) (m : Mask) : groupOfCode ((argOfGroupMask g m).getLsbD 16) = g := by
  have h : (argOfGroupMask g m).getLsbD 16 = groupCode g := by
    simp only [argOfGroupMask, BitVec.getLsbD_append]
    cases g <;> simp [groupCode]
  rw [h]; cases g <;> rfl

/-- ARG of SHIFT, taken apart (log entry 8). -/
@[simp] theorem shiftArg_mode (n : BitVec 24) (m : Byte) : BitVec.extractLsb' 0 8 (n ++ m : BitVec 32) = m := extract_low n m
@[simp] theorem shiftArg_length (n : BitVec 24) (m : Byte) : BitVec.extractLsb' 8 24 (n ++ m : BitVec 32) = n := extract_high n m

/-- HOSTRES, taken apart (R68). -/
@[simp] theorem resultWord_status (a : BitVec 4) (b : BitVec 32) : BitVec.extractLsb' 32 4 (a ++ b : BitVec 36) = a := extract_high a b
@[simp] theorem resultWord_data (a : BitVec 4) (b : BitVec 32) : BitVec.extractLsb' 0 32 (a ++ b : BitVec 36) = b := extract_low a b

/-! ### Frames -/

/-- The bytes of a CLKFRAME decode to it, whatever follows (R63, R74). -/
theorem takeFrame_clk (p : Params) (d : BitVec 16) (rest : List Byte) :
    takeFrame p (clkBytes d ++ rest) = .ok (.clkFrame d, rest) := by
  simp [takeFrame, clkBytes, word16_bytes]

/-- The bytes of a GPIOFRAME decode to it, whatever follows (R64, R74). -/
theorem takeFrame_gpio (p : Params) (v d : Mask) (rest : List Byte) :
    takeFrame p (gpioBytes v d ++ rest) = .ok (.gpioFrame v d, rest) := by
  simp [takeFrame, gpioBytes, word16_bytes, opcGpioLow, opcClkDiv]

/-- The bytes of a SHIFTFRAME decode to it, whatever follows, under the constraints of R73 (R65, R74). -/
theorem takeFrame_shift {p : Params} (hp : p.wf = true) {mode : Byte} {payload : List Byte} (rest : List Byte)
    (h : (Instr.shiftFrame mode payload).wf p = true) :
    takeFrame p (shiftBytes mode payload ++ rest) = .ok (.shiftFrame mode payload, rest) := by
  obtain ⟨-, -, -, hm⟩ := (params_wf_iff p).mp hp
  simp only [Instr.wf, Bool.and_eq_true, Bool.or_eq_true, beq_iff_eq, decide_eq_true_iff, shiftMax] at h
  obtain ⟨⟨hmode, h1⟩, h2⟩ := h
  have n86 : mode ≠ opcClkDiv := by rcases hmode with rfl | rfl <;> [exact (hm _ (by decide)).1; exact (hm _ (by decide)).2]
  have n80 : mode ≠ opcGpioLow := by rcases hmode with rfl | rfl <;> [exact (hm _ (by decide)).1; exact (hm _ (by decide)).2]
  have hn : (lengthField payload.length).toNat + 1 = payload.length := by rw [lengthField_toNat (of_decide_eq_true h2) h1]; omega
  simp [takeFrame, shiftBytes, n86, n80, hmode, word16_bytes, hn]

end Sys2Proof.Machine
end

