-- ==== Sys2Proof/Laws/State.lean ====
section
/-!
SUPPORT. One lemma per field per named update of the state, each true by definition, so that no proof unfolds a record update.
-/

namespace Sys2Proof.Machine

/-! ### emit -/

@[simp] theorem emit_pinmap (s : State) (e : Event) : (s.emit e).pinmap = s.pinmap := rfl
@[simp] theorem emit_gmask (s : State) (e : Event) : (s.emit e).gmask = s.gmask := rfl
@[simp] theorem emit_dir (s : State) (e : Event) : (s.emit e).dir = s.dir := rfl
@[simp] theorem emit_inv (s : State) (e : Event) : (s.emit e).inv = s.inv := rfl
@[simp] theorem emit_val (s : State) (e : Event) : (s.emit e).val = s.val := rfl
@[simp] theorem emit_st (s : State) (e : Event) : (s.emit e).st = s.st := rfl
@[simp] theorem emit_live (s : State) (e : Event) : (s.emit e).live = s.live := rfl
@[simp] theorem emit_attempt (s : State) (e : Event) : (s.emit e).attempt = s.attempt := rfl
@[simp] theorem emit_clk (s : State) (e : Event) : (s.emit e).clk = s.clk := rfl
@[simp] theorem emit_samp (s : State) (e : Event) : (s.emit e).samp = s.samp := rfl
@[simp] theorem emit_frame (s : State) (e : Event) : (s.emit e).frame = s.frame := rfl
@[simp] theorem emit_rxBuf (s : State) (e : Event) : (s.emit e).rxBuf = s.rxBuf := rfl
@[simp] theorem emit_rx (s : State) (e : Event) : (s.emit e).rx = s.rx := rfl
@[simp] theorem emit_cfg (s : State) (e : Event) : (s.emit e).cfg = s.cfg := rfl
@[simp] theorem emit_pd (s : State) (e : Event) : (s.emit e).pd = s.pd := rfl
@[simp] theorem emit_port (s : State) (e : Event) : (s.emit e).port = s.port := rfl
@[simp] theorem emit_running (s : State) (e : Event) : (s.emit e).running = s.running := rfl
@[simp] theorem emit_ret (s : State) (e : Event) : (s.emit e).ret = s.ret := rfl
@[simp] theorem emit_resBuf (s : State) (e : Event) : (s.emit e).resBuf = s.resBuf := rfl
@[simp] theorem emit_hostRes (s : State) (e : Event) : (s.emit e).hostRes = s.hostRes := rfl
@[simp] theorem emit_env (s : State) (e : Event) : (s.emit e).env = s.env := rfl
@[simp] theorem emit_hist (s : State) (e : Event) : (s.emit e).hist = s.hist ++ [e] := rfl
@[simp] theorem emit_par (s : State) (e : Event) : (s.emit e).par = s.par := rfl

/-! ### waitFor -/

@[simp] theorem waitFor_pinmap (s : State) (d : Nat) : (s.waitFor d).pinmap = s.pinmap := rfl
@[simp] theorem waitFor_gmask (s : State) (d : Nat) : (s.waitFor d).gmask = s.gmask := rfl
@[simp] theorem waitFor_dir (s : State) (d : Nat) : (s.waitFor d).dir = s.dir := rfl
@[simp] theorem waitFor_inv (s : State) (d : Nat) : (s.waitFor d).inv = s.inv := rfl
@[simp] theorem waitFor_val (s : State) (d : Nat) : (s.waitFor d).val = s.val := rfl
@[simp] theorem waitFor_st (s : State) (d : Nat) : (s.waitFor d).st = s.st := rfl
@[simp] theorem waitFor_live (s : State) (d : Nat) : (s.waitFor d).live = s.live := rfl
@[simp] theorem waitFor_attempt (s : State) (d : Nat) : (s.waitFor d).attempt = s.attempt := rfl
@[simp] theorem waitFor_clk (s : State) (d : Nat) : (s.waitFor d).clk = s.clk := rfl
@[simp] theorem waitFor_samp (s : State) (d : Nat) : (s.waitFor d).samp = s.samp := rfl
@[simp] theorem waitFor_frame (s : State) (d : Nat) : (s.waitFor d).frame = s.frame := rfl
@[simp] theorem waitFor_rxBuf (s : State) (d : Nat) : (s.waitFor d).rxBuf = s.rxBuf := rfl
@[simp] theorem waitFor_rx (s : State) (d : Nat) : (s.waitFor d).rx = s.rx := rfl
@[simp] theorem waitFor_cfg (s : State) (d : Nat) : (s.waitFor d).cfg = s.cfg := rfl
@[simp] theorem waitFor_pd (s : State) (d : Nat) : (s.waitFor d).pd = s.pd := rfl
@[simp] theorem waitFor_port (s : State) (d : Nat) : (s.waitFor d).port = s.port := rfl
@[simp] theorem waitFor_running (s : State) (d : Nat) : (s.waitFor d).running = s.running := rfl
@[simp] theorem waitFor_ret (s : State) (d : Nat) : (s.waitFor d).ret = s.ret := rfl
@[simp] theorem waitFor_resBuf (s : State) (d : Nat) : (s.waitFor d).resBuf = s.resBuf := rfl
@[simp] theorem waitFor_hostRes (s : State) (d : Nat) : (s.waitFor d).hostRes = s.hostRes := rfl
@[simp] theorem waitFor_env (s : State) (d : Nat) : (s.waitFor d).env = s.env := rfl
@[simp] theorem waitFor_hist (s : State) (d : Nat) : (s.waitFor d).hist = s.hist ++ [.wait d] := rfl
@[simp] theorem waitFor_par (s : State) (d : Nat) : (s.waitFor d).par = s.par := rfl

/-! ### diag -/

@[simp] theorem diag_pinmap (s : State) (k : DiagKind) (i : DiagInfo) : (s.diag k i).pinmap = s.pinmap := rfl
@[simp] theorem diag_gmask (s : State) (k : DiagKind) (i : DiagInfo) : (s.diag k i).gmask = s.gmask := rfl
@[simp] theorem diag_dir (s : State) (k : DiagKind) (i : DiagInfo) : (s.diag k i).dir = s.dir := rfl
@[simp] theorem diag_inv (s : State) (k : DiagKind) (i : DiagInfo) : (s.diag k i).inv = s.inv := rfl
@[simp] theorem diag_val (s : State) (k : DiagKind) (i : DiagInfo) : (s.diag k i).val = s.val := rfl
@[simp] theorem diag_st (s : State) (k : DiagKind) (i : DiagInfo) : (s.diag k i).st = s.st := rfl
@[simp] theorem diag_live (s : State) (k : DiagKind) (i : DiagInfo) : (s.diag k i).live = s.live := rfl
@[simp] theorem diag_attempt (s : State) (k : DiagKind) (i : DiagInfo) : (s.diag k i).attempt = s.attempt := rfl
@[simp] theorem diag_clk (s : State) (k : DiagKind) (i : DiagInfo) : (s.diag k i).clk = s.clk := rfl
@[simp] theorem diag_samp (s : State) (k : DiagKind) (i : DiagInfo) : (s.diag k i).samp = s.samp := rfl
@[simp] theorem diag_frame (s : State) (k : DiagKind) (i : DiagInfo) : (s.diag k i).frame = s.frame := rfl
@[simp] theorem diag_rxBuf (s : State) (k : DiagKind) (i : DiagInfo) : (s.diag k i).rxBuf = s.rxBuf := rfl
@[simp] theorem diag_rx (s : State) (k : DiagKind) (i : DiagInfo) : (s.diag k i).rx = s.rx := rfl
@[simp] theorem diag_cfg (s : State) (k : DiagKind) (i : DiagInfo) : (s.diag k i).cfg = s.cfg := rfl
@[simp] theorem diag_pd (s : State) (k : DiagKind) (i : DiagInfo) : (s.diag k i).pd = s.pd := rfl
@[simp] theorem diag_port (s : State) (k : DiagKind) (i : DiagInfo) : (s.diag k i).port = s.port := rfl
@[simp] theorem diag_running (s : State) (k : DiagKind) (i : DiagInfo) : (s.diag k i).running = s.running := rfl
@[simp] theorem diag_ret (s : State) (k : DiagKind) (i : DiagInfo) : (s.diag k i).ret = s.ret := rfl
@[simp] theorem diag_resBuf (s : State) (k : DiagKind) (i : DiagInfo) : (s.diag k i).resBuf = s.resBuf := rfl
@[simp] theorem diag_hostRes (s : State) (k : DiagKind) (i : DiagInfo) : (s.diag k i).hostRes = s.hostRes := rfl
@[simp] theorem diag_env (s : State) (k : DiagKind) (i : DiagInfo) : (s.diag k i).env = s.env := rfl
@[simp] theorem diag_hist (s : State) (k : DiagKind) (i : DiagInfo) : (s.diag k i).hist = s.hist ++ [.diag k i] := rfl
@[simp] theorem diag_par (s : State) (k : DiagKind) (i : DiagInfo) : (s.diag k i).par = s.par := rfl

/-! ### tClose -/

@[simp] theorem tClose_pinmap (s : State) : (tClose s).pinmap = s.pinmap := rfl
@[simp] theorem tClose_gmask (s : State) : (tClose s).gmask = s.gmask := rfl
@[simp] theorem tClose_dir (s : State) : (tClose s).dir = s.dir := rfl
@[simp] theorem tClose_inv (s : State) : (tClose s).inv = s.inv := rfl
@[simp] theorem tClose_val (s : State) : (tClose s).val = s.val := rfl
@[simp] theorem tClose_st (s : State) : (tClose s).st = s.st := rfl
@[simp] theorem tClose_live (s : State) : (tClose s).live = s.live := rfl
@[simp] theorem tClose_attempt (s : State) : (tClose s).attempt = s.attempt := rfl
@[simp] theorem tClose_clk (s : State) : (tClose s).clk = s.clk := rfl
@[simp] theorem tClose_samp (s : State) : (tClose s).samp = s.samp := rfl
@[simp] theorem tClose_frame (s : State) : (tClose s).frame = s.frame := rfl
@[simp] theorem tClose_rxBuf (s : State) : (tClose s).rxBuf = s.rxBuf := rfl
@[simp] theorem tClose_rx (s : State) : (tClose s).rx = s.rx := rfl
@[simp] theorem tClose_cfg (s : State) : (tClose s).cfg = s.cfg := rfl
@[simp] theorem tClose_pd (s : State) : (tClose s).pd = s.pd := rfl
@[simp] theorem tClose_port (s : State) : (tClose s).port = s.port := rfl
@[simp] theorem tClose_running (s : State) : (tClose s).running = s.running := rfl
@[simp] theorem tClose_ret (s : State) : (tClose s).ret = s.ret := rfl
@[simp] theorem tClose_resBuf (s : State) : (tClose s).resBuf = s.resBuf := rfl
@[simp] theorem tClose_hostRes (s : State) : (tClose s).hostRes = s.hostRes := rfl
@[simp] theorem tClose_env (s : State) : (tClose s).env = s.env := rfl
@[simp] theorem tClose_hist (s : State) : (tClose s).hist = s.hist ++ [.close] := rfl
@[simp] theorem tClose_par (s : State) : (tClose s).par = s.par := rfl

/-! ### tOpen -/

@[simp] theorem tOpen_pinmap (v p : BitVec 16) (s : State) : (tOpen v p s).pinmap = s.pinmap := rfl
@[simp] theorem tOpen_gmask (v p : BitVec 16) (s : State) : (tOpen v p s).gmask = s.gmask := rfl
@[simp] theorem tOpen_dir (v p : BitVec 16) (s : State) : (tOpen v p s).dir = s.dir := rfl
@[simp] theorem tOpen_inv (v p : BitVec 16) (s : State) : (tOpen v p s).inv = s.inv := rfl
@[simp] theorem tOpen_val (v p : BitVec 16) (s : State) : (tOpen v p s).val = s.val := rfl
@[simp] theorem tOpen_st (v p : BitVec 16) (s : State) : (tOpen v p s).st = s.st := rfl
@[simp] theorem tOpen_live (v p : BitVec 16) (s : State) : (tOpen v p s).live = s.live := rfl
@[simp] theorem tOpen_attempt (v p : BitVec 16) (s : State) : (tOpen v p s).attempt = s.attempt := rfl
@[simp] theorem tOpen_clk (v p : BitVec 16) (s : State) : (tOpen v p s).clk = s.clk := rfl
@[simp] theorem tOpen_samp (v p : BitVec 16) (s : State) : (tOpen v p s).samp = s.samp := rfl
@[simp] theorem tOpen_frame (v p : BitVec 16) (s : State) : (tOpen v p s).frame = s.frame := rfl
@[simp] theorem tOpen_rxBuf (v p : BitVec 16) (s : State) : (tOpen v p s).rxBuf = s.rxBuf := rfl
@[simp] theorem tOpen_rx (v p : BitVec 16) (s : State) : (tOpen v p s).rx = s.rx := rfl
@[simp] theorem tOpen_cfg (v p : BitVec 16) (s : State) : (tOpen v p s).cfg = s.cfg := rfl
@[simp] theorem tOpen_pd (v p : BitVec 16) (s : State) : (tOpen v p s).pd = s.pd := rfl
@[simp] theorem tOpen_port (v p : BitVec 16) (s : State) : (tOpen v p s).port = s.port := rfl
@[simp] theorem tOpen_running (v p : BitVec 16) (s : State) : (tOpen v p s).running = s.running := rfl
@[simp] theorem tOpen_ret (v p : BitVec 16) (s : State) : (tOpen v p s).ret = s.ret := rfl
@[simp] theorem tOpen_resBuf (v p : BitVec 16) (s : State) : (tOpen v p s).resBuf = s.resBuf := rfl
@[simp] theorem tOpen_hostRes (v p : BitVec 16) (s : State) : (tOpen v p s).hostRes = s.hostRes := rfl
@[simp] theorem tOpen_env (v p : BitVec 16) (s : State) : (tOpen v p s).env = { s.env with opens := s.env.opens.tail } := rfl
@[simp] theorem tOpen_hist (v p : BitVec 16) (s : State) : (tOpen v p s).hist = s.hist ++ [.opened v p (openAnswer v p s)] := rfl
@[simp] theorem tOpen_par (v p : BitVec 16) (s : State) : (tOpen v p s).par = s.par := rfl

/-! ### tSetMode -/

@[simp] theorem tSetMode_pinmap (d : Mask) (m : Byte) (s : State) : (tSetMode d m s).pinmap = s.pinmap := rfl
@[simp] theorem tSetMode_gmask (d : Mask) (m : Byte) (s : State) : (tSetMode d m s).gmask = s.gmask := rfl
@[simp] theorem tSetMode_dir (d : Mask) (m : Byte) (s : State) : (tSetMode d m s).dir = s.dir := rfl
@[simp] theorem tSetMode_inv (d : Mask) (m : Byte) (s : State) : (tSetMode d m s).inv = s.inv := rfl
@[simp] theorem tSetMode_val (d : Mask) (m : Byte) (s : State) : (tSetMode d m s).val = s.val := rfl
@[simp] theorem tSetMode_st (d : Mask) (m : Byte) (s : State) : (tSetMode d m s).st = s.st := rfl
@[simp] theorem tSetMode_live (d : Mask) (m : Byte) (s : State) : (tSetMode d m s).live = s.live := rfl
@[simp] theorem tSetMode_attempt (d : Mask) (m : Byte) (s : State) : (tSetMode d m s).attempt = s.attempt := rfl
@[simp] theorem tSetMode_clk (d : Mask) (m : Byte) (s : State) : (tSetMode d m s).clk = s.clk := rfl
@[simp] theorem tSetMode_samp (d : Mask) (m : Byte) (s : State) : (tSetMode d m s).samp = s.samp := rfl
@[simp] theorem tSetMode_frame (d : Mask) (m : Byte) (s : State) : (tSetMode d m s).frame = s.frame := rfl
@[simp] theorem tSetMode_rxBuf (d : Mask) (m : Byte) (s : State) : (tSetMode d m s).rxBuf = s.rxBuf := rfl
@[simp] theorem tSetMode_rx (d : Mask) (m : Byte) (s : State) : (tSetMode d m s).rx = s.rx := rfl
@[simp] theorem tSetMode_cfg (d : Mask) (m : Byte) (s : State) : (tSetMode d m s).cfg = s.cfg := rfl
@[simp] theorem tSetMode_pd (d : Mask) (m : Byte) (s : State) : (tSetMode d m s).pd = s.pd := rfl
@[simp] theorem tSetMode_port (d : Mask) (m : Byte) (s : State) : (tSetMode d m s).port = s.port := rfl
@[simp] theorem tSetMode_running (d : Mask) (m : Byte) (s : State) : (tSetMode d m s).running = s.running := rfl
@[simp] theorem tSetMode_ret (d : Mask) (m : Byte) (s : State) : (tSetMode d m s).ret = s.ret := rfl
@[simp] theorem tSetMode_resBuf (d : Mask) (m : Byte) (s : State) : (tSetMode d m s).resBuf = s.resBuf := rfl
@[simp] theorem tSetMode_hostRes (d : Mask) (m : Byte) (s : State) : (tSetMode d m s).hostRes = s.hostRes := rfl
@[simp] theorem tSetMode_env (d : Mask) (m : Byte) (s : State) : (tSetMode d m s).env = { s.env with modes := s.env.modes.tail } := rfl
@[simp] theorem tSetMode_hist (d : Mask) (m : Byte) (s : State) : (tSetMode d m s).hist = s.hist ++ [.setMode d m (modeAnswer d m s)] := rfl
@[simp] theorem tSetMode_par (d : Mask) (m : Byte) (s : State) : (tSetMode d m s).par = s.par := rfl

/-! ### tWrite -/

@[simp] theorem tWrite_pinmap (b : List Byte) (s : State) : (tWrite b s).pinmap = s.pinmap := rfl
@[simp] theorem tWrite_gmask (b : List Byte) (s : State) : (tWrite b s).gmask = s.gmask := rfl
@[simp] theorem tWrite_dir (b : List Byte) (s : State) : (tWrite b s).dir = s.dir := rfl
@[simp] theorem tWrite_inv (b : List Byte) (s : State) : (tWrite b s).inv = s.inv := rfl
@[simp] theorem tWrite_val (b : List Byte) (s : State) : (tWrite b s).val = s.val := rfl
@[simp] theorem tWrite_st (b : List Byte) (s : State) : (tWrite b s).st = s.st := rfl
@[simp] theorem tWrite_live (b : List Byte) (s : State) : (tWrite b s).live = s.live := rfl
@[simp] theorem tWrite_attempt (b : List Byte) (s : State) : (tWrite b s).attempt = s.attempt := rfl
@[simp] theorem tWrite_clk (b : List Byte) (s : State) : (tWrite b s).clk = s.clk := rfl
@[simp] theorem tWrite_samp (b : List Byte) (s : State) : (tWrite b s).samp = s.samp := rfl
@[simp] theorem tWrite_frame (b : List Byte) (s : State) : (tWrite b s).frame = s.frame := rfl
@[simp] theorem tWrite_rxBuf (b : List Byte) (s : State) : (tWrite b s).rxBuf = s.rxBuf := rfl
@[simp] theorem tWrite_rx (b : List Byte) (s : State) : (tWrite b s).rx = s.rx := rfl
@[simp] theorem tWrite_cfg (b : List Byte) (s : State) : (tWrite b s).cfg = s.cfg := rfl
@[simp] theorem tWrite_pd (b : List Byte) (s : State) : (tWrite b s).pd = s.pd := rfl
@[simp] theorem tWrite_port (b : List Byte) (s : State) : (tWrite b s).port = s.port := rfl
@[simp] theorem tWrite_running (b : List Byte) (s : State) : (tWrite b s).running = s.running := rfl
@[simp] theorem tWrite_ret (b : List Byte) (s : State) : (tWrite b s).ret = s.ret := rfl
@[simp] theorem tWrite_resBuf (b : List Byte) (s : State) : (tWrite b s).resBuf = s.resBuf := rfl
@[simp] theorem tWrite_hostRes (b : List Byte) (s : State) : (tWrite b s).hostRes = s.hostRes := rfl
@[simp] theorem tWrite_env (b : List Byte) (s : State) : (tWrite b s).env = { s.env with writes := s.env.writes.tail } := rfl
@[simp] theorem tWrite_hist (b : List Byte) (s : State) : (tWrite b s).hist = s.hist ++ [.write b (writeAnswer b s)] := rfl
@[simp] theorem tWrite_par (b : List Byte) (s : State) : (tWrite b s).par = s.par := rfl

/-! ### tRead -/

@[simp] theorem tRead_pinmap (n : Nat) (s : State) : (tRead n s).pinmap = s.pinmap := rfl
@[simp] theorem tRead_gmask (n : Nat) (s : State) : (tRead n s).gmask = s.gmask := rfl
@[simp] theorem tRead_dir (n : Nat) (s : State) : (tRead n s).dir = s.dir := rfl
@[simp] theorem tRead_inv (n : Nat) (s : State) : (tRead n s).inv = s.inv := rfl
@[simp] theorem tRead_val (n : Nat) (s : State) : (tRead n s).val = s.val := rfl
@[simp] theorem tRead_st (n : Nat) (s : State) : (tRead n s).st = s.st := rfl
@[simp] theorem tRead_live (n : Nat) (s : State) : (tRead n s).live = s.live := rfl
@[simp] theorem tRead_attempt (n : Nat) (s : State) : (tRead n s).attempt = s.attempt := rfl
@[simp] theorem tRead_clk (n : Nat) (s : State) : (tRead n s).clk = s.clk := rfl
@[simp] theorem tRead_samp (n : Nat) (s : State) : (tRead n s).samp = s.samp := rfl
@[simp] theorem tRead_frame (n : Nat) (s : State) : (tRead n s).frame = s.frame := rfl
@[simp] theorem tRead_rxBuf (n : Nat) (s : State) : (tRead n s).rxBuf = s.rxBuf := rfl
@[simp] theorem tRead_rx (n : Nat) (s : State) : (tRead n s).rx = s.rx := rfl
@[simp] theorem tRead_cfg (n : Nat) (s : State) : (tRead n s).cfg = s.cfg := rfl
@[simp] theorem tRead_pd (n : Nat) (s : State) : (tRead n s).pd = s.pd := rfl
@[simp] theorem tRead_port (n : Nat) (s : State) : (tRead n s).port = s.port := rfl
@[simp] theorem tRead_running (n : Nat) (s : State) : (tRead n s).running = s.running := rfl
@[simp] theorem tRead_ret (n : Nat) (s : State) : (tRead n s).ret = s.ret := rfl
@[simp] theorem tRead_resBuf (n : Nat) (s : State) : (tRead n s).resBuf = s.resBuf := rfl
@[simp] theorem tRead_hostRes (n : Nat) (s : State) : (tRead n s).hostRes = s.hostRes := rfl
@[simp] theorem tRead_env (n : Nat) (s : State) : (tRead n s).env = { s.env with reads := s.env.reads.tail } := rfl
@[simp] theorem tRead_hist (n : Nat) (s : State) : (tRead n s).hist = s.hist ++ [.read n (readAnswer n s)] := rfl
@[simp] theorem tRead_par (n : Nat) (s : State) : (tRead n s).par = s.par := rfl

/-! ### conclude_host -/

@[simp] theorem conclude_host_pinmap (c : BitVec 4) (d : BitVec 32) (s : State) : (conclude .host c d s).pinmap = s.pinmap := rfl
@[simp] theorem conclude_host_gmask (c : BitVec 4) (d : BitVec 32) (s : State) : (conclude .host c d s).gmask = s.gmask := rfl
@[simp] theorem conclude_host_dir (c : BitVec 4) (d : BitVec 32) (s : State) : (conclude .host c d s).dir = s.dir := rfl
@[simp] theorem conclude_host_inv (c : BitVec 4) (d : BitVec 32) (s : State) : (conclude .host c d s).inv = s.inv := rfl
@[simp] theorem conclude_host_val (c : BitVec 4) (d : BitVec 32) (s : State) : (conclude .host c d s).val = s.val := rfl
@[simp] theorem conclude_host_st (c : BitVec 4) (d : BitVec 32) (s : State) : (conclude .host c d s).st = s.st := rfl
@[simp] theorem conclude_host_live (c : BitVec 4) (d : BitVec 32) (s : State) : (conclude .host c d s).live = s.live := rfl
@[simp] theorem conclude_host_attempt (c : BitVec 4) (d : BitVec 32) (s : State) : (conclude .host c d s).attempt = s.attempt := rfl
@[simp] theorem conclude_host_clk (c : BitVec 4) (d : BitVec 32) (s : State) : (conclude .host c d s).clk = s.clk := rfl
@[simp] theorem conclude_host_samp (c : BitVec 4) (d : BitVec 32) (s : State) : (conclude .host c d s).samp = s.samp := rfl
@[simp] theorem conclude_host_frame (c : BitVec 4) (d : BitVec 32) (s : State) : (conclude .host c d s).frame = s.frame := rfl
@[simp] theorem conclude_host_rxBuf (c : BitVec 4) (d : BitVec 32) (s : State) : (conclude .host c d s).rxBuf = s.rxBuf := rfl
@[simp] theorem conclude_host_rx (c : BitVec 4) (d : BitVec 32) (s : State) : (conclude .host c d s).rx = s.rx := rfl
@[simp] theorem conclude_host_cfg (c : BitVec 4) (d : BitVec 32) (s : State) : (conclude .host c d s).cfg = s.cfg := rfl
@[simp] theorem conclude_host_pd (c : BitVec 4) (d : BitVec 32) (s : State) : (conclude .host c d s).pd = s.pd := rfl
@[simp] theorem conclude_host_port (c : BitVec 4) (d : BitVec 32) (s : State) : (conclude .host c d s).port = s.port := rfl
@[simp] theorem conclude_host_running (c : BitVec 4) (d : BitVec 32) (s : State) : (conclude .host c d s).running = s.running := rfl
@[simp] theorem conclude_host_ret (c : BitVec 4) (d : BitVec 32) (s : State) : (conclude .host c d s).ret = s.ret := rfl
@[simp] theorem conclude_host_resBuf (c : BitVec 4) (d : BitVec 32) (s : State) : (conclude .host c d s).resBuf = some ⟨c, d⟩ := rfl
@[simp] theorem conclude_host_hostRes (c : BitVec 4) (d : BitVec 32) (s : State) : (conclude .host c d s).hostRes = s.hostRes := rfl
@[simp] theorem conclude_host_env (c : BitVec 4) (d : BitVec 32) (s : State) : (conclude .host c d s).env = s.env := rfl
@[simp] theorem conclude_host_hist (c : BitVec 4) (d : BitVec 32) (s : State) : (conclude .host c d s).hist = s.hist := rfl
@[simp] theorem conclude_host_par (c : BitVec 4) (d : BitVec 32) (s : State) : (conclude .host c d s).par = s.par := rfl

/-! ### conclude_inner -/

@[simp] theorem conclude_inner_pinmap (c : BitVec 4) (d : BitVec 32) (s : State) : (conclude .inner c d s).pinmap = s.pinmap := rfl
@[simp] theorem conclude_inner_gmask (c : BitVec 4) (d : BitVec 32) (s : State) : (conclude .inner c d s).gmask = s.gmask := rfl
@[simp] theorem conclude_inner_dir (c : BitVec 4) (d : BitVec 32) (s : State) : (conclude .inner c d s).dir = s.dir := rfl
@[simp] theorem conclude_inner_inv (c : BitVec 4) (d : BitVec 32) (s : State) : (conclude .inner c d s).inv = s.inv := rfl
@[simp] theorem conclude_inner_val (c : BitVec 4) (d : BitVec 32) (s : State) : (conclude .inner c d s).val = s.val := rfl
@[simp] theorem conclude_inner_st (c : BitVec 4) (d : BitVec 32) (s : State) : (conclude .inner c d s).st = s.st := rfl
@[simp] theorem conclude_inner_live (c : BitVec 4) (d : BitVec 32) (s : State) : (conclude .inner c d s).live = s.live := rfl
@[simp] theorem conclude_inner_attempt (c : BitVec 4) (d : BitVec 32) (s : State) : (conclude .inner c d s).attempt = s.attempt := rfl
@[simp] theorem conclude_inner_clk (c : BitVec 4) (d : BitVec 32) (s : State) : (conclude .inner c d s).clk = s.clk := rfl
@[simp] theorem conclude_inner_samp (c : BitVec 4) (d : BitVec 32) (s : State) : (conclude .inner c d s).samp = s.samp := rfl
@[simp] theorem conclude_inner_frame (c : BitVec 4) (d : BitVec 32) (s : State) : (conclude .inner c d s).frame = s.frame := rfl
@[simp] theorem conclude_inner_rxBuf (c : BitVec 4) (d : BitVec 32) (s : State) : (conclude .inner c d s).rxBuf = s.rxBuf := rfl
@[simp] theorem conclude_inner_rx (c : BitVec 4) (d : BitVec 32) (s : State) : (conclude .inner c d s).rx = s.rx := rfl
@[simp] theorem conclude_inner_cfg (c : BitVec 4) (d : BitVec 32) (s : State) : (conclude .inner c d s).cfg = s.cfg := rfl
@[simp] theorem conclude_inner_pd (c : BitVec 4) (d : BitVec 32) (s : State) : (conclude .inner c d s).pd = s.pd := rfl
@[simp] theorem conclude_inner_port (c : BitVec 4) (d : BitVec 32) (s : State) : (conclude .inner c d s).port = s.port := rfl
@[simp] theorem conclude_inner_running (c : BitVec 4) (d : BitVec 32) (s : State) : (conclude .inner c d s).running = s.running := rfl
@[simp] theorem conclude_inner_ret (c : BitVec 4) (d : BitVec 32) (s : State) : (conclude .inner c d s).ret = ⟨c, d⟩ := rfl
@[simp] theorem conclude_inner_resBuf (c : BitVec 4) (d : BitVec 32) (s : State) : (conclude .inner c d s).resBuf = s.resBuf := rfl
@[simp] theorem conclude_inner_hostRes (c : BitVec 4) (d : BitVec 32) (s : State) : (conclude .inner c d s).hostRes = s.hostRes := rfl
@[simp] theorem conclude_inner_env (c : BitVec 4) (d : BitVec 32) (s : State) : (conclude .inner c d s).env = s.env := rfl
@[simp] theorem conclude_inner_hist (c : BitVec 4) (d : BitVec 32) (s : State) : (conclude .inner c d s).hist = s.hist := rfl
@[simp] theorem conclude_inner_par (c : BitVec 4) (d : BitVec 32) (s : State) : (conclude .inner c d s).par = s.par := rfl

/-! ### presentResult -/

@[simp] theorem presentResult_pinmap (r : HostRes) (s : State) : (presentResult r s).pinmap = s.pinmap := rfl
@[simp] theorem presentResult_gmask (r : HostRes) (s : State) : (presentResult r s).gmask = s.gmask := rfl
@[simp] theorem presentResult_dir (r : HostRes) (s : State) : (presentResult r s).dir = s.dir := rfl
@[simp] theorem presentResult_inv (r : HostRes) (s : State) : (presentResult r s).inv = s.inv := rfl
@[simp] theorem presentResult_val (r : HostRes) (s : State) : (presentResult r s).val = s.val := rfl
@[simp] theorem presentResult_st (r : HostRes) (s : State) : (presentResult r s).st = s.st := rfl
@[simp] theorem presentResult_live (r : HostRes) (s : State) : (presentResult r s).live = s.live := rfl
@[simp] theorem presentResult_attempt (r : HostRes) (s : State) : (presentResult r s).attempt = s.attempt := rfl
@[simp] theorem presentResult_clk (r : HostRes) (s : State) : (presentResult r s).clk = s.clk := rfl
@[simp] theorem presentResult_samp (r : HostRes) (s : State) : (presentResult r s).samp = s.samp := rfl
@[simp] theorem presentResult_frame (r : HostRes) (s : State) : (presentResult r s).frame = s.frame := rfl
@[simp] theorem presentResult_rxBuf (r : HostRes) (s : State) : (presentResult r s).rxBuf = s.rxBuf := rfl
@[simp] theorem presentResult_rx (r : HostRes) (s : State) : (presentResult r s).rx = s.rx := rfl
@[simp] theorem presentResult_cfg (r : HostRes) (s : State) : (presentResult r s).cfg = s.cfg := rfl
@[simp] theorem presentResult_pd (r : HostRes) (s : State) : (presentResult r s).pd = s.pd := rfl
@[simp] theorem presentResult_port (r : HostRes) (s : State) : (presentResult r s).port = s.port := rfl
@[simp] theorem presentResult_running (r : HostRes) (s : State) : (presentResult r s).running = none := rfl
@[simp] theorem presentResult_ret (r : HostRes) (s : State) : (presentResult r s).ret = s.ret := rfl
@[simp] theorem presentResult_resBuf (r : HostRes) (s : State) : (presentResult r s).resBuf = s.resBuf := rfl
@[simp] theorem presentResult_hostRes (r : HostRes) (s : State) : (presentResult r s).hostRes = some r := rfl
@[simp] theorem presentResult_env (r : HostRes) (s : State) : (presentResult r s).env = s.env := rfl
@[simp] theorem presentResult_hist (r : HostRes) (s : State) : (presentResult r s).hist = s.hist ++ (match s.running with | some op => [.result op r] | none => []) := rfl
@[simp] theorem presentResult_par (r : HostRes) (s : State) : (presentResult r s).par = s.par := rfl

/-! ### writeCfgPin -/

@[simp] theorem writeCfgPin_pinmap (r : SRole) (w : Byte) (s : State) : (writeCfgPin r w s).pinmap = s.pinmap := rfl
@[simp] theorem writeCfgPin_gmask (r : SRole) (w : Byte) (s : State) : (writeCfgPin r w s).gmask = s.gmask := rfl
@[simp] theorem writeCfgPin_dir (r : SRole) (w : Byte) (s : State) : (writeCfgPin r w s).dir = s.dir := rfl
@[simp] theorem writeCfgPin_inv (r : SRole) (w : Byte) (s : State) : (writeCfgPin r w s).inv = s.inv := rfl
@[simp] theorem writeCfgPin_val (r : SRole) (w : Byte) (s : State) : (writeCfgPin r w s).val = s.val := rfl
@[simp] theorem writeCfgPin_st (r : SRole) (w : Byte) (s : State) : (writeCfgPin r w s).st = s.st := rfl
@[simp] theorem writeCfgPin_live (r : SRole) (w : Byte) (s : State) : (writeCfgPin r w s).live = s.live := rfl
@[simp] theorem writeCfgPin_attempt (r : SRole) (w : Byte) (s : State) : (writeCfgPin r w s).attempt = s.attempt := rfl
@[simp] theorem writeCfgPin_clk (r : SRole) (w : Byte) (s : State) : (writeCfgPin r w s).clk = s.clk := rfl
@[simp] theorem writeCfgPin_samp (r : SRole) (w : Byte) (s : State) : (writeCfgPin r w s).samp = s.samp := rfl
@[simp] theorem writeCfgPin_frame (r : SRole) (w : Byte) (s : State) : (writeCfgPin r w s).frame = s.frame := rfl
@[simp] theorem writeCfgPin_rxBuf (r : SRole) (w : Byte) (s : State) : (writeCfgPin r w s).rxBuf = s.rxBuf := rfl
@[simp] theorem writeCfgPin_rx (r : SRole) (w : Byte) (s : State) : (writeCfgPin r w s).rx = s.rx := rfl
@[simp] theorem writeCfgPin_cfg (r : SRole) (w : Byte) (s : State) : (writeCfgPin r w s).cfg = { s.cfg with pin := s.cfg.pin.set r w } := rfl
@[simp] theorem writeCfgPin_pd (r : SRole) (w : Byte) (s : State) : (writeCfgPin r w s).pd = s.pd := rfl
@[simp] theorem writeCfgPin_port (r : SRole) (w : Byte) (s : State) : (writeCfgPin r w s).port = s.port := rfl
@[simp] theorem writeCfgPin_running (r : SRole) (w : Byte) (s : State) : (writeCfgPin r w s).running = s.running := rfl
@[simp] theorem writeCfgPin_ret (r : SRole) (w : Byte) (s : State) : (writeCfgPin r w s).ret = s.ret := rfl
@[simp] theorem writeCfgPin_resBuf (r : SRole) (w : Byte) (s : State) : (writeCfgPin r w s).resBuf = s.resBuf := rfl
@[simp] theorem writeCfgPin_hostRes (r : SRole) (w : Byte) (s : State) : (writeCfgPin r w s).hostRes = s.hostRes := rfl
@[simp] theorem writeCfgPin_env (r : SRole) (w : Byte) (s : State) : (writeCfgPin r w s).env = s.env := rfl
@[simp] theorem writeCfgPin_hist (r : SRole) (w : Byte) (s : State) : (writeCfgPin r w s).hist = s.hist := rfl
@[simp] theorem writeCfgPin_par (r : SRole) (w : Byte) (s : State) : (writeCfgPin r w s).par = s.par := rfl

/-! ### writeCfgGroup -/

@[simp] theorem writeCfgGroup_pinmap (g : GRole) (m : Mask) (s : State) : (writeCfgGroup g m s).pinmap = s.pinmap := rfl
@[simp] theorem writeCfgGroup_gmask (g : GRole) (m : Mask) (s : State) : (writeCfgGroup g m s).gmask = s.gmask := rfl
@[simp] theorem writeCfgGroup_dir (g : GRole) (m : Mask) (s : State) : (writeCfgGroup g m s).dir = s.dir := rfl
@[simp] theorem writeCfgGroup_inv (g : GRole) (m : Mask) (s : State) : (writeCfgGroup g m s).inv = s.inv := rfl
@[simp] theorem writeCfgGroup_val (g : GRole) (m : Mask) (s : State) : (writeCfgGroup g m s).val = s.val := rfl
@[simp] theorem writeCfgGroup_st (g : GRole) (m : Mask) (s : State) : (writeCfgGroup g m s).st = s.st := rfl
@[simp] theorem writeCfgGroup_live (g : GRole) (m : Mask) (s : State) : (writeCfgGroup g m s).live = s.live := rfl
@[simp] theorem writeCfgGroup_attempt (g : GRole) (m : Mask) (s : State) : (writeCfgGroup g m s).attempt = s.attempt := rfl
@[simp] theorem writeCfgGroup_clk (g : GRole) (m : Mask) (s : State) : (writeCfgGroup g m s).clk = s.clk := rfl
@[simp] theorem writeCfgGroup_samp (g : GRole) (m : Mask) (s : State) : (writeCfgGroup g m s).samp = s.samp := rfl
@[simp] theorem writeCfgGroup_frame (g : GRole) (m : Mask) (s : State) : (writeCfgGroup g m s).frame = s.frame := rfl
@[simp] theorem writeCfgGroup_rxBuf (g : GRole) (m : Mask) (s : State) : (writeCfgGroup g m s).rxBuf = s.rxBuf := rfl
@[simp] theorem writeCfgGroup_rx (g : GRole) (m : Mask) (s : State) : (writeCfgGroup g m s).rx = s.rx := rfl
@[simp] theorem writeCfgGroup_cfg (g : GRole) (m : Mask) (s : State) : (writeCfgGroup g m s).cfg = { s.cfg with group := s.cfg.group.set g m } := rfl
@[simp] theorem writeCfgGroup_pd (g : GRole) (m : Mask) (s : State) : (writeCfgGroup g m s).pd = s.pd := rfl
@[simp] theorem writeCfgGroup_port (g : GRole) (m : Mask) (s : State) : (writeCfgGroup g m s).port = s.port := rfl
@[simp] theorem writeCfgGroup_running (g : GRole) (m : Mask) (s : State) : (writeCfgGroup g m s).running = s.running := rfl
@[simp] theorem writeCfgGroup_ret (g : GRole) (m : Mask) (s : State) : (writeCfgGroup g m s).ret = s.ret := rfl
@[simp] theorem writeCfgGroup_resBuf (g : GRole) (m : Mask) (s : State) : (writeCfgGroup g m s).resBuf = s.resBuf := rfl
@[simp] theorem writeCfgGroup_hostRes (g : GRole) (m : Mask) (s : State) : (writeCfgGroup g m s).hostRes = s.hostRes := rfl
@[simp] theorem writeCfgGroup_env (g : GRole) (m : Mask) (s : State) : (writeCfgGroup g m s).env = s.env := rfl
@[simp] theorem writeCfgGroup_hist (g : GRole) (m : Mask) (s : State) : (writeCfgGroup g m s).hist = s.hist := rfl
@[simp] theorem writeCfgGroup_par (g : GRole) (m : Mask) (s : State) : (writeCfgGroup g m s).par = s.par := rfl

/-! ### clearSession -/

@[simp] theorem clearSession_pinmap (s : State) : (clearSession s).pinmap = .zero := rfl
@[simp] theorem clearSession_gmask (s : State) : (clearSession s).gmask = .zero := rfl
@[simp] theorem clearSession_dir (s : State) : (clearSession s).dir = 0#16 := rfl
@[simp] theorem clearSession_inv (s : State) : (clearSession s).inv = 0#16 := rfl
@[simp] theorem clearSession_val (s : State) : (clearSession s).val = 0#16 := rfl
@[simp] theorem clearSession_st (s : State) : (clearSession s).st = s.st := rfl
@[simp] theorem clearSession_live (s : State) : (clearSession s).live = s.live := rfl
@[simp] theorem clearSession_attempt (s : State) : (clearSession s).attempt = s.attempt := rfl
@[simp] theorem clearSession_clk (s : State) : (clearSession s).clk = s.clk := rfl
@[simp] theorem clearSession_samp (s : State) : (clearSession s).samp = s.cfg.pin := rfl
@[simp] theorem clearSession_frame (s : State) : (clearSession s).frame = s.frame := rfl
@[simp] theorem clearSession_rxBuf (s : State) : (clearSession s).rxBuf = s.rxBuf := rfl
@[simp] theorem clearSession_rx (s : State) : (clearSession s).rx = s.rx := rfl
@[simp] theorem clearSession_cfg (s : State) : (clearSession s).cfg = s.cfg := rfl
@[simp] theorem clearSession_pd (s : State) : (clearSession s).pd = s.pd := rfl
@[simp] theorem clearSession_port (s : State) : (clearSession s).port = s.port := rfl
@[simp] theorem clearSession_running (s : State) : (clearSession s).running = s.running := rfl
@[simp] theorem clearSession_ret (s : State) : (clearSession s).ret = s.ret := rfl
@[simp] theorem clearSession_resBuf (s : State) : (clearSession s).resBuf = s.resBuf := rfl
@[simp] theorem clearSession_hostRes (s : State) : (clearSession s).hostRes = s.hostRes := rfl
@[simp] theorem clearSession_env (s : State) : (clearSession s).env = s.env := rfl
@[simp] theorem clearSession_hist (s : State) : (clearSession s).hist = s.hist := rfl
@[simp] theorem clearSession_par (s : State) : (clearSession s).par = s.par := rfl

/-! ### writePinBit -/

@[simp] theorem writePinBit_pinmap (b : Nat) (v : Bool) (s : State) : (writePinBit b v s).pinmap = s.pinmap := rfl
@[simp] theorem writePinBit_gmask (b : Nat) (v : Bool) (s : State) : (writePinBit b v s).gmask = s.gmask := rfl
@[simp] theorem writePinBit_dir (b : Nat) (v : Bool) (s : State) : (writePinBit b v s).dir = s.dir := rfl
@[simp] theorem writePinBit_inv (b : Nat) (v : Bool) (s : State) : (writePinBit b v s).inv = s.inv := rfl
@[simp] theorem writePinBit_val (b : Nat) (v : Bool) (s : State) : (writePinBit b v s).val = setBit s.val b (v ^^ s.inv.getLsbD b) := rfl
@[simp] theorem writePinBit_st (b : Nat) (v : Bool) (s : State) : (writePinBit b v s).st = s.st := rfl
@[simp] theorem writePinBit_live (b : Nat) (v : Bool) (s : State) : (writePinBit b v s).live = s.live := rfl
@[simp] theorem writePinBit_attempt (b : Nat) (v : Bool) (s : State) : (writePinBit b v s).attempt = s.attempt := rfl
@[simp] theorem writePinBit_clk (b : Nat) (v : Bool) (s : State) : (writePinBit b v s).clk = s.clk := rfl
@[simp] theorem writePinBit_samp (b : Nat) (v : Bool) (s : State) : (writePinBit b v s).samp = s.samp := rfl
@[simp] theorem writePinBit_frame (b : Nat) (v : Bool) (s : State) : (writePinBit b v s).frame = s.frame := rfl
@[simp] theorem writePinBit_rxBuf (b : Nat) (v : Bool) (s : State) : (writePinBit b v s).rxBuf = s.rxBuf := rfl
@[simp] theorem writePinBit_rx (b : Nat) (v : Bool) (s : State) : (writePinBit b v s).rx = s.rx := rfl
@[simp] theorem writePinBit_cfg (b : Nat) (v : Bool) (s : State) : (writePinBit b v s).cfg = s.cfg := rfl
@[simp] theorem writePinBit_pd (b : Nat) (v : Bool) (s : State) : (writePinBit b v s).pd = s.pd := rfl
@[simp] theorem writePinBit_port (b : Nat) (v : Bool) (s : State) : (writePinBit b v s).port = s.port := rfl
@[simp] theorem writePinBit_running (b : Nat) (v : Bool) (s : State) : (writePinBit b v s).running = s.running := rfl
@[simp] theorem writePinBit_ret (b : Nat) (v : Bool) (s : State) : (writePinBit b v s).ret = s.ret := rfl
@[simp] theorem writePinBit_resBuf (b : Nat) (v : Bool) (s : State) : (writePinBit b v s).resBuf = s.resBuf := rfl
@[simp] theorem writePinBit_hostRes (b : Nat) (v : Bool) (s : State) : (writePinBit b v s).hostRes = s.hostRes := rfl
@[simp] theorem writePinBit_env (b : Nat) (v : Bool) (s : State) : (writePinBit b v s).env = s.env := rfl
@[simp] theorem writePinBit_hist (b : Nat) (v : Bool) (s : State) : (writePinBit b v s).hist = s.hist := rfl
@[simp] theorem writePinBit_par (b : Nat) (v : Bool) (s : State) : (writePinBit b v s).par = s.par := rfl

/-! ### handshakeFailed -/

@[simp] theorem handshakeFailed_pinmap (s : State) : (handshakeFailed s).pinmap = s.pinmap := rfl
@[simp] theorem handshakeFailed_gmask (s : State) : (handshakeFailed s).gmask = s.gmask := rfl
@[simp] theorem handshakeFailed_dir (s : State) : (handshakeFailed s).dir = s.dir := rfl
@[simp] theorem handshakeFailed_inv (s : State) : (handshakeFailed s).inv = s.inv := rfl
@[simp] theorem handshakeFailed_val (s : State) : (handshakeFailed s).val = s.val := rfl
@[simp] theorem handshakeFailed_st (s : State) : (handshakeFailed s).st = .failed := rfl
@[simp] theorem handshakeFailed_live (s : State) : (handshakeFailed s).live = s.live := rfl
@[simp] theorem handshakeFailed_attempt (s : State) : (handshakeFailed s).attempt = 0#3 := rfl
@[simp] theorem handshakeFailed_clk (s : State) : (handshakeFailed s).clk = s.clk := rfl
@[simp] theorem handshakeFailed_samp (s : State) : (handshakeFailed s).samp = s.samp := rfl
@[simp] theorem handshakeFailed_frame (s : State) : (handshakeFailed s).frame = s.frame := rfl
@[simp] theorem handshakeFailed_rxBuf (s : State) : (handshakeFailed s).rxBuf = s.rxBuf := rfl
@[simp] theorem handshakeFailed_rx (s : State) : (handshakeFailed s).rx = s.rx := rfl
@[simp] theorem handshakeFailed_cfg (s : State) : (handshakeFailed s).cfg = s.cfg := rfl
@[simp] theorem handshakeFailed_pd (s : State) : (handshakeFailed s).pd = s.pd := rfl
@[simp] theorem handshakeFailed_port (s : State) : (handshakeFailed s).port = s.port := rfl
@[simp] theorem handshakeFailed_running (s : State) : (handshakeFailed s).running = s.running := rfl
@[simp] theorem handshakeFailed_ret (s : State) : (handshakeFailed s).ret = s.ret := rfl
@[simp] theorem handshakeFailed_resBuf (s : State) : (handshakeFailed s).resBuf = s.resBuf := rfl
@[simp] theorem handshakeFailed_hostRes (s : State) : (handshakeFailed s).hostRes = s.hostRes := rfl
@[simp] theorem handshakeFailed_env (s : State) : (handshakeFailed s).env = s.env := rfl
@[simp] theorem handshakeFailed_hist (s : State) : (handshakeFailed s).hist = s.hist := rfl
@[simp] theorem handshakeFailed_par (s : State) : (handshakeFailed s).par = s.par := rfl

/-! ### accept -/

/-- Accepting an operation while idle records its OP code. -/
theorem accept_idle {s : State} (h : s.running = none) (op : BitVec 5) : s.accept op = { s with running := some op } := by
  simp [State.accept, h]

/-- A called operation runs under its caller's OP code. -/
theorem accept_busy {s : State} {c : BitVec 5} (h : s.running = some c) (op : BitVec 5) : s.accept op = s := by
  simp [State.accept, h]

/-- The level of an operation invoked while the block is idle. -/
theorem level_idle {s : State} (h : s.running = none) : s.level = .host := by simp [State.level, h]

/-- The level of an operation invoked while another runs. -/
theorem level_busy {s : State} {c : BitVec 5} (h : s.running = some c) : s.level = .inner := by simp [State.level, h]

/-! ### Tables -/

@[simp] theorem PinTable.get_zero (r : SRole) : PinTable.zero.get r = 0#8 := by cases r <;> rfl

@[simp] theorem PinTable.get_set_self (t : PinTable) (r : SRole) (v : Byte) : (t.set r v).get r = v := by cases r <;> rfl

/-- Writing one role's entry leaves every other entry alone. -/
theorem PinTable.get_set_ne (t : PinTable) {r q : SRole} (v : Byte) (h : q ≠ r) : (t.set r v).get q = t.get q := by
  cases r <;> cases q <;> first | rfl | exact absurd rfl h

@[simp] theorem GroupTable.get_set_self (t : GroupTable) (g : GRole) (v : Mask) : (t.set g v).get g = v := by cases g <;> rfl

/-- Writing one group's entry leaves the other alone. -/
theorem GroupTable.get_set_ne (t : GroupTable) {g k : GRole} (v : Mask) (h : k ≠ g) : (t.set g v).get k = t.get k := by
  cases g <;> cases k <;> first | rfl | exact absurd rfl h

/-- A write reads back at its own role and nowhere else. -/
theorem PinTable.get_set (t : PinTable) (r q : SRole) (v : Byte) :
    (t.set r v).get q = if q = r then v else t.get q := by
  by_cases h : q = r
  · subst h; simp
  · simp [h, PinTable.get_set_ne t v h]

end Sys2Proof.Machine
end

