-- ==== Sys2Proof/Laws/Results.lean ====
section
/-!
SUPPORT. What a piece of an operation can end in, as one predicate with its rules of composition: a caller cites these and never
unfolds `Res.bind`.
-/

namespace Sys2Proof.Machine

/-- Every way `r` can end satisfies its part: `P` for an ordinary end, `E` for an error, `W` for a receive loop short of bytes. -/
def Res.Sat {α : Type} (r : Res α) (P : α → State → Prop) (E : Err → State → Prop) (W : RxClient → Nat → State → Prop) : Prop :=
  match r with
  | .ok a s => P a s
  | .raise e s => E e s
  | .wait c n s => W c n s
  | .refuse _ => True

/-- Every state `r` can end in satisfies `P`. -/
def Res.All {α : Type} (r : Res α) (P : State → Prop) : Prop :=
  r.Sat (fun _ s => P s) (fun _ s => P s) (fun _ _ s => P s)

section
variable {α β : Type} {P : α → State → Prop} {E : Err → State → Prop} {W : RxClient → Nat → State → Prop}

@[simp] theorem Res.sat_ok (a : α) (s : State) : (Res.ok a s).Sat P E W ↔ P a s := Iff.rfl
@[simp] theorem Res.sat_raise (e : Err) (s : State) : (Res.raise e s : Res α).Sat P E W ↔ E e s := Iff.rfl
@[simp] theorem Res.sat_wait (c : RxClient) (n : Nat) (s : State) : (Res.wait c n s : Res α).Sat P E W ↔ W c n s := Iff.rfl
@[simp] theorem Res.sat_refuse (x : Refusal) : (Res.refuse x : Res α).Sat P E W ↔ True := Iff.rfl
@[simp] theorem Res.all_ok (a : α) (s : State) (Q : State → Prop) : (Res.ok a s).All Q ↔ Q s := Iff.rfl
@[simp] theorem Res.all_raise (e : Err) (s : State) (Q : State → Prop) : (Res.raise e s : Res α).All Q ↔ Q s := Iff.rfl
@[simp] theorem Res.all_wait (c : RxClient) (n : Nat) (s : State) (Q : State → Prop) : (Res.wait c n s : Res α).All Q ↔ Q s := Iff.rfl
@[simp] theorem Res.all_refuse (x : Refusal) (Q : State → Prop) : (Res.refuse x : Res α).All Q ↔ True := Iff.rfl

/-- Weaker parts are satisfied too. -/
theorem Res.Sat.mono {r : Res α} {P' : α → State → Prop} {E' : Err → State → Prop} {W' : RxClient → Nat → State → Prop}
    (h : r.Sat P E W) (hp : ∀ a s, P a s → P' a s) (he : ∀ e s, E e s → E' e s) (hw : ∀ c n s, W c n s → W' c n s) :
    r.Sat P' E' W' := by
  cases r with
  | ok a s => exact hp a s h
  | raise e s => exact he e s h
  | wait c n s => exact hw c n s h
  | refuse x => trivial

/-- Composition: what the first piece leaves to the second. -/
theorem Res.sat_bind {r : Res α} {f : α → State → Res β} {Q : β → State → Prop} {P : α → State → Prop}
    (h : r.Sat P E W) (hf : ∀ a s, P a s → (f a s).Sat Q E W) : (r.bind f).Sat Q E W := by
  cases r with
  | ok a s => exact hf a s h
  | raise e s => exact h
  | wait c n s => exact h
  | refuse x => trivial

/-- A property every piece keeps is kept by their composition. -/
theorem Res.all_bind {r : Res α} {f : α → State → Res β} {Q : State → Prop}
    (h : r.All Q) (hf : ∀ a s, Q s → (f a s).All Q) : (r.bind f).All Q :=
  Res.sat_bind h hf

/-- State writes on an error. -/
theorem Res.sat_onRaise {r : Res α} {f : State → State} {E' : Err → State → Prop}
    (h : r.Sat P E' W) (hf : ∀ e s, E' e s → E e (f s)) : (r.onRaise f).Sat P E W := by
  cases r with
  | ok a s => exact h
  | raise e s => exact hf e s h
  | wait c n s => exact h
  | refuse x => trivial

/-- State writes whichever way the piece ends. -/
theorem Res.sat_finally {r : Res α} {f : State → State} {P' : α → State → Prop} {E' : Err → State → Prop}
    (h : r.Sat P' E' W) (hp : ∀ a s, P' a s → P a (f s)) (he : ∀ e s, E' e s → E e (f s)) : (r.finally f).Sat P E W := by
  cases r with
  | ok a s => exact hp a s h
  | raise e s => exact he e s h
  | wait c n s => exact h
  | refuse x => trivial

/-- The DATA value does not change how a piece ends. -/
theorem Res.sat_withData {r : Res α} {f : α → BitVec 32} {Q : BitVec 32 → State → Prop}
    (h : r.Sat P E W) (hf : ∀ a s, P a s → Q (f a) s) : (r.withData f).Sat Q E W :=
  Res.sat_bind h hf

/-- Relabelling who waits. -/
theorem Res.sat_waitingFor {r : Res α} {c : RxClient}
    (h : r.Sat P E (fun _ n s => W c n s)) : (r.waitingFor c).Sat P E W := by
  cases r <;> exact h

end

@[simp] theorem Res.bind_ok {α β : Type} (a : α) (s : State) (f : α → State → Res β) : (Res.ok a s).bind f = f a s := rfl
/-- Going on twice. -/
theorem Res.bind_assoc {α β γ : Type} (r : Res α) (f : α → State → Res β) (g : β → State → Res γ) :
    (r.bind f).bind g = r.bind fun a s => (f a s).bind g := by
  cases r <;> rfl

/-- Going on with nothing changes nothing. -/
theorem Res.bind_unit (r : Res Unit) : (r.bind fun _ s => .ok () s) = r := by
  cases r <;> rfl

@[simp] theorem Res.bind_raise {α β : Type} (e : Err) (s : State) (f : α → State → Res β) :
    (Res.raise e s : Res α).bind f = .raise e s := rfl
@[simp] theorem Res.bind_wait {α β : Type} (c : RxClient) (n : Nat) (s : State) (f : α → State → Res β) :
    (Res.wait c n s : Res α).bind f = .wait c n s := rfl
@[simp] theorem Res.bind_refuse {α β : Type} (x : Refusal) (f : α → State → Res β) :
    (Res.refuse x : Res α).bind f = .refuse x := rfl
@[simp] theorem Res.onRaise_ok {α : Type} (a : α) (s : State) (f : State → State) : (Res.ok a s).onRaise f = .ok a s := rfl
@[simp] theorem Res.onRaise_raise {α : Type} (e : Err) (s : State) (f : State → State) :
    (Res.raise e s : Res α).onRaise f = .raise e (f s) := rfl
@[simp] theorem Res.finally_ok {α : Type} (a : α) (s : State) (f : State → State) : (Res.ok a s).finally f = .ok a (f s) := rfl
@[simp] theorem Res.finally_raise {α : Type} (e : Err) (s : State) (f : State → State) :
    (Res.raise e s : Res α).finally f = .raise e (f s) := rfl
@[simp] theorem Res.withData_ok {α : Type} (a : α) (s : State) (f : α → BitVec 32) : (Res.ok a s).withData f = .ok (f a) s := rfl
@[simp] theorem Res.withData_raise {α : Type} (e : Err) (s : State) (f : α → BitVec 32) :
    (Res.raise e s : Res α).withData f = .raise e s := rfl
@[simp] theorem Res.withData_wait {α : Type} (c : RxClient) (n : Nat) (s : State) (f : α → BitVec 32) :
    (Res.wait c n s : Res α).withData f = .wait c n s := rfl
@[simp] theorem Res.waitingFor_ok {α : Type} (c : RxClient) (a : α) (s : State) : (Res.ok a s).waitingFor c = .ok a s := rfl
@[simp] theorem Res.waitingFor_raise {α : Type} (c : RxClient) (e : Err) (s : State) :
    (Res.raise e s : Res α).waitingFor c = .raise e s := rfl
@[simp] theorem Res.waitingFor_wait {α : Type} (c d : RxClient) (n : Nat) (s : State) :
    (Res.wait d n s : Res α).waitingFor c = .wait c n s := rfl

/-- What settling can answer: a next state from one of the three ways, or the refusal. -/
theorem settle_next {l : Level} {r : Res (BitVec 32)} {t : State} (h : settle l r = .next t) :
    (∃ d s, r = .ok d s ∧ t = conclude l 0#4 d s) ∨ (∃ e s, r = .raise e s ∧ t = conclude l e.code e.data s) ∨
      (∃ c n s, r = .wait c n s ∧ t = { s with rx := some ⟨c, n, l⟩ }) := by
  cases r with
  | ok d s => simp only [settle, Host.Outcome.next.injEq] at h; exact .inl ⟨d, s, rfl, h.symm⟩
  | raise e s => simp only [settle, Host.Outcome.next.injEq] at h; exact .inr (.inl ⟨e, s, rfl, h.symm⟩)
  | wait c n s => simp only [settle, Host.Outcome.next.injEq] at h; exact .inr (.inr ⟨c, n, s, rfl, h.symm⟩)
  | refuse x => simp [settle] at h

/-- Settling a satisfied piece: each way it can answer next. -/
theorem settle_sat {l : Level} {r : Res (BitVec 32)} {t : State} {P : BitVec 32 → State → Prop} {E : Err → State → Prop}
    {W : RxClient → Nat → State → Prop} (h : settle l r = .next t) (hr : r.Sat P E W) :
    (∃ d s, P d s ∧ t = conclude l 0#4 d s) ∨ (∃ e s, E e s ∧ t = conclude l e.code e.data s) ∨
      (∃ c n s, W c n s ∧ t = { s with rx := some ⟨c, n, l⟩ }) := by
  obtain ⟨d, s, rfl, ht⟩ | ⟨e, s, rfl, ht⟩ | ⟨c, n, s, rfl, ht⟩ := settle_next h
  · exact .inl ⟨d, s, hr, ht⟩
  · exact .inr (.inl ⟨e, s, hr, ht⟩)
  · exact .inr (.inr ⟨c, n, s, hr, ht⟩)

end Sys2Proof.Machine
end

