-- ==== Sys2Proof/Laws/Entry.lean ====
section
/-!
SUPPORT. How an operation is entered and how it ends, by who invoked it (R66, R67, R155, R190).
-/

namespace Sys2Proof.Machine

/-- A called operation runs under its caller's. -/
theorem accept_called {s : State} (h : s.running ≠ none) (op : BitVec 5) : s.accept op = s := by
  cases hr : s.running with
  | none => exact absurd hr h
  | some x => simp [State.accept, hr]

theorem level_called {s : State} (h : s.running ≠ none) : s.level = .inner := by
  cases hr : s.running with
  | none => exact absurd hr h
  | some x => simp [State.level, hr]

/-- A host operation presented to an idle block. -/
theorem runChecked_idle {s : State} (h : s.running = none) (op : BitVec 5) (takes : Bool) (body : State → Res (BitVec 32)) :
    runChecked op takes body s =
      settle .host (if takes then body { s with running := some op } else .raise .badState { s with running := some op }) := by
  simp only [runChecked, level_idle h, accept_idle h]

/-- A callable host operation presented to an idle block. -/
theorem runCallable_idle {s : State} (h : s.running = none) (op : BitVec 5) (takes : Bool) (body : State → Res (BitVec 32)) :
    runCallable op takes body s =
      settle .host (if takes then body { s with running := some op } else .raise .badState { s with running := some op }) := by
  rw [runCallable, runChecked_idle h]; simp [h]

/-- A host operation called by another one runs without its acceptance check. -/
theorem runCallable_called {s : State} (h : s.running ≠ none) (op : BitVec 5) (takes : Bool) (body : State → Res (BitVec 32)) :
    runCallable op takes body s = settle .inner (body s) := by
  cases hr : s.running with
  | none => exact absurd hr h
  | some x => simp [runCallable, runChecked, level_called h, accept_called h, hr]

/-- An internal operation called by another one. -/
theorem runInternal_called {s : State} (h : s.running ≠ none) (op : BitVec 5) (body : State → Res (BitVec 32)) :
    runInternal op body s = settle .inner (body s) := by
  cases hr : s.running with
  | none => exact absurd hr h
  | some x => simp [runInternal, hr]

/-- An internal operation presented by the host (R70). -/
theorem runInternal_idle {s : State} (h : s.running = none) (op : BitVec 5) (body : State → Res (BitVec 32)) :
    runInternal op body s = .next { s with running := some op, resBuf := some ⟨11#4, 0#32⟩ } := by
  simp [runInternal, h, accept_idle h, settle, conclude, Err.code, Err.data]

/-- A host operation refused by its acceptance check (R155). -/
theorem settle_badState (s : State) :
    settle .host (.raise .badState s) = .next { s with resBuf := some ⟨10#4, 0#32⟩ } := rfl

@[simp] theorem settle_ok (l : Level) (d : BitVec 32) (s : State) : settle l (.ok d s) = .next (conclude l 0#4 d s) := rfl
@[simp] theorem settle_raise (l : Level) (e : Err) (s : State) : settle l (.raise e s) = .next (conclude l e.code e.data s) := rfl
@[simp] theorem settle_wait (l : Level) (c : RxClient) (n : Nat) (s : State) :
    settle l (.wait c n s) = .next { s with rx := some ⟨c, n, l⟩ } := rfl
@[simp] theorem settle_refuse (l : Level) (x : Refusal) : settle l (.refuse x) = .refused x := rfl
@[simp] theorem conclude_host (st : BitVec 4) (d : BitVec 32) (s : State) :
    conclude .host st d s = { s with resBuf := some ⟨st, d⟩ } := rfl
@[simp] theorem conclude_inner (st : BitVec 4) (d : BitVec 32) (s : State) :
    conclude .inner st d s = { s with ret := ⟨st, d⟩ } := rfl

/-! ### A whole frame, sent -/

/-- How sending goes is decided by the transport's answer (R45). -/
theorem sendFrame_whole {bytes : List Byte} {s : State} (h : writeAnswer bytes s = .accepted bytes.length) :
    sendFrame bytes s = .ok () (tWrite bytes s) := by simp [sendFrame, sentWhole, h]

theorem sendFrame_short {bytes : List Byte} {s : State} (h : writeAnswer bytes s ≠ .accepted bytes.length) :
    sendFrame bytes s = .raise .writeShort (tWrite bytes s) := by simp [sendFrame, sentWhole, h]

/-- A scripted answer of the transport, and the state after the call. -/
theorem writeAnswer_of {s : State} {a : WriteAns} {w : List WriteAns} (h : s.env.writes = a :: w) (bytes : List Byte) :
    writeAnswer bytes s = clampWrite bytes.length a := by simp [writeAnswer, h]

theorem readAnswer_of {s : State} {a : ReadAns} {q : List ReadAns} (h : s.env.reads = a :: q) (room : Nat) :
    readAnswer room s = clampRead room a := by simp [readAnswer, h]

end Sys2Proof.Machine
end

