-- ==== Sys2Proof/Laws/PinSetup.lean ====
section
/-!
SUPPORT. PinMapper: what each of its operations leaves alone, what VALIDATE_LAYOUT returns, and that assigning roles and groups one by
one builds the masks of R24.
-/

namespace Sys2Proof.Machine

/-- `t` comes from `s` by work on the pin table: only PINMAP, GMASK, DIR, INV, VAL and the sampled specs may differ, and only
diagnostics are emitted. -/
structure PinWork (s t : State) : Prop where
  st : t.st = s.st
  live : t.live = s.live
  attempt : t.attempt = s.attempt
  clk : t.clk = s.clk
  frame : t.frame = s.frame
  rxBuf : t.rxBuf = s.rxBuf
  rx : t.rx = s.rx
  cfg : t.cfg = s.cfg
  pd : t.pd = s.pd
  port : t.port = s.port
  running : t.running = s.running
  ret : t.ret = s.ret
  resBuf : t.resBuf = s.resBuf
  hostRes : t.hostRes = s.hostRes
  env : t.env = s.env
  par : t.par = s.par
  events : ∃ l, t.hist = s.hist ++ l ∧ ∀ e ∈ l, ∃ k i, e = .diag k i

theorem PinWork.refl (s : State) : PinWork s s :=
  ⟨rfl, rfl, rfl, rfl, rfl, rfl, rfl, rfl, rfl, rfl, rfl, rfl, rfl, rfl, rfl, rfl, [], by simp, by simp⟩

theorem PinWork.trans {s t u : State} (h : PinWork s t) (k : PinWork t u) : PinWork s u where
  st := k.st.trans h.st
  live := k.live.trans h.live
  attempt := k.attempt.trans h.attempt
  clk := k.clk.trans h.clk
  frame := k.frame.trans h.frame
  rxBuf := k.rxBuf.trans h.rxBuf
  rx := k.rx.trans h.rx
  cfg := k.cfg.trans h.cfg
  pd := k.pd.trans h.pd
  port := k.port.trans h.port
  running := k.running.trans h.running
  ret := k.ret.trans h.ret
  resBuf := k.resBuf.trans h.resBuf
  hostRes := k.hostRes.trans h.hostRes
  env := k.env.trans h.env
  par := k.par.trans h.par
  events := by
    obtain ⟨l, hl, hw⟩ := h.events
    obtain ⟨m, hm, hv⟩ := k.events
    refine ⟨l ++ m, by rw [hm, hl, List.append_assoc], fun e he => ?_⟩
    rcases List.mem_append.mp he with h | h
    · exact hw e h
    · exact hv e h

/-- Diagnostics carry no bytes. -/
theorem outgoing_diags {l : List Event} (h : ∀ e ∈ l, ∃ k i, e = .diag k i) : outgoing l = [] := by
  induction l with
  | nil => rfl
  | cons e es ih =>
    obtain ⟨k, i, rfl⟩ := h e (by simp)
    exact ih fun e he => h e (by simp [he])

/-- A change of the six pin fields alone is pin work. -/
theorem PinWork.of_eq {s t : State} (a : PinTable) (b : GroupTable) (c d e : Mask) (f : PinTable)
    (h : t = { s with pinmap := a, gmask := b, dir := c, inv := d, val := e, samp := f }) : PinWork s t := by
  subst h; exact { PinWork.refl s with }

theorem PinWork.diag (s : State) (k : DiagKind) (i : DiagInfo) : PinWork s (s.diag k i) :=
  { PinWork.refl s with events := ⟨[.diag k i], rfl, by simp⟩ }

/-! ### VALIDATE_LAYOUT -/

/-- One fixed role: its sampled pin is `want` afterwards, its flag and every other entry are kept; under STRICT nothing is
corrected (R97). -/
theorem fixRole_sat (r : SRole) (want : BitVec 7) (s : State) :
    (fixRole r want s).Sat
      (fun _ t => PinWork s t ∧ t.pinmap = s.pinmap ∧ t.gmask = s.gmask ∧ t.dir = s.dir ∧ t.inv = s.inv ∧ t.val = s.val ∧
        pinfield (t.samp.get r) = want ∧ invflag (t.samp.get r) = invflag (s.samp.get r) ∧ ∀ q, q ≠ r → t.samp.get q = s.samp.get q)
      (fun e t => e = .pinLayoutInvalid r ∧ t = s ∧ pinfield (s.samp.get r) ≠ want ∧ s.par.layout = .strict) (fun _ _ _ => False) := by
  unfold fixRole
  split
  next h => exact ⟨.refl s, rfl, rfl, rfl, rfl, rfl, h, rfl, fun _ _ => rfl⟩
  next h =>
    split
    next h2 => exact ⟨rfl, rfl, h, h2⟩
    next h2 =>
      refine ⟨(PinWork.of_eq s.pinmap s.gmask s.dir s.inv s.val _ rfl).trans (PinWork.diag _ _ _), rfl, rfl, rfl, rfl, rfl, ?_, ?_, ?_⟩
      · simp
      · simp
      · intro q hq; simp [PinTable.get_set_ne _ _ hq]

/-- The reset role (R96, R97). -/
theorem fixReset_sat (s : State) :
    (fixReset s).Sat
      (fun _ t => PinWork s t ∧ t.pinmap = s.pinmap ∧ t.gmask = s.gmask ∧ t.dir = s.dir ∧ t.inv = s.inv ∧ t.val = s.val ∧
        resetPinLegal (pinfield t.samp.reset) = true ∧ invflag t.samp.reset = invflag s.samp.reset ∧
        ∀ q, q ≠ .reset → t.samp.get q = s.samp.get q)
      (fun e t => e = .pinLayoutInvalid .reset ∧ t = s ∧ resetPinLegal (pinfield s.samp.reset) = false ∧ s.par.layout = .strict)
      (fun _ _ _ => False) := by
  unfold fixReset
  split
  next h => exact ⟨.refl s, rfl, rfl, rfl, rfl, rfl, h, rfl, fun _ _ => rfl⟩
  next h =>
    split
    next h2 => exact ⟨rfl, rfl, by simpa using h, h2⟩
    next h2 =>
      refine ⟨(PinWork.of_eq s.pinmap s.gmask s.dir s.inv s.val _ rfl).trans (PinWork.diag _ _ _), rfl, rfl, rfl, rfl, rfl, ?_, ?_, ?_⟩
      · simp only [diag_samp, pinfield_withPin]; decide
      · simp
      · intro q hq; cases q <;> first | rfl | exact absurd rfl hq

/-- A layout that is right is left alone, without a diagnostic (R97). -/
theorem fixRole_right {r : SRole} {want : BitVec 7} {s : State} (h : pinfield (s.samp.get r) = want) : fixRole r want s = .ok () s := by
  simp [fixRole, h]

/-- What VALIDATE_LAYOUT returns (R97, R98): the layout of R96 with every inversion flag kept and the LEDs' specs untouched. -/
theorem validateLayout_sat (s : State) :
    (validateLayout s).Sat
      (fun _ t => PinWork s t ∧ t.pinmap = s.pinmap ∧ t.gmask = s.gmask ∧ t.dir = s.dir ∧ t.inv = s.inv ∧ t.val = s.val ∧
        pinfield t.samp.clk = 1#7 ∧ pinfield t.samp.dout = 2#7 ∧ pinfield t.samp.din = 3#7 ∧
        resetPinLegal (pinfield t.samp.reset) = true ∧ (∀ r, invflag (t.samp.get r) = invflag (s.samp.get r)) ∧
        t.samp.led0 = s.samp.led0 ∧ t.samp.led1 = s.samp.led1 ∧ t.samp.led2 = s.samp.led2 ∧ t.samp.led3 = s.samp.led3)
      (fun e t => (∃ r, e = .pinLayoutInvalid r) ∧ PinWork s t ∧ s.par.layout = .strict) (fun _ _ _ => False) := by
  unfold validateLayout
  refine Res.sat_bind ((fixRole_sat .clk pinClk s).mono (fun _ _ h => h) ?_ (fun _ _ _ h => h)) ?_
  · rintro e t ⟨rfl, rfl, -, h⟩; exact ⟨⟨_, rfl⟩, .refl _, h⟩
  rintro _ t ⟨ht, a1, a2, a3, a4, a5, a6, a7, a8⟩
  refine Res.sat_bind ((fixRole_sat .dout pinDout t).mono (fun _ _ h => h) ?_ (fun _ _ _ h => h)) ?_
  · rintro e u ⟨rfl, rfl, -, h⟩; exact ⟨⟨_, rfl⟩, ht, by rw [← ht.par]; exact h⟩
  rintro _ u ⟨hu, b1, b2, b3, b4, b5, b6, b7, b8⟩
  refine Res.sat_bind ((fixRole_sat .din pinDin u).mono (fun _ _ h => h) ?_ (fun _ _ _ h => h)) ?_
  · rintro e v ⟨rfl, rfl, -, h⟩; exact ⟨⟨_, rfl⟩, ht.trans hu, by rw [← ht.par, ← hu.par]; exact h⟩
  rintro _ v ⟨hv, c1, c2, c3, c4, c5, c6, c7, c8⟩
  refine (fixReset_sat v).mono ?_ ?_ (fun _ _ _ h => h)
  · rintro _ w ⟨hw, d1, d2, d3, d4, d5, d6, d7, d8⟩
    have e1 : w.samp.clk = t.samp.clk := by
      have := (d8 .clk (by decide)).trans ((c8 .clk (by decide)).trans (b8 .clk (by decide))); exact this
    have e2 : w.samp.dout = u.samp.dout := (d8 .dout (by decide)).trans (c8 .dout (by decide))
    have e3 : w.samp.din = v.samp.din := d8 .din (by decide)
    have e4 : ∀ q, q ≠ .clk → q ≠ .dout → q ≠ .din → v.samp.get q = s.samp.get q := fun q h1 h2 h3 =>
      (c8 q h3).trans ((b8 q h2).trans (a8 q h1))
    refine ⟨((ht.trans hu).trans hv).trans hw, by rw [d1, c1, b1, a1], by rw [d2, c2, b2, a2], by rw [d3, c3, b3, a3],
      by rw [d4, c4, b4, a4], by rw [d5, c5, b5, a5], by rw [e1]; exact a6, by rw [e2]; exact b6, by rw [e3]; exact c6, d6, ?_,
      (d8 .led0 (by decide)).trans (e4 .led0 (by decide) (by decide) (by decide)),
      (d8 .led1 (by decide)).trans (e4 .led1 (by decide) (by decide) (by decide)),
      (d8 .led2 (by decide)).trans (e4 .led2 (by decide) (by decide) (by decide)),
      (d8 .led3 (by decide)).trans (e4 .led3 (by decide) (by decide) (by decide))⟩
    intro r
    cases r with
    | clk => rw [show w.samp.get .clk = t.samp.get .clk from e1]; exact a7
    | dout => rw [show w.samp.get .dout = u.samp.get .dout from e2, b7, a8 .dout (by decide)]
    | din => rw [show w.samp.get .din = v.samp.get .din from e3, c7, b8 .din (by decide), a8 .din (by decide)]
    | reset => rw [show w.samp.get .reset = w.samp.reset from rfl, d7, ← e4 .reset (by decide) (by decide) (by decide)]; rfl
    | led0 => rw [d8 .led0 (by decide), e4 .led0 (by decide) (by decide) (by decide)]
    | led1 => rw [d8 .led1 (by decide), e4 .led1 (by decide) (by decide) (by decide)]
    | led2 => rw [d8 .led2 (by decide), e4 .led2 (by decide) (by decide) (by decide)]
    | led3 => rw [d8 .led3 (by decide), e4 .led3 (by decide) (by decide) (by decide)]
  · rintro e w ⟨rfl, rfl, -, h⟩
    exact ⟨⟨_, rfl⟩, (ht.trans hu).trans hv, by rw [← ht.par, ← hu.par, ← hv.par]; exact h⟩

/-! ### Assignments -/

/-- The masks of R24 while assignments go on: all of them but the fixed layout. -/
structure State.Claims (s : State) : Prop where
  range : ∀ r, s.assigned r = true → pinInRange (pinfield (s.pinmap.get r)) = true
  disjoint : ∀ r q, r ≠ q → s.assigned r = true → s.assigned q = true →
    pinfield (s.pinmap.get r) ≠ pinfield (s.pinmap.get q)
  groups : ∀ b, ¬ (s.gmask.pwr.getLsbD b = true ∧ s.gmask.buf.getLsbD b = true)
  groupsFree : ∀ g r, s.assigned r = true → (s.gmask.get g).getLsbD (s.bitOf r) = false
  groupsLow : ∀ g b, (s.gmask.get g).getLsbD b = true → b < 12
  dirBits : ∀ b, s.dir.getLsbD b = true ↔
    (∃ r, r ≠ .din ∧ s.assigned r = true ∧ s.bitOf r = b) ∨ s.gmask.pwr.getLsbD b = true ∨ s.gmask.buf.getLsbD b = true
  invBits : ∀ b, s.inv.getLsbD b = true ↔
    ∃ r, s.assigned r = true ∧ invflag (s.pinmap.get r) = true ∧ s.bitOf r = b
  val : s.val = 0#16

/-- The claimed bits are the pins of the assigned roles and the groups' pins (R90). -/
theorem State.Claims.claimed_iff {s : State} (h : s.Claims) (b : Nat) : s.claimed.getLsbD b = true ↔
    (∃ r, s.assigned r = true ∧ s.bitOf r = b) ∨ s.gmask.pwr.getLsbD b = true ∨ s.gmask.buf.getLsbD b = true := by
  have hdin : (dinMask s.pinmap.din).getLsbD b = true ↔ s.assigned .din = true ∧ s.bitOf .din = b := by
    unfold dinMask
    split
    next h0 => simp [State.assigned, PinTable.get, h0]
    next h0 =>
      have ha : s.assigned .din = true := by simpa [State.assigned, PinTable.get] using h0
      have hlt := pinBit_lt (h.range _ ha)
      rw [bit_getLsbD, Bool.and_eq_true, decide_eq_true_iff, decide_eq_true_iff]
      simp only [ha, true_and, State.bitOf, PinTable.get] at hlt ⊢
      constructor
      · rintro ⟨-, rfl⟩; rfl
      · rintro rfl; exact ⟨by omega, rfl⟩
  rw [State.claimed, Machine.claimed, BitVec.getLsbD_or, Bool.or_eq_true, h.dirBits, hdin]
  constructor
  · rintro ((⟨r, -, h1, h2⟩ | h1) | ⟨h1, h2⟩)
    · exact .inl ⟨r, h1, h2⟩
    · exact .inr h1
    · exact .inl ⟨.din, h1, h2⟩
  · rintro (⟨r, h1, h2⟩ | h1)
    · by_cases hr : r = .din
      · subst hr; exact .inr ⟨h1, h2⟩
      · exact .inl (.inl ⟨r, hr, h1, h2⟩)
    · exact .inl (.inr h1)

/-- PIN_SETUP starts with nothing claimed (R99). -/
theorem clearSession_claims (s : State) : (clearSession s).Claims where
  range := by intro r h; simp [State.assigned, pinfield] at h
  disjoint := by intro r q _ h; simp [State.assigned, pinfield] at h
  groups := by intro b; simp [GroupTable.zero]
  groupsFree := by intro g r h; simp [State.assigned, pinfield] at h
  groupsLow := by intro g b h; cases g <;> simp [GroupTable.zero, GroupTable.get] at h
  dirBits := by intro b; simp [State.assigned, pinfield, GroupTable.zero]
  invBits := by intro b; simp [State.assigned, pinfield]
  val := rfl

/-- What ASSIGN_SINGLE does to a role that had no entry (R91, R92): on success the entry is the raw spec and the claims stay
exact; on an error nothing is changed. -/
theorem assignSingle_sat {r : SRole} {raw : Byte} {s : State} (hc : s.Claims) (h0 : s.pinmap.get r = 0#8) :
    (assignSingle r raw s).Sat
      (fun _ t => PinWork s t ∧ t.Claims ∧ t.samp = s.samp ∧ t.gmask = s.gmask ∧ t.pinmap = s.pinmap.set r raw)
      (fun e t => t = s ∧ (e = .pinOutOfRange (.single r) ∨ ∃ m, e = .pinConflict m)) (fun _ _ _ => False) := by
  unfold assignSingle
  split
  next h =>
    refine ⟨.refl s, hc, rfl, rfl, ?_⟩
    subst h
    rw [← h0]
    cases r <;> rfl
  next h =>
    split
    · exact ⟨rfl, .inl rfl⟩
    next hr =>
      have hr : pinInRange (pinfield raw) = true := by simpa using hr
      dsimp only
      split
      · exact ⟨rfl, .inr ⟨_, rfl⟩⟩
      next hfree =>
        have hlt := pinBit_lt hr
        have hfree' := fun hh => hfree ((hc.claimed_iff (pinBit (pinfield raw))).mpr hh)
        have hpin : pinfield raw ≠ 0#7 := by
          intro h1; rw [pinInRange_iff, h1] at hr; simp at hr
        have h0' : s.assigned r = false := by simp [State.assigned, h0, pinfield]
        refine ⟨PinWork.of_eq (s.pinmap.set r raw) s.gmask _ _ s.val s.samp rfl, ?_, rfl, rfl, rfl⟩
        -- the new table, entry by entry
        have ha : ∀ q, State.assigned { s with pinmap := s.pinmap.set r raw } q = if q = r then true else s.assigned q := by
          intro q
          by_cases hq : q = r
          · subst hq; simp [State.assigned, hpin]
          · simp [State.assigned, hq, PinTable.get_set_ne]
        have hb : ∀ q, State.bitOf { s with pinmap := s.pinmap.set r raw } q = if q = r then pinBit (pinfield raw) else s.bitOf q := by
          intro q
          by_cases hq : q = r
          · subst hq; simp [State.bitOf]
          · simp [State.bitOf, hq, PinTable.get_set_ne]
        have hg : ∀ q, (s.pinmap.set r raw).get q = if q = r then raw else s.pinmap.get q := fun q => PinTable.get_set _ _ _ _
        have hnb : ∀ q, s.assigned q = true → s.bitOf q ≠ pinBit (pinfield raw) := fun q h1 h2 => hfree' (.inl ⟨q, h1, h2⟩)
        constructor
        · intro q hq
          simp only [State.assigned, hg] at hq ⊢
          by_cases h1 : q = r
          · simp [h1, hr]
          · simp only [h1, if_false] at hq ⊢; exact hc.range q hq
        · intro q k hqk hq hk
          simp only [State.assigned, hg] at hq hk ⊢
          by_cases h1 : q = r
          · by_cases h2 : k = r
            · exact absurd (h1.trans h2.symm) hqk
            · simp only [h1, h2, if_false, if_true] at hk ⊢
              intro he
              exact hnb k hk (by simp [State.bitOf, he])
          · by_cases h2 : k = r
            · simp only [h1, h2, if_false, if_true] at hq ⊢
              intro he
              exact hnb q hq (by simp [State.bitOf, he])
            · simp only [h1, h2, if_false] at hq hk ⊢
              exact hc.disjoint q k hqk hq hk
        · exact hc.groups
        · intro g q hq
          have hq' : (if q = r then true else s.assigned q) = true := (ha q).symm.trans hq
          have hbit : State.bitOf { s with pinmap := s.pinmap.set r raw } q = _ := hb q
          show (s.gmask.get g).getLsbD (State.bitOf { s with pinmap := s.pinmap.set r raw } q) = false
          rw [hbit]
          by_cases h1 : q = r
          · rw [if_pos h1]
            cases hbb : (s.gmask.get g).getLsbD (pinBit (pinfield raw)) with
            | false => rfl
            | true => cases g with
              | pwr => exact absurd (.inr (.inl hbb)) hfree'
              | buf => exact absurd (.inr (.inr hbb)) hfree'
          · rw [if_neg h1] at hq' ⊢; exact hc.groupsFree g q hq'
        · exact hc.groupsLow
        · intro b
          show (if r = .din then s.dir else setBit s.dir (pinBit (pinfield raw)) true).getLsbD b = true ↔
            (∃ q, q ≠ .din ∧ State.assigned { s with pinmap := s.pinmap.set r raw } q = true ∧
              State.bitOf { s with pinmap := s.pinmap.set r raw } q = b) ∨ _
          simp only [ha, hb]
          by_cases hrd : r = .din
          · rw [if_pos hrd, hc.dirBits]
            constructor
            · rintro (⟨q, h1, h2, h3⟩ | h1)
              · exact .inl ⟨q, h1, by rw [if_neg (by rw [hrd]; exact h1)]; exact h2, by rw [if_neg (by rw [hrd]; exact h1)]; exact h3⟩
              · exact .inr h1
            · rintro (⟨q, h1, h2, h3⟩ | h1)
              · rw [if_neg (by rw [hrd]; exact h1)] at h2 h3; exact .inl ⟨q, h1, h2, h3⟩
              · exact .inr h1
          · rw [if_neg hrd, setBit_getLsbD]
            split
            next hbb =>
              simp only [true_iff]
              exact .inl ⟨r, hrd, by simp, by simp [hbb.1]⟩
            next hbb =>
              rw [hc.dirBits]
              have hbne : pinBit (pinfield raw) ≠ b := fun he => hbb ⟨he.symm, by omega⟩
              constructor
              · rintro (⟨q, h1, h2, h3⟩ | h1)
                · refine .inl ⟨q, h1, ?_⟩
                  by_cases hq : q = r
                  · subst hq; rw [h0'] at h2; exact absurd h2 (by decide)
                  · rw [if_neg hq, if_neg hq]; exact ⟨h2, h3⟩
                · exact .inr h1
              · rintro (⟨q, h1, h2, h3⟩ | h1)
                · by_cases hq : q = r
                  · rw [if_pos hq] at h3; exact absurd h3 hbne
                  · rw [if_neg hq] at h2 h3; exact .inl ⟨q, h1, h2, h3⟩
                · exact .inr h1
        · intro b
          show (if invflag raw then setBit s.inv (pinBit (pinfield raw)) true else s.inv).getLsbD b = true ↔
            ∃ q, State.assigned { s with pinmap := s.pinmap.set r raw } q = true ∧
              invflag ((s.pinmap.set r raw).get q) = true ∧ State.bitOf { s with pinmap := s.pinmap.set r raw } q = b
          simp only [ha, hb, hg]
          have old : s.inv.getLsbD b = true ↔ ∃ q, q ≠ r ∧ s.assigned q = true ∧ invflag (s.pinmap.get q) = true ∧ s.bitOf q = b := by
            rw [hc.invBits]
            constructor
            · rintro ⟨q, h1, h2, h3⟩
              refine ⟨q, ?_, h1, h2, h3⟩
              rintro rfl
              rw [h0'] at h1; exact absurd h1 (by decide)
            · rintro ⟨q, -, h⟩; exact ⟨q, h⟩
          cases hi : invflag raw with
          | false =>
            simp only [Bool.false_eq_true, if_false]
            rw [old]
            constructor
            · rintro ⟨q, hq, h1, h2, h3⟩; exact ⟨q, by simp [hq, h1], by simp [hq, h2], by simp [hq, h3]⟩
            · rintro ⟨q, h1, h2, h3⟩
              by_cases hq : q = r
              · rw [if_pos hq, hi] at h2; exact absurd h2 (by decide)
              · simp only [hq, if_false] at h1 h2 h3; exact ⟨q, hq, h1, h2, h3⟩
          | true =>
            simp only [if_true]
            rw [setBit_getLsbD]
            split
            next hbb => simp only [true_iff]; exact ⟨r, by simp, by simp [hi], by simp [hbb.1]⟩
            next hbb =>
              have hbne : pinBit (pinfield raw) ≠ b := fun he => hbb ⟨he.symm, by omega⟩
              rw [old]
              constructor
              · rintro ⟨q, hq, h1, h2, h3⟩; exact ⟨q, by simp [hq, h1], by simp [hq, h2], by simp [hq, h3]⟩
              · rintro ⟨q, h1, h2, h3⟩
                by_cases hq : q = r
                · rw [if_pos hq] at h3; exact absurd h3 hbne
                · simp only [hq, if_false] at h1 h2 h3; exact ⟨q, hq, h1, h2, h3⟩
        · exact hc.val

/-- ASSIGN_SINGLE succeeds on a legal pin that nothing claims (R91). -/
theorem assignSingle_ok {r : SRole} {raw : Byte} {s : State} (hr : raw ≠ 0#8 → pinInRange (pinfield raw) = true)
    (hfree : raw ≠ 0#8 → s.claimed.getLsbD (pinBit (pinfield raw)) = false) : ∃ t, assignSingle r raw s = .ok () t := by
  unfold assignSingle
  by_cases h : raw = 0#8
  · exact ⟨s, by simp [h]⟩
  · simp [h, hr h, hfree h]

/-- What assigning a list of roles without entries does (R99). -/
theorem assignRoles_sat (rs : List SRole) : ∀ s : State, rs.Nodup → s.Claims → (∀ r ∈ rs, s.pinmap.get r = 0#8) →
    (assignRoles rs s).Sat
      (fun _ t => PinWork s t ∧ t.Claims ∧ t.samp = s.samp ∧ t.gmask = s.gmask ∧
        (∀ r ∈ rs, t.pinmap.get r = s.samp.get r) ∧ ∀ r, r ∉ rs → t.pinmap.get r = s.pinmap.get r)
      (fun e t => PinWork s t ∧ ((∃ r, e = .pinOutOfRange r) ∨ ∃ m, e = .pinConflict m)) (fun _ _ _ => False) := by
  induction rs with
  | nil => intro s _ hc _; exact ⟨.refl s, hc, rfl, rfl, by simp, fun _ _ => rfl⟩
  | cons r rs ih =>
    intro s hnd hc h0
    obtain ⟨hr, hnd⟩ := List.nodup_cons.mp hnd
    unfold assignRoles
    refine Res.sat_bind ((assignSingle_sat hc (h0 r (by simp))).mono (fun _ _ h => h) ?_ (fun _ _ _ h => h)) ?_
    · rintro e t ⟨rfl, h | h⟩
      · exact ⟨.refl _, .inl ⟨_, h⟩⟩
      · exact ⟨.refl _, .inr h⟩
    · rintro _ t ⟨hp, hc', hs, hg, hm⟩
      have hne : ∀ q ∈ rs, q ≠ r := fun q hq he => hr (he ▸ hq)
      refine (ih t hnd hc' ?_).mono ?_ ?_ (fun _ _ _ h => h)
      · intro q hq
        rw [hm, PinTable.get_set_ne _ _ (hne q hq)]
        exact h0 q (by simp [hq])
      · rintro _ u ⟨k1, k2, k3, k4, k5, k6⟩
        refine ⟨hp.trans k1, k2, k3.trans hs, k4.trans hg, ?_, ?_⟩
        · intro q hq
          rcases List.mem_cons.mp hq with rfl | hq
          · rw [k6 q hr, hm, PinTable.get_set_self]
          · rw [k5 q hq, hs]
        · intro q hq
          rw [List.mem_cons, not_or] at hq
          rw [k6 q hq.2, hm, PinTable.get_set_ne _ _ hq.1]
      · rintro e u ⟨k1, k2⟩; exact ⟨hp.trans k1, k2⟩

/-- Two masks that share no bit. -/
theorem and_eq_zero_iff (a b : Mask) : a &&& b = 0#16 ↔ ∀ i, ¬ (a.getLsbD i = true ∧ b.getLsbD i = true) := by
  constructor
  · intro h i ⟨h1, h2⟩
    have := congrArg (fun x => x.getLsbD i) h
    simp only [BitVec.getLsbD_and, h1, h2, Bool.and_self, BitVec.getLsbD_zero] at this
    exact absurd this (by decide)
  · intro h
    apply BitVec.eq_of_getLsbD_eq
    intro i _
    have := h i
    rw [BitVec.getLsbD_and, BitVec.getLsbD_zero]
    cases h1 : a.getLsbD i <;> cases h2 : b.getLsbD i <;> simp_all

/-- A group mask in range has no bit above 11 (R62). -/
theorem groupInRange_low {m : Mask} (h : groupInRange m = true) {b : Nat} (hb : m.getLsbD b = true) : b < 12 := by
  rw [groupInRange_iff] at h
  by_contra hge
  have hlt : b < 16 := by
    by_contra h16
    rw [BitVec.getLsbD_of_ge _ _ (by omega)] at hb; exact absurd hb (by decide)
  have := congrArg (fun x => x.getLsbD (b - 12)) h
  simp only [BitVec.getLsbD_extractLsb', BitVec.getLsbD_zero] at this
  rw [show 12 + (b - 12) = b by omega, hb] at this
  simp at this
  omega

/-- What ASSIGN_GROUP does to a group that had no pins (R94). -/
theorem assignGroup_sat {g : GRole} {m : Mask} {s : State} (hc : s.Claims) (h0 : s.gmask.get g = 0#16) :
    (assignGroup g m s).Sat
      (fun _ t => PinWork s t ∧ t.Claims ∧ t.samp = s.samp ∧ t.pinmap = s.pinmap ∧ t.gmask = s.gmask.set g m)
      (fun e t => t = s ∧ (e = .pinOutOfRange (.group g) ∨ ∃ x, e = .pinConflict x)) (fun _ _ _ => False) := by
  unfold assignGroup
  split
  · exact ⟨rfl, .inl rfl⟩
  next hr =>
    have hr : groupInRange m = true := by simpa using hr
    split
    · exact ⟨rfl, .inr ⟨_, rfl⟩⟩
    next hfree =>
      have hfree := (and_eq_zero_iff _ _).mp (not_not.mp hfree)
      have hno : ∀ b, m.getLsbD b = true → ¬ ((∃ r, s.assigned r = true ∧ s.bitOf r = b) ∨ s.gmask.pwr.getLsbD b = true ∨
          s.gmask.buf.getLsbD b = true) := fun b hb hh => hfree b ⟨hb, (hc.claimed_iff b).mpr hh⟩
      refine ⟨PinWork.of_eq s.pinmap (s.gmask.set g m) _ s.inv s.val s.samp rfl, ?_, rfl, rfl, rfl⟩
      constructor
      · exact hc.range
      · exact hc.disjoint
      · intro b
        cases g with
        | pwr => rintro ⟨h1, h2⟩; exact hno b h1 (.inr (.inr h2))
        | buf => rintro ⟨h1, h2⟩; exact hno b h2 (.inr (.inl h1))
      · intro k r hr'
        show ((s.gmask.set g m).get k).getLsbD (s.bitOf r) = false
        by_cases hk : k = g
        · subst hk
          rw [GroupTable.get_set_self]
          cases hb : m.getLsbD (s.bitOf r) with
          | false => rfl
          | true => exact absurd (.inl ⟨r, hr', rfl⟩) (hno _ hb)
        · rw [GroupTable.get_set_ne _ _ hk]; exact hc.groupsFree k r hr'
      · intro k b
        show ((s.gmask.set g m).get k).getLsbD b = true → b < 12
        by_cases hk : k = g
        · subst hk; rw [GroupTable.get_set_self]; exact groupInRange_low hr
        · rw [GroupTable.get_set_ne _ _ hk]; exact hc.groupsLow k b
      · intro b
        have hz : s.gmask.get g = 0#16 → (s.gmask.get g).getLsbD b = false := fun h => by rw [h]; simp
        show (s.dir ||| m).getLsbD b = true ↔ (∃ r, r ≠ .din ∧ s.assigned r = true ∧ s.bitOf r = b) ∨
          (s.gmask.set g m).pwr.getLsbD b = true ∨ (s.gmask.set g m).buf.getLsbD b = true
        rw [BitVec.getLsbD_or, Bool.or_eq_true, hc.dirBits]
        cases g with
        | pwr =>
          have : s.gmask.pwr.getLsbD b = false := hz h0
          simp only [this, Bool.false_eq_true, false_or, GroupTable.set]
          rw [or_assoc, or_comm (a := s.gmask.buf.getLsbD b = true)]
        | buf =>
          have : s.gmask.buf.getLsbD b = false := hz h0
          simp only [this, Bool.false_eq_true, or_false, GroupTable.set]
          rw [or_assoc]
      · exact hc.invBits
      · exact hc.val

/-- The masks of R24 from exact claims and the fixed layout. -/
theorem State.Claims.masks {s : State} (h : s.Claims)
    (hf : pinfield s.pinmap.clk = 1#7 ∧ pinfield s.pinmap.dout = 2#7 ∧ pinfield s.pinmap.din = 3#7 ∧
      4 ≤ (pinfield s.pinmap.reset).toNat ∧ (pinfield s.pinmap.reset).toNat ≤ 11) : s.Masks where
  range := h.range
  disjoint := h.disjoint
  fixed := hf
  groups := ⟨(and_eq_zero_iff _ _).mpr h.groups, h.groupsFree⟩
  dirBits := h.dirBits
  invBits := h.invBits
  high := by
    refine ⟨?_, ?_, by rw [h.val]; decide⟩
    · apply BitVec.eq_of_getLsbD_eq
      intro i hi
      rw [BitVec.getLsbD_extractLsb', BitVec.getLsbD_zero]
      cases hb : s.dir.getLsbD (12 + i) with
      | false => simp
      | true =>
        rcases (h.dirBits _).mp hb with ⟨r, -, h1, h2⟩ | h1 | h1
        · have := pinBit_lt (h.range r h1); simp only [State.bitOf] at h2; omega
        · have := h.groupsLow .pwr _ h1; omega
        · have := h.groupsLow .buf _ h1; omega
    · apply BitVec.eq_of_getLsbD_eq
      intro i hi
      rw [BitVec.getLsbD_extractLsb', BitVec.getLsbD_zero]
      cases hb : s.inv.getLsbD (11 + i) with
      | false => simp
      | true =>
        obtain ⟨r, h1, -, h2⟩ := (h.invBits _).mp hb
        have := pinBit_lt (h.range r h1); simp only [State.bitOf] at h2; omega
  valBits := by intro b hb; rw [h.val] at hb; simp at hb

theorem roleOrder_nodup : roleOrder.Nodup := by decide

theorem mem_roleOrder (r : SRole) : r ∈ roleOrder := by cases r <;> decide

/-- Only pin work is done by ASSIGN_SINGLE, whatever the state. -/
theorem assignSingle_work (r : SRole) (raw : Byte) (s : State) : (assignSingle r raw s).All (PinWork s) := by
  unfold assignSingle
  split
  · exact .refl s
  split
  · exact .refl s
  dsimp only
  split
  · exact .refl s
  · exact PinWork.of_eq _ s.gmask _ _ s.val s.samp rfl

/-- Only pin work is done by ASSIGN_GROUP, whatever the state. -/
theorem assignGroup_work (g : GRole) (m : Mask) (s : State) : (assignGroup g m s).All (PinWork s) := by
  unfold assignGroup
  repeat' split
  · exact .refl s
  · exact .refl s
  · exact PinWork.of_eq s.pinmap _ _ s.inv s.val s.samp rfl

/-- What PIN_SETUP can end in (R99): the masks of R24, or a configuration error; only diagnostics are emitted either way. -/
theorem pinSetup_sat (s : State) :
    (pinSetup s).Sat (fun _ t => PinWork s t ∧ t.Masks ∧ t.val = 0#16)
      (fun e t => PinWork s t ∧ ((∃ r, e = .pinLayoutInvalid r) ∨ (∃ r, e = .pinOutOfRange r) ∨ ∃ m, e = .pinConflict m))
      (fun _ _ _ => False) := by
  unfold pinSetup
  have hclear : PinWork s (clearSession s) := PinWork.of_eq _ _ _ _ _ _ rfl
  refine Res.sat_bind ((validateLayout_sat (clearSession s)).mono (fun _ _ h => h) ?_ (fun _ _ _ h => h)) ?_
  · rintro e t ⟨h1, h2, -⟩; exact ⟨hclear.trans h2, .inl h1⟩
  rintro _ t ⟨ht, a1, a2, a3, a4, a5, b1, b2, b3, b4, -⟩
  have hct : t.Claims := by
    have hc := clearSession_claims s
    constructor
    · intro r; simp only [State.assigned, a1]; exact hc.range r
    · intro r q; simp only [State.assigned, a1]; exact hc.disjoint r q
    · rw [a2]; exact hc.groups
    · intro g r; simp only [State.assigned, State.bitOf, a1, a2]; exact hc.groupsFree g r
    · rw [a2]; exact hc.groupsLow
    · intro b; simp only [State.assigned, State.bitOf, a1, a2, a3]; exact hc.dirBits b
    · intro b; simp only [State.assigned, State.bitOf, a1, a4]; exact hc.invBits b
    · rw [a5]; exact hc.val
  refine Res.sat_bind ((assignRoles_sat roleOrder t roleOrder_nodup hct (by intro r _; rw [a1]; simp)).mono
    (fun _ _ h => h) ?_ (fun _ _ _ h => h)) ?_
  · rintro e u ⟨h1, h2⟩; exact ⟨(hclear.trans ht).trans h1, .inr h2⟩
  rintro _ u ⟨hu, hcu, c1, c2, c3, -⟩
  have hg0 : u.gmask = .zero := by rw [c2, a2]; rfl
  refine Res.sat_bind ((assignGroup_sat (g := .pwr) (m := u.cfg.group.get .pwr) hcu (by rw [hg0]; rfl)).mono (fun _ _ h => h) ?_
    (fun _ _ _ h => h)) ?_
  · rintro e v ⟨rfl, h | h⟩
    · exact ⟨(hclear.trans ht).trans hu, .inr (.inl ⟨_, h⟩)⟩
    · exact ⟨(hclear.trans ht).trans hu, .inr (.inr h)⟩
  rintro _ v ⟨hv, hcv, d1, d2, d3⟩
  refine (assignGroup_sat (g := .buf) (m := v.cfg.group.get .buf) hcv (by rw [d3, hg0]; rfl)).mono ?_ ?_ (fun _ _ _ h => h)
  · rintro _ w ⟨hw, hcw, e1, e2, e3⟩
    refine ⟨(((hclear.trans ht).trans hu).trans hv).trans hw, hcw.masks ?_, hcw.val⟩
    have hp : ∀ r, w.pinmap.get r = t.samp.get r := fun r => by rw [e2, d2]; exact c3 r (mem_roleOrder r)
    have h1 : w.pinmap.clk = t.samp.clk := hp .clk
    have h2 : w.pinmap.dout = t.samp.dout := hp .dout
    have h3 : w.pinmap.din = t.samp.din := hp .din
    have h4 : w.pinmap.reset = t.samp.reset := hp .reset
    rw [h1, h2, h3, h4]
    exact ⟨b1, b2, b3, (resetPinLegal_iff _).mp b4⟩
  · rintro e w ⟨rfl, h | h⟩
    · exact ⟨((hclear.trans ht).trans hu).trans hv, .inr (.inl ⟨_, h⟩)⟩
    · exact ⟨((hclear.trans ht).trans hu).trans hv, .inr (.inr h)⟩

end Sys2Proof.Machine
end

