-- ==== Sys2Proof/Laws/Session.lean ====
section
/-!
SUPPORT. What every operation but OPEN and CLOSE leaves alone: the relation `SameSession`, said once and shown for each operation
from the bottom of the call tree (R186) to its top.
-/

namespace Sys2Proof.Machine

/-- `t` comes from `s` by work inside one session: only VAL (at assigned pins), ST, ATTEMPT, RXBUF and what the environment sees
may differ. -/
structure SameSession (s t : State) : Prop where
  pinmap : t.pinmap = s.pinmap
  gmask : t.gmask = s.gmask
  dir : t.dir = s.dir
  inv : t.inv = s.inv
  live : t.live = s.live
  clk : t.clk = s.clk
  samp : t.samp = s.samp
  frame : t.frame = s.frame
  rx : t.rx = s.rx
  cfg : t.cfg = s.cfg
  pd : t.pd = s.pd
  port : t.port = s.port
  running : t.running = s.running
  ret : t.ret = s.ret
  resBuf : t.resBuf = s.resBuf
  hostRes : t.hostRes = s.hostRes
  par : t.par = s.par
  valBits : ∀ b, (∀ r, s.assigned r = true → s.bitOf r ≠ b) → t.val.getLsbD b = s.val.getLsbD b
  events : ∃ l, t.hist = s.hist ++ l ∧ (s.par.wf = true → WholeFrames s.par (outgoing l))

theorem SameSession.refl (s : State) : SameSession s s where
  pinmap := rfl
  gmask := rfl
  dir := rfl
  inv := rfl
  live := rfl
  clk := rfl
  samp := rfl
  frame := rfl
  rx := rfl
  cfg := rfl
  pd := rfl
  port := rfl
  running := rfl
  ret := rfl
  resBuf := rfl
  hostRes := rfl
  par := rfl
  valBits := fun _ _ => rfl
  events := ⟨[], by simp, fun _ => WholeFrames.nil _⟩

theorem SameSession.trans {s t u : State} (h : SameSession s t) (k : SameSession t u) : SameSession s u where
  pinmap := k.pinmap.trans h.pinmap
  gmask := k.gmask.trans h.gmask
  dir := k.dir.trans h.dir
  inv := k.inv.trans h.inv
  live := k.live.trans h.live
  clk := k.clk.trans h.clk
  samp := k.samp.trans h.samp
  frame := k.frame.trans h.frame
  rx := k.rx.trans h.rx
  cfg := k.cfg.trans h.cfg
  pd := k.pd.trans h.pd
  port := k.port.trans h.port
  running := k.running.trans h.running
  ret := k.ret.trans h.ret
  resBuf := k.resBuf.trans h.resBuf
  hostRes := k.hostRes.trans h.hostRes
  par := k.par.trans h.par
  valBits := by
    intro b hb
    rw [k.valBits b, h.valBits b hb]
    intro r hr
    simp only [State.assigned, State.bitOf, h.pinmap] at hr ⊢
    exact hb r hr
  events := by
    obtain ⟨l, hl, hw⟩ := h.events
    obtain ⟨m, hm, hv⟩ := k.events
    refine ⟨l ++ m, by rw [hm, hl, List.append_assoc], fun hp => ?_⟩
    rw [outgoing_append]
    rw [h.par] at hv
    exact (hw hp).append (hv hp)

/-- Any change that touches only ST, ATTEMPT and RXBUF stays in the session. -/
theorem SameSession.of_eq {s t : State} (st : St) (a : BitVec 3) (b : List Byte)
    (h : t = { s with st := st, attempt := a, rxBuf := b }) : SameSession s t := by
  subst h
  exact { SameSession.refl s with }

/-- One more event of no transport write stays in the session. -/
theorem SameSession.emit (s : State) (e : Event) (h : outgoing [e] = []) : SameSession s (s.emit e) :=
  { SameSession.refl s with events := ⟨[e], rfl, fun _ => h ▸ WholeFrames.nil _⟩ }

theorem SameSession.waitFor (s : State) (d : Nat) : SameSession s (s.waitFor d) := SameSession.emit s _ rfl

/-- A write of whole frames stays in the session. -/
theorem SameSession.tWrite (bytes : List Byte) (s : State) (h : s.par.wf = true → WholeFrames s.par bytes) :
    SameSession s (tWrite bytes s) :=
  { SameSession.refl s with events := ⟨[_], rfl, fun hp => (h hp).write _⟩ }

theorem SameSession.tRead (n : Nat) (s : State) : SameSession s (tRead n s) :=
  { SameSession.refl s with events := ⟨[_], rfl, fun _ => WholeFrames.nil _⟩ }

/-- The errors an exchange can end with (R145, R192). -/
def exchangeErr (e : Err) : Prop := e = .writeShort ∨ e = .readFailed

/-- The errors the bring-up operations can end with (R192). -/
def bringUpErr (e : Err) : Prop := e = .writeShort ∨ e = .operationUnsupported ∨ e = .programEnableFailed

/-! ### Sending and receiving -/

/-- What sending a frame can end in: the same state after the write, with or without the error (R45). -/
theorem sendFrame_sat (bytes : List Byte) (s : State) :
    (sendFrame bytes s).Sat (fun _ t => t = tWrite bytes s ∧ sentWhole bytes s = true)
      (fun e t => e = .writeShort ∧ t = tWrite bytes s) (fun _ _ _ => False) := by
  unfold sendFrame; split <;> simp_all

/-- One pass of the receive loop: all bytes there, a read error with the accumulator emptied, or still short (R127). -/
theorem receive_sat (n : Nat) (s : State) :
    (receive n s).Sat (fun l t => SameSession s t ∧ t.st = s.st ∧ t.attempt = s.attempt ∧ n ≤ l.length ∧ l = t.rxBuf)
      (fun e t => SameSession s t ∧ e = .readFailed ∧ t.st = s.st ∧ t.attempt = s.attempt ∧ t.rxBuf = [])
      (fun c m t => SameSession s t ∧ c = .shift ∧ m = n ∧ t.st = s.st ∧ t.attempt = s.attempt ∧ t.rxCnt < n) := by
  unfold receive
  split
  next h =>
    dsimp only
    split
    · exact ⟨(SameSession.tRead _ s).trans (.of_eq s.st s.attempt [] rfl), rfl, rfl, rfl, rfl⟩
    next l hl =>
      split
      next h2 =>
        exact ⟨(SameSession.tRead _ s).trans (.of_eq s.st s.attempt _ rfl), rfl, rfl, rfl, rfl, h2⟩
      next h2 =>
        exact ⟨(SameSession.tRead _ s).trans (.of_eq s.st s.attempt _ rfl), rfl, rfl, by omega, rfl⟩
  next h => exact ⟨.refl s, rfl, rfl, by unfold State.rxCnt at h; omega, rfl⟩

/-- The frame of a legal, transmitting shift is a whole frame (R124, R125). -/
theorem shiftFrame_whole {p : Params} (hp : p.wf = true) {mode : Byte} {n : Nat} {pl : List Byte}
    (h : shiftLegal p mode n pl = true) (hs : modeSends p mode = true) : WholeFrames p (shiftBytes mode pl) := by
  refine WholeFrames.one (f := .shiftFrame mode pl) rfl ?_
  obtain ⟨hm, h1, h2, h3⟩ := (shiftLegal_iff _ _ _ _).mp h
  have h3 := h3 hs
  subst h3
  simp only [Instr.wf, Bool.and_eq_true, Bool.or_eq_true, beq_iff_eq, decide_eq_true_iff]
  refine ⟨⟨?_, h1⟩, h2⟩
  rcases hm with hm | rfl | hm
  · exact .inl hm
  · rw [(modes_of_wf hp).2.2.1] at hs; exact absurd hs (by decide)
  · exact .inr hm

/-- What SHIFT can end in (R123 to R128). -/
theorem shift_sat (mode : Byte) (n : Nat) (pl : List Byte) (s : State) (h0 : s.rxBuf = []) :
    (shift mode n pl s).Sat
      (fun l t => SameSession s t ∧ t.st = s.st ∧ t.attempt = s.attempt ∧ (modeReceives s.par mode = true → n ≤ l.length ∧ l = t.rxBuf))
      (fun e t => exchangeErr e ∧ SameSession s t ∧ t.st = s.st ∧ t.attempt = s.attempt ∧ t.rxBuf = [])
      (fun c m t => SameSession s t ∧ c = .shift ∧ m = n ∧ t.st = s.st ∧ t.attempt = s.attempt ∧ t.rxCnt < n) := by
  unfold shift
  split
  · trivial
  next hl =>
    have hl : shiftLegal s.par mode n pl = true := by simpa using hl
    have hsend : (if modeSends s.par mode then sendFrame (shiftBytes mode pl) s else .ok () s).Sat
        (fun _ t => SameSession s t ∧ t.st = s.st ∧ t.attempt = s.attempt)
        (fun e t => exchangeErr e ∧ SameSession s t ∧ t.st = s.st ∧ t.attempt = s.attempt ∧ t.rxBuf = [])
        (fun c m t => SameSession s t ∧ c = .shift ∧ m = n ∧ t.st = s.st ∧ t.attempt = s.attempt ∧ t.rxCnt < n) := by
      split
      next hs =>
        have hw := SameSession.tWrite (shiftBytes mode pl) s (fun hp => shiftFrame_whole hp hl hs)
        refine (sendFrame_sat _ s).mono ?_ ?_ ?_
        · rintro _ t ⟨rfl, -⟩; exact ⟨hw, rfl, rfl⟩
        · rintro _ t ⟨he, rfl⟩; exact ⟨.inl he, hw, rfl, rfl, h0⟩
        · exact fun _ _ _ h => h.elim
      · exact ⟨.refl s, rfl, rfl⟩
    refine Res.sat_bind hsend ?_
    rintro _ t ⟨ht, h1, h2⟩
    split
    next hr =>
      rw [ht.par] at hr
      refine (receive_sat n { t with rxBuf := [] }).mono ?_ ?_ ?_
      · rintro l u ⟨hu, h3, h4, h5, h6⟩
        exact ⟨ht.trans ((SameSession.of_eq t.st t.attempt [] rfl).trans hu), h3.trans h1, h4.trans h2, fun _ => ⟨h5, h6⟩⟩
      · rintro e u ⟨hu, he, h3, h4, h5⟩
        exact ⟨.inr he, ht.trans ((SameSession.of_eq t.st t.attempt [] rfl).trans hu), h3.trans h1, h4.trans h2, h5⟩
      · rintro c m u ⟨hu, h3, h4, h5, h6, h7⟩
        exact ⟨ht.trans ((SameSession.of_eq t.st t.attempt [] rfl).trans hu), h3, h4, h5.trans h1, h6.trans h2, h7⟩
    next hr => exact ⟨ht, h1, h2, fun h => by rw [ht.par] at hr; exact absurd h hr⟩

/-- What the response of an exchange does to the ways a receive loop ends: RXBUF is empty again but in the loop. -/
theorem asResponse_sat {r : Res (List Byte)} {s : State}
    (h : r.Sat (fun _ t => SameSession s t ∧ t.st = s.st ∧ t.attempt = s.attempt)
      (fun e t => exchangeErr e ∧ SameSession s t ∧ t.st = s.st ∧ t.attempt = s.attempt ∧ t.rxBuf = [])
      (fun _ m t => SameSession s t ∧ m = xchgLen ∧ t.st = s.st ∧ t.attempt = s.attempt ∧ t.rxCnt < xchgLen)) :
    (asResponse r).Sat (fun _ t => SameSession s t ∧ t.st = s.st ∧ t.attempt = s.attempt ∧ t.rxBuf = [])
      (fun e t => exchangeErr e ∧ SameSession s t ∧ t.st = s.st ∧ t.attempt = s.attempt ∧ t.rxBuf = [])
      (fun _ m t => SameSession s t ∧ m = xchgLen ∧ t.st = s.st ∧ t.attempt = s.attempt ∧ t.rxCnt < xchgLen) := by
  refine Res.sat_bind h ?_
  rintro l t ⟨ht, h1, h2⟩
  exact ⟨ht.trans (.of_eq t.st t.attempt [] rfl), h1, h2, rfl⟩

/-- What EXCHANGE can end in (R145). -/
theorem exchange_sat (c : Quad) (s : State) (h0 : s.rxBuf = []) :
    (exchange c s).Sat (fun _ t => SameSession s t ∧ t.st = s.st ∧ t.attempt = s.attempt ∧ t.rxBuf = [])
      (fun e t => exchangeErr e ∧ SameSession s t ∧ t.st = s.st ∧ t.attempt = s.attempt ∧ t.rxBuf = [])
      (fun _ m t => SameSession s t ∧ m = xchgLen ∧ t.st = s.st ∧ t.attempt = s.attempt ∧ t.rxCnt < xchgLen) := by
  refine asResponse_sat ((shift_sat _ _ _ s h0).mono ?_ ?_ ?_)
  · rintro l t ⟨h1, h2, h3, -⟩; exact ⟨h1, h2, h3⟩
  · exact fun _ _ h => h
  · rintro _ m t ⟨h1, -, h2, h3, h4, h5⟩; exact ⟨h1, h2, h3, h4, h5⟩

/-! ### SET_PIN -/

/-- Writing an assigned role's value bit stays in the session. -/
theorem SameSession.writePinBit {s : State} {r : SRole} (v : Bool) (h : pinfield (s.pinmap.get r) ≠ 0#7) :
    SameSession s (writePinBit (pinBit (pinfield (s.pinmap.get r))) v s) :=
  { SameSession.refl s with
    valBits := by
      intro b hb
      have hne := hb r (by simpa [State.assigned] using h)
      rw [writePinBit_val, setBit_getLsbD, if_neg]
      rintro ⟨h1, -⟩
      exact hne h1.symm }

/-- What SET_PIN can end in: ST, ATTEMPT and RXBUF are untouched; its only error is WriteShort (R140). -/
theorem setPin_sat (r : SRole) (v : Bool) (s : State) :
    (setPin r v s).Sat (fun _ t => SameSession s t ∧ t.st = s.st ∧ t.attempt = s.attempt ∧ t.rxBuf = s.rxBuf)
      (fun e t => e = .writeShort ∧ SameSession s t ∧ t.st = s.st ∧ t.attempt = s.attempt ∧ t.rxBuf = s.rxBuf) (fun _ _ _ => False) := by
  unfold setPin
  dsimp only
  split
  · exact ⟨.refl s, rfl, rfl, rfl⟩
  next h =>
    have hp := SameSession.writePinBit v h
    have hw := hp.trans (SameSession.tWrite (encodeGpioSet (Sys2Proof.Machine.writePinBit (pinBit (pinfield (s.pinmap.get r))) v s)) _
      (fun _ => WholeFrames.gpio _ _ _))
    refine (sendFrame_sat _ _).mono ?_ ?_ ?_
    · rintro _ t ⟨rfl, -⟩; exact ⟨hw, rfl, rfl, rfl⟩
    · rintro e t ⟨rfl, rfl⟩; exact ⟨rfl, hw, rfl, rfl, rfl⟩
    · exact fun _ _ _ h => h.elim

end Sys2Proof.Machine
end

