-- ==== Sys2Proof/Laws/Open.lean ====
section
/-!
SUPPORT. What OPEN and CLOSE can end in (R157, R185): how a session begins and ends, and that no way out of OPEN leaves the transport
handle open without a session.
-/

namespace Sys2Proof.Machine

/-- What OPEN never touches. -/
structure Opening (s t : State) : Prop where
  attempt : t.attempt = s.attempt
  frame : t.frame = s.frame
  rxBuf : t.rxBuf = s.rxBuf
  rx : t.rx = s.rx
  cfg : t.cfg = s.cfg
  pd : t.pd = s.pd
  port : t.port = s.port
  running : t.running = s.running
  ret : t.ret = s.ret
  resBuf : t.resBuf = s.resBuf
  hostRes : t.hostRes = s.hostRes
  par : t.par = s.par

theorem Opening.refl (s : State) : Opening s s := ⟨rfl, rfl, rfl, rfl, rfl, rfl, rfl, rfl, rfl, rfl, rfl, rfl⟩

theorem Opening.trans {s t u : State} (h : Opening s t) (k : Opening t u) : Opening s u :=
  ⟨k.attempt.trans h.attempt, k.frame.trans h.frame, k.rxBuf.trans h.rxBuf, k.rx.trans h.rx, k.cfg.trans h.cfg, k.pd.trans h.pd,
    k.port.trans h.port, k.running.trans h.running, k.ret.trans h.ret, k.resBuf.trans h.resBuf, k.hostRes.trans h.hostRes,
    k.par.trans h.par⟩

theorem PinWork.opening {s t : State} (h : PinWork s t) : Opening s t :=
  ⟨h.attempt, h.frame, h.rxBuf, h.rx, h.cfg, h.pd, h.port, h.running, h.ret, h.resBuf, h.hostRes, h.par⟩

/-- The configuration errors (R191). -/
def configErr (e : Err) : Prop := (∃ r, e = .pinLayoutInvalid r) ∨ (∃ r, e = .pinOutOfRange r) ∨ ∃ m, e = .pinConflict m

/-- The errors OPEN can end with (R192). -/
def openErr (e : Err) : Prop := configErr e ∨ e = .openFailed ∨ e = .modeSetFailed ∨ e = .writeShort

theorem handleOpen_append (a b : List Event) (x : Bool) : handleOpen (a ++ b) x = handleOpen b (handleOpen a x) := by
  induction a generalizing x with
  | nil => rfl
  | cons e es ih => cases e <;> simp only [List.cons_append, handleOpen, ih]

/-- Events that open and close nothing. -/
theorem handleOpen_diags {l : List Event} (h : ∀ e ∈ l, ∃ k i, e = .diag k i) (x : Bool) : handleOpen l x = x := by
  induction l with
  | nil => rfl
  | cons e es ih =>
    obtain ⟨k, i, rfl⟩ := h e (by simp)
    exact ih fun e he => h e (by simp [he])

/-- The work of SET_CLOCK: only diagnostics and one write are emitted, and DIVISOR is gone at its end (R115, R19). -/
structure ClockWork (s t : State) : Prop where
  opening : Opening s t
  pinmap : t.pinmap = s.pinmap
  gmask : t.gmask = s.gmask
  dir : t.dir = s.dir
  inv : t.inv = s.inv
  val : t.val = s.val
  st : t.st = s.st
  live : t.live = s.live
  clk : t.clk = none
  events : ∃ l, t.hist = s.hist ++ l ∧ ∀ x, handleOpen l x = x

/-- The diagnostics of a divisor (R112, R114, R115). -/
def capEvents (r : ClkResult) (hz : BitVec 32) : List Event :=
  (if r.capMax then [.diag .cappedMax (.clock hz r.effective)] else []) ++
  (if r.capMin then [.diag .cappedMin (.clock hz r.effective)] else [])

theorem reportCaps_eq (r : ClkResult) (hz : BitVec 32) (s : State) :
    reportCaps r hz s = { s with hist := s.hist ++ capEvents r hz } := by
  unfold reportCaps capEvents
  split <;> split <;> simp [State.diag, State.emit]

theorem capEvents_diags (r : ClkResult) (hz : BitVec 32) : ∀ e ∈ capEvents r hz, ∃ k i, e = .diag k i := by
  unfold capEvents
  split <;> split <;> simp

theorem setClock_sat (hz : BitVec 32) (s : State) :
    (setClock hz s).Sat (fun _ t => ClockWork s t) (fun e t => e = .writeShort ∧ ClockWork s t) (fun _ _ _ => False) := by
  unfold setClock
  have hd := capEvents_diags (computeDivisor hz) hz
  dsimp only
  rw [reportCaps_eq]
  generalize capEvents (computeDivisor hz) hz = l at hd ⊢
  refine Res.sat_finally ((sendFrame_sat _ _).mono (fun _ _ h => h) (fun _ _ h => h) (fun _ _ _ h => h)) ?_ ?_
  · rintro _ t ⟨rfl, -⟩
    exact ⟨⟨rfl, rfl, rfl, rfl, rfl, rfl, rfl, rfl, rfl, rfl, rfl, rfl⟩, rfl, rfl, rfl, rfl, rfl, rfl, rfl, rfl, l ++ [_], by simp [List.append_assoc]; rfl, fun x => by rw [handleOpen_append, handleOpen_diags hd]; rfl⟩
  · rintro _ t ⟨rfl, rfl⟩
    exact ⟨rfl, ⟨rfl, rfl, rfl, rfl, rfl, rfl, rfl, rfl, rfl, rfl, rfl, rfl⟩, rfl, rfl, rfl, rfl, rfl, rfl, rfl, rfl, l ++ [_], by simp [List.append_assoc]; rfl, fun x => by rw [handleOpen_append, handleOpen_diags hd]; rfl⟩

/-- The masks are about five fields only. -/
theorem State.Masks.of_eq {s t : State} (h : s.Masks) (h1 : t.pinmap = s.pinmap) (h2 : t.gmask = s.gmask) (h3 : t.dir = s.dir)
    (h4 : t.inv = s.inv) (h5 : t.val = s.val) : t.Masks := by
  cases s; cases t
  simp only at h1 h2 h3 h4 h5
  subst h1 h2 h3 h4 h5
  exact ⟨h.range, h.disjoint, h.fixed, h.groups, h.dirBits, h.invBits, h.high, h.valBits⟩

/-- What OPEN can end in (R157). -/
theorem openBody_sat (s : State) :
    (openBody s).Sat
      (fun _ t => Opening s t ∧ t.Masks ∧ t.st = .opened ∧ t.live = true ∧ t.clk = none ∧
        ∃ l, t.hist = s.hist ++ l ∧ handleOpen l false = true)
      (fun e t => Opening s t ∧ t.st = s.st ∧ (s.live = false → t.live = false) ∧ (s.clk = none → t.clk = none) ∧ openErr e ∧
        ∃ l, t.hist = s.hist ++ l ∧ handleOpen l false = false ∧ (configErr e → ∀ e ∈ l, isTransportCall e = false))
      (fun _ _ _ => False) := by
  unfold openBody
  refine Res.sat_bind ((pinSetup_sat s).mono (fun _ _ h => h) ?_ (fun _ _ _ h => h)) ?_
  · rintro e t ⟨h1, h2⟩
    obtain ⟨l, hl, hd⟩ := h1.events
    exact ⟨h1.opening, h1.st, h1.live.trans, h1.clk.trans, .inl h2, l, hl, handleOpen_diags hd _,
      fun _ e he => by obtain ⟨k, i, rfl⟩ := hd e he; rfl⟩
  rintro _ t ⟨ht, hm, -⟩
  obtain ⟨l, hl, hd⟩ := ht.events
  have hno : ∀ e, e = Err.openFailed ∨ e = .modeSetFailed ∨ e = .writeShort → ¬ configErr e := by
    rintro e (rfl | rfl | rfl) (⟨_, h⟩ | ⟨_, h⟩ | ⟨_, h⟩) <;> cases h
  unfold openTransport
  split
  next ho =>
    unfold openMode
    split
    next hmo =>
      unfold openClock
      refine Res.sat_bind (Res.sat_onRaise (E' := fun e u => e = .writeShort ∧ ClockWork _ u) (setClock_sat _ _) ?_) ?_
      · rintro e u ⟨rfl, hu⟩
        obtain ⟨m, hm2, hx⟩ := hu.events
        have ho2 := hu.opening
        refine ⟨ht.opening.trans ⟨ho2.attempt, ho2.frame, ho2.rxBuf, ho2.rx, ho2.cfg, ho2.pd, ho2.port, ho2.running, ho2.ret,
          ho2.resBuf, ho2.hostRes, ho2.par⟩, hu.st.trans ht.st, fun _ => rfl, fun _ => hu.clk, .inr (.inr (.inr rfl)), ?_⟩
        · refine ⟨l ++ [.opened s.cfg.vid s.cfg.pid true, .setMode t.dir t.par.modeSelect true] ++ m ++ [.close], ?_, ?_,
            fun h => absurd h (hno _ (.inr (.inr rfl)))⟩
          · simp only [tClose_hist, hm2, tSetMode_hist, tOpen_hist, hl, ho, hmo]; simp
          · simp [handleOpen_append, handleOpen]
      · rintro _ u hu
        obtain ⟨m, hm2, hx⟩ := hu.events
        have ho2 := hu.opening
        refine ⟨ht.opening.trans ⟨ho2.attempt, ho2.frame, ho2.rxBuf, ho2.rx, ho2.cfg, ho2.pd, ho2.port, ho2.running, ho2.ret,
          ho2.resBuf, ho2.hostRes, ho2.par⟩, hm.of_eq hu.pinmap hu.gmask hu.dir hu.inv hu.val, rfl, hu.live, hu.clk, ?_⟩
        · refine ⟨l ++ [.opened s.cfg.vid s.cfg.pid true, .setMode t.dir t.par.modeSelect true] ++ m, ?_, ?_⟩
          · simp only [hm2, tSetMode_hist, tOpen_hist, hl, ho, hmo]; simp
          · simp [handleOpen_append, handleOpen, hx]
    next hmo =>
      refine ⟨ht.opening.trans ⟨rfl, rfl, rfl, rfl, rfl, rfl, rfl, rfl, rfl, rfl, rfl, rfl⟩, ht.st, ht.live.trans, ht.clk.trans,
        .inr (.inr (.inl rfl)),
        l ++ [.opened s.cfg.vid s.cfg.pid true, .setMode t.dir t.par.modeSelect false] ++ [.close], ?_, ?_,
        fun h => absurd h (hno _ (.inr (.inl rfl)))⟩
      · have hmo : modeAnswer (tOpen s.cfg.vid s.cfg.pid t).dir (tOpen s.cfg.vid s.cfg.pid t).par.modeSelect
          (tOpen s.cfg.vid s.cfg.pid t) = false := by simpa using hmo
        simp only [tClose_hist, tSetMode_hist, tOpen_hist, hl, ho, hmo]; simp
      · simp [handleOpen_append, handleOpen]
  next ho =>
    have ho : openAnswer s.cfg.vid s.cfg.pid t = false := by simpa using ho
    refine ⟨ht.opening.trans ⟨rfl, rfl, rfl, rfl, rfl, rfl, rfl, rfl, rfl, rfl, rfl, rfl⟩, ht.st, ht.live.trans, ht.clk.trans,
      .inr (.inl rfl),
      l ++ [.opened s.cfg.vid s.cfg.pid false], ?_, ?_, fun h => absurd h (hno _ (.inl rfl))⟩
    · simp only [tOpen_hist, hl, ho]; simp
    · simp [handleOpen_append, handleOpen_diags hd, handleOpen]

/-- Two states with the same pin table and masks. -/
structure SamePins (s t : State) : Prop where
  pinmap : t.pinmap = s.pinmap
  gmask : t.gmask = s.gmask
  dir : t.dir = s.dir
  inv : t.inv = s.inv
  val : t.val = s.val

/-- The four ways OPEN can end after its pin setup, with the transport calls of each (R157): TOpen fails; TSetMode fails; the clock
frame is not accepted in full; success. None touches the pin table or the masks. -/
theorem openTransport_ends (vid pid : BitVec 16) (hz : BitVec 32) (s : State) :
    let clock := clkBytes (computeDivisor hz).divisor
    let called : List Event := [.opened vid pid true, .setMode s.dir s.par.modeSelect true] ++ capEvents (computeDivisor hz) hz
    (∃ t, openTransport vid pid hz s = .raise .openFailed t ∧ SamePins s t ∧ t.st = s.st ∧ t.live = s.live ∧
      t.hist = s.hist ++ [.opened vid pid false]) ∨
    (∃ t, openTransport vid pid hz s = .raise .modeSetFailed t ∧ SamePins s t ∧ t.st = s.st ∧ t.live = s.live ∧
      t.hist = s.hist ++ [.opened vid pid true, .setMode s.dir s.par.modeSelect false, .close]) ∨
    (∃ t a, openTransport vid pid hz s = .raise .writeShort t ∧ SamePins s t ∧ t.st = s.st ∧ t.live = false ∧ a ≠ .accepted 3 ∧
      t.hist = s.hist ++ called ++ [.write clock a, .close]) ∨
    (∃ t, openTransport vid pid hz s = .ok () t ∧ SamePins s t ∧ t.st = .opened ∧ t.live = true ∧
      t.hist = s.hist ++ called ++ [.write clock (.accepted 3)]) := by
  dsimp only
  unfold openTransport
  cases ho : openAnswer vid pid s with
  | false => exact .inl ⟨_, rfl, ⟨rfl, rfl, rfl, rfl, rfl⟩, rfl, rfl, by simp [ho]⟩
  | true =>
    refine .inr ?_
    rw [if_pos rfl]
    unfold openMode
    cases hm : modeAnswer (tOpen vid pid s).dir (tOpen vid pid s).par.modeSelect (tOpen vid pid s) with
    | false =>
      refine .inl ⟨_, rfl, ⟨rfl, rfl, rfl, rfl, rfl⟩, rfl, rfl, ?_⟩
      simp only [tClose_hist, tSetMode_hist, tOpen_hist, ho, hm]; simp
    | true =>
      refine .inr ?_
      rw [if_pos rfl]
      unfold openClock setClock
      have hh : (tSetMode (tOpen vid pid s).dir (tOpen vid pid s).par.modeSelect (tOpen vid pid s)).hist =
          s.hist ++ [.opened vid pid true, .setMode s.dir s.par.modeSelect true] := by
        simp only [tSetMode_hist, tOpen_hist, ho, hm]; simp
      dsimp only
      rw [reportCaps_eq]
      by_cases hs : writeAnswer (clkBytes (computeDivisor hz).divisor)
          { tSetMode (tOpen vid pid s).dir (tOpen vid pid s).par.modeSelect (tOpen vid pid s) with
            live := true, clk := some (computeDivisor hz)
            hist := (tSetMode (tOpen vid pid s).dir (tOpen vid pid s).par.modeSelect (tOpen vid pid s)).hist ++
              capEvents (computeDivisor hz) hz } = .accepted 3
      · rw [sendFrame_whole (by exact hs)]
        refine .inr ⟨_, rfl, ⟨rfl, rfl, rfl, rfl, rfl⟩, rfl, rfl, ?_⟩
        refine (congrArg (fun a => (tSetMode (tOpen vid pid s).dir (tOpen vid pid s).par.modeSelect (tOpen vid pid s)).hist ++
          capEvents (computeDivisor hz) hz ++ [.write (clkBytes (computeDivisor hz).divisor) a]) hs).trans ?_
        rw [hh]; simp
      · rw [sendFrame_short (by exact hs)]
        refine .inl ⟨_, _, rfl, ⟨rfl, rfl, rfl, rfl, rfl⟩, rfl, rfl, hs, ?_⟩
        show ((tSetMode _ _ (tOpen vid pid s)).hist ++ capEvents (computeDivisor hz) hz ++ [.write _ (writeAnswer _ _)]) ++ [.close] = _
        rw [hh]; simp

/-- What CLOSE leaves (R185). -/
theorem closeBody_ends (s : State) : (closeBody s).st = .closed ∧ (closeBody s).live = false ∧
    (s.live = false → closeBody s = { s with st := .closed }) := by
  unfold closeBody
  split
  next h => exact ⟨rfl, rfl, fun h2 => by rw [h] at h2; exact absurd h2 (by decide)⟩
  next h => exact ⟨rfl, by simpa using h, fun _ => rfl⟩

/-- What CLOSE leaves alone (R185): all but VAL, ST, LIVE and what the environment sees. -/
theorem closeBody_frame (s : State) : Opening s (closeBody s) ∧ (closeBody s).clk = s.clk := by
  unfold closeBody
  split
  · have h := setPin_sat .reset true s
    have hs : SameSession s (stateOf s (setPin .reset true s)) ∧ (stateOf s (setPin .reset true s)).attempt = s.attempt ∧
        (stateOf s (setPin .reset true s)).rxBuf = s.rxBuf := by
      cases hr : setPin .reset true s with
      | ok a t => rw [hr] at h; exact ⟨h.1, h.2.2.1, h.2.2.2⟩
      | raise e t => rw [hr] at h; exact ⟨h.2.1, h.2.2.2.1, h.2.2.2.2⟩
      | wait c n t => rw [hr] at h; exact h.elim
      | refuse x => exact ⟨.refl s, rfl, rfl⟩
    obtain ⟨h1, h2, h3⟩ := hs
    exact ⟨⟨h2, h1.frame, h3, h1.rx, h1.cfg, h1.pd, h1.port, h1.running, h1.ret, h1.resBuf, h1.hostRes, h1.par⟩, h1.clk⟩
  · exact ⟨⟨rfl, rfl, rfl, rfl, rfl, rfl, rfl, rfl, rfl, rfl, rfl, rfl⟩, rfl⟩

end Sys2Proof.Machine
end

