-- ==== Sys2Proof/Laws/Sequencer.lean ====
section
/-!
SUPPORT. What the handshake, INITIALIZE, CHIP_ERASE and the resumed receive loop can end in (R163, R170, R178, R127).
-/

namespace Sys2Proof.Machine

/-- The handshake is over and the session is in `st`. -/
structure Settled (s t : State) (st : St) : Prop where
  same : SameSession s t
  st : t.st = st
  attempt : t.attempt = 0#3
  rxBuf : t.rxBuf = []

/-- An attempt of the handshake waits for its response. -/
structure Attempting (s t : State) (st : St) (m : Nat) : Prop where
  same : SameSession s t
  length : m = xchgLen
  st : t.st = st
  low : 1 ≤ t.attempt.toNat
  high : t.attempt.toNat ≤ peAttempts
  short : t.rxCnt < xchgLen

theorem Settled.after {s t u : State} {st : St} (h : SameSession s t) (k : Settled t u st) : Settled s u st :=
  ⟨h.trans k.same, k.st, k.attempt, k.rxBuf⟩

theorem Attempting.after {s t u : State} {st : St} {m : Nat} (h : SameSession s t) (k : Attempting t u st m) :
    Attempting s u st m :=
  ⟨h.trans k.same, k.length, k.st, k.low, k.high, k.short⟩

/-- The pulse of a failed attempt ends in what follows it, or in the error of a pin write (R170, R173). -/
theorem pulseReset_sat {next : State → Res Unit} {s : State} {P : Unit → State → Prop} {E : Err → State → Prop}
    {W : RxClient → Nat → State → Prop} (h0 : s.rxBuf = [])
    (hE : ∀ t, Settled s t .failed → E .writeShort t)
    (hn : ∀ t, SameSession s t → t.st = s.st → t.attempt = s.attempt → t.rxBuf = [] → (next t).Sat P E W) :
    (pulseReset next s).Sat P E W := by
  unfold pulseReset
  refine Res.sat_bind (P := fun _ t => SameSession s t ∧ t.st = s.st ∧ t.attempt = s.attempt ∧ t.rxBuf = []) ?_
    (fun _ t ht => hn t ht.1 ht.2.1 ht.2.2.1 ht.2.2.2)
  refine Res.sat_onRaise (E' := fun e t => e = .writeShort ∧ SameSession s t ∧ t.rxBuf = []) ?_ ?_
  · refine Res.sat_bind (P := fun _ t => SameSession s t ∧ t.st = s.st ∧ t.attempt = s.attempt ∧ t.rxBuf = []) ?_ ?_
    · refine (setPin_sat _ _ s).mono ?_ ?_ ?_
      · rintro _ t ⟨h1, h2, h3, h4⟩; exact ⟨h1, h2, h3, h4.trans h0⟩
      · rintro e t ⟨h1, h2, h3, h4, h5⟩; exact ⟨h1, h2, h5.trans h0⟩
      · exact fun _ _ _ h => h.elim
    · rintro _ t ⟨h1, h2, h3, h4⟩
      have hw := h1.trans (SameSession.waitFor t tPulse)
      refine (setPin_sat _ _ (t.waitFor tPulse)).mono ?_ ?_ ?_
      · rintro _ u ⟨k1, k2, k3, k4⟩; exact ⟨hw.trans k1, k2.trans h2, k3.trans h3, k4.trans h4⟩
      · rintro e u ⟨k0, k1, k2, k3, k4⟩; exact ⟨k0, hw.trans k1, k4.trans h4⟩
      · exact fun _ _ _ h => h.elim
  · rintro e t ⟨rfl, h1, h2⟩
    exact hE _ ⟨h1.trans (.of_eq .failed 0#3 t.rxBuf rfl), rfl, rfl, h2⟩

/-- The outcome of an attempt's exchange, judged (R170, R173). -/
theorem judgeAttempt_sat {next : State → Res Unit} {r : Res Quad} {s : State} {st : St}
    (hn : ∀ t, SameSession s t → t.st = st → t.attempt = s.attempt → t.rxBuf = [] →
      (next t).Sat (fun _ u => Settled t u .enabled) (fun e u => bringUpErr e ∧ Settled t u .failed)
        (fun c m u => c = .handshake ∧ Attempting t u st m))
    (hlow : 1 ≤ s.attempt.toNat) (hhigh : s.attempt.toNat ≤ peAttempts)
    (hr : r.Sat (fun _ t => SameSession s t ∧ t.st = st ∧ t.attempt = s.attempt ∧ t.rxBuf = [])
      (fun e t => exchangeErr e ∧ SameSession s t ∧ t.st = st ∧ t.attempt = s.attempt ∧ t.rxBuf = [])
      (fun _ m t => SameSession s t ∧ m = xchgLen ∧ t.st = st ∧ t.attempt = s.attempt ∧ t.rxCnt < xchgLen)) :
    (judgeAttempt next r).Sat (fun _ u => Settled s u .enabled) (fun e u => bringUpErr e ∧ Settled s u .failed)
      (fun c m u => c = .handshake ∧ Attempting s u st m) := by
  have hpulse : ∀ t, (SameSession s t ∧ t.st = st ∧ t.attempt = s.attempt ∧ t.rxBuf = []) →
      (pulseReset next t).Sat (fun _ u => Settled s u .enabled) (fun e u => bringUpErr e ∧ Settled s u .failed)
        (fun c m u => c = .handshake ∧ Attempting s u st m) := by
    rintro t ⟨h1, h2, h3, h4⟩
    refine pulseReset_sat h4 (fun u hu => ⟨.inl rfl, hu.after h1⟩) ?_
    intro u k1 k2 k3 k4
    refine (hn u (h1.trans k1) (k2.trans h2) (k3.trans h3) k4).mono ?_ ?_ ?_
    · exact fun _ v hv => hv.after (h1.trans k1)
    · exact fun _ v hv => ⟨hv.1, hv.2.after (h1.trans k1)⟩
    · rintro c m v ⟨rfl, hv⟩; exact ⟨rfl, hv.after (h1.trans k1)⟩
  cases r with
  | ok q t =>
    simp only [judgeAttempt]
    split
    · obtain ⟨h1, -, -, h4⟩ := hr
      exact ⟨h1.trans (.of_eq .enabled 0#3 t.rxBuf rfl), rfl, rfl, h4⟩
    · exact hpulse t hr
  | raise e t => exact hpulse t hr.2
  | wait c m t =>
    obtain ⟨h1, h2, h3, h4, h5⟩ := hr
    exact ⟨rfl, h1, h2, h3, by rw [h4]; exact hlow, by rw [h4]; exact hhigh, h5⟩
  | refuse x => trivial

/-- What the handshake can end in, with `left` attempts left of four (R170). -/
theorem handshake_sat (left : Nat) : ∀ s : State, s.rxBuf = [] → s.attempt.toNat + left = peAttempts →
    (handshake left s).Sat (fun _ t => Settled s t .enabled) (fun e t => bringUpErr e ∧ Settled s t .failed)
      (fun c m t => c = .handshake ∧ Attempting s t s.st m) := by
  induction left with
  | zero =>
    intro s h0 _
    exact ⟨.inr (.inr rfl), .of_eq .failed 0#3 s.rxBuf rfl, rfl, rfl, h0⟩
  | succ left ih =>
    intro s h0 hsum
    have hsame : SameSession s { s with attempt := s.attempt + 1#3 } := .of_eq s.st _ s.rxBuf rfl
    have hat : (s.attempt + 1#3).toNat = s.attempt.toNat + 1 := by
      simp only [peAttempts] at hsum
      rw [BitVec.toNat_add]; simp; omega
    have := judgeAttempt_sat (next := handshake left) (r := exchange s.pd.peCmd { s with attempt := s.attempt + 1#3 })
      (s := { s with attempt := s.attempt + 1#3 }) (st := s.st)
      (fun t ht h1 h2 h3 => by
        have h4 : t.attempt.toNat + left = peAttempts := by rw [h2, hat]; omega
        exact (ih t h3 h4).mono (fun _ _ h => h) (fun _ _ h => h) (fun c m u h => by rw [h1] at h; exact h))
      (by rw [hat]; omega) (by rw [hat]; omega) (exchange_sat _ _ h0)
    exact this.mono (fun _ _ h => h.after hsame) (fun _ _ h => ⟨h.1, h.2.after hsame⟩) (fun _ _ _ h => ⟨h.1, h.2.after hsame⟩)

/-- What PROGRAM_ENABLE can end in (R170 to R172); where it waits, the poll index was legal (R171). -/
theorem programEnable_sat (s : State) (h0 : s.rxBuf = []) (ha : s.attempt = 0#3) :
    (programEnable s).Sat (fun _ t => Settled s t .enabled) (fun e t => bringUpErr e ∧ Settled s t .failed)
      (fun c m t => c = .handshake ∧ Attempting s t s.st m ∧ pollIndexLegal s.pd.pollIndex = true) := by
  unfold programEnable
  split
  · trivial
  next hp =>
    split
    · exact ⟨.inr (.inl rfl), .of_eq .failed s.attempt s.rxBuf rfl, rfl, ha, h0⟩
    · have hsame : SameSession s { s with attempt := 0#3 } := .of_eq s.st _ s.rxBuf rfl
      exact (handshake_sat peAttempts { s with attempt := 0#3 } h0 (by simp [peAttempts])).mono
        (fun _ _ h => h.after hsame) (fun _ _ h => ⟨h.1, h.2.after hsame⟩)
        (fun _ _ _ h => ⟨h.1, h.2.after hsame, by simpa using hp⟩)

/-- The reset sequence of INITIALIZE ends in `ResetReleased`, or in the error of a pin write (R163). -/
theorem resetSequence_sat (s : State) :
    (resetSequence s).Sat
      (fun _ t => SameSession s t ∧ t.st = .resetReleased ∧ t.attempt = s.attempt ∧ t.rxBuf = s.rxBuf)
      (fun e t => e = .writeShort ∧ SameSession s t ∧ t.attempt = s.attempt ∧ t.rxBuf = s.rxBuf) (fun _ _ _ => False) := by
  have step : ∀ (r : SRole) (v : Bool) (u : State), (SameSession s u ∧ u.attempt = s.attempt ∧ u.rxBuf = s.rxBuf) →
      (setPin r v u).Sat (fun _ t => SameSession s t ∧ t.attempt = s.attempt ∧ t.rxBuf = s.rxBuf)
        (fun e t => e = .writeShort ∧ SameSession s t ∧ t.attempt = s.attempt ∧ t.rxBuf = s.rxBuf) (fun _ _ _ => False) := by
    rintro r v u ⟨h1, h2, h3⟩
    refine (setPin_sat r v u).mono ?_ ?_ ?_
    · rintro _ t ⟨k1, -, k3, k4⟩; exact ⟨h1.trans k1, k3.trans h2, k4.trans h3⟩
    · rintro e t ⟨k0, k1, -, k3, k4⟩; exact ⟨k0, h1.trans k1, k3.trans h2, k4.trans h3⟩
    · exact fun _ _ _ h => h.elim
  have pause : ∀ (u : State) (st : St), (SameSession s u ∧ u.attempt = s.attempt ∧ u.rxBuf = s.rxBuf) →
      SameSession s ({ u with st := st }.waitFor tInit) ∧ ({ u with st := st }.waitFor tInit).attempt = s.attempt ∧
        ({ u with st := st }.waitFor tInit).rxBuf = s.rxBuf := by
    rintro u st ⟨h1, h2, h3⟩
    exact ⟨(h1.trans (.of_eq st u.attempt u.rxBuf rfl)).trans (SameSession.waitFor _ _), h2, h3⟩
  unfold resetSequence
  refine Res.sat_bind (step _ _ s ⟨.refl s, rfl, rfl⟩) fun _ t ht => ?_
  refine Res.sat_bind (step _ _ t ht) fun _ u hu => ?_
  refine Res.sat_bind (step _ _ _ (pause u u.st hu)) fun _ v hv => ?_
  refine Res.sat_bind (step _ _ _ (pause v _ hv)) fun _ w hw => ?_
  obtain ⟨h1, h2, h3⟩ := pause w .resetReleased hw
  exact ⟨h1, rfl, h2, h3⟩

/-- What INITIALIZE can end in (R163, R193). -/
theorem initializeBody_sat (s : State) (h0 : s.rxBuf = []) (ha : s.attempt = 0#3) :
    (initializeBody s).Sat (fun _ t => Settled s t .enabled) (fun e t => bringUpErr e ∧ Settled s t .failed)
      (fun c m t => c = .handshake ∧ Attempting s t .resetReleased m ∧ pollIndexLegal s.pd.pollIndex = true) := by
  unfold initializeBody
  refine Res.sat_bind
    (P := fun _ t => SameSession s t ∧ t.st = .resetReleased ∧ t.attempt = s.attempt ∧ t.rxBuf = s.rxBuf)
    (Res.sat_onRaise (E' := fun e t => e = .writeShort ∧ SameSession s t ∧ t.attempt = s.attempt ∧ t.rxBuf = s.rxBuf) ?_ ?_) ?_
  · exact (resetSequence_sat s).mono (fun _ _ h => h) (fun _ _ h => h) (fun _ _ _ h => h.elim)
  · rintro e t ⟨he, h1, h2, h3⟩
    exact ⟨.inl he, h1.trans (.of_eq .failed t.attempt t.rxBuf rfl), rfl, h2.trans ha, h3.trans h0⟩
  · rintro _ t ⟨h1, h2, h3, h4⟩
    refine (programEnable_sat t (h4.trans h0) (h3.trans ha)).mono (fun _ _ h => h.after h1) (fun _ _ h => ⟨h.1, h.2.after h1⟩) ?_
    rintro c m u ⟨k1, k2, k3⟩
    rw [h2] at k2
    rw [h1.pd] at k3
    exact ⟨k1, k2.after h1, k3⟩

/-- What the erase exchange leads to (R178). -/
theorem judgeErase_sat {r : Res Quad} {s : State}
    (hr : r.Sat (fun _ t => SameSession s t ∧ t.st = s.st ∧ t.attempt = 0#3 ∧ t.rxBuf = [])
      (fun e t => exchangeErr e ∧ SameSession s t ∧ t.st = s.st ∧ t.attempt = 0#3 ∧ t.rxBuf = [])
      (fun _ m t => SameSession s t ∧ m = xchgLen ∧ t.st = s.st ∧ t.attempt = 0#3 ∧ t.rxCnt < xchgLen)) :
    (judgeErase r).Sat (fun _ t => Settled s t .enabled) (fun e t => (bringUpErr e ∨ e = .readFailed) ∧ Settled s t .failed)
      (fun c m t => (c = .handshake ∧ Attempting s t .resetReleased m ∧ pollIndexLegal s.pd.pollIndex = true) ∨
        (c = .erase ∧ SameSession s t ∧ m = xchgLen ∧ t.st = s.st ∧ t.attempt = 0#3 ∧ t.rxCnt < xchgLen)) := by
  cases r with
  | ok q t =>
    obtain ⟨h1, h2, h3, h4⟩ := hr
    have hw := h1.trans (SameSession.waitFor t t.pd.eraseDelay.toNat)
    refine (initializeBody_sat (t.waitFor t.pd.eraseDelay.toNat) h4 h3).mono (fun _ _ h => h.after hw)
      (fun _ _ h => ⟨.inl h.1, h.2.after hw⟩) ?_
    rintro c m u ⟨k1, k2, k3⟩
    rw [hw.pd] at k3
    exact .inl ⟨k1, k2.after hw, k3⟩
  | raise e t =>
    obtain ⟨h0, h1, h2, h3, h4⟩ := hr
    exact ⟨h0.elim (fun h => .inl (.inl h)) .inr, h1.trans (.of_eq .failed t.attempt t.rxBuf rfl), rfl, h3, h4⟩
  | wait c m t => exact .inr ⟨rfl, hr⟩
  | refuse x => trivial

/-- What CHIP_ERASE can end in (R178): its own check changes nothing; everything after it is settled. -/
theorem chipEraseBody_sat (s : State) (h0 : s.rxBuf = []) (ha : s.attempt = 0#3) :
    (chipEraseBody s).Sat (fun _ t => Settled s t .enabled)
      (fun e t => (e = .operationUnsupported ∧ t = s ∧ s.pd.ceDef = false) ∨
        ((bringUpErr e ∨ e = .readFailed) ∧ Settled s t .failed))
      (fun c m t => (c = .handshake ∧ Attempting s t .resetReleased m ∧ pollIndexLegal s.pd.pollIndex = true) ∨
        (c = .erase ∧ SameSession s t ∧ m = xchgLen ∧ t.st = .erasing ∧ t.attempt = 0#3 ∧ t.rxCnt < xchgLen)) := by
  unfold chipEraseBody
  split
  next h => exact .inl ⟨rfl, rfl, by simpa using h⟩
  next h =>
    have hsame : SameSession s { s with st := .erasing } := .of_eq .erasing s.attempt s.rxBuf rfl
    have he := exchange_sat s.pd.ceCmd { s with st := .erasing } h0
    have := judgeErase_sat (s := { s with st := .erasing }) (he.mono
      (fun _ t h => ⟨h.1, h.2.1, h.2.2.1.trans ha, h.2.2.2⟩)
      (fun _ t h => ⟨h.1, h.2.1, h.2.2.1, h.2.2.2.1.trans ha, h.2.2.2.2⟩)
      (fun _ _ t h => ⟨h.1, h.2.1, h.2.2.1, h.2.2.2.1.trans ha, h.2.2.2.2⟩))
    refine this.mono (fun _ _ h => h.after hsame) (fun _ _ h => .inr ⟨h.1, h.2.after hsame⟩) ?_
    rintro c m t (⟨h1, h2, h3⟩ | ⟨h1, h2, h3, h4, h5, h6⟩)
    · exact .inl ⟨h1, h2.after hsame, h3⟩
    · exact .inr ⟨h1, hsame.trans h2, h3, h4, h5, h6⟩

/-! ### Going on with a receive loop -/

/-- One more read for an exchange's four bytes, taken as its response (R127, R145). -/
theorem response_sat (s : State) :
    (asResponse (receive xchgLen s)).Sat (fun _ t => SameSession s t ∧ t.st = s.st ∧ t.attempt = s.attempt ∧ t.rxBuf = [])
      (fun e t => exchangeErr e ∧ SameSession s t ∧ t.st = s.st ∧ t.attempt = s.attempt ∧ t.rxBuf = [])
      (fun _ m t => SameSession s t ∧ m = xchgLen ∧ t.st = s.st ∧ t.attempt = s.attempt ∧ t.rxCnt < xchgLen) := by
  refine asResponse_sat ((receive_sat xchgLen s).mono ?_ ?_ ?_)
  · rintro l t ⟨h1, h2, h3, -⟩; exact ⟨h1, h2, h3⟩
  · rintro e t ⟨h1, h2, h3, h4, h5⟩; exact ⟨.inr h2, h1, h3, h4, h5⟩
  · rintro c m t ⟨h1, -, h2, h3, h4, h5⟩; exact ⟨h1, h2, h3, h4, h5⟩

/-- The next read of EXCHANGE as a host operation. -/
theorem resumeExchange_sat (s : State) :
    (resumeBody .exchange s (receive xchgLen s)).Sat
      (fun _ t => SameSession s t ∧ t.st = s.st ∧ t.attempt = s.attempt ∧ t.rxBuf = [])
      (fun e t => exchangeErr e ∧ SameSession s t ∧ t.st = s.st ∧ t.attempt = s.attempt ∧ t.rxBuf = [])
      (fun c m t => c = .exchange ∧ SameSession s t ∧ m = xchgLen ∧ t.st = s.st ∧ t.attempt = s.attempt ∧ t.rxCnt < xchgLen) := by
  refine Res.sat_withData (P := fun _ t => SameSession s t ∧ t.st = s.st ∧ t.attempt = s.attempt ∧ t.rxBuf = [])
    (Res.sat_waitingFor ?_) (fun _ _ h => h)
  exact (response_sat s).mono (fun _ _ h => h) (fun _ _ h => h) (fun _ _ _ h => ⟨rfl, h⟩)

/-- The next read of an attempt of the handshake. -/
theorem resumeHandshake_sat (s : State) (h1 : 1 ≤ s.attempt.toNat) (h4 : s.attempt.toNat ≤ peAttempts) :
    (resumeBody .handshake s (receive xchgLen s)).Sat (fun _ t => Settled s t .enabled)
      (fun e t => bringUpErr e ∧ Settled s t .failed) (fun c m t => c = .handshake ∧ Attempting s t s.st m) := by
  refine Res.sat_withData (P := fun _ t => Settled s t .enabled) ?_ (fun _ _ h => h)
  refine judgeAttempt_sat ?_ h1 h4 (response_sat s)
  intro t ht k1 k2 k3
  refine (handshake_sat _ t k3 (by rw [k2]; omega)).mono (fun _ _ h => h) (fun _ _ h => h) ?_
  intro c m u h
  rw [k1] at h
  exact h

/-- The next read of CHIP_ERASE's erase command. -/
theorem resumeErase_sat (s : State) (ha : s.attempt = 0#3) :
    (resumeBody .erase s (receive xchgLen s)).Sat (fun _ t => Settled s t .enabled)
      (fun e t => (bringUpErr e ∨ e = .readFailed) ∧ Settled s t .failed)
      (fun c m t => (c = .handshake ∧ Attempting s t .resetReleased m ∧ pollIndexLegal s.pd.pollIndex = true) ∨
        (c = .erase ∧ SameSession s t ∧ m = xchgLen ∧ t.st = s.st ∧ t.attempt = 0#3 ∧ t.rxCnt < xchgLen)) := by
  refine Res.sat_withData (P := fun _ t => Settled s t .enabled) (judgeErase_sat ((response_sat s).mono ?_ ?_ ?_)) (fun _ _ h => h)
  · exact fun _ t h => ⟨h.1, h.2.1, h.2.2.1.trans ha, h.2.2.2⟩
  · exact fun _ t h => ⟨h.1, h.2.1, h.2.2.1, h.2.2.2.1.trans ha, h.2.2.2.2⟩
  · exact fun _ _ t h => ⟨h.1, h.2.1, h.2.2.1, h.2.2.2.1.trans ha, h.2.2.2.2⟩

end Sys2Proof.Machine
end

