-- ==== Sys2Proof/Laws/Errors.lean ====
section
/-!
SUPPORT. Which errors an operation can end with, whatever state it starts from, and that none writes the result before it ends
(R190, R192).
-/

namespace Sys2Proof.Machine

/-- EXCHANGE and the LED setters are accepted in every state but `Closed` (R155). -/
theorem takesSession_iff (st : St) : st.takesSession = true ↔ st ≠ .closed := by cases st <;> simp [St.takesSession]

/-- An exchange's operands of SHIFT are legal (R41, R73). -/
theorem xchgShift_legal (p : Params) (c : Quad) : shiftLegal p p.modeTrx xchgLen c.toList = true := by
  rw [shiftLegal_iff]; exact ⟨.inr (.inr rfl), by decide, by decide, fun _ => rfl⟩

/-- The shift frame of an exchange (R145). -/
theorem shiftBytes_quad (p : Params) (s : State) (h : p = s.par) (c : Quad) : shiftBytes p.modeTrx c.toList = s.exchangeFrame c := by
  subst h
  have h1 : lo8 (lengthField 4) = 0x03#8 := by decide
  have h2 : hi8 (lengthField 4) = 0x00#8 := by decide
  simp only [shiftBytes, quad_toList_length, h1, h2, State.exchangeFrame, opcFlush]; rfl

/-- The errors of `r` satisfy `E`, and no end of `r` has written the result. -/
def Calm {α} (s : State) (r : Res α) (E : Err → Prop) : Prop :=
  r.Sat (fun _ t => t.resBuf = s.resBuf) (fun e t => E e ∧ t.resBuf = s.resBuf) (fun _ _ t => t.resBuf = s.resBuf)

theorem Calm.bind {α β} {s : State} {r : Res α} {f : α → State → Res β} {E} (h : Calm s r E)
    (hf : ∀ a t, t.resBuf = s.resBuf → Calm s (f a t) E) : Calm s (r.bind f) E :=
  Res.sat_bind h hf

theorem Calm.of {α} {s t : State} {r : Res α} {E} (h : Calm s r E) (k : s.resBuf = t.resBuf) : Calm t r E := by
  unfold Calm at *; rwa [← k]

theorem Calm.imp {α} {s : State} {r : Res α} {E E'} (h : Calm s r E) (k : ∀ e, E e → E' e) : Calm s r E' :=
  Res.Sat.mono h (fun _ _ h => h) (fun _ _ h => ⟨k _ h.1, h.2⟩) (fun _ _ _ h => h)

theorem calm_setPin (r v s) : Calm s (setPin r v s) (· = .writeShort) :=
  (setPin_sat r v s).mono (fun _ _ h => h.1.resBuf) (fun _ _ h => ⟨h.1, h.2.1.resBuf⟩) (fun _ _ _ h => h.elim)

theorem calm_send (b s) : Calm s (sendFrame b s) exchangeErr :=
  (sendFrame_sat b s).mono (fun _ _ h => by rw [h.1]; rfl) (fun _ _ h => ⟨.inl h.1, by rw [h.2]; rfl⟩) (fun _ _ _ h => h.elim)

theorem calm_receive (n s) : Calm s (receive n s) exchangeErr :=
  (receive_sat n s).mono (fun _ _ h => h.1.resBuf) (fun _ _ h => ⟨.inr h.2.1, h.1.resBuf⟩) (fun _ _ _ h => h.1.resBuf)

theorem calm_exchange (c s) : Calm s (exchange c s) exchangeErr := by
  unfold exchange asResponse shift
  split
  · trivial
  refine Calm.bind (Calm.bind ?_ ?_) ?_
  · split
    · exact calm_send _ s
    · exact rfl
  · intro _ t h; split
    · exact (calm_receive _ _).of h
    · exact h
  · intro _ t h; exact h

theorem calm_pulse {next s} (h : ∀ t, Calm t (next t) bringUpErr) : Calm s (pulseReset next s) bringUpErr := by
  unfold pulseReset
  refine Calm.bind ?_ ?_
  · refine Res.sat_onRaise (E' := fun e t => e = .writeShort ∧ t.resBuf = s.resBuf) ?_ ?_
    · refine Res.sat_bind (calm_setPin .reset true s) ?_
      intro _ t h; exact (calm_setPin .reset false (t.waitFor tPulse)).of h
    · rintro e t ⟨rfl, h⟩; exact ⟨.inl rfl, h⟩
  · intro _ t ht; exact (h t).of ht

theorem calm_judge {next r s} (h : ∀ t, Calm t (next t) bringUpErr) (hr : Calm s r exchangeErr) : Calm s (judgeAttempt next r) bringUpErr := by
  cases r with
  | ok q t =>
    simp only [judgeAttempt]; split
    · exact hr
    · exact (calm_pulse h).of hr
  | raise e t => exact (calm_pulse h).of hr.2
  | wait c n t => exact hr
  | refuse x => trivial

theorem calm_handshake (n) : ∀ s, Calm s (handshake n s) bringUpErr := by
  induction n with
  | zero => intro s; exact ⟨.inr (.inr rfl), rfl⟩
  | succ n ih => intro s; exact calm_judge ih ((calm_exchange _ _).of rfl)

theorem calm_pe (s) : Calm s (programEnable s) bringUpErr := by
  unfold programEnable
  split
  · trivial
  split
  · exact ⟨.inr (.inl rfl), rfl⟩
  · exact (calm_handshake _ _).of rfl

theorem calm_init (s) : Calm s (initializeBody s) bringUpErr := by
  unfold initializeBody
  refine Calm.bind ?_ (fun _ t h => (calm_pe t).of h)
  refine Res.sat_onRaise (E' := fun e t => e = .writeShort ∧ t.resBuf = s.resBuf) ?_ ?_
  · refine (resetSequence_sat s).mono (fun _ _ h => h.1.resBuf) (fun _ _ h => ⟨h.1, h.2.1.resBuf⟩) (fun _ _ _ h => h.elim)
  · rintro e t ⟨rfl, h⟩; exact ⟨.inl rfl, h⟩

theorem calm_erase (s) : Calm s (chipEraseBody s) (fun e => e ≠ .badState) := by
  unfold chipEraseBody
  split
  · exact ⟨by simp, rfl⟩
  · have := calm_exchange s.pd.ceCmd { s with st := .erasing }
    cases hr : exchange s.pd.ceCmd { s with st := .erasing } with
    | ok q t => rw [hr] at this; exact ((calm_init (t.waitFor t.pd.eraseDelay.toNat)).of this).imp (by rintro e (rfl | rfl | rfl) <;> simp)
    | raise e t => rw [hr] at this; exact ⟨by rcases this.1 with rfl | rfl <;> simp, this.2⟩
    | wait c n t => rw [hr] at this; exact this
    | refuse x => trivial

/-- An operation that cannot end with BadState does not. -/
theorem settle_not_badState {r : Res (BitVec 32)} {s t : State} (h : settle .host r = .next t) (hb : s.resBuf = none)
    (hr : Calm s r (fun e => e ≠ .badState)) : t.resBuf ≠ some ⟨10#4, 0#32⟩ := by
  obtain ⟨d, u, hu, rfl⟩ | ⟨e, u, hu, rfl⟩ | ⟨c, n, u, hu, rfl⟩ := settle_sat h hr
  · simp
  · intro h; simp at h
    have := hu.1
    cases e <;> simp [Err.code] at h
    exact this rfl
  · simp [hu, hb]

theorem calm_open (s) : Calm s (openBody s) (fun e => e ≠ .badState) := by
  refine (openBody_sat s).mono (fun _ _ h => h.1.resBuf) (fun e _ h => ⟨?_, h.1.resBuf⟩) (fun _ _ _ h => h.elim)
  obtain ⟨-,-,-,-,h,-⟩ := h
  rcases h with (⟨_,h⟩|⟨_,h⟩|⟨_,h⟩)|h|h|h <;> rw [h] <;> simp

theorem calm_data {α} {s : State} {r : Res α} {E} (f) (h : Calm s r E) : Calm s (r.withData f) E := Res.sat_withData h (fun _ _ h => h)


end Sys2Proof.Machine
end

