-- ==== Sys2Proof/Laws/Handshake.lean ====
section
/-!
SUPPORT. Pin writes, exchanges and handshakes under a transport whose answers are given (R140, R145, R170, R173): each ends in
exactly one state.
-/

namespace Sys2Proof.Machine

/-- The block after a write that the transport answered with `a`. -/
def State.wrote (s : State) (bytes : List Byte) (a : WriteAns) (w : List WriteAns) : State :=
  { s with env := { s.env with writes := w }, hist := s.hist ++ [.write bytes a] }

/-- A write with a given answer within its range. -/
theorem tWrite_of {s : State} {a : WriteAns} {w : List WriteAns} {bytes : List Byte} (h : s.env.writes = a :: w)
    (ha : ∀ n, a = .accepted n → n ≤ bytes.length) : tWrite bytes s = s.wrote bytes a w ∧ writeAnswer bytes s = a := by
  have hc : writeAnswer bytes s = a := by
    rw [writeAnswer_of h]
    cases a with
    | accepted n => simp [clampWrite, Nat.min_eq_left (ha n rfl)]
    | error => rfl
  exact ⟨by simp [tWrite, hc, h, State.wrote], hc⟩

/-- SET_PIN of an assigned role, accepted (R140). -/
theorem setPin_accepted {s : State} {r : SRole} (v : Bool) {w : List WriteAns} (hr : s.assigned r = true)
    (h : s.env.writes = .accepted 6 :: w) :
    setPin r v s = .ok () ({ s with val := s.valWith r v s.val }.wrote (gpioBytes (s.valWith r v s.val) s.dir) (.accepted 6) w) := by
  have hp : pinfield (s.pinmap.get r) ≠ 0#7 := by simpa [State.assigned] using hr
  unfold setPin
  dsimp only
  rw [if_neg hp]
  obtain ⟨h1, h2⟩ := tWrite_of (s := writePinBit (pinBit (pinfield (s.pinmap.get r))) v s) (a := .accepted 6)
    (bytes := encodeGpioSet (writePinBit (pinBit (pinfield (s.pinmap.get r))) v s)) h (by rintro n ⟨⟩; simp [encodeGpioSet])
  rw [sendFrame_whole (by rw [h2]; rfl), h1]
  rfl

/-- SET_PIN of an assigned role, not accepted in full (R140, R45). -/
theorem setPin_cut {s : State} {r : SRole} (v : Bool) {a : WriteAns} {w : List WriteAns} (hr : s.assigned r = true)
    (h : s.env.writes = a :: w) (ha : ∀ n, a = .accepted n → n < 6) :
    setPin r v s = .raise .writeShort ({ s with val := s.valWith r v s.val }.wrote (gpioBytes (s.valWith r v s.val) s.dir) a w) := by
  have hp : pinfield (s.pinmap.get r) ≠ 0#7 := by simpa [State.assigned] using hr
  unfold setPin
  dsimp only
  rw [if_neg hp]
  obtain ⟨h1, h2⟩ := tWrite_of (s := writePinBit (pinBit (pinfield (s.pinmap.get r))) v s) (a := a)
    (bytes := encodeGpioSet (writePinBit (pinBit (pinfield (s.pinmap.get r))) v s)) h
    (fun n hn => by have := ha n hn; simp [encodeGpioSet]; omega)
  rw [sendFrame_short (by rw [h2]; intro hc; have := ha _ hc; simp [encodeGpioSet] at this), h1]
  rfl

/-- Writing a pin's bit twice leaves the second value. -/
theorem setBit_setBit (v : Mask) (b : Nat) (x y : Bool) : setBit (setBit v b x) b y = setBit v b y := by
  apply BitVec.eq_of_getLsbD_eq
  intro i _
  simp only [setBit_getLsbD]
  split <;> rfl

@[simp] theorem valWith_valWith (s : State) (r : SRole) (x y : Bool) (v : Mask) : s.valWith r y (s.valWith r x v) = s.valWith r y v :=
  setBit_setBit v _ _ _

/-- The pulse of a failed attempt, accepted (R170). -/
theorem pulseReset_accepted (next : State → Res Unit) {s : State} {w : List WriteAns} (hr : s.assigned .reset = true)
    (h : s.env.writes = .accepted 6 :: .accepted 6 :: w) :
    pulseReset next s = next { s with
      val := s.valWith .reset false s.val
      env := { s.env with writes := w }
      hist := s.hist ++ pulseEvents (s.valWith .reset true s.val) (s.valWith .reset false s.val) s.dir } := by
  unfold pulseReset
  rw [setPin_accepted true hr h]
  simp only [Res.bind_ok]
  rw [setPin_accepted (w := w) false (by exact hr) rfl]
  simp only [Res.onRaise_ok, Res.bind_ok]
  congr 1
  simp only [State.wrote, State.waitFor, State.emit, State.valWith, State.bitOf, setBit_setBit, pulseEvents, tPulse, List.append_assoc]
  rfl

/-- The pulse of a failed attempt, with a pin write that fails (R170, R173). -/
theorem pulseReset_cut (next : State → Res Unit) {s : State} {c : PulseCut} {w : List WriteAns} (hr : s.assigned .reset = true)
    (hc : c.Fails) (h : s.env.writes = c.writes ++ w) :
    pulseReset next s = .raise .writeShort { s with
      val := c.val (s.valWith .reset true s.val) (s.valWith .reset false s.val), st := .failed, attempt := 0#3
      env := { s.env with writes := w }
      hist := s.hist ++ c.events (s.valWith .reset true s.val) (s.valWith .reset false s.val) s.dir } := by
  obtain ⟨second, a⟩ := c
  unfold pulseReset
  cases second with
  | false =>
    rw [setPin_cut true hr (by simpa [PulseCut.writes] using h) hc]
    simp [State.wrote, handshakeFailed, PulseCut.val, PulseCut.events]
  | true =>
    rw [setPin_accepted (w := a :: w) true hr (by simpa [PulseCut.writes] using h)]
    simp only [Res.bind_ok]
    rw [setPin_cut (a := a) (w := w) false (by exact hr) rfl hc]
    simp only [Res.onRaise_raise, Res.bind_raise, handshakeFailed, PulseCut.val, PulseCut.events]
    simp only [State.wrote, State.waitFor, State.emit, State.valWith, State.bitOf, setBit_setBit, tPulse, List.append_assoc]
    rfl

/-- An exchange whose frame is not accepted in full (R145, R45). -/
theorem exchange_cut {s : State} (c : Quad) {a : WriteAns} {w : List WriteAns} (hp : s.par.wf = true) (h : s.env.writes = a :: w)
    (ha : ∀ n, a = .accepted n → n < 8) :
    exchange c s = .raise .writeShort (s.wrote (s.exchangeFrame c) a w) := by
  obtain ⟨-, -, -, -, m5, -⟩ := modes_of_wf hp
  unfold exchange shift
  rw [xchgShift_legal]
  obtain ⟨h1, h2⟩ := tWrite_of (s := s) (a := a) (bytes := s.exchangeFrame c) h
    (fun n hn => by have := ha n hn; simp [State.exchangeFrame]; omega)
  simp only [Bool.not_true, Bool.false_eq_true, if_false, m5, if_true, shiftBytes_quad s.par s rfl]
  rw [sendFrame_short (by rw [h2]; intro hc; have := ha _ hc; simp [State.exchangeFrame] at this), h1]
  rfl

/-- An exchange whose frame is accepted goes on to its first read (R145, R127). -/
theorem exchange_sent {s : State} (c : Quad) {w : List WriteAns} (hp : s.par.wf = true) (h : s.env.writes = .accepted 8 :: w) :
    exchange c s = asResponse (receive 4 { s.wrote (s.exchangeFrame c) (.accepted 8) w with rxBuf := [] }) := by
  obtain ⟨-, -, -, -, m5, m6⟩ := modes_of_wf hp
  unfold exchange shift
  rw [xchgShift_legal]
  obtain ⟨h1, h2⟩ := tWrite_of (s := s) (a := .accepted 8) (bytes := s.exchangeFrame c) h
    (by rintro n ⟨⟩; simp [State.exchangeFrame])
  simp only [Bool.not_true, Bool.false_eq_true, if_false, m5, if_true, shiftBytes_quad s.par s rfl]
  rw [sendFrame_whole (by rw [h2]; rfl), h1]
  simp only [Res.bind_ok, State.wrote, m6, if_true, xchgLen]

/-! ### The response of an exchange -/

/-- The last read of an exchange: its four bytes have come (R127). -/
theorem response_whole {s : State} {l : List Byte} {q : Quad} (hlt : s.rxCnt < 4) (h : readAnswer (4 - s.rxCnt) s = .bytes l)
    (hq : s.rxBuf ++ l = q.toList) : asResponse (receive 4 s) = .ok q { tRead (4 - s.rxCnt) s with rxBuf := [] } := by
  have h6 : ¬ (s.rxBuf ++ l).length < 4 := by rw [hq]; simp
  unfold receive
  rw [if_pos hlt]; dsimp only; rw [h]; dsimp only; rw [if_neg h6, hq]
  simp [asResponse]

/-- A read that leaves bytes missing (R127). -/
theorem response_short {s : State} {l : List Byte} (hlt : s.rxCnt < 4) (h : readAnswer (4 - s.rxCnt) s = .bytes l)
    (hl : s.rxCnt + l.length < 4) : asResponse (receive 4 s) = .wait .shift 4 { tRead (4 - s.rxCnt) s with rxBuf := s.rxBuf ++ l } := by
  have h6 : (s.rxBuf ++ l).length < 4 := by rw [List.length_append]; exact hl
  unfold receive
  rw [if_pos hlt]; dsimp only; rw [h]; dsimp only; rw [if_pos h6]
  rfl

/-- A read that fails discards what came before it (R127). -/
theorem response_error {s : State} (hlt : s.rxCnt < 4) (h : readAnswer (4 - s.rxCnt) s = .error) :
    asResponse (receive 4 s) = .raise .readFailed { tRead (4 - s.rxCnt) s with rxBuf := [] } := by
  unfold receive
  rw [if_pos hlt]; dsimp only; rw [h]
  rfl

/-- The block after a read that the transport answered with `a`. -/
def State.readIn (s : State) (room : Nat) (a : ReadAns) (rs : List ReadAns) : State :=
  { s with env := { s.env with reads := rs }, hist := s.hist ++ [.read room a] }

/-- A read with a given answer within its range. -/
theorem tRead_of {s : State} {a : ReadAns} {rs : List ReadAns} {room : Nat} (h : s.env.reads = a :: rs)
    (ha : ∀ l, a = .bytes l → l.length ≤ room) : tRead room s = s.readIn room a rs ∧ readAnswer room s = a := by
  have hc : readAnswer room s = a := by
    rw [readAnswer_of h]
    cases a with
    | bytes l => simp [clampRead, List.take_of_length_le (ha l rfl)]
    | error => rfl
  exact ⟨by simp [tRead, hc, h, State.readIn], hc⟩

/-- An exchange answered in one read (R145). -/
theorem exchange_whole {s : State} (c q : Quad) {w : List WriteAns} {rs : List ReadAns} (hp : s.par.wf = true)
    (hw : s.env.writes = .accepted 8 :: w) (hr : s.env.reads = .bytes q.toList :: rs) :
    exchange c s = .ok q { (s.wrote (s.exchangeFrame c) (.accepted 8) w).readIn 4 (.bytes q.toList) rs with rxBuf := [] } := by
  rw [exchange_sent c hp hw]
  obtain ⟨h1, h2⟩ := tRead_of (s := { s.wrote (s.exchangeFrame c) (.accepted 8) w with rxBuf := [] }) (room := 4) hr (by rintro l ⟨⟩; simp)
  rw [response_whole (l := q.toList) (q := q) (by simp [State.rxCnt]) h2 rfl]
  simp only [State.rxCnt, List.length_nil, Nat.sub_zero, h1]
  rfl

/-- An exchange answered in part (R145, R127). -/
theorem exchange_short {s : State} (c : Quad) {l : List Byte} {w : List WriteAns} {rs : List ReadAns} (hp : s.par.wf = true)
    (hw : s.env.writes = .accepted 8 :: w) (hr : s.env.reads = .bytes l :: rs) (hl : l.length < 4) :
    exchange c s = .wait .shift 4 { (s.wrote (s.exchangeFrame c) (.accepted 8) w).readIn 4 (.bytes l) rs with rxBuf := l } := by
  rw [exchange_sent c hp hw]
  obtain ⟨h1, h2⟩ := tRead_of (s := { s.wrote (s.exchangeFrame c) (.accepted 8) w with rxBuf := [] }) (room := 4) hr
    (by rintro l ⟨⟩; omega)
  rw [response_short (l := l) (by simp [State.rxCnt]) h2 (by simpa [State.rxCnt] using hl)]
  simp only [State.rxCnt, List.length_nil, Nat.sub_zero, h1]
  rfl

/-- An exchange whose read fails (R145, R127). -/
theorem exchange_readError {s : State} (c : Quad) {w : List WriteAns} {rs : List ReadAns} (hp : s.par.wf = true)
    (hw : s.env.writes = .accepted 8 :: w) (hr : s.env.reads = .error :: rs) :
    exchange c s = .raise .readFailed { (s.wrote (s.exchangeFrame c) (.accepted 8) w).readIn 4 .error rs with rxBuf := [] } := by
  rw [exchange_sent c hp hw]
  obtain ⟨h1, h2⟩ := tRead_of (s := { s.wrote (s.exchangeFrame c) (.accepted 8) w with rxBuf := [] }) (room := 4) hr (by rintro l ⟨⟩)
  rw [response_error (by simp [State.rxCnt]) h2]
  simp only [State.rxCnt, List.length_nil, Nat.sub_zero, h1]
  rfl

/-! ### The handshake -/

/-- A response that matches ends the handshake (R170). -/
theorem judgeAttempt_match (next : State → Res Unit) {q : Quad} {s : State} (h : polledByte q s.pd.pollIndex = s.pd.pollValue) :
    judgeAttempt next (.ok q s) = .ok () { s with attempt := 0#3, st := .enabled } := by simp [judgeAttempt, h]

/-- One that does not is followed by the reset pulse (R170). -/
theorem judgeAttempt_mismatch (next : State → Res Unit) {q : Quad} {s : State} (h : polledByte q s.pd.pollIndex ≠ s.pd.pollValue) :
    judgeAttempt next (.ok q s) = pulseReset next s := by simp [judgeAttempt, h]

/-- A failed attempt ends in its pulse (R170, R173). -/
theorem attempt_fails (next : State → Res Unit) {s : State} {f : AttemptFail} {w : List WriteAns} {rs : List ReadAns}
    (hp : s.par.wf = true) (h0 : s.rxBuf = []) (hf : f.fails s.pd = true) (hw : s.env.writes = f.sent :: w)
    (hr : s.env.reads = f.reads ++ rs) :
    judgeAttempt next (exchange s.pd.peCmd s) = pulseReset next { s with
      env := { s.env with writes := w, reads := rs }
      hist := s.hist ++ f.events (s.exchangeFrame s.pd.peCmd) } := by
  cases f with
  | mismatch q =>
    have hf' : polledByte q s.pd.pollIndex ≠ s.pd.pollValue := by simpa [AttemptFail.fails] using hf
    rw [exchange_whole _ q hp (w := w) (rs := rs) hw hr, judgeAttempt_mismatch next (by exact hf')]
    simp [State.readIn, State.wrote, AttemptFail.events, h0]
  | shortWrite n =>
    have hn : n < 8 := by simpa [AttemptFail.fails] using hf
    rw [exchange_cut _ hp hw (by rintro m ⟨⟩; exact hn)]
    have hr' : s.env.reads = rs := hr
    simp only [judgeAttempt, State.wrote, AttemptFail.events, AttemptFail.sent, ← hr']
  | writeError =>
    rw [exchange_cut _ hp hw (by rintro m ⟨⟩)]
    have hr' : s.env.reads = rs := hr
    simp only [judgeAttempt, State.wrote, AttemptFail.events, AttemptFail.sent, ← hr']
  | readError =>
    rw [exchange_readError _ hp hw hr]
    simp [judgeAttempt, State.readIn, State.wrote, AttemptFail.events, h0]

/-- One failed attempt and its pulse before `fails`. -/
theorem afterAttempts_cons (s : State) (made : Nat) (f : AttemptFail) (fails : List AttemptFail) (e : HandshakeEnd)
    (w : List WriteAns) (rs : List ReadAns) (env : Env) (a : BitVec 3) (he : env.opens = s.env.opens ∧ env.modes = s.env.modes) :
    State.afterAttempts { s with
        attempt := a, val := s.valWith .reset false s.val, env := env
        hist := s.hist ++ f.events (s.exchangeFrame s.pd.peCmd) ++
          pulseEvents (s.valWith .reset true s.val) (s.valWith .reset false s.val) s.dir }
      (made + 1) fails e w rs =
    { s with attempt := a }.afterAttempts made (f :: fails) e w rs := by
  obtain ⟨ho, hm⟩ := he
  have hv : ∀ x, State.valWith s .reset x (s.valWith .reset false s.val) = s.valWith .reset x s.val := fun x => valWith_valWith s _ _ _ _
  have hl : made + 1 + fails.length = made + (f :: fails).length := by simp; omega
  unfold State.afterAttempts
  simp only [State.valWith, State.bitOf, State.exchangeFrame] at hv ⊢
  simp only [hv, hl, ho, hm, List.flatMap_cons, List.append_assoc, if_neg (List.cons_ne_nil f fails)]
  congr 1
  simp

/-- A handshake with `left` attempts left, under given answers, ends as the spec's events say (R170, R173). -/
theorem handshake_settles (e : HandshakeEnd) (w : List WriteAns) (rs : List ReadAns) (fails : List AttemptFail) :
    ∀ (left : Nat) (s : State), s.par.wf = true → s.rxBuf = [] → s.assigned .reset = true →
      1 ≤ s.pd.pollIndex.toNat → s.pd.pollIndex.toNat ≤ 4 → s.attempt.toNat + left = 4 → fails.length ≤ left →
      (∀ f ∈ fails, f.fails s.pd = true) → e.Fits s.pd (left - fails.length) →
      s.env.writes = fails.flatMap AttemptFail.writes ++ (e.writes ++ w) →
      s.env.reads = fails.flatMap AttemptFail.reads ++ (e.reads ++ rs) →
      settle .host ((handshake left s).withData fun _ => 0#32) = .next (s.afterAttempts s.attempt.toNat fails e w rs) := by
  induction fails with
  | nil =>
    intro left s hp h0 hr hi1 hi4 ha hlen _ hfit hw hrd
    simp only [List.flatMap_nil, List.nil_append, List.length_nil, Nat.sub_zero] at hfit hw hrd
    cases left with
    | zero =>
      cases e with
      | exhausted =>
        simp only [HandshakeEnd.writes, HandshakeEnd.reads, List.nil_append] at hw hrd
        simp [handshake, handshakeFailed, State.afterAttempts, HandshakeEnd.leave, HandshakeEnd.events, Err.code, Err.data, ← hw, ← hrd]
      | matched q => exact absurd hfit.1 (by omega)
      | short l => exact absurd hfit.1 (by omega)
      | cut f c => exact absurd hfit.1 (by omega)
    | succ left =>
      have hat : s.attempt + 1#3 = BitVec.ofNat 3 (s.attempt.toNat + 1) := by
        apply BitVec.eq_of_toNat_eq; simp [BitVec.toNat_add]
      simp only [handshake]
      cases e with
      | exhausted => exact absurd hfit (by simp [HandshakeEnd.Fits])
      | matched q =>
        rw [exchange_whole (s := { s with attempt := s.attempt + 1#3 }) _ q hp (w := w) (rs := rs) hw hrd]
        rw [judgeAttempt_match (handshake left) (by exact hfit.2)]
        simp only [State.readIn, State.wrote, Res.withData_ok, settle_ok, conclude_host, State.afterAttempts, HandshakeEnd.leave, HandshakeEnd.events, ← h0]
        apply congrArg Host.Outcome.next
        simp [State.exchangeFrame]
      | short l =>
        rw [exchange_short (s := { s with attempt := s.attempt + 1#3 }) _ hp (w := w) (rs := rs) hw hrd hfit.2]
        simp only [judgeAttempt, State.readIn, State.wrote, Res.withData_wait, settle_wait, State.afterAttempts, HandshakeEnd.leave,
          HandshakeEnd.events, hat]
        apply congrArg Host.Outcome.next
        simp [State.exchangeFrame]
      | cut f c =>
        rw [attempt_fails (handshake left) (s := { s with attempt := s.attempt + 1#3 }) (f := f) (w := c.writes ++ w) (rs := rs)
          hp h0 hfit.2.1 (by simpa [HandshakeEnd.writes] using hw) hrd]
        rw [pulseReset_cut (c := c) (w := w) (handshake left) (by exact hr) hfit.2.2 rfl]
        simp only [Res.withData_raise, settle_raise, conclude_host, State.afterAttempts, HandshakeEnd.leave, HandshakeEnd.events,
          Err.code, Err.data]
        apply congrArg Host.Outcome.next
        simp [State.exchangeFrame, State.valWith, State.bitOf]
  | cons f fails ih =>
    intro left s hp h0 hr hi1 hi4 ha hlen hfs hfit hw hrd
    cases left with
    | zero => simp at hlen
    | succ left =>
      have hat : (s.attempt + 1#3).toNat = s.attempt.toNat + 1 := by
        rw [BitVec.toNat_add]; simp; omega
      simp only [handshake]
      rw [attempt_fails (handshake left) (s := { s with attempt := s.attempt + 1#3 }) (f := f)
        (w := .accepted 6 :: .accepted 6 :: (fails.flatMap AttemptFail.writes ++ (e.writes ++ w)))
        (rs := fails.flatMap AttemptFail.reads ++ (e.reads ++ rs)) hp h0 (hfs f (by simp))
        (by simpa [AttemptFail.writes] using hw) (by simpa using hrd)]
      rw [pulseReset_accepted (w := fails.flatMap AttemptFail.writes ++ (e.writes ++ w)) (handshake left) (by exact hr) rfl]
      let env : Env := { s.env with
        writes := fails.flatMap AttemptFail.writes ++ (e.writes ++ w)
        reads := fails.flatMap AttemptFail.reads ++ (e.reads ++ rs) }
      let u : State := { s with
        attempt := s.attempt + 1#3, val := s.valWith .reset false s.val, env := env
        hist := s.hist ++ f.events (s.exchangeFrame s.pd.peCmd) ++
          pulseEvents (s.valWith .reset true s.val) (s.valWith .reset false s.val) s.dir }
      have hu : u.attempt.toNat = s.attempt.toNat + 1 := hat
      refine (ih left u hp h0 hr hi1 hi4 (by rw [hu]; omega) (by simpa using hlen) (fun g hg => hfs g (by simp [hg]))
        (by simpa using hfit) rfl rfl).trans ?_
      apply congrArg Host.Outcome.next
      rw [hu]
      have key := afterAttempts_cons s s.attempt.toNat f fails e w rs env (s.attempt + 1#3) ⟨rfl, rfl⟩
      refine Eq.trans key ?_
      cases e <;> simp [State.afterAttempts, HandshakeEnd.leave, State.exchangeFrame, State.valWith, State.bitOf]

/-- PROGRAM_ENABLE as a host operation under given answers (R170 to R173). -/
theorem programEnable_settles {s : State} (fails : List AttemptFail) (e : HandshakeEnd) (w : List WriteAns) (rs : List ReadAns)
    (hs : s.ReadyToEnable) (hst : s.st.takesBringUp = true) (hlen : fails.length ≤ 4) (hfs : ∀ f ∈ fails, f.fails s.pd = true)
    (hfit : e.Fits s.pd (4 - fails.length)) (hw : s.env.writes = fails.flatMap AttemptFail.writes ++ (e.writes ++ w))
    (hr : s.env.reads = fails.flatMap AttemptFail.reads ++ (e.reads ++ rs)) :
    execProgramEnable s = .next ({ s with running := some opProgramEnable, attempt := 0#3 }.afterAttempts 0 fails e w rs) := by
  have hpoll : pollIndexLegal s.pd.pollIndex = true := (pollIndexLegal_iff _).mpr hs.index
  unfold execProgramEnable
  rw [runCallable_idle hs.idle, if_pos hst]
  unfold programEnable
  simp only [hpoll, hs.defined, Bool.not_true, Bool.false_eq_true, if_false]
  exact handshake_settles e w rs fails peAttempts { s with running := some opProgramEnable, attempt := 0#3 } hs.modes hs.quiet hs.reset
    hs.index.1 hs.index.2 rfl hlen hfs hfit hw hr

/-- The pin writes and waits of INITIALIZE, all accepted (R163). -/
theorem resetSequence_accepted {s : State} {w : List WriteAns} (hr : s.assigned .reset = true) (hc : s.assigned .clk = true)
    (hw : s.env.writes = List.replicate 4 (.accepted 6) ++ w) :
    resetSequence s = .ok () { s with
      val := s.initVals.2.2.2, st := .resetReleased, env := { s.env with writes := w }, hist := s.hist ++ s.initEvents } := by
  unfold resetSequence
  rw [setPin_accepted (w := .accepted 6 :: .accepted 6 :: .accepted 6 :: w) false hr hw]
  simp only [Res.bind_ok]
  rw [setPin_accepted (w := .accepted 6 :: .accepted 6 :: w) false (by exact hc) rfl]
  simp only [Res.bind_ok]
  rw [setPin_accepted (w := .accepted 6 :: w) true (by exact hr) rfl]
  simp only [Res.bind_ok]
  rw [setPin_accepted (w := w) false (by exact hr) rfl]
  simp only [Res.bind_ok]
  simp only [State.wrote, State.waitFor, State.emit, State.valWith, State.bitOf, State.initVals, State.initEvents, tInit,
    List.append_assoc]
  rfl

end Sys2Proof.Machine
end

