-- ==== Sys2Proof/Laws/History.lean ====
section
/-!
SUPPORT. What every operation does to the history, whatever the state: it appends events whose answers are in range, whose waits are the
table's, and whose full writes are whole frames (R9, R40, R41, R236). Said once and composed along the call tree (R186).
-/

namespace Sys2Proof.Machine

/-- `t` comes from `s` by appending such events; the parameters and the part descriptor are those of `s`. -/
structure Grows (s t : State) : Prop where
  par : t.par = s.par
  pd : t.pd = s.pd
  events : ∃ l, t.hist = s.hist ++ l ∧ (s.par.wf = true → WholeFrames s.par (outgoing l)) ∧
    (∀ e ∈ l, answerInRange e) ∧ ∀ d, Event.wait d ∈ l → d = 20000 ∨ d = 20 ∨ d = s.pd.eraseDelay.toNat

theorem Grows.refl (s : State) : Grows s s := ⟨rfl, rfl, [], by simp, fun _ => WholeFrames.nil _, by simp, by simp⟩

theorem Grows.trans {s t u : State} (h : Grows s t) (k : Grows t u) : Grows s u where
  par := k.par.trans h.par
  pd := k.pd.trans h.pd
  events := by
    obtain ⟨l, hl, hw, hr, hd⟩ := h.events
    obtain ⟨m, hm, hv, hq, he⟩ := k.events
    refine ⟨l ++ m, by rw [hm, hl, List.append_assoc], fun hp => ?_, ?_, ?_⟩
    · rw [outgoing_append]; rw [h.par] at hv; exact (hw hp).append (hv hp)
    · intro e h; rcases List.mem_append.mp h with h | h <;> [exact hr e h; exact hq e h]
    · intro d h'
      rw [h.pd] at he
      rcases List.mem_append.mp h' with h' | h' <;> [exact hd d h'; exact he d h']

/-- A change that leaves the history, the parameters and the descriptor alone. -/
theorem Grows.of_eq {s t : State} (h1 : t.par = s.par) (h2 : t.pd = s.pd) (h3 : t.hist = s.hist) : Grows s t :=
  ⟨h1, h2, [], by simp [h3], fun _ => WholeFrames.nil _, by simp, by simp⟩

/-- One event that is no transport call and no wait. -/
theorem Grows.one {s t : State} (e : Event) (h1 : t.par = s.par) (h2 : t.pd = s.pd) (h3 : t.hist = s.hist ++ [e])
    (ho : outgoing [e] = []) (hr : answerInRange e)
    (hw : ∀ d, e = .wait d → d = 20000 ∨ d = 20 ∨ d = s.pd.eraseDelay.toNat) : Grows s t :=
  ⟨h1, h2, [e], h3, fun _ => ho ▸ WholeFrames.nil _, by simpa using hr, fun d hd => hw d (List.mem_singleton.mp hd).symm⟩

theorem Grows.waitFor (s : State) (d : Nat) (h : d = 20000 ∨ d = 20 ∨ d = s.pd.eraseDelay.toNat) : Grows s (s.waitFor d) :=
  Grows.one (.wait d) rfl rfl rfl rfl trivial (by rintro x ⟨⟩; exact h)

theorem clampWrite_inRange {bytes : List Byte} (h : 1 ≤ bytes.length) (a : WriteAns) :
    answerInRange (.write bytes (clampWrite bytes.length a)) := by
  cases a with
  | accepted n => exact ⟨h, Nat.min_le_right _ _⟩
  | error => exact h

theorem clampRead_inRange {room : Nat} (h : 1 ≤ room) (a : ReadAns) : answerInRange (.read room (clampRead room a)) := by
  cases a with
  | bytes l => exact ⟨h, by simp [List.length_take]⟩
  | error => exact h

/-- A write of whole frames. -/
theorem Grows.tWrite (bytes : List Byte) (s : State) (h : s.par.wf = true → WholeFrames s.par bytes) (h1 : 1 ≤ bytes.length) :
    Grows s (tWrite bytes s) :=
  ⟨rfl, rfl, [_], rfl, fun hp => (h hp).write _, fun e he => (List.mem_singleton.mp he) ▸ clampWrite_inRange h1 _, by simp⟩

theorem Grows.tRead (room : Nat) (s : State) (h : 1 ≤ room) : Grows s (tRead room s) :=
  ⟨rfl, rfl, [_], rfl, fun _ => WholeFrames.nil _, fun e he => (List.mem_singleton.mp he) ▸ clampRead_inRange h _, by simp⟩

theorem Grows.tOpen (vid pid : BitVec 16) (s : State) : Grows s (tOpen vid pid s) :=
  Grows.one _ rfl rfl rfl rfl trivial (by simp)

theorem Grows.tSetMode (dir : Mask) (mode : Byte) (s : State) : Grows s (tSetMode dir mode s) :=
  Grows.one _ rfl rfl rfl rfl trivial (by simp)

theorem Grows.tClose (s : State) : Grows s (tClose s) := Grows.one .close rfl rfl rfl rfl trivial (by simp)

theorem Grows.diag (s : State) (k : DiagKind) (i : DiagInfo) : Grows s (s.diag k i) :=
  Grows.one _ rfl rfl rfl rfl trivial (by simp)

/-- Pin work emits diagnostics only. -/
theorem PinWork.grows {s t : State} (h : PinWork s t) : Grows s t := by
  obtain ⟨l, hl, hd⟩ := h.events
  refine ⟨h.par, h.pd, l, hl, fun _ => outgoing_diags hd ▸ WholeFrames.nil _, ?_, ?_⟩
  · intro e he; obtain ⟨k, i, rfl⟩ := hd e he; trivial
  · intro d he; obtain ⟨k, i, h⟩ := hd _ he; exact absurd h (by simp)

/-! ### Composition -/

/-- Everything a piece can end in has grown from `s`. -/
def Res.Grown {α : Type} (r : Res α) (s : State) : Prop := r.All (Grows s)

section
variable {α β : Type} {s : State}

theorem Res.grown_bind {r : Res α} {f : α → State → Res β} (h : r.Grown s) (hf : ∀ a t, (f a t).Grown t) : (r.bind f).Grown s :=
  Res.sat_bind h fun a t ht =>
    (hf a t).mono (fun _ _ k => ht.trans k) (fun _ _ k => ht.trans k) (fun _ _ _ k => ht.trans k)

theorem Res.Grown.after {r : Res α} {t : State} (k : r.Grown t) (h : Grows s t) : r.Grown s :=
  k.mono (fun _ _ k => h.trans k) (fun _ _ k => h.trans k) (fun _ _ _ k => h.trans k)

theorem Res.grown_onRaise {r : Res α} {f : State → State} (h : r.Grown s) (hf : ∀ t, Grows t (f t)) : (r.onRaise f).Grown s :=
  Res.sat_onRaise (E' := fun _ t => Grows s t) h fun _ t ht => ht.trans (hf t)

theorem Res.grown_finally {r : Res α} {f : State → State} (h : r.Grown s) (hf : ∀ t, Grows t (f t)) : (r.finally f).Grown s :=
  Res.sat_finally (P' := fun _ t => Grows s t) (E' := fun _ t => Grows s t) h (fun _ t ht => ht.trans (hf t))
    fun _ t ht => ht.trans (hf t)

theorem Res.grown_withData {r : Res α} {f : α → BitVec 32} (h : r.Grown s) : (r.withData f).Grown s :=
  Res.sat_withData h fun _ _ k => k

theorem Res.grown_waitingFor {r : Res α} {c : RxClient} (h : r.Grown s) : (r.waitingFor c).Grown s :=
  Res.sat_waitingFor (W := fun _ _ t => Grows s t) h

end

/-! ### The operations, from the bottom of the call tree to its top -/

theorem sendFrame_grown (bytes : List Byte) (s : State) (h : s.par.wf = true → WholeFrames s.par bytes) (h1 : 1 ≤ bytes.length) :
    (sendFrame bytes s).Grown s := by
  unfold sendFrame; split <;> exact Grows.tWrite bytes s h h1

theorem pinSetup_grown (s : State) : (pinSetup s).Grown s :=
  (pinSetup_sat s).mono (fun _ _ h => h.1.grows) (fun _ _ h => h.1.grows) (fun _ _ _ h => h.elim)

theorem setClock_grown (hz : BitVec 32) (s : State) : (setClock hz s).Grown s := by
  have hcaps : ∀ t : State, Grows t (reportCaps (computeDivisor hz) hz t) := by
    intro t
    unfold reportCaps
    split <;> split
    · exact (Grows.diag t _ _).trans (Grows.diag _ _ _)
    · exact Grows.diag t _ _
    · exact Grows.diag t _ _
    · exact .refl t
  unfold setClock
  refine Res.grown_finally ?_ (fun t => Grows.of_eq rfl rfl rfl)
  exact (sendFrame_grown _ _ (fun _ => WholeFrames.clk _ _) (by simp)).after
    ((Grows.of_eq rfl rfl rfl : Grows s { s with clk := some (computeDivisor hz) }).trans (hcaps _))

theorem receive_grown (n : Nat) (s : State) : (receive n s).Grown s := by
  unfold receive
  split
  next h =>
    dsimp only
    have hr := Grows.tRead (n - s.rxCnt) s (by omega)
    split
    · exact hr.trans (Grows.of_eq rfl rfl rfl)
    · split <;> exact hr.trans (Grows.of_eq rfl rfl rfl)
  · exact .refl s

theorem shift_grown (mode : Byte) (n : Nat) (pl : List Byte) (s : State) : (shift mode n pl s).Grown s := by
  unfold shift
  split
  · trivial
  next hl =>
    have hl : shiftLegal s.par mode n pl = true := by simpa using hl
    refine Res.grown_bind ?_ fun _ t => ?_
    · split
      next hs => exact sendFrame_grown _ s (fun hp => shiftFrame_whole hp hl hs) (by simp)
      · exact .refl s
    · split
      · exact (receive_grown n { t with rxBuf := [] }).after (Grows.of_eq rfl rfl rfl)
      · exact .refl t

theorem setPin_grown (r : SRole) (v : Bool) (s : State) : (setPin r v s).Grown s := by
  unfold setPin
  dsimp only
  split
  · exact .refl s
  · refine (sendFrame_grown _ _ (fun _ => WholeFrames.gpio _ _ _) ?_).after (t := writePinBit _ v s) (Grows.of_eq rfl rfl rfl)
    simp [gpioBytes]

theorem asResponse_grown {r : Res (List Byte)} {s : State} (h : r.Grown s) : (asResponse r).Grown s :=
  Res.grown_bind h fun _ _ => Grows.of_eq rfl rfl rfl

theorem exchange_grown (c : Quad) (s : State) : (exchange c s).Grown s := asResponse_grown (shift_grown _ _ _ s)

theorem pulseReset_grown {next : State → Res Unit} (hn : ∀ t, (next t).Grown t) (s : State) : (pulseReset next s).Grown s :=
  Res.grown_bind
    (Res.grown_onRaise
      (Res.grown_bind (setPin_grown _ _ s) fun _ t =>
        (setPin_grown _ _ (t.waitFor tPulse)).after (Grows.waitFor t tPulse (.inr (.inl rfl))))
      fun _ => Grows.of_eq rfl rfl rfl)
    fun _ t => hn t

theorem judgeAttempt_grown {next : State → Res Unit} (hn : ∀ t, (next t).Grown t) {r : Res Quad} {s : State} (h : r.Grown s) :
    (judgeAttempt next r).Grown s := by
  cases r with
  | ok q t =>
    simp only [judgeAttempt]
    split
    · exact Grows.trans h (Grows.of_eq rfl rfl rfl)
    · exact (pulseReset_grown hn t).after h
  | raise e t => exact (pulseReset_grown hn t).after h
  | wait c n t => exact h
  | refuse x => trivial

theorem handshake_grown (left : Nat) : ∀ s : State, (handshake left s).Grown s := by
  induction left with
  | zero => exact fun s => Grows.of_eq rfl rfl rfl
  | succ left ih =>
    exact fun s => judgeAttempt_grown ih
      ((exchange_grown _ { s with attempt := s.attempt + 1#3 }).after (Grows.of_eq rfl rfl rfl))

theorem programEnable_grown (s : State) : (programEnable s).Grown s := by
  unfold programEnable
  split
  · trivial
  split
  · exact Grows.of_eq rfl rfl rfl
  · exact (handshake_grown peAttempts { s with attempt := 0#3 }).after (Grows.of_eq rfl rfl rfl)

theorem resetSequence_grown (s : State) : (resetSequence s).Grown s := by
  have hw : ∀ (t : State) (st : St), Grows t ({ t with st := st }.waitFor tInit) := fun t st =>
    (Grows.of_eq rfl rfl rfl : Grows t { t with st := st }).trans (Grows.waitFor _ tInit (.inl rfl))
  unfold resetSequence
  refine Res.grown_bind (setPin_grown _ _ s) fun _ t => Res.grown_bind (setPin_grown _ _ t) fun _ t => ?_
  refine (Res.grown_bind (setPin_grown _ _ _) fun _ t => ?_).after (hw t t.st)
  refine (Res.grown_bind (setPin_grown _ _ _) fun _ t => ?_).after (hw t _)
  exact hw t _

theorem initializeBody_grown (s : State) : (initializeBody s).Grown s :=
  Res.grown_bind (Res.grown_onRaise (resetSequence_grown s) fun _ => Grows.of_eq rfl rfl rfl) fun _ t => programEnable_grown t

theorem judgeErase_grown {r : Res Quad} {s : State} (h : r.Grown s) : (judgeErase r).Grown s := by
  cases r with
  | ok q t => exact ((initializeBody_grown _).after (Grows.waitFor t _ (.inr (.inr rfl)))).after h
  | raise e t => exact Grows.trans h (Grows.of_eq rfl rfl rfl)
  | wait c n t => exact h
  | refuse x => trivial

theorem chipEraseBody_grown (s : State) : (chipEraseBody s).Grown s := by
  unfold chipEraseBody
  split
  · exact .refl s
  · exact judgeErase_grown ((exchange_grown _ { s with st := .erasing }).after (Grows.of_eq rfl rfl rfl))

theorem openClock_grown (hz : BitVec 32) (s : State) : (openClock hz s).Grown s :=
  Res.grown_bind (Res.grown_onRaise (setClock_grown hz s) fun u => (Grows.tClose u).trans (Grows.of_eq rfl rfl rfl))
    fun _ _ => Grows.of_eq rfl rfl rfl

theorem openMode_grown (hz : BitVec 32) (s : State) : (openMode hz s).Grown s := by
  unfold openMode
  have h := Grows.tSetMode s.dir s.par.modeSelect s
  split
  · exact (openClock_grown hz _).after
      (h.trans (t := tSetMode s.dir s.par.modeSelect s) (u := { tSetMode s.dir s.par.modeSelect s with live := true })
        (Grows.of_eq rfl rfl rfl))
  · exact h.trans (Grows.tClose _)

theorem openTransport_grown (vid pid : BitVec 16) (hz : BitVec 32) (s : State) : (openTransport vid pid hz s).Grown s := by
  unfold openTransport
  split
  · exact (openMode_grown hz _).after (Grows.tOpen vid pid s)
  · exact Grows.tOpen vid pid s

theorem openBody_grown (s : State) : (openBody s).Grown s :=
  Res.grown_bind (pinSetup_grown s) fun _ t => openTransport_grown _ _ _ t

theorem closeBody_grown (s : State) : Grows s (closeBody s) := by
  unfold closeBody
  split
  · have h := setPin_grown .reset true s
    have hs : Grows s (stateOf s (setPin .reset true s)) := by
      cases hr : setPin .reset true s <;> rw [hr] at h <;> first | exact h | exact .refl s
    exact (hs.trans (Grows.tClose _)).trans (Grows.of_eq rfl rfl rfl)
  · exact Grows.of_eq rfl rfl rfl

theorem resumeBody_grown (c : RxClient) (s : State) {r : Res (List Byte)} (h : r.Grown s) (s' : State) : (resumeBody c s' r).Grown s := by
  cases c with
  | shift => exact Res.grown_withData h
  | exchange => exact Res.grown_withData (Res.grown_waitingFor (asResponse_grown h))
  | handshake => exact Res.grown_withData (judgeAttempt_grown (handshake_grown _) (asResponse_grown h))
  | erase => exact Res.grown_withData (judgeErase_grown (asResponse_grown h))

/-- Settling adds no event. -/
theorem settle_grows {l : Level} {r : Res (BitVec 32)} {s t : State} (h : r.Grown s) (ht : settle l r = .next t) : Grows s t := by
  obtain ⟨d, u, hu, rfl⟩ | ⟨e, u, hu, rfl⟩ | ⟨c, n, u, hu, rfl⟩ := settle_sat ht h
  · exact hu.trans (by cases l <;> exact Grows.of_eq rfl rfl rfl)
  · exact hu.trans (by cases l <;> exact Grows.of_eq rfl rfl rfl)
  · exact hu.trans (Grows.of_eq rfl rfl rfl)

/-! ### Instructions -/

/-- Entering and settling a host operation adds no event. -/
theorem runChecked_grows {op takes body} {s t : State} (hb : ∀ u, Grows s u → (body u).Grown s)
    (h : runChecked op takes body s = .next t) : Grows s t := by
  have ha : Grows s (s.accept op) := by unfold State.accept; split <;> exact Grows.of_eq rfl rfl rfl
  refine settle_grows ?_ h
  split
  · exact hb _ ha
  · exact ha

/-- Entering and settling an internal operation adds no event. -/
theorem runInternal_grows {op body} {s t : State} (h : runInternal op body s = .next t) (hb : (body s).Grown s) : Grows s t := by
  unfold runInternal at h
  split at h
  · refine settle_grows (s := s) ?_ h
    show Grows _ _
    unfold State.accept; split <;> exact Grows.of_eq rfl rfl rfl
  · exact settle_grows hb h

/-- Sending the frame of the frame buffer is one write (R44). -/
theorem emitFrame_grows {bytes} {s t : State} (hw : s.par.wf = true → WholeFrames s.par bytes) (h1 : 1 ≤ bytes.length)
    (h : emitFrame bytes s = .next t) : Grows s t := by
  unfold emitFrame at h; simp at h; subst h
  exact (Grows.tWrite bytes s hw h1).trans (Grows.of_eq rfl rfl rfl)

/-- Every instruction, at whichever level: its events are as `Grows` says, provided a frame is a well-formed one. -/
theorem exec_grows {i : Instr} {s t : State} (hf : isFrame i = true → s.par.wf = true → i.wf s.par = true)
    (h : exec i s = .next t) : Grows s t := by
  have g1 : ∀ {α} {r : Res α} {u : State} {f}, Grows s u → r.Grown u → (r.withData f).Grown s := fun h k => (Res.grown_withData k).after h
  cases i with
  | openOp => exact runChecked_grows (fun u hu => g1 hu (openBody_grown u)) h
  | closeOp =>
    simp only [exec, execClose] at h
    exact runChecked_grows (body := fun s => .ok 0#32 (closeBody s)) (fun u hu => (show Grows s _ from hu.trans (closeBody_grown u))) h
  | initializeOp => exact runChecked_grows (fun u hu => g1 hu (initializeBody_grown u)) h
  | programEnable => exact runChecked_grows (fun u hu => g1 hu (programEnable_grown u)) h
  | chipErase => exact runChecked_grows (fun u hu => g1 hu (chipEraseBody_grown u)) h
  | exchange c => exact runChecked_grows (fun u hu => g1 hu (Res.grown_waitingFor (exchange_grown c u))) h
  | setLed0 v => exact runChecked_grows (fun u hu => g1 hu (setPin_grown _ v u)) h
  | setLed1 v => exact runChecked_grows (fun u hu => g1 hu (setPin_grown _ v u)) h
  | setLed2 v => exact runChecked_grows (fun u hu => g1 hu (setPin_grown _ v u)) h
  | setLed3 v => exact runChecked_grows (fun u hu => g1 hu (setPin_grown _ v u)) h
  | assignSingle r raw =>
    simp only [exec, execAssignSingle] at h
    refine runInternal_grows h (g1 (.refl s) ?_)
    exact (assignSingle_work r raw s).mono (fun _ _ h => h.grows) (fun _ _ h => h.grows) (fun _ _ _ h => h.grows)
  | assignGroup r raw =>
    simp only [exec, execAssignGroup] at h
    refine runInternal_grows h (g1 (.refl s) ?_)
    exact (assignGroup_work r raw s).mono (fun _ _ h => h.grows) (fun _ _ h => h.grows) (fun _ _ _ h => h.grows)
  | validateLayout a b c d =>
    simp only [exec, execValidateLayout] at h
    refine runInternal_grows h (g1 (u := { s with samp := { s.samp with clk := a, dout := b, din := c, reset := d } }) (Grows.of_eq rfl rfl rfl) ?_)
    exact (validateLayout_sat _).mono (fun _ _ h => h.1.grows) (fun _ _ h => h.2.1.grows) (fun _ _ _ h => h.elim)
  | pinSetup =>
    simp only [exec, execPinSetup] at h
    refine runInternal_grows h (g1 (.refl s) ?_)
    exact (pinSetup_sat _).mono (fun _ _ h => h.1.grows) (fun _ _ h => h.1.grows) (fun _ _ _ h => h.elim)
  | computeDivisor hz =>
    simp only [exec, execComputeDivisor] at h
    exact runInternal_grows h (show Grows _ _ from Grows.of_eq rfl rfl rfl)
  | setClock hz =>
    simp only [exec, execSetClock] at h
    exact runInternal_grows h (g1 (.refl s) (setClock_grown hz s))
  | encodeGpioSet =>
    simp only [exec, execEncodeGpioSet] at h
    exact runInternal_grows h (show Grows _ _ from Grows.of_eq rfl rfl rfl)
  | shift m n pl =>
    simp only [exec, execShift] at h
    exact runInternal_grows h (g1 (.refl s) (shift_grown m n.toNat pl s))
  | setPin r v =>
    simp only [exec, execSetPin] at h
    exact runInternal_grows h (g1 (.refl s) (setPin_grown r v s))
  | reservedLow op =>
    simp only [exec, execReservedLow] at h
    refine settle_grows (s := s) ?_ h
    show Grows _ _
    unfold State.accept; split <;> exact Grows.of_eq rfl rfl rfl
  | reservedHigh op =>
    simp only [exec, execReservedHigh] at h
    refine settle_grows (s := s) ?_ h
    show Grows _ _
    unfold State.accept; split <;> exact Grows.of_eq rfl rfl rfl
  | clkFrame d => exact emitFrame_grows (fun _ => WholeFrames.clk _ _) (by simp) h
  | gpioFrame v d => exact emitFrame_grows (fun _ => WholeFrames.gpio _ _ _) (by simp) h
  | shiftFrame m pl => exact emitFrame_grows (fun hp => WholeFrames.one (f := .shiftFrame m pl) rfl (hf rfl hp)) (by show 1 ≤ (shiftBytes m pl).length; rw [shiftBytes_length]; omega) h
  | pinSpec r raw => simp [exec, execPinSpec] at h; subst h; exact Grows.of_eq rfl rfl rfl
  | groupMask r raw => simp [exec, execGroupMask] at h; subst h; exact Grows.of_eq rfl rfl rfl
  | hostRes a b =>
    simp [exec, execHostRes] at h; subst h
    unfold presentResult
    cases s.running with
    | none => exact Grows.of_eq rfl rfl (by simp)
    | some op => exact Grows.one (.result op ⟨a, b⟩) rfl rfl rfl rfl trivial (by simp)

/-- No command word is a frame. -/
theorem decodeCmd_isFrame (w : BitVec 37) (pl : List Byte) : isFrame (decodeCmd w pl) = false := by
  unfold decodeCmd
  dsimp only
  split <;> first | rfl | (split <;> rfl)

/-- A register write of the host adds no event. -/
theorem writeRegister_par (m : HostMove) (s : State) : (writeRegister m s).par = s.par ∧ (writeRegister m s).hist = s.hist := by
  unfold writeRegister
  split <;> exact ⟨rfl, rfl⟩

end Sys2Proof.Machine
end

