-- ==== Sys2Proof/Laws/Step.lean ====
section
/-!
SUPPORT. What a step from a control state can do, and what a command word at the port of an idle block can do, said once.
-/

namespace Sys2Proof.Machine

/-- The ways a step of a control state goes on. -/
inductive StepKind (s t : State) : Prop where
  /-- the receive loop in progress makes its next read -/
  | resumed (w : RxWait) (h : s.rx = some w) (ht : resumeReceive w s = .next t)
  /-- the result is presented -/
  | presented (r : HostRes) (op : BitVec 5) (hx : s.rx = none) (hr : s.resBuf = some r) (hop : s.running = some op)
      (ht : t = presentResult r { s with resBuf := none })
  /-- the block is idle and stays so -/
  | idle (hx : s.rx = none) (hb : s.resBuf = none) (hr : s.running = none) (hp : s.port = []) (ht : t = s)
  /-- the host writes a register -/
  | written (m : HostMove) (rest : List HostMove) (hx : s.rx = none) (hb : s.resBuf = none) (hr : s.running = none)
      (hp : s.port = m :: rest) (ht : t = { s with port := rest, cfg := t.cfg, pd := t.pd })
  /-- the host's command is run -/
  | command (w : BitVec 37) (operand : List Byte) (rest : List HostMove) (hx : s.rx = none) (hb : s.resBuf = none)
      (hr : s.running = none) (hp : s.port = .present w operand :: rest)
      (ht : exec (decodeCmd w operand) { s with port := rest } = .next t)

theorem step_kind {s t : State} (hc : s.Control) (h : step s = .next t) : StepKind s t := by
  have hf := hc.frame
  have hidle := hc.idle
  have hbusy := hc.busy
  clear hc
  obtain ⟨pinmap, gmask, dir, inv, val, st, live, attempt, clk, samp, frame, rxBuf, rx, cfg, pd, port, running, ret, resBuf, hostRes,
    env, hist, par⟩ := s
  simp only at hf hidle hbusy
  subst hf
  cases rx with
  | some w => exact .resumed w rfl h
  | none =>
    cases resBuf with
    | some r =>
      cases running with
      | none => exact absurd (hidle rfl).2 (by simp)
      | some op =>
        simp only [step, fetch, ne_eq, not_true_eq_false, if_false, decode, decodeRes, resultWord_status,
          resultWord_data, exec, execHostRes, Host.Outcome.next.injEq] at h
        exact .presented r op rfl rfl rfl h.symm
    | none =>
      cases running with
      | some op => exact absurd ((hbusy (by simp)).mp rfl) (by simp)
      | none =>
        simp only [step, fetch, ne_eq, not_true_eq_false, if_false] at h
        cases port with
        | nil => simp only [Host.Outcome.next.injEq] at h; exact .idle rfl rfl rfl rfl h.symm
        | cons m rest =>
          cases m with
          | present w operand => exact .command w operand rest rfl rfl rfl rfl h
          | writePe c =>
            cases c <;> simp only [HostMove.wire, writeRegister, Host.Outcome.next.injEq] at h <;> subst h <;>
              exact .written _ rest rfl rfl rfl rfl rfl
          | writeCe c =>
            cases c <;> simp only [HostMove.wire, writeRegister, Host.Outcome.next.injEq] at h <;> subst h <;>
              exact .written _ rest rfl rfl rfl rfl rfl
          | _ =>
            simp only [HostMove.wire, writeRegister, decode, exec, execPinSpec, execGroupMask, writeCfgPin, writeCfgGroup,
              Host.Outcome.next.injEq] at h
            subst h
            exact .written _ rest rfl rfl rfl rfl rfl

/-- What a command word does at the port of the idle block `u`. -/
inductive Command (u t : State) : Prop where
  /-- BadState or IllegalOp (R155, R70) -/
  | refused (op : BitVec 5) (code : BitVec 4) (hc : code = 10#4 ∨ code = 11#4)
      (ht : t = { u with running := some op, resBuf := some ⟨code, 0#32⟩ })
  | opened (hst : u.st = .closed)
      (ht : settle .host ((openBody { u with running := some opOpen }).withData fun _ => 0#32) = .next t)
  | closed (ht : t = { closeBody { u with running := some opClose } with resBuf := some ⟨0#4, 0#32⟩ })
  | initialized (hst : u.st.takesBringUp = true)
      (ht : settle .host ((initializeBody { u with running := some opInitialize }).withData fun _ => 0#32) = .next t)
  | enabled (hst : u.st.takesBringUp = true)
      (ht : settle .host ((programEnable { u with running := some opProgramEnable }).withData fun _ => 0#32) = .next t)
  | erased (hst : u.st = .enabled)
      (ht : settle .host ((chipEraseBody { u with running := some opChipErase }).withData fun _ => 0#32) = .next t)
  | exchanged (c : Quad) (hst : u.st ≠ .closed)
      (ht : settle .host (((exchange c { u with running := some opExchange }).waitingFor .exchange).withData wordOfQuad) = .next t)
  | led (op : BitVec 5) (hop : op = opSetLed0 ∨ op = opSetLed1 ∨ op = opSetLed2 ∨ op = opSetLed3) (r : SRole) (v : Bool)
      (hst : u.st ≠ .closed)
      (ht : settle .host ((setPin r v { u with running := some op }).withData fun _ => 0#32) = .next t)

theorem command_kind {u t : State} {w : BitVec 37} {operand : List Byte} (hr : u.running = none)
    (h : exec (decodeCmd w operand) u = .next t) : Command u t := by
  have internal : ∀ (op : BitVec 5) (body : State → Res (BitVec 32)), runInternal op body u = .next t → Command u t := by
    intro op body h
    rw [runInternal_idle hr] at h
    simp only [Host.Outcome.next.injEq] at h
    exact .refused op 11#4 (.inr rfl) h.symm
  have bad : ∀ (op : BitVec 5), settle .host (.raise .badState { u with running := some op }) = .next t → Command u t := by
    intro op h
    rw [settle_badState] at h
    simp only [Host.Outcome.next.injEq] at h
    exact .refused op 10#4 (.inl rfl) h.symm
  have session : ∀ {st : St}, st.takesSession = true → st ≠ .closed := by intro st; cases st <;> simp [St.takesSession]
  have ledCase : ∀ (op : BitVec 5), (op = opSetLed0 ∨ op = opSetLed1 ∨ op = opSetLed2 ∨ op = opSetLed3) → ∀ (r : SRole) (v : Bool),
      runChecked op u.st.takesSession (fun s => (setPin r v s).withData fun _ => 0#32) u = .next t → Command u t := by
    intro op hop r v h
    rw [runChecked_idle hr] at h
    split at h
    next hs => exact .led op hop r v (session hs) h
    · exact bad _ h
  have res : ∀ op, settle u.level (.raise .illegalOp (u.accept op)) = .next t → Command u t := by
    intro op h
    rw [level_idle hr, accept_idle hr] at h
    simp only [settle_raise, conclude_host, Host.Outcome.next.injEq] at h
    exact .refused op 11#4 (.inr rfl) h.symm
  unfold decodeCmd at h
  dsimp only at h
  split at h
  · simp only [exec, execOpen, runChecked_idle hr] at h
    split at h
    next hs => exact .opened (by cases hst : u.st <;> simp_all [St.takesOpen]) h
    · exact bad _ h
  · simp only [exec, execClose, runChecked_idle hr, if_true, settle_ok, conclude_host, Host.Outcome.next.injEq] at h
    exact .closed h.symm
  · simp only [exec, execInitialize, runCallable_idle hr] at h
    split at h
    next hs => exact .initialized hs h
    · exact bad _ h
  · simp only [exec, execProgramEnable, runCallable_idle hr] at h
    split at h
    next hs => exact .enabled hs h
    · exact bad _ h
  · simp only [exec, execChipErase, runChecked_idle hr] at h
    split at h
    next hs => exact .erased (by cases hst : u.st <;> simp_all [St.takesErase]) h
    · exact bad _ h
  · simp only [exec, execExchange, runCallable_idle hr] at h
    split at h
    next hs => exact .exchanged _ (session hs) h
    · exact bad _ h
  · exact ledCase _ (.inl rfl) .led0 _ h
  · exact ledCase _ (.inr (.inl rfl)) .led1 _ h
  · exact ledCase _ (.inr (.inr (.inl rfl))) .led2 _ h
  · exact ledCase _ (.inr (.inr (.inr rfl))) .led3 _ h
  · unfold exec execAssignSingle at h; exact internal _ _ h
  · unfold exec execAssignGroup at h; exact internal _ _ h
  · unfold exec execValidateLayout at h; exact internal _ _ h
  · unfold exec execPinSetup at h; exact internal _ _ h
  · unfold exec execComputeDivisor at h; exact internal _ _ h
  · unfold exec execSetClock at h; exact internal _ _ h
  · unfold exec execEncodeGpioSet at h; exact internal _ _ h
  · unfold exec execShift at h; exact internal _ _ h
  · unfold exec execSetPin at h; exact internal _ _ h
  · split at h
    · exact res _ h
    · exact res _ h

end Sys2Proof.Machine
end

