-- ==== Sys2Proof/Laws/Moves.lean ====
section
/-!
SUPPORT. What a step from a control state does to the session, said once: the ways of `Moved`, each with the relation between the two
states. The invariants of the control state and of the masks are case analyses over it.
-/

namespace Sys2Proof.Machine

/-- Going on with an exchange's receive loop. -/
theorem resumeReceive_exchange (w : RxWait) (s : State) (hlen : w.length = xchgLen) (hlev : w.level = .host) :
    resumeReceive w s = settle .host (resumeBody w.client { s with rx := none } (receive xchgLen { s with rx := none })) := by
  obtain ⟨c, n, l⟩ := w
  subst hlen hlev
  cases c <;> rfl

/-- How a piece of a host operation is settled: an ordinary end, an error, or a receive loop short of bytes. -/
inductive Ended (s t : State) (P : State → Prop) (E : Err → State → Prop) (W : RxClient → Nat → State → Prop) : Prop
  | ok (d : BitVec 32) (u : State) (h : P u) (ht : t = { u with resBuf := some ⟨0#4, d⟩ })
  | err (e : Err) (u : State) (h : E e u) (ht : t = { u with resBuf := some ⟨e.code, e.data⟩ })
  | wait (c : RxClient) (n : Nat) (u : State) (h : W c n u) (ht : t = { u with rx := some ⟨c, n, .host⟩ })

theorem settle_ended {s t : State} {r : Res (BitVec 32)} {P E W} (h : settle .host r = .next t) (hr : r.Sat (fun _ u => P u) E W) : Ended s t P E W := by
  obtain ⟨d, u, hu, rfl⟩ | ⟨e, u, hu, rfl⟩ | ⟨c, n, u, hu, rfl⟩ := settle_sat h hr
  · exact .ok d u hu rfl
  · exact .err e u hu rfl
  · exact .wait c n u hu rfl

/-- A host operation that waits in its receive loop runs in an open session and has no result yet (R50, R128). -/
theorem State.Control.waiting {s : State} (hc : s.Control) {w} (hx : s.rx = some w) : s.running ≠ none ∧ s.resBuf = none ∧ s.live = true := by
  have hw := hc.loop w hx
  have hne : s.running ≠ none := fun h => by have := (hc.idle h).1; rw [hx] at this; cases this
  refine ⟨hne, ?_, hc.live.mpr hw.session⟩
  by_contra hb
  have := (hc.busy hne).mpr hb; rw [hx] at this; cases this

/-- The states of ST a step of a bring-up operation goes on from (R155, R156): those that take it, and those it has set itself. -/
def BringsUpFrom (op : BitVec 5) (st : St) : Prop :=
  (op = opInitialize ∧ (st.takesBringUp = true ∨ st = .resetReleased)) ∨
  (op = opProgramEnable ∧ st.takesBringUp = true) ∨
  (op = opChipErase ∧ (st = .enabled ∨ st = .erasing ∨ st = .resetReleased))

/-- The operation of a waiting handshake. -/
theorem State.HandshakeCaller.op {s : State} (h : s.HandshakeCaller) :
    ∃ op, s.running = some op ∧ BringsUpFrom op s.st ∧ (op = opProgramEnable ∨ s.st = .resetReleased) := by
  obtain ⟨h, hst⟩ | ⟨h | h, hst⟩ := h
  · exact ⟨_, h, .inr (.inl ⟨rfl, hst⟩), .inl rfl⟩
  · exact ⟨_, h, .inl ⟨rfl, .inr hst⟩, .inr hst⟩
  · exact ⟨_, h, .inr (.inr ⟨rfl, .inr (.inr hst)⟩), .inr hst⟩

/-- The ways a step of a control state moves (R156, R186): `u0` is the state the operation goes on from, `u` the state at its end. -/
inductive Moved (s t : State) : Prop where
  /-- nothing of the session moves: an idle step, a register write, a presented result, a refused command -/
  | quiet
      (h : t = { s with
        port := t.port, cfg := t.cfg, pd := t.pd, running := t.running, resBuf := t.resBuf, hostRes := t.hostRes,
        hist := t.hist })
      (hh : t.hist = s.hist ∨ ∃ op r, s.resBuf = some r ∧ s.running = some op ∧ t.resBuf = none ∧ t.running = none ∧
        t.hist = s.hist ++ [.result op r])
      (hr : t.resBuf = s.resBuf ∨ t.resBuf = none ∨ t.resBuf = some ⟨10#4, 0#32⟩ ∨ t.resBuf = some ⟨11#4, 0#32⟩)
  /-- OPEN succeeds -/
  | openOk (rest) (hr : s.running = none) (hst : s.st = .closed) (u)
      (ho : Opening { s with port := rest, running := some opOpen } u) (hm : u.Masks) (h1 : u.st = .opened)
      (h2 : u.live = true) (d) (ht : t = { u with resBuf := some ⟨0#4, d⟩ })
  /-- OPEN fails -/
  | openErr (rest) (hr : s.running = none) (hst : s.st = .closed) (e u) (he : openErr e)
      (ho : Opening { s with port := rest, running := some opOpen } u) (h1 : u.st = .closed) (h2 : u.live = false)
      (ht : t = { u with resBuf := some ⟨e.code, e.data⟩ })
  /-- CLOSE -/
  | closed (rest) (hr : s.running = none)
      (ht : t = { closeBody { s with port := rest, running := some opClose } with resBuf := some ⟨0#4, 0#32⟩ })
  /-- EXCHANGE begins or goes on -/
  | exchange (u0 u)
      (h0 : u0 = { s with rx := none } ∨ s.running = none ∧ ∃ rest, u0 = { s with port := rest, running := some opExchange })
      (hop : u0.running = some opExchange) (hst : s.st ≠ .closed) (hs : SameSession u0 u) (hst' : u.st = s.st)
      (ht : (∃ d, t = { u with resBuf := some ⟨0#4, d⟩ }) ∨
        (∃ e, exchangeErr e ∧ t = { u with resBuf := some ⟨e.code, e.data⟩ }) ∨
        ∃ n, t = { u with rx := some ⟨.exchange, n, .host⟩ })
  /-- an LED setter -/
  | led (rest op) (hr : s.running = none) (hop : op = opSetLed0 ∨ op = opSetLed1 ∨ op = opSetLed2 ∨ op = opSetLed3)
      (hst : s.st ≠ .closed) (u) (hs : SameSession { s with port := rest, running := some op } u) (hst' : u.st = s.st)
      (ht : (∃ d, t = { u with resBuf := some ⟨0#4, d⟩ }) ∨ t = { u with resBuf := some ⟨5#4, 0#32⟩ })
  /-- INITIALIZE, PROGRAM_ENABLE or CHIP_ERASE begins or goes on: matched, failed, refused for want of an erase opcode, or short
  of bytes in the handshake or the erase exchange -/
  | bring (op u0 u)
      (h0 : u0 = { s with rx := none } ∨ s.running = none ∧ ∃ rest, u0 = { s with port := rest, running := some op })
      (hop : u0.running = some op) (hfrom : BringsUpFrom op s.st)
      (hst : s.st ≠ .closed) (hs : SameSession u0 u)
      (ht : (u.st = .enabled ∧ ∃ d, t = { u with resBuf := some ⟨0#4, d⟩ }) ∨
        (∃ e, (bringUpErr e ∨ e = .readFailed ∧ op = opChipErase) ∧ u.st = .failed ∧
          t = { u with resBuf := some ⟨e.code, e.data⟩ }) ∨
        (s.st = .enabled ∧ op = opChipErase ∧ u = u0 ∧ s.pd.ceDef = false ∧ t = { u with resBuf := some ⟨8#4, 0#32⟩ }) ∨
        (∃ n, (u.st = s.st ∨ op ≠ opProgramEnable ∧ u.st = .resetReleased) ∧ t = { u with rx := some ⟨.handshake, n, .host⟩ }) ∨
        (∃ n, op = opChipErase ∧ u.st = .erasing ∧ (s.st = .enabled ∨ s.st = .erasing) ∧
          t = { u with rx := some ⟨.erase, n, .host⟩ }))

/-- Every step from a control state is one of them. -/
theorem moved_of_step {s t : State} (hc : s.Control) (h : step s = .next t) : Moved s t := by
  cases step_kind hc h with
  | idle hx hb hr hp ht => subst ht; exact .quiet rfl (.inl rfl) (.inl rfl)
  | written m rest hx hb hr hp ht =>
    refine .quiet ?_ (.inl ?_) (.inl ?_) <;> rw [ht]
  | presented r op hx hr hop ht =>
    subst ht
    refine .quiet rfl (.inr ⟨op, r, hr, hop, rfl, rfl, ?_⟩) (.inr (.inl rfl))
    simp [presentResult, hop]
  | resumed w hx ht =>
    obtain ⟨hne, hb, hl⟩ := hc.waiting hx
    have hw := hc.loop w hx
    rw [resumeReceive_exchange w s hw.length hw.level] at ht
    cases hcl : w.client with
    | shift => exact absurd hcl hw.called
    | exchange =>
      rw [hcl] at ht
      cases settle_ended (s := s) ht (resumeExchange_sat _) with
      | ok d u h ht => exact .exchange _ u (.inl rfl) (hw.exchange hcl).1 hw.session h.1 h.2.1 (.inl ⟨d, ht⟩)
      | err e u h ht => exact .exchange _ u (.inl rfl) (hw.exchange hcl).1 hw.session h.2.1 h.2.2.1 (.inr (.inl ⟨e, h.1, ht⟩))
      | wait c n u h ht =>
        obtain ⟨rfl, h⟩ := h
        exact .exchange _ u (.inl rfl) (hw.exchange hcl).1 hw.session h.1 h.2.2.1 (.inr (.inr ⟨n, ht⟩))
    | handshake =>
      rw [hcl] at ht
      obtain ⟨hcall, hlo, hhi, hpi⟩ := hw.handshake hcl
      obtain ⟨op, hop, hop', -⟩ := hcall.op
      cases settle_ended (s := s) ht (resumeHandshake_sat _ hlo hhi) with
      | ok d u h ht => exact .bring op _ u (.inl rfl) hop hop' hw.session h.same (.inl ⟨h.st, d, ht⟩)
      | err e u h ht => exact .bring op _ u (.inl rfl) hop hop' hw.session h.2.same (.inr (.inl ⟨e, .inl h.1, h.2.st, ht⟩))
      | wait c n u h ht =>
        obtain ⟨rfl, h⟩ := h
        exact .bring op _ u (.inl rfl) hop hop' hw.session h.same (.inr (.inr (.inr (.inl ⟨n, .inl h.st, ht⟩))))
    | erase =>
      rw [hcl] at ht
      obtain ⟨hop, hst, hat⟩ := hw.erase hcl
      have hfrom : BringsUpFrom opChipErase s.st := .inr (.inr ⟨rfl, .inr (.inl hst)⟩)
      cases settle_ended (s := s) ht (resumeErase_sat _ hat) with
      | ok d u h ht => exact .bring opChipErase _ u (.inl rfl) hop hfrom hw.session h.same (.inl ⟨h.st, d, ht⟩)
      | err e u h ht => exact .bring opChipErase _ u (.inl rfl) hop hfrom hw.session h.2.same (.inr (.inl ⟨e, h.1.imp id (fun h => ⟨h, rfl⟩), h.2.st, ht⟩))
      | wait c n u h ht =>
        rcases h with ⟨rfl, h, hpi⟩ | ⟨rfl, h1, rfl, h2, h3, h4⟩
        · exact .bring opChipErase _ u (.inl rfl) hop hfrom hw.session h.same (.inr (.inr (.inr (.inl ⟨n, .inr ⟨by decide, h.st⟩, ht⟩))))
        · exact .bring opChipErase _ u (.inl rfl) hop hfrom hw.session h1 (.inr (.inr (.inr (.inr ⟨_, rfl, h2.trans hst, .inr hst, ht⟩))))
  | command w operand rest hx hb hr hp ht =>
    obtain ⟨hst, hat, hrb⟩ := hc.rest hx
    have hbring : ∀ {st : St}, st.takesBringUp = true → st ≠ .closed := by intro st; cases st <;> simp [St.takesBringUp]
    cases command_kind (u := { s with port := rest }) hr ht with
    | refused op code hcode ht =>
      subst ht
      refine .quiet rfl (.inl rfl) ?_
      rcases hcode with rfl | rfl <;> simp
    | opened hcl ht =>
      cases settle_ended (s := s) ht (Res.sat_withData (P := fun _ => _) (openBody_sat _) (fun _ _ h => h)) with
      | ok d u h ht =>
        obtain ⟨ho, hm, h1, h2, h3, -⟩ := h
        exact .openOk rest hr hcl u ho hm h1 h2 d ht
      | err e u h ht =>
        obtain ⟨ho, h1, h2, h3, he, -⟩ := h
        have hl : s.live = false := by
          rcases Bool.eq_false_or_eq_true s.live with h | h
          · exact absurd hcl (hc.live.mp h)
          · exact h
        exact .openErr rest hr hcl e u he ho (h1.trans hcl) (h2 hl) ht
      | wait c n u h ht => exact h.elim
    | closed ht => exact .closed rest hr ht
    | initialized hacc ht =>
      cases settle_ended (s := s) ht (Res.sat_withData (P := fun _ => _) (initializeBody_sat { s with port := rest, running := some opInitialize } hrb hat) (fun _ _ h => h)) with
      | ok d u h ht => exact .bring opInitialize _ u (.inr ⟨hr, rest, rfl⟩) rfl (.inl ⟨rfl, .inl hacc⟩) (hbring hacc) h.same (.inl ⟨h.st, d, ht⟩)
      | err e u h ht => exact .bring opInitialize _ u (.inr ⟨hr, rest, rfl⟩) rfl (.inl ⟨rfl, .inl hacc⟩) (hbring hacc) h.2.same (.inr (.inl ⟨e, .inl h.1, h.2.st, ht⟩))
      | wait c n u h ht =>
        obtain ⟨rfl, h, hpi⟩ := h
        exact .bring opInitialize _ u (.inr ⟨hr, rest, rfl⟩) rfl (.inl ⟨rfl, .inl hacc⟩) (hbring hacc) h.same (.inr (.inr (.inr (.inl ⟨n, .inr ⟨by decide, h.st⟩, ht⟩))))
    | enabled hacc ht =>
      cases settle_ended (s := s) ht (Res.sat_withData (P := fun _ => _) (programEnable_sat { s with port := rest, running := some opProgramEnable } hrb hat) (fun _ _ h => h)) with
      | ok d u h ht => exact .bring opProgramEnable _ u (.inr ⟨hr, rest, rfl⟩) rfl (.inr (.inl ⟨rfl, hacc⟩)) (hbring hacc) h.same (.inl ⟨h.st, d, ht⟩)
      | err e u h ht => exact .bring opProgramEnable _ u (.inr ⟨hr, rest, rfl⟩) rfl (.inr (.inl ⟨rfl, hacc⟩)) (hbring hacc) h.2.same (.inr (.inl ⟨e, .inl h.1, h.2.st, ht⟩))
      | wait c n u h ht =>
        obtain ⟨rfl, h, hpi⟩ := h
        exact .bring opProgramEnable _ u (.inr ⟨hr, rest, rfl⟩) rfl (.inr (.inl ⟨rfl, hacc⟩)) (hbring hacc) h.same (.inr (.inr (.inr (.inl ⟨n, .inl h.st, ht⟩))))
    | erased hacc ht =>
      have hacc : s.st = .enabled := hacc
      have hne : s.st ≠ .closed := by rw [hacc]; simp
      cases settle_ended (s := s) ht (Res.sat_withData (P := fun _ => _) (chipEraseBody_sat { s with port := rest, running := some opChipErase } hrb hat) (fun _ _ h => h)) with
      | ok d u h ht => exact .bring opChipErase _ u (.inr ⟨hr, rest, rfl⟩) rfl (.inr (.inr ⟨rfl, .inl hacc⟩)) hne h.same (.inl ⟨h.st, d, ht⟩)
      | err e u h ht =>
        rcases h with ⟨rfl, rfl, h⟩ | h
        · exact .bring opChipErase _ _ (.inr ⟨hr, rest, rfl⟩) rfl (.inr (.inr ⟨rfl, .inl hacc⟩)) hne (.refl _) (.inr (.inr (.inl ⟨hacc, rfl, rfl, h, ht⟩)))
        · exact .bring opChipErase _ u (.inr ⟨hr, rest, rfl⟩) rfl (.inr (.inr ⟨rfl, .inl hacc⟩)) hne h.2.same (.inr (.inl ⟨e, h.1.imp id (fun h => ⟨h, rfl⟩), h.2.st, ht⟩))
      | wait c n u h ht =>
        rcases h with ⟨rfl, h, hpi⟩ | ⟨rfl, h1, rfl, h2, h3, h4⟩
        · exact .bring opChipErase _ u (.inr ⟨hr, rest, rfl⟩) rfl (.inr (.inr ⟨rfl, .inl hacc⟩)) hne h.same (.inr (.inr (.inr (.inl ⟨n, .inr ⟨by decide, h.st⟩, ht⟩))))
        · exact .bring opChipErase _ u (.inr ⟨hr, rest, rfl⟩) rfl (.inr (.inr ⟨rfl, .inl hacc⟩)) hne h1 (.inr (.inr (.inr (.inr ⟨_, rfl, h2, .inl hacc, ht⟩))))
    | exchanged c hacc ht =>
      have hsat := exchange_sat c { s with port := rest, running := some opExchange } hrb
      have hsat' : ((exchange c { s with port := rest, running := some opExchange }).waitingFor .exchange).Sat (fun _ t => SameSession { s with port := rest, running := some opExchange } t ∧ t.st = s.st ∧ t.attempt = s.attempt ∧ t.rxBuf = [])
        (fun e t => exchangeErr e ∧ SameSession { s with port := rest, running := some opExchange } t ∧ t.st = s.st ∧ t.attempt = s.attempt ∧ t.rxBuf = [])
        (fun c m t => c = .exchange ∧ SameSession { s with port := rest, running := some opExchange } t ∧ m = xchgLen ∧ t.st = s.st ∧ t.attempt = s.attempt ∧ t.rxCnt < xchgLen) :=
        Res.sat_waitingFor (hsat.mono (fun _ _ h => h) (fun _ _ h => h) (fun _ _ _ h => ⟨rfl, h⟩))
      cases settle_ended (s := s) ht (Res.sat_withData (P := fun _ => _) hsat' (fun _ _ h => h)) with
      | ok d u h ht => exact .exchange _ u (.inr ⟨hr, rest, rfl⟩) rfl hacc h.1 h.2.1 (.inl ⟨d, ht⟩)
      | err e u h ht => exact .exchange _ u (.inr ⟨hr, rest, rfl⟩) rfl hacc h.2.1 h.2.2.1 (.inr (.inl ⟨e, h.1, ht⟩))
      | wait c n u h ht =>
        obtain ⟨rfl, h⟩ := h
        exact .exchange _ u (.inr ⟨hr, rest, rfl⟩) rfl hacc h.1 h.2.2.1 (.inr (.inr ⟨n, ht⟩))
    | led op hop r v hacc ht =>
      cases settle_ended (s := s) ht (Res.sat_withData (P := fun _ => _) (setPin_sat r v { s with port := rest, running := some op }) (fun _ _ h => h)) with
      | ok d u h ht => exact .led rest op hr hop hacc u h.1 h.2.1 (.inl ⟨d, ht⟩)
      | err e u h ht =>
        obtain ⟨rfl, h⟩ := h
        exact .led rest op hr hop hacc u h.1 h.2.1 (.inr ht)
      | wait c n u h ht => exact h.elim

/-- Work inside a session keeps the masks (R24). -/
theorem SameSession.masks {u0 u : State} (h : SameSession u0 u) (hm : u0.Masks) : u.Masks where
  range := by simpa only [State.assigned, State.bitOf, h.pinmap] using hm.range
  disjoint := by simpa only [State.assigned, State.bitOf, h.pinmap] using hm.disjoint
  fixed := by rw [h.pinmap]; exact hm.fixed
  groups := by simpa only [State.assigned, State.bitOf, h.pinmap, h.gmask] using hm.groups
  dirBits := by simpa only [State.assigned, State.bitOf, h.pinmap, h.gmask, h.dir] using hm.dirBits
  invBits := by simpa only [State.assigned, State.bitOf, h.pinmap, h.inv] using hm.invBits
  valBits := by
    intro b hb
    by_contra hn
    have hn' : ∀ r, u0.assigned r = true → u0.bitOf r ≠ b := by
      intro r hr hb'
      exact hn ⟨r, by simpa only [State.assigned, h.pinmap] using hr, by simpa only [State.bitOf, h.pinmap] using hb'⟩
    rw [h.valBits b hn'] at hb
    obtain ⟨r, h1, h2⟩ := hm.valBits b hb
    exact hn' r h1 h2
  high := by
    refine ⟨by rw [h.dir]; exact hm.high.1, by rw [h.inv]; exact hm.high.2.1, ?_⟩
    have hv := hm.high.2.2
    apply BitVec.eq_of_getLsbD_eq
    intro i hi
    have := congrArg (fun x => x.getLsbD i) hv
    simp only [BitVec.getLsbD_extractLsb', hi, decide_true, Bool.true_and] at this ⊢
    rw [h.valBits, this]
    intro r hr hb
    have := pinBit_lt (hm.range r hr)
    simp only [State.bitOf] at hb; omega

/-- CLOSE leaves the pin table and the fixed masks (R27). -/
theorem closeBody_same (s : State) : (closeBody s).pinmap = s.pinmap ∧ (closeBody s).gmask = s.gmask ∧ (closeBody s).dir = s.dir ∧ (closeBody s).inv = s.inv := by
  unfold closeBody
  split
  · have h := setPin_sat .reset true s
    cases hr : setPin .reset true s with
    | ok a t => rw [hr] at h; exact ⟨h.1.pinmap, h.1.gmask, h.1.dir, h.1.inv⟩
    | raise e t => rw [hr] at h; exact ⟨h.2.1.pinmap, h.2.1.gmask, h.2.1.dir, h.2.1.inv⟩
    | wait c n t => rw [hr] at h; exact h.elim
    | refuse x => exact ⟨rfl, rfl, rfl, rfl⟩
  · exact ⟨rfl, rfl, rfl, rfl⟩


end Sys2Proof.Machine
end

