-- ==== Sys2Proof/Laws/PerInstr.lean ====
section
/-!
SUPPORT. The family `Encoded`, one lemma per constructor: a well-formed instruction's words carry the OP its row of the opcode table
gives (R67, R70), and a frame begins with its command byte (R63 to R65).
-/

namespace Sys2Proof.Laws.Encoded

open Sys2Proof Sys2Proof.Machine

/-- The least and the greatest OP of the constructor's row in spec/opcode_table.json; none for the formats that have no OP. -/
def opRange : Instr → Option (Nat × Nat)
  | .openOp => some (0x00, 0x00)
  | .closeOp => some (0x01, 0x01)
  | .initializeOp => some (0x02, 0x02)
  | .programEnable => some (0x03, 0x03)
  | .chipErase => some (0x04, 0x04)
  | .exchange _ => some (0x05, 0x05)
  | .setLed0 _ => some (0x06, 0x06)
  | .setLed1 _ => some (0x07, 0x07)
  | .setLed2 _ => some (0x08, 0x08)
  | .setLed3 _ => some (0x09, 0x09)
  | .assignSingle _ _ => some (0x10, 0x10)
  | .assignGroup _ _ => some (0x11, 0x11)
  | .validateLayout _ _ _ _ => some (0x12, 0x12)
  | .pinSetup => some (0x13, 0x13)
  | .computeDivisor _ => some (0x14, 0x14)
  | .setClock _ => some (0x15, 0x15)
  | .encodeGpioSet => some (0x16, 0x16)
  | .shift _ _ _ => some (0x17, 0x17)
  | .setPin _ _ => some (0x18, 0x18)
  | .reservedLow _ => some (0x0A, 0x0F)
  | .reservedHigh _ => some (0x19, 0x1F)
  | .clkFrame _ | .gpioFrame _ _ | .shiftFrame _ _ | .pinSpec _ _ | .groupMask _ _ | .hostRes _ _ => none

/-- The first byte a frame of this row can have under the parameters; none for what is no frame. -/
def firstByte (p : Params) : Instr → List Byte
  | .clkFrame _ => [0x86#8]
  | .gpioFrame _ _ => [0x80#8]
  | .shiftFrame _ _ => [p.modeTx, p.modeTrx]
  | .openOp | .closeOp | .initializeOp | .programEnable | .chipErase | .exchange _ | .setLed0 _ | .setLed1 _ | .setLed2 _ | .setLed3 _
  | .assignSingle _ _ | .assignGroup _ _ | .validateLayout _ _ _ _ | .pinSetup | .computeDivisor _ | .setClock _ | .encodeGpioSet
  | .shift _ _ _ | .setPin _ _ | .reservedLow _ | .reservedHigh _ | .pinSpec _ _ | .groupMask _ _ | .hostRes _ _ => []

/-- The words of a well-formed instruction are of its row. -/
def Statement (i : Instr) : Prop :=
  ∀ p : Params, i.wf p = true →
    (∀ w operand, encode i = .cmd w operand →
      ∃ lo hi, opRange i = some (lo, hi) ∧ lo ≤ (opField w).toNat ∧ (opField w).toNat ≤ hi) ∧
    (∀ bytes, encode i = .frame bytes → ∃ b rest, bytes = b :: rest ∧ b ∈ firstByte p i)

/-- A command word's row, from the OP it was made with. -/
theorem of_cmd {i : Instr} {op : BitVec 5} {arg : BitVec 32} {operand : List Byte} (lo hi : Nat)
    (he : encode i = .cmd (mkCmd op arg) operand) (hr : opRange i = some (lo, hi))
    (h : ∀ p, i.wf p = true → lo ≤ op.toNat ∧ op.toNat ≤ hi) : Statement i := by
  intro p hp
  refine ⟨fun w ops hw => ?_, fun b hb => ?_⟩
  · rw [he] at hw
    simp only [Wire.cmd.injEq] at hw
    obtain ⟨rfl, -⟩ := hw
    rw [opField_mkCmd]
    exact ⟨lo, hi, hr, h p hp⟩
  · rw [he] at hb; cases hb

theorem openOp : Statement .openOp := of_cmd 0x00 0x00 rfl rfl fun _ _ => by decide
theorem closeOp : Statement .closeOp := of_cmd 0x01 0x01 rfl rfl fun _ _ => by decide
theorem initializeOp : Statement .initializeOp := of_cmd 0x02 0x02 rfl rfl fun _ _ => by decide
theorem programEnable : Statement .programEnable := of_cmd 0x03 0x03 rfl rfl fun _ _ => by decide
theorem chipErase : Statement .chipErase := of_cmd 0x04 0x04 rfl rfl fun _ _ => by decide
theorem exchange (c : Quad) : Statement (.exchange c) := of_cmd 0x05 0x05 rfl rfl fun _ _ => by decide
theorem setLed0 (v : Bool) : Statement (.setLed0 v) := of_cmd 0x06 0x06 rfl rfl fun _ _ => by decide
theorem setLed1 (v : Bool) : Statement (.setLed1 v) := of_cmd 0x07 0x07 rfl rfl fun _ _ => by decide
theorem setLed2 (v : Bool) : Statement (.setLed2 v) := of_cmd 0x08 0x08 rfl rfl fun _ _ => by decide
theorem setLed3 (v : Bool) : Statement (.setLed3 v) := of_cmd 0x09 0x09 rfl rfl fun _ _ => by decide
theorem assignSingle (r : SRole) (raw : Byte) : Statement (.assignSingle r raw) := of_cmd 0x10 0x10 rfl rfl fun _ _ => by decide
theorem assignGroup (g : GRole) (mask : Mask) : Statement (.assignGroup g mask) := of_cmd 0x11 0x11 rfl rfl fun _ _ => by decide
theorem validateLayout (clk dout din reset : Byte) : Statement (.validateLayout clk dout din reset) :=
  of_cmd 0x12 0x12 rfl rfl fun _ _ => by decide
theorem pinSetup : Statement .pinSetup := of_cmd 0x13 0x13 rfl rfl fun _ _ => by decide
theorem computeDivisor (hz : BitVec 32) : Statement (.computeDivisor hz) := of_cmd 0x14 0x14 rfl rfl fun _ _ => by decide
theorem setClock (hz : BitVec 32) : Statement (.setClock hz) := of_cmd 0x15 0x15 rfl rfl fun _ _ => by decide
theorem encodeGpioSet : Statement .encodeGpioSet := of_cmd 0x16 0x16 rfl rfl fun _ _ => by decide
theorem shift (mode : Byte) (length : BitVec 24) (payload : List Byte) : Statement (.shift mode length payload) :=
  of_cmd 0x17 0x17 rfl rfl fun _ _ => by decide
theorem setPin (r : SRole) (v : Bool) : Statement (.setPin r v) := of_cmd 0x18 0x18 rfl rfl fun _ _ => by decide

theorem reservedLow (op : BitVec 5) : Statement (.reservedLow op) :=
  of_cmd 0x0A 0x0F rfl rfl fun _ h => by simpa [Instr.wf] using h

theorem reservedHigh (op : BitVec 5) : Statement (.reservedHigh op) :=
  of_cmd 0x19 0x1F rfl rfl fun _ h => ⟨by simpa [Instr.wf] using h, by have := op.isLt; omega⟩

theorem clkFrame (divisor : BitVec 16) : Statement (.clkFrame divisor) :=
  fun _ _ => ⟨fun _ _ h => (by cases h), fun _ h => (by cases h; exact ⟨_, _, rfl, by simp [firstByte, opcClkDiv]⟩)⟩

theorem gpioFrame (val dir : Mask) : Statement (.gpioFrame val dir) :=
  fun _ _ => ⟨fun _ _ h => (by cases h), fun _ h => (by cases h; exact ⟨_, _, rfl, by simp [firstByte, opcGpioLow]⟩)⟩

theorem shiftFrame (mode : Byte) (payload : List Byte) : Statement (.shiftFrame mode payload) := by
  intro p hp
  refine ⟨fun _ _ h => (by cases h), fun _ h => ?_⟩
  cases h
  refine ⟨mode, _, rfl, ?_⟩
  simp only [Instr.wf, Bool.and_eq_true, Bool.or_eq_true, beq_iff_eq] at hp
  simpa [firstByte] using hp.1.1

theorem pinSpec (r : SRole) (raw : Byte) : Statement (.pinSpec r raw) :=
  fun _ _ => ⟨fun _ _ h => (by cases h), fun _ h => (by cases h)⟩

theorem groupMask (g : GRole) (mask : Mask) : Statement (.groupMask g mask) :=
  fun _ _ => ⟨fun _ _ h => (by cases h), fun _ h => (by cases h)⟩

theorem hostRes (status : BitVec 4) (data : BitVec 32) : Statement (.hostRes status data) :=
  fun _ _ => ⟨fun _ _ h => (by cases h), fun _ h => (by cases h)⟩

end Sys2Proof.Laws.Encoded
end

