-- ==== Sys2Proof/Laws/Relabel.lean ====
section
/-!
SUPPORT. The bring-up operations do not read who runs them, nor the ST they start from (R163, R170, R178): run under another
operation's name and from another ST, they end in the same way.
-/

namespace Sys2Proof.Machine

/-- The block under another operation's name and in another ST. -/
def State.under (x : Option (BitVec 5)) (y : St) (s : State) : State := { s with running := x, st := y }

/-- The state writes `f` at every end. -/
def Res.onState {α : Type} (f : State → State) : Res α → Res α
  | .ok a s => .ok a (f s)
  | .raise e s => .raise e (f s)
  | .wait c n s => .wait c n (f s)
  | .refuse r => .refuse r

/-- SET_PIN ends at once, well or with WriteShort (R140). -/
theorem setPin_ends (r : SRole) (v : Bool) (s : State) :
    (∃ t, setPin r v s = .ok () t) ∨ ∃ t, setPin r v s = .raise .writeShort t := by
  unfold setPin sendFrame
  dsimp only
  split
  · exact .inl ⟨_, rfl⟩
  · split
    · exact .inl ⟨_, rfl⟩
    · exact .inr ⟨_, rfl⟩

section
variable (x : Option (BitVec 5)) (y : St)

theorem sendFrame_under (b : List Byte) (s : State) : sendFrame b (s.under x y) = (sendFrame b s).onState (State.under x y) := by
  have h : sentWhole b (s.under x y) = sentWhole b s := rfl
  unfold sendFrame
  rw [h]
  split <;> rfl

theorem setPin_under (r : SRole) (v : Bool) (s : State) : setPin r v (s.under x y) = (setPin r v s).onState (State.under x y) := by
  have h : (s.under x y).pinmap = s.pinmap := rfl
  unfold setPin
  dsimp only
  rw [h]
  split
  · rfl
  · exact sendFrame_under x y (encodeGpioSet (writePinBit (pinBit (pinfield (s.pinmap.get r))) v s))
      (writePinBit (pinBit (pinfield (s.pinmap.get r))) v s)

theorem receive_under (n : Nat) (s : State) : receive n (s.under x y) = (receive n s).onState (State.under x y) := by
  have h : (s.under x y).rxCnt = s.rxCnt := rfl
  have ha : readAnswer (n - s.rxCnt) (s.under x y) = readAnswer (n - s.rxCnt) s := rfl
  unfold receive
  rw [h]
  split
  · dsimp only
    rw [ha]
    have hb : (s.under x y).rxBuf = s.rxBuf := rfl
    cases readAnswer (n - s.rxCnt) s with
    | error => rfl
    | bytes l => dsimp only; rw [hb]; split <;> rfl
  · rfl

/-- The receive phase of an exchange. -/
theorem response_under (s : State) :
    asResponse (receive xchgLen { s.under x y with rxBuf := [] }) =
      (asResponse (receive xchgLen { s with rxBuf := [] })).onState (State.under x y) := by
  rw [show ({ s.under x y with rxBuf := [] } : State) = State.under x y { s with rxBuf := [] } from rfl, receive_under]
  cases receive xchgLen { s with rxBuf := [] } <;> rfl

theorem exchange_under (c : Quad) (s : State) : exchange c (s.under x y) = (exchange c s).onState (State.under x y) := by
  have hp : ∀ t : State, (t.under x y).par = t.par := fun _ => rfl
  unfold exchange shift
  simp only [hp, sendFrame_under]
  split
  · rfl
  · have rest : ∀ t : State,
        asResponse (if modeReceives t.par s.par.modeTrx then receive xchgLen { t.under x y with rxBuf := [] }
          else .ok [] (t.under x y)) =
        (asResponse (if modeReceives t.par s.par.modeTrx then receive xchgLen { t with rxBuf := [] }
          else .ok [] t)).onState (State.under x y) := by
      intro t
      split
      · exact response_under x y t
      · rfl
    split
    · cases sendFrame (shiftBytes s.par.modeTrx c.toList) s with
      | ok a t => simpa only [Res.onState, Res.bind_ok, hp] using rest t
      | raise e t => rfl
      | wait c n t => rfl
      | refuse r => rfl
    · simpa only [Res.bind_ok, hp] using rest s

/-- Both end alike: the one under the name `x`, and where it waits in the ST `y`. -/
def SameEnd {α : Type} : Res α → Res α → Prop
  | .ok a s, .ok b t => a = b ∧ s = { t with running := x }
  | .raise e s, .raise f t => e = f ∧ s = { t with running := x }
  | .wait c n s, .wait d m t => c = d ∧ n = m ∧ s = t.under x y
  | .refuse r, .refuse q => r = q
  | _, _ => False

variable {x y}

theorem pulseReset_under {next : State → Res Unit} (hn : ∀ t, SameEnd x y (next (t.under x y)) (next t)) (s : State) :
    SameEnd x y (pulseReset next (s.under x y)) (pulseReset next s) := by
  unfold pulseReset
  rw [setPin_under]
  obtain ⟨t, ht⟩ | ⟨t, ht⟩ := setPin_ends .reset true s
  · rw [ht]
    simp only [Res.onState, Res.bind_ok]
    rw [show State.waitFor (t.under x y) tPulse = (t.waitFor tPulse).under x y from rfl, setPin_under]
    obtain ⟨u, hu⟩ | ⟨u, hu⟩ := setPin_ends .reset false (t.waitFor tPulse)
    · rw [hu]; exact hn u
    · rw [hu]; exact ⟨rfl, rfl⟩
  · rw [ht]; exact ⟨rfl, rfl⟩

theorem judgeAttempt_under {next : State → Res Unit} (hn : ∀ t, SameEnd x y (next (t.under x y)) (next t)) (r : Res Quad) :
    SameEnd x y (judgeAttempt next (r.onState (State.under x y))) (judgeAttempt next r) := by
  cases r with
  | ok q t =>
    have hpd : (t.under x y).pd = t.pd := rfl
    simp only [Res.onState, judgeAttempt, hpd]
    split
    · exact ⟨rfl, rfl⟩
    · exact pulseReset_under hn t
  | raise e t => exact pulseReset_under hn t
  | wait c n t => exact ⟨rfl, rfl, rfl⟩
  | refuse r => exact rfl

theorem handshake_under (left : Nat) : ∀ s, SameEnd x y (handshake left (s.under x y)) (handshake left s) := by
  induction left with
  | zero => exact fun s => ⟨rfl, rfl⟩
  | succ left ih =>
    intro s
    simp only [handshake]
    have := exchange_under x y s.pd.peCmd { s with attempt := s.attempt + 1#3 }
    rw [show ({ s.under x y with attempt := (s.under x y).attempt + 1#3 } : State) =
      State.under x y { s with attempt := s.attempt + 1#3 } from rfl, show (s.under x y).pd.peCmd = s.pd.peCmd from rfl, this]
    exact judgeAttempt_under ih _

/-- PROGRAM_ENABLE (R170 to R172). -/
theorem programEnable_under (s : State) : SameEnd x y (programEnable (s.under x y)) (programEnable s) := by
  have hpd : (s.under x y).pd = s.pd := rfl
  unfold programEnable
  rw [hpd]
  split
  · exact rfl
  · split
    · exact ⟨rfl, rfl⟩
    · exact handshake_under peAttempts { s with attempt := 0#3 }

/-- INITIALIZE (R163): whatever ST it starts from, it waits in `ResetReleased`. -/
theorem initializeBody_under (s : State) : SameEnd x .resetReleased (initializeBody (s.under x y)) (initializeBody s) := by
  unfold initializeBody resetSequence
  rw [setPin_under]
  obtain ⟨t, ht⟩ | ⟨t, ht⟩ := setPin_ends .reset false s
  on_goal 2 => rw [ht]; exact ⟨rfl, rfl⟩
  rw [ht]
  simp only [Res.onState, Res.bind_ok]
  rw [setPin_under]
  obtain ⟨u, hu⟩ | ⟨u, hu⟩ := setPin_ends .clk false t
  on_goal 2 => rw [hu]; exact ⟨rfl, rfl⟩
  rw [hu]
  simp only [Res.onState, Res.bind_ok]
  rw [show State.waitFor (u.under x y) tInit = (u.waitFor tInit).under x y from rfl, setPin_under]
  obtain ⟨v, hv⟩ | ⟨v, hv⟩ := setPin_ends .reset true (u.waitFor tInit)
  on_goal 2 => rw [hv]; exact ⟨rfl, rfl⟩
  rw [hv]
  simp only [Res.onState, Res.bind_ok]
  rw [show State.waitFor { v.under x y with st := .resetAsserted } tInit =
    (State.waitFor { v with st := .resetAsserted } tInit).under x .resetAsserted from rfl, setPin_under]
  obtain ⟨w, hw⟩ | ⟨w, hw⟩ := setPin_ends .reset false (State.waitFor { v with st := .resetAsserted } tInit)
  on_goal 2 => rw [hw]; exact ⟨rfl, rfl⟩
  rw [hw]
  exact programEnable_under (x := x) (y := .resetReleased) (State.waitFor { w with st := .resetReleased } tInit)

end

/-! ### No part of a bring-up operation writes who waits -/

theorem setPin_rx (r : SRole) (v : Bool) (s : State) : (setPin r v s).All fun t => t.rx = s.rx :=
  (setPin_sat r v s).mono (fun _ _ h => h.1.rx) (fun _ _ h => h.2.1.rx) (fun _ _ _ h => h.elim)

theorem exchange_rx (c : Quad) (s : State) : (exchange c s).All fun t => t.rx = s.rx := by
  have hrec : ∀ t : State, t.rx = s.rx → (receive xchgLen { t with rxBuf := [] }).All fun u => u.rx = s.rx := fun t ht =>
    (receive_sat xchgLen { t with rxBuf := [] }).mono (fun _ _ h => h.1.rx.trans ht) (fun _ _ h => h.1.rx.trans ht)
      (fun _ _ _ h => h.1.rx.trans ht)
  unfold exchange asResponse shift
  split
  · trivial
  refine Res.all_bind (Res.all_bind ?_ ?_) (fun _ _ h => h)
  · split
    · unfold sendFrame; split <;> rfl
    · rfl
  · intro _ t ht
    split
    · exact hrec t ht
    · exact ht

theorem pulseReset_rx {next : State → Res Unit} {x : Option RxWait} (hn : ∀ t, t.rx = x → (next t).All fun u => u.rx = x) (s : State)
    (hs : s.rx = x) : (pulseReset next s).All fun t => t.rx = x := by
  subst hs
  unfold pulseReset
  refine Res.all_bind (Q := fun t => t.rx = s.rx) (Res.sat_onRaise (E' := fun _ t => t.rx = s.rx) ?_ (fun _ _ h => h)) (fun _ t ht => hn t ht)
  exact Res.all_bind (Q := fun t => t.rx = s.rx) (setPin_rx _ _ s) fun _ t ht =>
    (setPin_rx .reset false (t.waitFor tPulse)).mono (fun _ _ h => h.trans ht) (fun _ _ h => h.trans ht) (fun _ _ _ h => h.trans ht)

theorem judgeAttempt_rx {next : State → Res Unit} {x : Option RxWait} (hn : ∀ t, t.rx = x → (next t).All fun u => u.rx = x)
    {r : Res Quad} (hr : r.All fun t => t.rx = x) : (judgeAttempt next r).All fun t => t.rx = x := by
  cases r with
  | ok q t =>
    simp only [judgeAttempt]
    split
    · exact hr
    · exact pulseReset_rx hn t hr
  | raise e t => exact pulseReset_rx hn t hr
  | wait c n t => exact hr
  | refuse z => trivial

theorem handshake_rx (left : Nat) : ∀ s, (handshake left s).All fun t => t.rx = s.rx := by
  induction left with
  | zero => exact fun _ => rfl
  | succ left ih =>
    intro s
    exact judgeAttempt_rx (fun t ht => ht ▸ ih t) (exchange_rx s.pd.peCmd { s with attempt := s.attempt + 1#3 })

theorem programEnable_rx (s : State) : (programEnable s).All fun t => t.rx = s.rx := by
  unfold programEnable
  split
  · trivial
  · split
    · exact rfl
    · exact handshake_rx _ { s with attempt := 0#3 }

theorem initializeBody_rx (s : State) : (initializeBody s).All fun t => t.rx = s.rx := by
  have pin : ∀ r v t, t.rx = s.rx → (setPin r v t).All fun u => u.rx = s.rx := fun r v t h => h ▸ setPin_rx r v t
  unfold initializeBody resetSequence
  refine Res.all_bind (Res.sat_onRaise (E' := fun _ t => t.rx = s.rx) ?_ (fun _ _ h => h)) (fun _ t ht => ht ▸ programEnable_rx t)
  exact Res.all_bind (Q := fun t => t.rx = s.rx) (pin _ _ s rfl) fun _ t ht => Res.all_bind (pin _ _ t ht) fun _ u hu =>
    Res.all_bind (pin .reset true (u.waitFor tInit) hu) fun _ v hv =>
    Res.all_bind (pin .reset false (State.waitFor { v with st := .resetAsserted } tInit) hv) fun _ w hw => hw

/-- Two ends alike are settled alike (R190). -/
theorem SameEnd.settle {x : Option (BitVec 5)} {y : St} {r q : Res Unit} (h : SameEnd x y r q) (hx : q.All fun t => t.rx = none) :
    Machine.settle .host (r.withData fun _ => 0#32) =
      match Machine.settle .host (q.withData fun _ => 0#32) with
      | .next t => .next { t with running := x, st := if t.rx = none then t.st else y }
      | .fault z => .fault z
      | .refused z => .refused z := by
  cases r with
  | ok a s =>
    cases q with
    | ok b t => obtain ⟨rfl, rfl⟩ := h; have : t.rx = none := hx; simp [this]
    | raise _ _ => exact h.elim
    | wait _ _ _ => exact h.elim
    | refuse _ => exact h.elim
  | raise e s =>
    cases q with
    | ok _ _ => exact h.elim
    | raise f t => obtain ⟨rfl, rfl⟩ := h; have : t.rx = none := hx; simp [this]
    | wait _ _ _ => exact h.elim
    | refuse _ => exact h.elim
  | wait c n s =>
    cases q with
    | ok _ _ => exact h.elim
    | raise _ _ => exact h.elim
    | wait d m t => obtain ⟨rfl, rfl, rfl⟩ := h; simp [State.under]
    | refuse _ => exact h.elim
  | refuse z =>
    cases q with
    | ok _ _ => exact h.elim
    | raise _ _ => exact h.elim
    | wait _ _ _ => exact h.elim
    | refuse _ => cases h; simp [Machine.settle, Res.withData]

end Sys2Proof.Machine
end

