-- ==== Sys2Proof/Laws/SetupOrder.lean ====
section
/-!
SUPPORT. PIN_SETUP step by step: what VALIDATE_LAYOUT returns exactly (R97), and where the ten assignments end (R99).
-/

namespace Sys2Proof.Machine

theorem autocorrect_ne_strict {l : LayoutPolicy} : l = .autocorrect → l ≠ .strict := by rintro rfl; simp

/-- A spec whose pin is written again is the same spec. -/
theorem keep_pin (b : Byte) (p : BitVec 7) (h : pinfield b = p) : b.extractLsb' 7 1 ++ p = b := by
  subst h
  unfold pinfield
  apply BitVec.eq_of_getLsbD_eq
  intro i hi
  simp only [BitVec.getLsbD_append, BitVec.getLsbD_extractLsb']
  by_cases h : i < 7
  · simp [h]
  · have : i = 7 := by omega
    subst this; simp

/-- One fixed role under `AUTOCORRECT` (R97). -/
theorem fixRole_autocorrect {r want} {s : State} (h : s.par.layout = .autocorrect) : fixRole r want s =
    .ok () { s with
      samp := s.samp.set r (withPin (s.samp.get r) want)
      hist := s.hist ++ (if pinfield (s.samp.get r) = want then [] else [.diag .layoutCorrected (.role (roleIndex r))]) } := by
  unfold fixRole
  by_cases hp : pinfield (s.samp.get r) = want
  · rw [if_pos hp, if_pos hp]
    have : withPin (s.samp.get r) want = s.samp.get r := keep_pin _ _ hp
    rw [this]
    have : s.samp.set r (s.samp.get r) = s.samp := by cases r <;> rfl
    rw [this]; simp
  · rw [if_neg hp, if_neg hp, if_neg (autocorrect_ne_strict h)]
    simp [State.diag, State.emit]

/-- The reset role under `AUTOCORRECT` (R97). -/
theorem fixReset_autocorrect {s : State} (h : s.par.layout = .autocorrect) : fixReset s =
    .ok () { s with
      samp := { s.samp with
        reset := if 4 ≤ (pinfield s.samp.reset).toNat ∧ (pinfield s.samp.reset).toNat ≤ 11 then s.samp.reset
          else withPin s.samp.reset 4#7 }
      hist := s.hist ++ (if 4 ≤ (pinfield s.samp.reset).toNat ∧ (pinfield s.samp.reset).toNat ≤ 11 then []
        else [.diag .resetDefaulted (.role 3#32)]) } := by
  unfold fixReset
  by_cases hl : resetPinLegal (pinfield s.samp.reset) = true
  · rw [if_pos hl, if_pos ((resetPinLegal_iff _).mp hl), if_pos ((resetPinLegal_iff _).mp hl)]; simp
  · have hl' : ¬ (4 ≤ (pinfield s.samp.reset).toNat ∧ (pinfield s.samp.reset).toNat ≤ 11) := fun h => hl ((resetPinLegal_iff _).mpr h)
    rw [if_neg hl, if_neg (autocorrect_ne_strict h), if_neg hl', if_neg hl']
    simp [State.diag, State.emit, roleIndex, pinResetDefault]

/-- VALIDATE_LAYOUT under `AUTOCORRECT` (R97). -/
theorem validateLayout_autocorrect {s : State} (h : s.par.layout = .autocorrect) : validateLayout s = .ok () { s with
    samp := correctedLayout s.samp
    hist := s.hist ++ layoutDiags s.samp.clk s.samp.dout s.samp.din s.samp.reset } := by
  unfold validateLayout
  rw [fixRole_autocorrect h]; simp only [Res.bind_ok]
  rw [fixRole_autocorrect (by exact h)]; simp only [Res.bind_ok]
  rw [fixRole_autocorrect (by exact h)]; simp only [Res.bind_ok]
  rw [fixReset_autocorrect (by exact h)]
  simp [correctedLayout, layoutDiags, PinTable.set, PinTable.get, withPin, pinClk, pinDout, pinDin, roleIndex]
  exact ⟨rfl, rfl⟩

/-- A layout without a diagnostic is the layout of R96. -/
theorem layoutDiags_eq_nil {a b c d : Byte} : layoutDiags a b c d = [] ↔
    pinfield a = 1#7 ∧ pinfield b = 2#7 ∧ pinfield c = 3#7 ∧ resetPinLegal (pinfield d) = true := by
  rw [resetPinLegal_iff]
  unfold layoutDiags; simp only [List.append_eq_nil_iff]
  simp [and_assoc]

/-- A right layout needs no correction. -/
theorem correctedLayout_right {c : PinTable} (h : layoutDiags c.clk c.dout c.din c.reset = []) : correctedLayout c = c := by
  obtain ⟨h1, h2, h3, h4⟩ := layoutDiags_eq_nil.mp h
  rw [resetPinLegal_iff] at h4
  unfold correctedLayout
  rw [keep_pin _ _ h1, keep_pin _ _ h2, keep_pin _ _ h3, if_pos h4]

/-- VALIDATE_LAYOUT of a right layout, under either policy (R97). -/
theorem validateLayout_right {s : State} (h : layoutDiags s.samp.clk s.samp.dout s.samp.din s.samp.reset = []) : validateLayout s = .ok () s := by
  obtain ⟨h1, h2, h3, h4⟩ := layoutDiags_eq_nil.mp h
  unfold validateLayout
  rw [fixRole_right (by exact h1)]; simp only [Res.bind_ok]
  rw [fixRole_right (by exact h2)]; simp only [Res.bind_ok]
  rw [fixRole_right (by exact h3)]; simp only [Res.bind_ok]
  simp [fixReset, h4]

/-- VALIDATE_LAYOUT of a wrong layout under `STRICT` (R97). -/
theorem validateLayout_strict {s : State} (hs : s.par.layout = .strict) (h : layoutDiags s.samp.clk s.samp.dout s.samp.din s.samp.reset ≠ []) :
    ∃ r, validateLayout s = .raise (.pinLayoutInvalid r) s := by
  rw [Ne, layoutDiags_eq_nil] at h
  unfold validateLayout
  by_cases h1 : pinfield (s.samp.get .clk) = pinClk
  · rw [fixRole_right h1]; simp only [Res.bind_ok]
    by_cases h2 : pinfield (s.samp.get .dout) = pinDout
    · rw [fixRole_right h2]; simp only [Res.bind_ok]
      by_cases h3 : pinfield (s.samp.get .din) = pinDin
      · rw [fixRole_right h3]; simp only [Res.bind_ok]
        have h4 : ¬ resetPinLegal (pinfield s.samp.reset) = true := fun h4 => h ⟨h1, h2, h3, h4⟩
        exact ⟨_, by unfold fixReset; rw [if_neg h4, if_pos hs]⟩
      · exact ⟨_, by unfold fixRole; rw [if_neg h3, if_pos hs]; rfl⟩
    · exact ⟨_, by unfold fixRole; rw [if_neg h2, if_pos hs]; rfl⟩
  · exact ⟨_, by unfold fixRole; rw [if_neg h1, if_pos hs]; rfl⟩

theorem bit_eq_ofNat (n : Nat) : bit n = BitVec.ofNat 16 (2 ^ n) := by
  apply BitVec.eq_of_toNat_eq; simp [bit, Nat.one_shiftLeft]

theorem dinMask_eq_pinMask (raw : Byte) : dinMask raw = pinMask raw := by
  unfold dinMask pinMask; rw [bit_eq_ofNat]; rfl

theorem pinMask_zero : pinMask 0#8 = 0#16 := by decide

/-- The pins of the roles that pass a test, role by role. -/
theorem pinMasks_filter (p : PinTable) (f : SRole → Bool) (l : List SRole) :
    pinMasks p (l.filter f) = l.foldr (fun r m => (if f r then pinMask (p.get r) else 0#16) ||| m) 0#16 := by
  induction l with
  | nil => rfl
  | cons r l ih =>
    by_cases h : f r = true
    · rw [List.filter_cons_of_pos h]; simp only [pinMasks, List.foldr] at ih ⊢; rw [ih, if_pos h]
    · rw [List.filter_cons_of_neg h, ih]; simp only [List.foldr]; rw [if_neg h]; simp

/-- A mask holds a bit exactly when the bit's mask meets it. -/
theorem bit_and_ne_zero (b : Nat) (hb : b < 16) (m : Mask) : bit b &&& m ≠ 0#16 ↔ m.getLsbD b = true := by
  rw [Ne, and_eq_zero_iff]
  constructor
  · intro h; by_contra hc; apply h; intro i ⟨h1, h2⟩
    rw [bit_getLsbD] at h1; simp at h1; rw [h1.2] at h2; exact hc h2
  · intro h hc; exact hc b ⟨by rw [bit_getLsbD]; simp [hb], h⟩

/-- ASSIGN_SINGLE, by the error of its spec: `t'` is the state after it when there is none (R91, R92). -/
theorem assignSingle_exact {r : SRole} {raw : Byte} {t t' : State} {taken : Mask} (hcl : t.claimed = taken) (h0 : raw = 0#8 → t' = t)
    (h1 : raw ≠ 0#8 → t' = { t with
      pinmap := t.pinmap.set r raw
      dir := if r = .din then t.dir else t.dir ||| pinMask raw
      inv := t.inv ||| (if invflag raw then pinMask raw else 0#16) }) :
    (singleError taken raw = none ∧ assignSingle r raw t = .ok () t') ∨
    ∃ e, singleError taken raw = some ⟨e.code, e.data⟩ ∧ assignSingle r raw t = .raise e t := by
  unfold singleError assignSingle
  by_cases hz : raw = 0#8
  · rw [if_pos hz, if_pos hz, h0 hz]; exact .inl ⟨rfl, rfl⟩
  rw [if_neg hz, if_neg hz]
  by_cases hr : (pinfield raw).toNat < 1 ∨ 11 < (pinfield raw).toNat
  · have hr' : pinInRange (pinfield raw) = false := by rw [← Bool.not_eq_true, pinInRange_iff]; omega
    rw [if_pos hr, hr']; exact .inr ⟨_, rfl, rfl⟩
  rw [if_neg hr]
  have hr' : pinInRange (pinfield raw) = true := by rw [pinInRange_iff]; omega
  have hp : pinfield raw ≠ 0#7 := by intro h; rw [h] at hr; simp at hr
  have hm : pinMask raw = bit (pinBit (pinfield raw)) := by unfold pinMask; rw [if_neg hp, bit_eq_ofNat]; rfl
  rw [hr', hm, hcl]
  have hb := bit_and_ne_zero (pinBit (pinfield raw)) (by unfold pinBit; omega) taken
  by_cases hc : taken.getLsbD (pinBit (pinfield raw)) = true
  · rw [if_pos (hb.mpr hc)]; simp only [hc]; exact .inr ⟨_, rfl, rfl⟩
  · rw [if_neg (fun h => hc (hb.mp h))]; simp only [hc, Bool.not_true, Bool.false_eq_true, if_false]
    refine .inl ⟨by simp, ?_⟩
    rw [h1 hz, hm]; cases hi : invflag raw <;> simp [setBit]

/-- ASSIGN_GROUP, by the error of its mask (R94, R95). -/
theorem assignGroup_exact {gr : GRole} {m : Mask} {t t' : State} {taken : Mask} (hcl : t.claimed = taken)
    (h1 : t' = { t with gmask := t.gmask.set gr m, dir := t.dir ||| m }) :
    (groupError taken m = none ∧ assignGroup gr m t = .ok () t') ∨
    ∃ e, groupError taken m = some ⟨e.code, e.data⟩ ∧ assignGroup gr m t = .raise e t := by
  unfold groupError assignGroup
  rw [hcl]
  by_cases hr : groupInRange m = true
  · have hr' := (groupInRange_iff _).mp hr
    rw [hr, if_neg (by simpa using hr')]
    simp only [Bool.not_true, Bool.false_eq_true, if_false]
    by_cases hz : m &&& taken ≠ 0#16
    · rw [if_pos hz, if_pos hz]; exact .inr ⟨_, rfl, rfl⟩
    · rw [if_neg hz, if_neg hz]; exact .inl ⟨by simp, by rw [h1]⟩
  · have hr' : m.extractLsb' 12 4 ≠ 0#4 := fun h => hr ((groupInRange_iff _).mpr h)
    rw [if_pos hr']; simp only [Bool.not_eq_true] at hr; rw [hr]; exact .inr ⟨_, rfl, rfl⟩

/-- After the first `k` single roles the claimed pins are theirs (R90). -/
theorem assignedTo_claimed (s : State) (c g) : ∀ k, k ≤ 8 → (s.assignedTo c g k).claimed = pinMasks c (roleOrder.take k) := by
  intro k hk
  interval_cases k <;>
  · simp [State.claimed, claimed, State.assignedTo, dirOf, tableAfter, groupsAfter, pinMasks, PinTable.get, roleOrder, dinMask_eq_pinMask, pinMask_zero]
    try ac_rfl

/-- After PWR its pins are claimed too (R90). -/
theorem assignedTo_claimed_pwr (s : State) (c g) : (s.assignedTo c g 9).claimed = pinMasks c roleOrder ||| g.pwr := by
  simp [State.claimed, claimed, State.assignedTo, dirOf, tableAfter, groupsAfter, pinMasks, PinTable.get, roleOrder, dinMask_eq_pinMask]
  ac_rfl

/-- One assignment from the `k`-th of the states `S`: no error and on to the next state, or its error there. -/
def AssignStep (o : Option HostRes) (S : Nat → State) (k : Nat) (r : Res Unit) : Prop :=
  (o = none ∧ r = .ok () (S (k + 1))) ∨ ∃ e, o = some ⟨e.code, e.data⟩ ∧ r = .raise e (S k)

/-- Assignments with the errors `errs` from the `k`-th of the states `S`: they end at the first error, or all are done. -/
def AssignEnd (errs : List (Option HostRes)) (S : Nat → State) (k : Nat) (r : Res Unit) : Prop :=
  (errs.findSome? id = none ∧ r = .ok () (S (k + (errs.takeWhile Option.isNone).length))) ∨
  ∃ e, errs.findSome? id = some ⟨e.code, e.data⟩ ∧ r = .raise e (S (k + (errs.takeWhile Option.isNone).length))

theorem AssignEnd.nil {S : Nat → State} {k : Nat} : AssignEnd [] S k (.ok () (S k)) := .inl ⟨rfl, rfl⟩

theorem AssignEnd.cons {o : Option HostRes} {errs : List (Option HostRes)} {S : Nat → State} {k : Nat} {r : Res Unit}
    {f : Unit → State → Res Unit} (h : AssignStep o S k r) (hf : AssignEnd errs S (k + 1) (f () (S (k + 1)))) :
    AssignEnd (o :: errs) S k (r.bind f) := by
  obtain ⟨rfl, rfl⟩ | ⟨e, rfl, rfl⟩ := h
  · simpa [AssignEnd, Nat.add_assoc, Nat.add_comm 1] using hf
  · exact .inr ⟨e, rfl, rfl⟩

/-- The place of a single role in PIN_SETUP's order (R99). -/
def setupIndex : SRole → Nat
  | .clk => 0 | .dout => 1 | .din => 2 | .reset => 3 | .led0 => 4 | .led1 => 5 | .led2 => 6 | .led3 => 7

/-- One single role of PIN_SETUP (R99). -/
theorem assignSingle_step (s : State) (c : PinTable) (g : GroupTable) (r : SRole) {k : Nat} (hk : k = setupIndex r) :
    AssignStep (singleError (pinMasks c (roleOrder.take k)) (c.get r)) (s.assignedTo c g) k
      (assignSingle r (c.get r) (s.assignedTo c g k)) := by
  have hk8 : k ≤ 8 := by subst hk; cases r <;> decide
  refine assignSingle_exact (assignedTo_claimed s c g k hk8) ?_ ?_
  · intro h
    subst hk
    cases r <;> simp only [PinTable.get] at h <;> simp [State.assignedTo, setupIndex, tableAfter, groupsAfter, h]
  · intro h
    subst hk
    unfold State.assignedTo invOf
    simp only [pinMasks_filter]
    cases r <;> simp [setupIndex, tableAfter, groupsAfter, PinTable.set, dirOf, pinMasks, PinTable.get, pinMask_zero]
    all_goals (try (refine ⟨?_, ?_⟩))
    all_goals (try ac_rfl)

/-- PWR in PIN_SETUP (R99). -/
theorem assignPwr_step (s : State) (c : PinTable) (g : GroupTable) :
    AssignStep (groupError (pinMasks c roleOrder) g.pwr) (s.assignedTo c g) 8 (assignGroup .pwr g.pwr (s.assignedTo c g 8)) := by
  refine assignGroup_exact (assignedTo_claimed s c g 8 (by omega)) ?_
  simp [State.assignedTo, tableAfter, groupsAfter, GroupTable.set, dirOf]

/-- BUF in PIN_SETUP (R99). -/
theorem assignBuf_step (s : State) (c : PinTable) (g : GroupTable) :
    AssignStep (groupError (pinMasks c roleOrder ||| g.pwr) g.buf) (s.assignedTo c g) 9
      (assignGroup .buf g.buf (s.assignedTo c g 9)) := by
  refine assignGroup_exact (assignedTo_claimed_pwr s c g) ?_
  simp [State.assignedTo, tableAfter, groupsAfter, GroupTable.set, dirOf]

/-- The ten assignments of PIN_SETUP, in its order (R99). -/
theorem assignments_end (s : State) {c : PinTable} {g : GroupTable} (hs : s.samp = c) (hg : s.cfg.group = g) :
    AssignEnd (setupErrors c g) (s.assignedTo c g) 0
      ((assignRoles roleOrder (s.assignedTo c g 0)).bind fun _ s =>
        (assignGroup .pwr (s.cfg.group.get .pwr) s).bind fun _ s => assignGroup .buf (s.cfg.group.get .buf) s) := by
  subst hs hg
  have sampAt : ∀ k, (s.assignedTo s.samp s.cfg.group k).samp = s.samp := fun _ => rfl
  have cfgAt : ∀ k, (s.assignedTo s.samp s.cfg.group k).cfg = s.cfg := fun _ => rfl
  have e0 := assignSingle_step s s.samp s.cfg.group .clk (k := 0) rfl
  have e1 := assignSingle_step s s.samp s.cfg.group .dout (k := 1) rfl
  have e2 := assignSingle_step s s.samp s.cfg.group .din (k := 2) rfl
  have e3 := assignSingle_step s s.samp s.cfg.group .reset (k := 3) rfl
  have e4 := assignSingle_step s s.samp s.cfg.group .led0 (k := 4) rfl
  have e5 := assignSingle_step s s.samp s.cfg.group .led1 (k := 5) rfl
  have e6 := assignSingle_step s s.samp s.cfg.group .led2 (k := 6) rfl
  have e7 := assignSingle_step s s.samp s.cfg.group .led3 (k := 7) rfl
  have e8 := assignPwr_step s s.samp s.cfg.group
  simp only [roleOrder, List.take, PinTable.get] at e0 e1 e2 e3 e4 e5 e6 e7 e8
  simp only [roleOrder, assignRoles, Res.bind_assoc, sampAt, PinTable.get, setupErrors]
  refine .cons e0 ?_
  simp only [sampAt, Nat.reduceAdd]
  refine .cons e1 ?_
  simp only [sampAt, Nat.reduceAdd]
  refine .cons e2 ?_
  simp only [sampAt, Nat.reduceAdd]
  refine .cons e3 ?_
  simp only [sampAt, Nat.reduceAdd]
  refine .cons e4 ?_
  simp only [sampAt, Nat.reduceAdd]
  refine .cons e5 ?_
  simp only [sampAt, Nat.reduceAdd]
  refine .cons e6 ?_
  simp only [sampAt, Nat.reduceAdd]
  refine .cons e7 ?_
  simp only [Res.bind_ok, cfgAt, GroupTable.get, Nat.reduceAdd]
  refine .cons e8 ?_
  simp only [cfgAt, Nat.reduceAdd]
  have h := AssignEnd.cons (f := fun _ s => .ok () s) (assignBuf_step s s.samp s.cfg.group) .nil
  rwa [Res.bind_unit] at h

/-- The same, as the ending of the called operation. -/
theorem assignments_settle (u : State) {c : PinTable} {g : GroupTable} (hs : u.samp = c) (hg : u.cfg.group = g)
    (h : u = u.assignedTo c g 0) :
    settle .inner (((assignRoles roleOrder u).bind fun _ s => (assignGroup .pwr (s.cfg.group.get .pwr) s).bind fun _ s =>
      assignGroup .buf (s.cfg.group.get .buf) s).withData fun _ => 0#32) =
    .next { u.assignedTo c g (setupDone c g) with ret := setupResult c g } := by
  have := assignments_end u hs hg
  rw [← h] at this
  unfold setupResult setupDone
  obtain ⟨h1, h3⟩ | ⟨e, h1, h3⟩ := this <;> rw [h3, h1, Nat.zero_add] <;> rfl

/-- PIN_SETUP succeeds only when all ten assignments are done. -/
theorem setupDone_of_success (c : PinTable) (g) (h : (setupResult c g).status = 0#4) : setupDone c g = 10 := by
  have hn : ∀ o ∈ setupErrors c g, o = none ∨ ∃ r : HostRes, o = some r ∧ r.status ≠ 0#4 := by
    have hsn : ∀ b r, singleError b r = none ∨ ∃ x : HostRes, singleError b r = some x ∧ x.status ≠ 0#4 := by
      intro b r; unfold singleError; repeat' split
      all_goals simp
    have hgn : ∀ b r, groupError b r = none ∨ ∃ x : HostRes, groupError b r = some x ∧ x.status ≠ 0#4 := by
      intro b r; unfold groupError; repeat' split
      all_goals simp
    intro o ho
    simp only [setupErrors, List.mem_cons, List.mem_nil_iff, or_false] at ho
    rcases ho with rfl | rfl | rfl | rfl | rfl | rfl | rfl | rfl | rfl | rfl
    all_goals first | exact hsn _ _ | exact hgn _ _
  have : ∀ l : List (Option HostRes), (∀ o ∈ l, o = none ∨ ∃ r : HostRes, o = some r ∧ r.status ≠ 0#4) →
      ((l.findSome? id).getD ⟨0#4, 0#32⟩).status = 0#4 →
      (l.takeWhile Option.isNone).length = l.length := by
    intro l
    induction l with
    | nil => simp
    | cons o l ih =>
      intro h1 h2
      rcases h1 o (by simp) with rfl | ⟨r, rfl, hr⟩
      · simp only [List.findSome?, id] at h2
        simp [ih (fun o ho => h1 o (by simp [ho])) h2]
      · simp [List.findSome?] at h2; exact absurd h2 hr
  have := this _ hn h
  unfold setupDone; rw [this]; rfl

end Sys2Proof.Machine
end

