-- ==== Sys2Proof/Tests/Slice0.lean ====
section
/-!
SUPPORT. Tests of the model against values written out from the spec (30_encoding, 95_test_vectors), each about one step on a small
state, and for every statement with hypotheses a state and operands that meet them.
-/

namespace Sys2Proof.Tests

open Sys2Proof Sys2Proof.Machine

/-! ### Helpers -/

/-- What a step that goes on shows through `f`. -/
def look {α : Type} (f : State → α) : Out → Option α
  | .next t => some (f t)
  | .fault _ => none
  | .refused _ => none

theorem look_some {α : Type} {f : State → α} {o : Out} {a : α} (h : look f o = some a) : ∃ t, o = .next t ∧ f t = a := by
  cases o with
  | next t => exact ⟨t, rfl, by simpa [look] using h⟩
  | fault x => simp [look] at h
  | refused x => simp [look] at h

/-- The part descriptor of the spec's programs (95_test_vectors, Part 3). -/
def part : PdRegs :=
  { peDef := true, peCmd := ⟨0xAC#8, 0x53#8, 0x00#8, 0x00#8⟩, ceDef := true, ceCmd := ⟨0xAC#8, 0x80#8, 0x00#8, 0x00#8⟩,
    pollIndex := 3#3, pollValue := 0x53#8, eraseDelay := 9000#32 }

/-- The response that matches it, and one that does not. -/
def good : Quad := ⟨0xFF#8, 0xFF#8, 0x53#8, 0x00#8⟩
def bad : Quad := ⟨0x00#8, 0x00#8, 0x00#8, 0x00#8⟩

/-- An idle, closed block with the part set. -/
def idle : State := { State.reset with pd := part }

/-- A transport that accepts `n` writes, however long. -/
def accepting (n : Nat) (reads : List ReadAns) : Env := ⟨[true], [true], List.replicate n (.accepted 70000), reads⟩

/-- The session of the power-on configuration with LED0 on pin 5, inverted: `DIR` 0x001B, `INV` 0x0010. -/
def session : State :=
  { idle with
    pinmap := ⟨0x01#8, 0x02#8, 0x03#8, 0x04#8, 0x85#8, 0#8, 0#8, 0#8⟩, dir := 0x001B#16, inv := 0x0010#16
    st := .opened, live := true }

/-- A state in which OPEN runs and calls the operations of the pin mapper: `claimed` is 0x000F (V-P1). -/
def mapping : State :=
  { idle with pinmap := ⟨0x01#8, 0x02#8, 0x03#8, 0x04#8, 0#8, 0#8, 0#8, 0#8⟩, dir := 0x000B#16, running := some 0x00#5 }

/-- An EXCHANGE that waits for its last three bytes. -/
def waiting : State :=
  { session with running := some 0x05#5, rx := some ⟨.exchange, 4, .host⟩, rxBuf := [0xFF#8], env := ⟨[], [], [], [.bytes []]⟩ }

/-! ### Well-formedness: each check refuses an ill-formed term -/

theorem test_wf_reserved_low_refuses : (Instr.reservedLow 0x10#5).wf defaultParams = false ∧
    (Instr.reservedLow 0x09#5).wf defaultParams = false ∧ (Instr.reservedLow 0x0F#5).wf defaultParams = true := by decide

theorem test_wf_reserved_high_refuses : (Instr.reservedHigh 0x18#5).wf defaultParams = false ∧
    (Instr.reservedHigh 0x19#5).wf defaultParams = true := by decide

theorem test_wf_shift_frame_refuses : (Instr.shiftFrame 0x20#8 [0#8]).wf defaultParams = false ∧
    (Instr.shiftFrame 0x31#8 []).wf defaultParams = false ∧ (Instr.shiftFrame 0x31#8 [0#8]).wf defaultParams = true := by decide

theorem test_wf_shift_frame_length : (Instr.shiftFrame 0x11#8 (List.replicate 65536 0#8)).wf defaultParams = true ∧
    (Instr.shiftFrame 0x11#8 (List.replicate 65537 0#8)).wf defaultParams = false := by
  simp only [Instr.wf, List.length_replicate, shiftMax]; decide

/-! ### Decoding: words written out from the encodings (R60 to R70) -/

theorem test_decode_host_ops :
    decodeTableWord 37 0x0000000000 = some .openOp ∧ decodeTableWord 37 0x01FFFFFFFF = some .closeOp ∧
    decodeTableWord 37 0x0200000000 = some .initializeOp ∧ decodeTableWord 37 0x0300000000 = some .programEnable ∧
    decodeTableWord 37 0x0400000000 = some .chipErase := by decide

theorem test_decode_exchange : decodeTableWord 37 0x05000053AC = some (.exchange ⟨0xAC#8, 0x53#8, 0#8, 0#8⟩) := by decide

theorem test_decode_leds :
    decodeTableWord 37 0x0600000001 = some (.setLed0 true) ∧ decodeTableWord 37 0x0700000000 = some (.setLed1 false) ∧
    decodeTableWord 37 0x0800000001 = some (.setLed2 true) ∧ decodeTableWord 37 0x09FFFFFFFE = some (.setLed3 false) := by decide

theorem test_decode_pin_mapper :
    decodeTableWord 37 0x1000000485 = some (.assignSingle .led0 0x85#8) ∧
    decodeTableWord 37 0x11000100C0 = some (.assignGroup .buf 0x00C0#16) ∧
    decodeTableWord 37 0x1204830205 = some (.validateLayout 0x05#8 0x02#8 0x83#8 0x04#8) ∧
    decodeTableWord 37 0x1300000000 = some .pinSetup := by decide

theorem test_decode_clock :
    decodeTableWord 37 0x14000249F0 = some (.computeDivisor 150000#32) ∧
    decodeTableWord 37 0x150000000A = some (.setClock 10#32) := by decide

theorem test_decode_codec :
    decodeTableWord 37 0x1600000000 = some .encodeGpioSet ∧ decodeTableWord 37 0x1700000220 = some (.shift 0x20#8 2#24 []) ∧
    decodeTableWord 37 0x1800000301 = some (.setPin .reset true) := by decide

theorem test_decode_reserved :
    decodeTableWord 37 0x0A00000000 = some (.reservedLow 0x0A#5) ∧ decodeTableWord 37 0x0FFFFFFFFF = some (.reservedLow 0x0F#5) ∧
    decodeTableWord 37 0x1900000000 = some (.reservedHigh 0x19#5) ∧
    decodeTableWord 37 0x1FFFFFFFFF = some (.reservedHigh 0x1F#5) := by decide

theorem test_decode_frames :
    decodeTableWord 24 0xEA5F86 = some (.clkFrame 59999#16) ∧
    decodeTableWord 48 0x0D0182DB1080 = some (.gpioFrame 0x0110#16 0x0DDB#16) ∧
    decodeTableWord 64 0x87000053AC000331 = some (.shiftFrame 0x31#8 [0xAC#8, 0x53#8, 0#8, 0#8]) := by decide

theorem test_decode_formats :
    decodeTableWord 8 0x85 = some (.pinSpec .clk 0x85#8) ∧ decodeTableWord 16 0x00C0 = some (.groupMask .pwr 0x00C0#16) ∧
    decodeTableWord 36 0x01EFFFF00 = some (.hostRes 0#4 0x1EFFFF00#32) := by decide

/-- A frame is rejected by name: no second command byte, no trailer, an unknown first byte (R64, R65, R74). -/
theorem test_decode_rejects :
    decode defaultParams (.frame [0x80#8, 0#8, 0#8, 0#8, 0#8, 0#8]) = .error .noGpioHigh ∧
    decode defaultParams (.frame [0x31#8, 0#8, 0#8, 0xAC#8, 0#8]) = .error .noFlush ∧
    decode defaultParams (.frame [0x20#8]) = .error (.unknownFirst 0x20#8) ∧
    decode defaultParams (.frame [0x86#8, 0#8]) = .error .wrongLength := by
  refine ⟨?_, ?_, ?_, ?_⟩ <;> rfl

/-! ### Instructions, one step each (values of 95_test_vectors) -/

/-- V-P1, V-P3, V-P4, V-P5, V-P7, V-P8, V-P9. -/
theorem test_assign_single :
    look (fun t => (t.pinmap.led0, t.dir, t.inv, t.ret.status)) (exec (.assignSingle .led0 0x85#8) mapping) =
      some (0x85#8, 0x001B#16, 0x0010#16, 0#4) ∧
    look (fun t => (t.ret, t.dir)) (exec (.assignSingle .led0 0x04#8) mapping) = some (⟨2#4, 0x0008#32⟩, 0x000B#16) ∧
    look (fun t => t.ret.status) (exec (.assignSingle .led0 0x0C#8) mapping) = some 1#4 ∧
    look (fun t => t.ret.status) (exec (.assignSingle .led0 0x80#8) mapping) = some 1#4 ∧
    look (fun t => t.dir) (exec (.assignSingle .led0 0x0B#8) mapping) = some 0x040B#16 ∧
    look (fun t => t.ret) (exec (.assignSingle .led0 0x03#8) mapping) = some ⟨2#4, 0x0004#32⟩ ∧
    look (fun t => t.ret.status) (exec (.assignSingle .led0 0x8C#8) mapping) = some 1#4 := by decide

/-- V-G1, V-G3, V-G4, V-G5, V-G7. -/
theorem test_assign_group :
    look (fun t => (t.gmask.pwr, t.dir)) (exec (.assignGroup .pwr 0x00C0#16) mapping) = some (0x00C0#16, 0x00CB#16) ∧
    look (fun t => t.dir) (exec (.assignGroup .pwr 0x0800#16) mapping) = some 0x080B#16 ∧
    look (fun t => t.ret) (exec (.assignGroup .pwr 0x1000#16) mapping) = some ⟨1#4, 0#32⟩ ∧
    look (fun t => t.ret) (exec (.assignGroup .pwr 0x0004#16) mapping) = some ⟨2#4, 4#32⟩ ∧
    look (fun t => t.ret) (exec (.assignGroup .pwr 0x100F#16) mapping) = some ⟨1#4, 0#32⟩ := by decide

/-- V-L3, V-L4. -/
theorem test_validate_layout :
    look (fun t => (t.samp.clk, t.samp.din, t.samp.reset, t.hist)) (exec (.validateLayout 0x05#8 0x02#8 0x83#8 0x00#8) mapping) =
      some (0x01#8, 0x83#8, 0x04#8, [.diag .layoutCorrected (.role 0#32), .diag .resetDefaulted (.role 3#32)]) ∧
    look (fun t => (t.samp.clk, t.samp.reset)) (exec (.validateLayout 0x81#8 0x02#8 0x03#8 0x80#8) mapping) =
      some (0x81#8, 0x84#8) := by decide

/-- V-L8 and V-L5 under `STRICT`. -/
theorem test_validate_layout_strict :
    look (fun t => (t.ret.status, t.hist))
      (exec (.validateLayout 0x02#8 0x01#8 0x03#8 0x04#8) { mapping with par := { defaultParams with layout := .strict } }) =
      some (3#4, []) := by decide

/-- V-S5 and V-S7. -/
theorem test_pin_setup :
    look (fun t => (t.pinmap, t.dir, t.inv))
      (exec .pinSetup { mapping with cfg := { mapping.cfg with pin := ⟨0x05#8, 0x02#8, 0x83#8, 0#8, 0x05#8, 0#8, 0#8, 0#8⟩ } }) =
      some (⟨0x01#8, 0x02#8, 0x83#8, 0x04#8, 0x05#8, 0#8, 0#8, 0#8⟩, 0x001B#16, 0x0004#16) ∧
    look (fun t => t.ret) (exec .pinSetup { mapping with cfg := { mapping.cfg with group := ⟨0x00C0#16, 0x0180#16⟩ } }) =
      some ⟨2#4, 0x80#32⟩ := by decide

/-- V-C1, V-C6, V-C9, V-C14, V-C15, V-C18. -/
theorem test_compute_divisor :
    look (fun t => t.clk) (exec (.computeDivisor 150000#32) mapping) = some (some ⟨39#16, 150000, false, false⟩) ∧
    look (fun t => t.clk) (exec (.computeDivisor 12000001#32) mapping) = some (some ⟨0#16, 6000000, true, false⟩) ∧
    look (fun t => t.clk) (exec (.computeDivisor 4000000#32) mapping) = some (some ⟨1#16, 3000000, false, false⟩) ∧
    look (fun t => t.clk) (exec (.computeDivisor 92#32) mapping) = some (some ⟨0xFEC0#16, 92, false, false⟩) ∧
    look (fun t => t.clk) (exec (.computeDivisor 91#32) mapping) = some (some ⟨65535#16, 91, false, true⟩) ∧
    look (fun t => t.clk) (exec (.computeDivisor 0#32) mapping) = some (some ⟨65535#16, 91, false, true⟩) := by decide

/-- V-C4 and V-C13 as frames, and a short write. -/
theorem test_set_clock :
    look (fun t => (t.hist, t.ret.status)) (exec (.setClock 7000000#32) { mapping with env := accepting 1 [] }) =
      some ([.diag .cappedMax (.clock 7000000#32 6000000), .write [0x86#8, 0x00#8, 0x00#8] (.accepted 3)], 0#4) ∧
    look (fun t => (t.hist, t.ret.status)) (exec (.setClock 100#32) { mapping with env := ⟨[], [], [.accepted 2], []⟩ }) =
      some ([.write [0x86#8, 0x5F#8, 0xEA#8] (.accepted 2)], 5#4) := by decide

/-- V-F4. -/
theorem test_encode_gpio_set :
    look (fun t => t.frame) (exec .encodeGpioSet { mapping with val := 0x0110#16, dir := 0x0DDB#16 }) =
      some [0x80#8, 0x10#8, 0xDB#8, 0x82#8, 0x01#8, 0x0D#8] := by decide

/-- V-F10, V-F11. -/
theorem test_shift_one_way :
    look (fun t => (t.hist, t.ret.status)) (exec (.shift 0x11#8 1#24 [0x55#8]) { mapping with env := accepting 1 [] }) =
      some ([.write [0x11#8, 0x00#8, 0x00#8, 0x55#8, 0x87#8] (.accepted 5)], 0#4) ∧
    look (fun t => (t.hist, t.rxBuf))
      (exec (.shift 0x20#8 2#24 []) { mapping with env := accepting 0 [.bytes [0x12#8, 0x34#8]] }) =
      some ([.read 2 (.bytes [0x12#8, 0x34#8])], [0x12#8, 0x34#8]) := by decide

/-- V-F8's first read, V-F9. -/
theorem test_shift_two_way :
    look (fun t => (t.rx, t.rxBuf))
      (exec (.shift 0x31#8 4#24 [0xAC#8, 0x53#8, 0#8, 0#8]) { mapping with env := accepting 1 [.bytes [0xFF#8]] }) =
      some (some ⟨.shift, 4, .inner⟩, [0xFF#8]) ∧
    look (fun t => (t.hist, t.ret.status))
      (exec (.shift 0x31#8 4#24 [0xAC#8, 0x53#8, 0#8, 0#8]) { mapping with env := ⟨[], [], [.accepted 5], []⟩ }) =
      some ([.write [0x31#8, 0x03#8, 0x00#8, 0xAC#8, 0x53#8, 0x00#8, 0x00#8, 0x87#8] (.accepted 5)], 5#4) := by decide

/-- V-T3, V-T5, V-T6, V-T8. -/
theorem test_set_pin :
    look (fun t => t.val) (exec (.setPin .led0 true) { session with running := some 0x02#5, env := accepting 1 [] }) =
      some 0x0000#16 ∧
    look (fun t => (t.val, t.hist)) (exec (.setPin .led0 false) { session with running := some 0x02#5, env := accepting 1 [] }) =
      some (0x0010#16, [.write [0x80#8, 0x10#8, 0x1B#8, 0x82#8, 0x00#8, 0x00#8] (.accepted 6)]) ∧
    look (fun t => t.hist) (exec (.setPin .led3 true) { session with running := some 0x02#5 }) = some [] ∧
    look (fun t => t.val)
      (exec (.setPin .reset true) { session with running := some 0x02#5, val := 0x0010#16, env := accepting 1 [] }) =
      some 0x0018#16 := by decide

/-- V-T7: the value bit is kept when the write is short. -/
theorem test_set_pin_short :
    look (fun t => (t.val, t.ret.status))
      (exec (.setPin .reset true) { session with running := some 0x02#5, env := ⟨[], [], [.accepted 3], []⟩ }) =
      some (0x0008#16, 5#4) := by decide

/-- V-T9, V-T11. -/
theorem test_exchange :
    look (fun t => t.resBuf) (exec (.exchange ⟨0xAC#8, 0x53#8, 0#8, 0#8⟩) { session with env := accepting 1 [.bytes good.toList] }) =
      some (some ⟨0#4, 0x0053FFFF#32⟩) ∧
    look (fun t => (t.resBuf, t.hist)) (exec (.exchange ⟨1#8, 2#8, 3#8, 4#8⟩) idle) = some (some ⟨10#4, 0#32⟩, []) := by decide

/-- V-T10's second read: the accumulated bytes in arrival order. -/
theorem test_exchange_goes_on :
    look (fun t => (t.resBuf, t.rx))
      (step { waiting with rxBuf := [0x00#8, 0xFF#8], env := ⟨[], [], [], [.bytes [0xFF#8, 0x1E#8]]⟩ }) =
      some (some ⟨0#4, 0x1EFFFF00#32⟩, none) := by decide

/-- SET_LED0 ON to the inverted pin, SET_LED1 and SET_LED2 unassigned, V-E9 for SET_LED3. -/
theorem test_leds :
    look (fun t => (t.val, t.hist)) (exec (.setLed0 true) { session with val := 0x0010#16, env := accepting 1 [] }) =
      some (0x0000#16, [.write [0x80#8, 0x00#8, 0x1B#8, 0x82#8, 0x00#8, 0x00#8] (.accepted 6)]) ∧
    look (fun t => t.resBuf) (exec (.setLed1 true) session) = some (some ⟨0#4, 0#32⟩) ∧
    look (fun t => t.hist) (exec (.setLed2 true) session) = some [] ∧
    look (fun t => t.resBuf) (exec (.setLed3 true) idle) = some (some ⟨10#4, 0#32⟩) := by decide

/-- P1's OPEN. -/
theorem test_open :
    look (fun t => (t.st, t.live, t.dir, t.hist)) (exec .openOp { idle with env := accepting 1 [] }) =
      some (.opened, true, 0x000B#16,
        [.diag .layoutCorrected (.role 0#32), .diag .layoutCorrected (.role 1#32), .diag .layoutCorrected (.role 2#32), .diag .resetDefaulted (.role 3#32),
          .opened 0x0403#16 0x6010#16 true, .setMode 0x000B#16 0x02#8 true, .write [0x86#8, 0x27#8, 0x00#8] (.accepted 3)]) := by
  decide

/-- P4b: the mode cannot be set, the handle is released. -/
theorem test_open_fails :
    look (fun t => (t.st, t.live, t.resBuf, t.hist.drop 4)) (exec .openOp { idle with env := ⟨[true], [false], [], []⟩ }) =
      some (.closed, false, some ⟨7#4, 0#32⟩, [.opened 0x0403#16 0x6010#16 true, .setMode 0x000B#16 0x02#8 false, .close]) := by
  decide

/-- P5: the third pin write is short. -/
theorem test_initialize_short :
    look (fun t => (t.st, t.val, t.resBuf, t.hist.length))
      (exec .initializeOp { session with env := ⟨[], [], [.accepted 6, .accepted 6, .accepted 4], []⟩ }) =
      some (.failed, 0x0008#16, some ⟨5#4, 0#32⟩, 4) := by decide

/-- P1's INITIALIZE. -/
theorem test_initialize :
    look (fun t => (t.st, t.attempt, t.resBuf, t.hist.length))
      (exec .initializeOp { session with env := accepting 5 [.bytes good.toList] }) =
      some (.enabled, 0#3, some ⟨0#4, 0#32⟩, 9) := by decide

/-- V-Q6: attempt 1 read error, attempt 2 matches: two shift frames, two GPIO frames, one wait of 20. -/
theorem test_program_enable :
    look (fun t => (t.st, t.hist.length, t.hist.filter (· == .wait 20)))
      (exec .programEnable { session with env := accepting 4 [.error, .bytes good.toList] }) =
      some (.enabled, 7, [.wait 20]) := by decide

/-- V-Q8: the first pulse write is short. -/
theorem test_program_enable_pulse_short :
    look (fun t => (t.st, t.resBuf, t.hist.length))
      (exec .programEnable { session with env := ⟨[], [], [.accepted 8, .accepted 2], [.bytes bad.toList]⟩ }) =
      some (.failed, some ⟨5#4, 0#32⟩, 3) := by decide

/-- S8 and V-E5. -/
theorem test_chip_erase_refused :
    look (fun t => (t.st, t.resBuf, t.hist)) (exec .chipErase { session with st := .enabled, pd := { part with ceDef := false } }) =
      some (.enabled, some ⟨8#4, 0#32⟩, []) ∧
    look (fun t => t.resBuf) (exec .chipErase session) = some (some ⟨10#4, 0#32⟩) := by decide

/-- The erase exchange's read fails: one shift frame, one failed read, status 6, no wait. -/
theorem test_chip_erase_read_error :
    look (fun t => (t.st, t.resBuf, t.hist.length))
      (exec .chipErase { session with st := .enabled, env := accepting 1 [.error] }) = some (.failed, some ⟨6#4, 0#32⟩, 2) := by decide

/-- P1's first CLOSE, and V-E8. -/
theorem test_close :
    look (fun t => (t.st, t.live, t.val, t.hist)) (exec .closeOp { session with env := accepting 1 [] }) =
      some (.closed, false, 0x0008#16, [.write [0x80#8, 0x08#8, 0x1B#8, 0x82#8, 0x00#8, 0x00#8] (.accepted 6), .close]) ∧
    look (fun t => (t.resBuf, t.hist)) (exec .closeOp idle) = some (some ⟨0#4, 0#32⟩, []) := by decide

/-- V-E1, V-E2, V-E3. -/
theorem test_illegal_ops :
    look (fun t => t.resBuf) (exec (.reservedLow 0x0A#5) session) = some (some ⟨11#4, 0#32⟩) ∧
    look (fun t => t.resBuf) (exec (.setPin .reset true) session) = some (some ⟨11#4, 0#32⟩) ∧
    look (fun t => t.resBuf) (exec (.reservedHigh 0x1F#5) idle) = some (some ⟨11#4, 0#32⟩) := by decide

/-- A frame in the frame buffer is one write of its bytes (R44). -/
theorem test_frames_are_sent :
    look (fun t => (t.frame, t.hist))
      (step { mapping with frame := [0x86#8, 0x27#8, 0x00#8], env := accepting 1 [] }) =
      some ([], [.write [0x86#8, 0x27#8, 0x00#8] (.accepted 3)]) ∧
    look (fun t => t.hist) (exec (.gpioFrame 0x0108#16 0x010B#16) { mapping with env := accepting 1 [] }) =
      some [.write [0x80#8, 0x08#8, 0x0B#8, 0x82#8, 0x01#8, 0x01#8] (.accepted 6)] ∧
    look (fun t => t.hist) (exec (.shiftFrame 0x11#8 [0x55#8]) { mapping with env := accepting 1 [] }) =
      some [.write [0x11#8, 0x00#8, 0x00#8, 0x55#8, 0x87#8] (.accepted 5)] := by decide

/-- `.cfg_pin RESET, 0x84` and `.cfg_group BUF, 0x0800` of program P2; the result of a CLOSE presented. -/
theorem test_formats :
    look (fun t => t.cfg.pin.reset) (step { idle with port := [.writePin .reset 0x84#8] }) = some 0x84#8 ∧
    look (fun t => t.cfg.group.buf) (step { idle with port := [.writeGroup .buf 0x0800#16] }) = some 0x0800#16 ∧
    look (fun t => (t.hostRes, t.running, t.hist)) (step { idle with running := some 0x01#5, resBuf := some ⟨0#4, 0#32⟩ }) =
      some (some ⟨0#4, 0#32⟩, none, [.result 0x01#5 ⟨0#4, 0#32⟩]) := by decide

/-! ### Witnesses: for each statement with hypotheses, a state and operands that meet them, at the ends of their ranges -/

/-- A block at rest is in a control state. -/
theorem control_at_rest (s : State) (h : s.frame = [] ∧ s.clk = none ∧ (s.live = true ↔ s.st ≠ .closed) ∧ s.rx = none ∧
    (s.running = none ↔ s.resBuf = none) ∧ s.st.stable = true ∧ s.attempt = 0#3 ∧ s.rxBuf = []) : s.Control := by
  obtain ⟨h1, h2, h3, h4, h5, h6, h7, h8⟩ := h
  exact ⟨h1, h2, h3, fun h => ⟨h4, h5.mp h⟩, fun h => by simp only [h4, true_iff]; exact fun hb => h (h5.mpr hb),
    fun _ => ⟨h6, h7, h8⟩, fun w hw => by rw [h4] at hw; cases hw⟩

/-- The block that waits in EXCHANGE is in a control state. -/
theorem control_waiting : waiting.Control :=
  ⟨rfl, rfl, by decide, by decide, by decide, by decide, fun w hw => by
    cases hw
    exact ⟨rfl, rfl, by decide, by decide, by decide, by decide, (by rintro ⟨⟩), by decide⟩⟩

/-- A handshake that waits for its response, on its last attempt, inside INITIALIZE. -/
def handshaking : State :=
  { session with
    st := .resetReleased, attempt := 4#3, running := some 0x02#5, rx := some ⟨.handshake, 4, .host⟩
    env := accepting 2 [.bytes bad.toList] }

theorem control_handshaking : handshaking.Control :=
  ⟨rfl, rfl, by decide, by decide, by decide, by decide, fun w hw => by
    cases hw
    exact ⟨rfl, rfl, by decide, by decide, by decide, by decide,
      fun _ => ⟨.inr ⟨.inl rfl, rfl⟩, by decide, by decide, by decide⟩, by decide⟩⟩

/-- An erase exchange that waits for its response. -/
def erasing : State :=
  { session with
    st := .erasing, running := some 0x04#5, rx := some ⟨.erase, 4, .host⟩, env := accepting 5 [.bytes bad.toList, .bytes good.toList] }

theorem control_erasing : erasing.Control :=
  ⟨rfl, rfl, by decide, by decide, by decide, by decide, fun w hw => by
    cases hw
    exact ⟨rfl, rfl, by decide, by decide, by decide, by decide, (by rintro ⟨⟩), by decide⟩⟩

theorem control_session : session.Control := control_at_rest _ (by decide)

/-- The session's masks meet R24: they are what PIN_SETUP builds from the same specs. -/
theorem masks_session : session.Masks := by
  have h := pinSetup_sat { idle with cfg := { idle.cfg with pin := session.pinmap } }
  cases hr : pinSetup { idle with cfg := { idle.cfg with pin := session.pinmap } } with
  | ok a t =>
    rw [hr] at h
    have hs : look (fun t => (t.pinmap, t.gmask, t.dir, t.inv, t.val))
        (settle .inner ((pinSetup { idle with cfg := { idle.cfg with pin := session.pinmap } }).withData fun _ => 0#32)) =
        some (session.pinmap, session.gmask, session.dir, session.inv, session.val) := by decide
    rw [hr] at hs
    simp only [Res.withData, Res.bind, settle, conclude, look, Option.some.injEq, Prod.mk.injEq] at hs
    obtain ⟨h1, h2, h3, h4, h5⟩ := hs
    exact h.2.1.of_eq h1.symm h2.symm h3.symm h4.symm h5.symm
  | raise e t =>
    have hs : look (fun t => t.ret.status)
        (settle .inner ((pinSetup { idle with cfg := { idle.cfg with pin := session.pinmap } }).withData fun _ => 0#32)) =
        some 0#4 := by decide
    rw [hr] at h hs
    simp only [Res.withData, Res.bind, settle, conclude, look, Option.some.injEq] at hs
    obtain ⟨-, ⟨r, rfl⟩ | ⟨r, rfl⟩ | ⟨m, rfl⟩⟩ := h <;> simp [Err.code] at hs
  | wait c n t => rw [hr] at h; exact h.elim
  | refuse x =>
    have hs : look (fun t => t.ret.status)
        (settle .inner ((pinSetup { idle with cfg := { idle.cfg with pin := session.pinmap } }).withData fun _ => 0#32)) =
        some 0#4 := by decide
    rw [hr] at hs
    simp [Res.withData, Res.bind, settle, look] at hs

/-- The configuration of V-S3: pins 1 to 4, 5, 9 and 11, groups up to pin 12. -/
def cfgS3 : CfgRegs :=
  { idle.cfg with pin := ⟨0x01#8, 0x02#8, 0x03#8, 0x84#8, 0x85#8, 0x09#8, 0x0B#8, 0#8⟩, group := ⟨0x00C0#16, 0x0800#16⟩ }

theorem cfgS3_legal : cfgS3.Legal where
  fixed := by decide
  range := by intro r; cases r <;> decide
  disjoint := by intro r q; cases r <;> cases q <;> decide
  groupRange := by decide
  groups := by refine ⟨by decide, ?_⟩; intro g r; cases g <;> cases r <;> decide

theorem witness_DecodeOfEncode : defaultParams.wf = true ∧ (Instr.shiftFrame 0x31#8 [0#8]).wf defaultParams = true ∧
    (Instr.reservedLow 0x0A#5).wf defaultParams = true ∧ (Instr.reservedHigh 0x1F#5).wf defaultParams = true := by decide

theorem witness_FrameDecodingIsExact : takeFrame defaultParams [0x86#8, 0x27#8, 0x00#8, 0x80#8] = .ok (.clkFrame 39#16, [0x80#8]) ∧
    takeFrame defaultParams [0x11#8, 0#8, 0#8, 0x55#8, 0x87#8] = .ok (.shiftFrame 0x11#8 [0x55#8], []) := by
  constructor <;> rfl

theorem witness_StreamOfFramesParses : defaultParams.wf = true ∧
    ∀ f ∈ [Instr.clkFrame 39#16, .gpioFrame 0#16 0x000B#16, .shiftFrame 0x31#8 [0xAC#8]], isFrame f = true ∧ f.wf defaultParams = true := by
  decide

theorem witness_StepRunsDecodedInstr :
    (decode mapping.par (.frame [0x86#8, 0x27#8, 0x00#8]) = .ok (.clkFrame 39#16) ∧ mapping.rx = none) ∧
    (mapping.frame = [] ∧ { mapping with resBuf := some ⟨0#4, 0#32⟩ }.resBuf = some ⟨0#4, 0#32⟩) ∧
    (idle.frame = [] ∧ idle.resBuf = none ∧
      (HostMove.present 0x0100000000#37 []).wire = some (.cmd 0x0100000000#37 []) ∧
      decode idle.par (.cmd 0x0100000000#37 []) = .ok .closeOp) ∧
    (wireOfTable 36 0x200000080 = some (.result 0x200000080#36) ∧
      decode idle.par (.result 0x200000080#36) = .ok (.hostRes 2#4 0x80#32)) := by
  refine ⟨⟨rfl, rfl⟩, ⟨rfl, rfl⟩, ⟨rfl, rfl, rfl, rfl⟩, rfl, rfl⟩

theorem witness_HostWritesItsRegisters : ∀ m : HostMove, { idle with port := [m] }.rx = none ∧ { idle with port := [m] }.frame = [] ∧
    { idle with port := [m] }.resBuf = none ∧ { idle with port := [m] }.port = m :: [] := fun _ => ⟨rfl, rfl, rfl, rfl⟩

theorem witness_ResultIsPresented : mapping.running = some 0x00#5 ∧ idle.running = none := by decide

theorem witness_BusyBlockTakesNoOperation :
    (waiting.Control ∧ waiting.running ≠ none ∧ ∃ t, step waiting = .next t ∧ t.rx = waiting.rx) ∧
    (State.Control { session with running := some 0x05#5, resBuf := some ⟨0#4, 0#32⟩ } ∧
      ∃ t, step { session with running := some 0x05#5, resBuf := some ⟨0#4, 0#32⟩ } = .next t ∧ t.running = none) :=
  ⟨⟨control_waiting, by decide, look_some (by decide)⟩, control_at_rest _ (by decide), look_some (by decide)⟩

theorem witness_AcceptanceTable :
    (Instr.openOp, 0x00#5, [St.closed]) ∈ hostOps ∧ session.running = none ∧ session.st.stable = true ∧ session.st ∉ [St.closed] ∧
    idle.st ∈ [St.closed] ∧ idle.st.stable = true ∧ session.resBuf = none ∧ session.st ≠ .closed ∧
    (Instr.setLed3 true, SRole.led3, 0x09#5) ∈ ledOps true := by decide

theorem witness_AcceptanceTable_goes_on : (∃ t, exec .openOp { idle with env := accepting 1 [] } = .next t ∧ t.st = .opened) ∧
    (∃ t, exec .chipErase { session with st := .enabled, env := accepting 1 [.error] } = .next t ∧ t.st = .failed) :=
  ⟨look_some (by decide), look_some (by decide)⟩

theorem witness_InternalOpsAreIllegalAtPort : encode (.setPin .reset true) = .cmd 0x1800000301#37 [] ∧
    encode (.reservedLow 0x0A#5) = .cmd 0x0A00000000#37 [] ∧ 0x0A ≤ (opField 0x1800000301#37).toNat ∧
    0x0A ≤ (opField 0x0A00000000#37).toNat ∧ idle.running = none := by decide

/-- The last clause is met at both ends of the pin range, by a claimed pin and by a free one. -/
theorem witness_AssignSingleFollowsR91 : mapping.running ≠ none ∧ 0x80#8 ≠ 0#8 ∧ (pinfield 0x80#8).toNat < 1 ∧
    11 < (pinfield 0x0C#8).toNat ∧ 11 < (pinfield 0xFF#8).toNat ∧
    ((pinfield 0x01#8).toNat = 0 + 1 ∧ mapping.claimed.getLsbD 0 = true) ∧
    ((pinfield 0x8B#8).toNat = 10 + 1 ∧ mapping.claimed.getLsbD 10 = false) := by decide

theorem witness_ClaimsAreDirAndDataIn : (2 < 16 ∧ (pinfield mapping.pinmap.din).toNat = 2 + 1) ∧
    (15 < 16 ∧ mapping.dir.getLsbD 15 = false) := by decide

theorem witness_AssignSingleLaws : mapping.running ≠ none ∧ SRole.led0 ≠ .led1 ∧ SRole.led0 ≠ .din ∧
    (∃ t, exec (.assignSingle .led0 0x05#8) mapping = .next t ∧ t.ret.status = 0#4) ∧ pinfield 0x85#8 = pinfield 0x05#8 ∧
    12 ≤ (pinfield 0x0C#8).toNat ∧ mapping.claimed.getLsbD 4 = false :=
  ⟨by decide, by decide, by decide, look_some (by decide), by decide, by decide, by decide⟩

theorem witness_AssignGroupFollowsR94 : mapping.running ≠ none ∧ (0x1000#16 : Mask).extractLsb' 12 4 ≠ 0#4 ∧
    ((0x0004#16 : Mask).extractLsb' 12 4 = 0#4 ∧ 0x0004#16 &&& mapping.claimed ≠ 0#16) ∧
    ((0x0FF0#16 : Mask).extractLsb' 12 4 = 0#4 ∧ 0x0FF0#16 &&& mapping.claimed = 0#16) ∧ 0#16 &&& mapping.claimed = 0#16 := by decide

theorem witness_LayoutIsCorrected : mapping.running ≠ none ∧ mapping.par.layout = .autocorrect := by decide

theorem witness_StrictLayoutIsRefused :
    { mapping with par := { defaultParams with layout := .strict } }.par.layout = .strict ∧
    layoutDiags 0x81#8 0x02#8 0x03#8 0x0B#8 = [] ∧ layoutDiags 0x01#8 0x02#8 0x03#8 0x0C#8 ≠ [] ∧
    layoutDiags 0x02#8 0x01#8 0x03#8 0x04#8 ≠ [] := by decide

theorem witness_PinSetupAcceptsLegalConfig :
    { mapping with cfg := cfgS3 }.running ≠ none ∧ CfgRegs.Legal { mapping with cfg := cfgS3 }.cfg :=
  ⟨by decide, cfgS3_legal⟩

/-- A PIN_SETUP that succeeds and one that fails (V-S1, V-S7), and one under `STRICT` (V-S8) or of a right layout. -/
theorem witness_PinSetupBuildsTheMasks : mapping.running ≠ none ∧ (∃ t, exec .pinSetup mapping = .next t ∧ t.ret.status = 0#4) ∧
    (∃ t, exec .pinSetup { mapping with cfg := { mapping.cfg with group := ⟨0x00C0#16, 0x0180#16⟩ } } = .next t ∧ t.ret.status = 2#4) ∧
    mapping.par.layout = .autocorrect ∧ layoutDiags 0#8 0#8 0#8 0#8 ≠ [] ∧ layoutDiags 0x81#8 0x02#8 0x03#8 0x0B#8 = [] ∧
    look (fun t => (t.ret, t.hist)) (exec .pinSetup { mapping with par := { defaultParams with layout := .strict } }) =
      some (⟨3#4, 0#32⟩, []) :=
  ⟨by decide, look_some (by decide), look_some (by decide), by decide, by decide, by decide, by decide⟩

/-- The checks of PIN_SETUP on the vectors: V-S3, V-S4, V-S5, V-S6, V-S7, and a pin and a group out of range. -/
theorem test_setup_checks :
    (setupResult cfgS3.pin cfgS3.group = ⟨0#4, 0#32⟩ ∧ dirOf cfgS3.pin cfgS3.group = 0x0DDB#16 ∧ invOf cfgS3.pin = 0x0018#16) ∧
    (setupResult ⟨1#8, 2#8, 3#8, 4#8, 4#8, 0#8, 0#8, 0#8⟩ .zero = ⟨2#4, 0x8#32⟩ ∧
      setupDone ⟨1#8, 2#8, 3#8, 4#8, 4#8, 0#8, 0#8, 0#8⟩ .zero = 4) ∧
    (correctedLayout ⟨0x05#8, 0x02#8, 0x83#8, 0#8, 0x05#8, 0#8, 0#8, 0#8⟩ = ⟨0x01#8, 0x02#8, 0x83#8, 0x04#8, 0x05#8, 0#8, 0#8, 0#8⟩ ∧
      setupResult ⟨0x01#8, 0x02#8, 0x83#8, 0x04#8, 0x05#8, 0#8, 0#8, 0#8⟩ .zero = ⟨0#4, 0#32⟩) ∧
    setupResult (correctedLayout ⟨0x05#8, 0x02#8, 0x83#8, 0#8, 0x04#8, 0#8, 0#8, 0#8⟩) .zero = ⟨2#4, 0x8#32⟩ ∧
    setupResult (correctedLayout .zero) ⟨0x00C0#16, 0x0180#16⟩ = ⟨2#4, 0x80#32⟩ ∧
    setupResult ⟨1#8, 2#8, 3#8, 4#8, 0x8C#8, 4#8, 0#8, 0#8⟩ .zero = ⟨1#4, 0#32⟩ ∧
    setupResult ⟨1#8, 2#8, 3#8, 4#8, 0#8, 0#8, 0#8, 0#8⟩ ⟨0x1001#16, 0#16⟩ = ⟨1#4, 0#32⟩ := by decide

/-- V-S6 on the machine: what the first four assignments wrote stays. -/
theorem test_pin_setup_stops :
    look (fun t => (t.pinmap, t.dir, t.inv, t.ret, t.hist))
      (exec .pinSetup { mapping with cfg := { mapping.cfg with pin := ⟨0x05#8, 0x02#8, 0x83#8, 0#8, 0x04#8, 0#8, 0#8, 0#8⟩ } }) =
      some (⟨0x01#8, 0x02#8, 0x83#8, 0x04#8, 0#8, 0#8, 0#8, 0#8⟩, 0x000B#16, 0x0004#16, ⟨2#4, 0x8#32⟩,
        [.diag .layoutCorrected (.role 0#32), .diag .resetDefaulted (.role 3#32)]) := by decide

theorem witness_DivisorIsComputedExactly : mapping.running ≠ none ∧ 0#32 = 0#32 ∧ 0xFFFFFFFF#32 ≠ 0#32 := by decide

theorem witness_DivisorIsNearestInRange : (92 ≤ (92#32).toNat ∧ (92#32).toNat ≤ 6000000) ∧
    (92 ≤ (6000000#32).toNat ∧ (6000000#32).toNat ≤ 6000000) := by decide

theorem witness_CapsAreReportedAtTheirBounds : 4000001 ≤ (4000001#32).toNat ∧ (91#32).toNat ≤ 91 ∧ (0#32).toNat ≤ 91 := by decide

theorem witness_SetClockSendsTheDivisor : mapping.running ≠ none := by decide

theorem witness_FramesAreOneWriteEach : 1 ≤ (List.replicate 65536 0#8 : List Byte).length ∧
    (List.replicate 65536 0#8 : List Byte).length ≤ 65536 ∧ 1 ≤ [0x55#8].length := by
  simp only [List.length_replicate]; decide

theorem witness_GpioFrameOfTheMasks : mapping.running ≠ none ∧ mapping.rx = none := by decide

theorem witness_ShiftTransmits : mapping.running ≠ none ∧ mapping.par.wf = true ∧ 1 ≤ (1#24).toNat ∧ (65536#24).toNat ≤ 65536 ∧
    [0x55#8].length = (1#24).toNat ∧ (List.replicate 65536 0#8 : List Byte).length = (65536#24).toNat := by
  refine ⟨by decide, by decide, by decide, by decide, by decide, ?_⟩
  rw [List.length_replicate]; decide

theorem witness_ShiftReceives : mapping.running ≠ none ∧ mapping.par.wf = true ∧
    (readAnswer (2#24).toNat { mapping with env := accepting 0 [.bytes [1#8, 2#8]] } = .bytes [1#8, 2#8] ∧
      [1#8, 2#8].length = (2#24).toNat) ∧
    (readAnswer (2#24).toNat { mapping with env := accepting 0 [.bytes []] } = .bytes [] ∧
      ([] : List Byte).length < (2#24).toNat) ∧
    readAnswer (2#24).toNat { mapping with env := accepting 0 [.error] } = .error := by decide

theorem witness_ShiftExchanges : mapping.running ≠ none ∧ mapping.par.wf = true ∧ [1#8].length = (1#24).toNat ∧
    writeAnswer [0x31#8, 0#8, 0#8, 1#8, 0x87#8] { mapping with env := ⟨[], [], [.accepted 4], []⟩ } ≠ .accepted ((1#24).toNat + 4) ∧
    (⟨[], [], [.accepted 5], [.bytes [2#8]]⟩ : Env).writes = .accepted ((1#24).toNat + 4) :: [] ∧
    (⟨[], [], [.accepted 5], [.bytes [2#8]]⟩ : Env).reads = .bytes [2#8] :: [] ∧ [2#8].length = (1#24).toNat ∧
    ([] : List Byte).length < (1#24).toNat ∧
    look (fun t => (t.rx, t.rxBuf)) (exec (.shift 0x31#8 1#24 [1#8]) { mapping with env := accepting 1 [.bytes []] }) =
      some (some ⟨.shift, 1, .inner⟩, []) ∧
    look (fun t => (t.ret.status, t.hist.length)) (exec (.shift 0x31#8 1#24 [1#8]) { mapping with env := accepting 1 [.error] }) =
      some (6#4, 2) := by decide

theorem witness_IllegalShiftIsRefused : mapping.running ≠ none ∧
    (0x00#8 ≠ mapping.par.modeTx ∧ 0x00#8 ≠ mapping.par.modeRx ∧ 0x00#8 ≠ mapping.par.modeTrx) ∧ (0#24).toNat = 0 ∧
    65536 < (65537#24).toNat := by decide

/-- The first three clauses, at one missing byte and at four. -/
theorem witness_ReceiveLoopGoesOn : waiting.rx = some ⟨.exchange, 4, .host⟩ ∧ waiting.rxCnt < 4 ∧
    (readAnswer (4 - waiting.rxCnt) waiting = .bytes [] ∧ waiting.rxCnt + ([] : List Byte).length < 4) ∧
    readAnswer 3 { waiting with env := accepting 0 [.error] } = .error ∧
    (readAnswer 3 { waiting with env := accepting 0 [.bytes [0xFF#8, 0x53#8, 0x00#8]] } = .bytes [0xFF#8, 0x53#8, 0x00#8] ∧
      waiting.rxBuf ++ [0xFF#8, 0x53#8, 0x00#8] = good.toList) ∧
    (readAnswer 4 { waiting with rxBuf := [], env := accepting 0 [.bytes good.toList] } = .bytes good.toList) := by decide

/-- A called SHIFT that waits for its last two bytes (V-F8). -/
def shifting (reads : List ReadAns) : State :=
  { mapping with rx := some ⟨.shift, 4, .inner⟩, rxBuf := [0xFF#8, 0xFF#8], env := accepting 0 reads }

/-- The loop of a called SHIFT: its error, its last bytes. -/
theorem witness_ReceiveLoopGoesOn_shift : (shifting []).rx = some ⟨.shift, 4, .inner⟩ ∧ (shifting []).rxCnt < 4 ∧
    readAnswer 2 (shifting [.error]) = .error ∧ readAnswer 2 (shifting [.bytes [0x53#8, 0x00#8]]) = .bytes [0x53#8, 0x00#8] ∧
    (shifting []).rxCnt + [0x53#8, 0x00#8].length = 4 ∧
    look (fun t => (t.rx, t.rxBuf, t.ret)) (step (shifting [.error])) = some (none, [], ⟨6#4, 0#32⟩) ∧
    look (fun t => (t.rx, t.rxBuf, t.ret)) (step (shifting [.bytes [0x53#8, 0x00#8]])) =
      some (none, [0xFF#8, 0xFF#8, 0x53#8, 0x00#8], ⟨0#4, 0#32⟩) := by decide

/-- The loop of the erase command: its error, its last bytes. -/
theorem witness_ReceiveLoopGoesOn_erase : erasing.rx = some ⟨.erase, 4, .host⟩ ∧ erasing.rxCnt < 4 ∧
    readAnswer 4 { erasing with env := accepting 0 [.error] } = .error ∧ readAnswer 4 erasing = .bytes bad.toList ∧
    erasing.rxBuf ++ bad.toList = bad.toList ∧
    look (fun t => (t.st, t.resBuf)) (step { erasing with env := accepting 0 [.error] }) = some (.failed, some ⟨6#4, 0#32⟩) := by
  decide

/-- The handshake of PROGRAM_ENABLE, in the loop of an attempt with two bytes missing (P2's second attempt). -/
def halfway (attempt : BitVec 3) (env : Env) : State :=
  { session with attempt := attempt, running := some 0x03#5, rx := some ⟨.handshake, 4, .host⟩, rxBuf := [0xFF#8, 0xFF#8], env := env }

/-- Its pulse is accepted, the next attempt and the second write of its pulse fail. -/
def cutEnd : HandshakeEnd := .cut .readError ⟨true, .error⟩

/-- The loop of the handshake: a match; a mismatch or an error whose pulse is cut; one followed by each ending, on the last attempt by
`exhausted`. -/
theorem witness_ReceiveLoopGoesOn_handshake :
    ((halfway 1 (accepting 0 [])).rx = some ⟨.handshake, 4, .host⟩ ∧ (halfway 1 (accepting 0 [])).rxCnt < 4) ∧
    ([0xFF#8, 0xFF#8] ++ [0x53#8, 0x00#8] = good.toList ∧ good.toList.getD (part.pollIndex.toNat - 1) 0#8 = part.pollValue) ∧
    ([0xFF#8, 0xFF#8] ++ [0x00#8, 0x00#8] = (⟨0xFF#8, 0xFF#8, 0x00#8, 0x00#8⟩ : Quad).toList ∧
      (⟨0xFF#8, 0xFF#8, 0x00#8, 0x00#8⟩ : Quad).toList.getD (part.pollIndex.toNat - 1) 0#8 ≠ part.pollValue) ∧
    ((halfway 4 (accepting 0 [])).par.wf = true ∧ (halfway 4 (accepting 0 [])).assigned .reset = true ∧ (halfway 4 (accepting 0 [])).attempt.toNat ≤ 4) ∧
    (PulseCut.Fails ⟨false, .accepted 5⟩ ∧ PulseCut.Fails ⟨true, .error⟩) ∧
    (∀ f ∈ [AttemptFail.shortWrite 0], f.fails part = true) ∧
    ((HandshakeEnd.matched good).Fits part (4 - (1 + 1)) ∧ (HandshakeEnd.short [0xFF#8, 0xFF#8]).Fits part (4 - (1 + 0)) ∧
      cutEnd.Fits part (4 - (3 + 0)) ∧ HandshakeEnd.exhausted.Fits part (4 - (4 + 0)) ∧
      HandshakeEnd.exhausted.Fits part (4 - (3 + 1))) :=
  ⟨⟨rfl, by decide⟩, by decide, by decide, ⟨rfl, by decide, by decide⟩,
    ⟨(by rintro n ⟨⟩; decide), (by rintro n ⟨⟩)⟩, by decide, ⟨by decide, by decide⟩, ⟨by decide, by decide⟩,
    ⟨by decide, rfl, (by rintro n ⟨⟩)⟩, rfl, rfl⟩

/-- One step for each way the loop of a handshake goes on. -/
theorem test_handshake_goes_on :
    look (fun t => (t.st, t.resBuf)) (step (halfway 2 (accepting 0 [.bytes [0x53#8, 0x00#8]]))) = some (.enabled, some ⟨0#4, 0#32⟩) ∧
    look (fun t => (t.st, t.resBuf, t.hist.length)) (step (halfway 1 ⟨[], [], [.accepted 2], [.bytes [0x00#8, 0x00#8]]⟩)) =
      some (.failed, some ⟨5#4, 0#32⟩, 2) ∧
    look (fun t => (t.attempt, t.rx, t.rxBuf)) (step (halfway 1 (accepting 3 [.error, .bytes [0xFF#8]]))) =
      some (2#3, some ⟨.handshake, 4, .host⟩, [0xFF#8]) ∧
    look (fun t => (t.st, t.resBuf, t.hist.length)) (step (halfway 4 (accepting 2 [.error]))) = some (.failed, some ⟨9#4, 0#32⟩, 4) := by
  decide

theorem witness_EmptyReadsHang : waiting.rx = some ⟨.exchange, 4, .host⟩ ∧ waiting.rxCnt < 4 ∧
    waiting.env.reads = List.replicate 1 (.bytes []) ++ [] := by decide

theorem witness_ExchangeEndsWithItsBytes : { waiting with rxBuf := [] }.rx = some ⟨.exchange, 4, .host⟩ ∧
    [] ++ [[0xFF#8], [], [0xFF#8, 0x53#8], [0x00#8]].flatten = good.toList ∧
    (∃ l, [[0xFF#8], [], [0xFF#8, 0x53#8], [0x00#8]].getLast? = some l ∧ l ≠ []) ∧
    { waiting with env := accepting 0 ([[0xFF#8], [], [0xFF#8, 0x53#8], [0x00#8]].map .bytes) }.env.reads =
      [[0xFF#8], [], [0xFF#8, 0x53#8], [0x00#8]].map ReadAns.bytes ++ [] :=
  ⟨rfl, rfl, ⟨[0x00#8], rfl, by decide⟩, rfl⟩

theorem witness_SetPinFollowsR140 : mapping.running ≠ none ∧ pinfield (mapping.pinmap.get .led3) = 0#7 ∧
    (pinfield (mapping.pinmap.get .clk)).toNat = 0 + 1 ∧
    (pinfield ({ mapping with pinmap := cfgS3.pin }.pinmap.get .led2)).toNat = 10 + 1 := by decide

theorem witness_InvertedOnIsPlainOff : (pinfield (mapping.pinmap.get .reset)).toNat = 3 + 1 ∧ mapping.inv.getLsbD 3 = false ∧
    (0x0008#16 : Mask).getLsbD 3 = true ∧ mapping.running ≠ none ∧
    (∃ t, exec (.setPin .reset true) { mapping with inv := 0x0008#16, env := accepting 1 [] } = .next t ∧ t.val = 0#16) ∧
    ∃ u, exec (.setPin .reset false) { mapping with env := accepting 1 [] } = .next u ∧ u.val = 0#16 :=
  ⟨by decide, by decide, by decide, by decide, look_some (by decide), look_some (by decide)⟩

theorem witness_LedSettersSetTheirPin : (Instr.setLed0 true, SRole.led0, 0x06#5) ∈ ledOps true ∧ idle.running = none ∧
    idle.st = .closed ∧ session.running = none ∧ session.st ≠ .closed ∧ pinfield (session.pinmap.get .led3) = 0#7 ∧
    (pinfield (session.pinmap.get .led0)).toNat = 4 + 1 ∧
    (pinfield ({ session with pinmap := cfgS3.pin }.pinmap.get .led2)).toNat = 10 + 1 := by decide

theorem witness_ExchangeFollowsR145 : idle.running = none ∧ idle.par.wf = true ∧ idle.st = .closed ∧ session.st ≠ .closed ∧
    writeAnswer (session.exchangeFrame good) { session with env := ⟨[], [], [.accepted 7], []⟩ } ≠ .accepted 8 ∧
    (⟨[], [], [.accepted 8], [.bytes good.toList]⟩ : Env).writes = .accepted 8 :: [] ∧
    (⟨[], [], [.accepted 8], [.bytes good.toList]⟩ : Env).reads = .bytes good.toList :: [] ∧ [0#8, 0#8, 0#8].length < 4 := by decide

theorem witness_OpenOfPowerOnConfig : idle.running = none ∧ idle.st = .closed ∧ idle.cfg = State.reset.cfg ∧
    idle.par.layout = .autocorrect ∧ (⟨[true], [true], [.accepted 3], []⟩ : Env).opens = true :: [] ∧
    (⟨[true], [true], [.accepted 3], []⟩ : Env).modes = true :: [] ∧
    (⟨[true], [true], [.accepted 3], []⟩ : Env).writes = .accepted 3 :: [] :=
  ⟨rfl, rfl, rfl, rfl, rfl, rfl, rfl⟩

theorem witness_OpenOfLegalConfig : idle.running = none ∧ idle.st = .closed ∧ CfgRegs.Legal { idle with cfg := cfgS3 }.cfg ∧
    (⟨[true], [true], [.accepted 3], []⟩ : Env).writes = .accepted 3 :: [] := ⟨rfl, rfl, cfgS3_legal, rfl⟩

/-- Each failure and success (V-S4, P4a, P4b, P4c, P1). -/
theorem witness_FailedOpenReleasesTheHandle : idle.running = none ∧ idle.st = .closed ∧ idle.live = false ∧
    look (fun t => t.resBuf.map (·.status)) (exec .openOp { idle with cfg := { idle.cfg with pin := ⟨1#8, 2#8, 3#8, 4#8, 4#8, 0#8, 0#8, 0#8⟩ } }) =
      some (some 2#4) ∧
    look (fun t => t.resBuf.map (·.status)) (exec .openOp { idle with env := ⟨[false], [], [], []⟩ }) = some (some 4#4) ∧
    look (fun t => t.resBuf.map (·.status)) (exec .openOp { idle with env := ⟨[true], [false], [], []⟩ }) = some (some 7#4) ∧
    look (fun t => t.resBuf.map (·.status)) (exec .openOp { idle with env := ⟨[true], [true], [.accepted 2], []⟩ }) = some (some 5#4) ∧
    look (fun t => t.ret.status) (exec .pinSetup { idle with running := some 0x00#5 }) = some 0#4 ∧
    look (fun t => t.ret) (exec .pinSetup { idle with running := some 0x00#5, cfg := { idle.cfg with pin := ⟨1#8, 2#8, 3#8, 4#8, 4#8, 0#8, 0#8, 0#8⟩ } }) =
      some ⟨2#4, 8#32⟩ ∧
    look (fun t => t.resBuf.map (·.status)) (exec .openOp { idle with env := accepting 1 [] }) = some (some 0#4) := by decide

theorem witness_OpenForgetsTheLastSession : idle.running = none ∧ idle.st = .closed ∧ mapping.running ≠ none ∧ idle.Control :=
  ⟨rfl, rfl, by decide, control_at_rest _ (by decide)⟩

/-- A session ready for its handshake, in each state that takes it. -/
theorem ready_session (st : St) (env : Env) : State.ReadyToEnable { session with st := st, env := env } :=
  ⟨rfl, rfl, (by decide : defaultParams.wf = true), (by decide : 1 ≤ part.pollIndex.toNat ∧ part.pollIndex.toNat ≤ 4), rfl,
    (by decide : session.assigned .reset = true), (by decide : session.assigned .clk = true)⟩

theorem witness_InitializeFollowsR163 : State.ReadyToEnable { session with st := .failed, env := accepting 0 [] } ∧
    polledByte good part.pollIndex = part.pollValue ∧
    (⟨[], [], List.replicate 4 (.accepted 6) ++ .accepted 8 :: [], [.bytes good.toList]⟩ : Env).reads = .bytes good.toList :: [] ∧
    session.running = none ∧ session.rx = none ∧ session.assigned .reset = true ∧ session.assigned .clk = true ∧
    (∃ t, exec .programEnable { session with env := accepting 1 [.bytes []] } = .next t ∧ t.rx = some ⟨.handshake, 4, .host⟩) ∧
    ∃ t, exec .programEnable { session with env := accepting 1 [.bytes good.toList] } = .next t ∧ t.rx = none :=
  ⟨ready_session _ _, by decide, rfl, rfl, rfl, by decide, by decide, look_some (by decide), look_some (by decide)⟩

theorem witness_InitializeStopsAtFailedWrite : session.running = none ∧ session.st = .opened ∧ session.assigned .reset = true ∧
    session.assigned .clk = true ∧ 3 < 4 ∧ (∀ n, WriteAns.accepted 5 = .accepted n → n < 6) ∧
    (∀ n, WriteAns.error = .accepted n → n < 6) :=
  ⟨rfl, rfl, by decide, by decide, by decide, (by rintro n ⟨⟩; decide), (by rintro n ⟨⟩)⟩

/-- Three failed attempts, one of each kind, before the match. -/
def threeFails : List AttemptFail := [.mismatch bad, .shortWrite 7, .readError]

theorem witness_HandshakeMatches : State.ReadyToEnable { session with env := accepting 0 [] } ∧ threeFails.length < 4 ∧
    (∀ f ∈ threeFails, f.fails part = true) ∧ good.toList.getD (part.pollIndex.toNat - 1) 0#8 = part.pollValue ∧
    look (fun t => (t.st, t.resBuf.map (·.status), t.hist.length))
      (exec .programEnable { session with env := ⟨[], [], threeFails.flatMap AttemptFail.writes ++ .accepted 8 :: [],
        threeFails.flatMap AttemptFail.reads ++ .bytes good.toList :: []⟩ }) = some (.enabled, some 0#4, 16) ∧
    ([] : List Byte).length < 4 ∧ [0xFF#8, 0xFF#8, 0x53#8].length < 4 ∧
    look (fun t => (t.st, t.attempt, t.rxBuf))
      (exec .programEnable { session with env := ⟨[], [], threeFails.flatMap AttemptFail.writes ++ .accepted 8 :: [],
        threeFails.flatMap AttemptFail.reads ++ .bytes [0xFF#8] :: []⟩ }) = some (.opened, 4#3, [0xFF#8]) :=
  ⟨ready_session .opened _, by decide, by decide, by decide, by decide, by decide, by decide, by decide⟩

theorem witness_HandshakeFailsAfterFour : State.ReadyToEnable { session with env := accepting 0 [] } ∧
    (AttemptFail.writeError :: threeFails).length = 4 ∧ (∀ f ∈ AttemptFail.writeError :: threeFails, f.fails part = true) ∧
    look (fun t => (t.st, t.resBuf.map (·.status), t.hist.length))
      (exec .programEnable { session with env := ⟨[], [], (AttemptFail.writeError :: threeFails).flatMap AttemptFail.writes ++ [],
        (AttemptFail.writeError :: threeFails).flatMap AttemptFail.reads ++ []⟩ }) = some (.failed, some 9#4, 18) :=
  ⟨ready_session .opened _, by decide, by decide, by decide⟩

/-- A failed pulse write, the first and the second of a pulse, after the first attempt (V-Q8) and after the fourth. -/
theorem witness_HandshakeFailsAfterFour_cut : (∀ f ∈ threeFails, f.fails part = true) ∧ threeFails.length < 4 ∧
    (AttemptFail.mismatch bad).fails part = true ∧ PulseCut.Fails ⟨false, .accepted 2⟩ ∧ PulseCut.Fails ⟨true, .error⟩ ∧
    look (fun t => (t.st, t.attempt, t.val, t.resBuf, t.hist.length))
      (exec .programEnable { session with env := ⟨[], [], .accepted 8 :: (⟨false, .accepted 2⟩ : PulseCut).writes, [.bytes bad.toList]⟩ }) =
      some (.failed, 0#3, 0x0008#16, some ⟨5#4, 0#32⟩, 3) ∧
    look (fun t => (t.st, t.attempt, t.val, t.resBuf, t.hist.length))
      (exec .programEnable { session with env := ⟨[], [],
        threeFails.flatMap AttemptFail.writes ++ .accepted 8 :: (⟨true, .error⟩ : PulseCut).writes,
        threeFails.flatMap AttemptFail.reads ++ [.bytes bad.toList]⟩ }) =
      some (.failed, 0#3, 0x0000#16, some ⟨5#4, 0#32⟩, 19) :=
  ⟨by decide, by decide, by decide, (by rintro n ⟨⟩; decide), (by rintro n ⟨⟩), by decide, by decide⟩

theorem witness_UnusableDescriptor : session.running = none ∧ session.st = .opened ∧ (0#3).toNat < 1 ∧ 4 < (5#3).toNat ∧
    (1 ≤ (1#3).toNat ∧ (4#3).toNat ≤ 4) ∧ { part with peDef := false }.peDef = false ∧ session.assigned .reset = true ∧
    session.assigned .clk = true := by decide

theorem witness_ChipEraseFollowsR178 : State.ReadyToEnable { session with st := .enabled, env := accepting 0 [] } ∧
    { part with ceDef := false }.ceDef = false ∧ part.ceDef = true ∧
    writeAnswer (session.exchangeFrame part.ceCmd) { session with env := ⟨[], [], [.error], []⟩ } ≠ .accepted 8 ∧
    look (fun t => (t.st, t.resBuf, t.hist.length))
      (exec .chipErase { session with st := .enabled, env := ⟨[], [], .accepted 8 :: (List.replicate 4 (.accepted 6) ++ .accepted 8 :: []),
        .bytes bad.toList :: .bytes good.toList :: []⟩ }) = some (.enabled, some ⟨0#4, 0#32⟩, 12) ∧
    ([] : List Byte).length < 4 ∧ [0#8, 0#8, 0#8].length < 4 ∧
    look (fun t => (t.st, t.rx)) (exec .chipErase { session with st := .enabled, env := accepting 1 [.bytes [0#8, 0#8, 0#8]] }) =
      some (.erasing, some ⟨.erase, 4, .host⟩) :=
  ⟨ready_session _ _, rfl, rfl, by decide, by decide, by decide, by decide, by decide⟩

theorem witness_CloseFollowsR185 : idle.running = none ∧ idle.live = false ∧ session.running = none ∧ session.live = true ∧
    (pinfield session.pinmap.reset).toNat = 3 + 1 ∧ ∃ t, exec .closeOp idle = .next t ∧ t.st = .closed :=
  ⟨rfl, rfl, rfl, rfl, by decide, look_some (by decide)⟩

/-- Control states of every kind, each with a step: idle, waiting in each of the three loops. -/
theorem witness_StepsKeepControl : (session.Control ∧ ∃ t, step session = .next t ∧ t.st = .opened) ∧
    (waiting.Control ∧ ∃ t, step waiting = .next t ∧ t.rxBuf = [0xFF#8]) ∧
    (handshaking.Control ∧ ∃ t, step handshaking = .next t ∧ t.st = .failed) ∧
    (erasing.Control ∧ ∃ t, step erasing = .next t ∧ t.st = .enabled) :=
  ⟨⟨control_session, look_some (by decide)⟩, ⟨control_waiting, look_some (by decide)⟩,
    ⟨control_handshaking, look_some (by decide)⟩, control_erasing, look_some (by decide)⟩

theorem witness_StepsKeepTheMasks : (session.Control ∧ session.live = true ∧ session.Masks ∧ ∃ t, step session = .next t ∧ t.live = true) ∧
    (waiting.Control ∧ waiting.Masks) :=
  ⟨⟨control_session, rfl, masks_session, look_some (by decide)⟩, control_waiting, masks_session.of_eq rfl rfl rfl rfl rfl⟩

theorem witness_PinTableIsFixedInSession : session.Control ∧ session.live = true ∧
    ∃ t, step { session with port := [.present 0x0600000001#37 []], env := accepting 1 [] } = .next t ∧ t.pinmap = session.pinmap :=
  ⟨control_session, rfl, look_some (by decide)⟩

theorem witness_OutgoingStreamIsWholeFrames : idle.par.wf = true ∧ WholeFrames idle.par (outgoing idle.hist) ∧
    ∃ t, step { idle with port := [.present 0x0000000000#37 []], env := accepting 1 [] } = .next t ∧
      outgoing t.hist = [0x86#8, 0x27#8, 0x00#8] :=
  ⟨by decide, WholeFrames.nil _, look_some (by decide)⟩

theorem witness_HistoryGrowsWithinRanges : ∃ t, step waiting = .next t ∧ t.hist = [.read 3 (.bytes [])] := look_some (by decide)

/-- An OPEN from a closed control state calls the transport. -/
theorem witness_ClosedBlockIsSilent : State.Control { idle with port := [.present 0x0000000000#37 []], env := ⟨[false], [], [], []⟩ } ∧
    idle.st = .closed ∧
    ∃ t, step { idle with port := [.present 0x0000000000#37 []], env := ⟨[false], [], [], []⟩ } = .next t ∧
      t.hist.any isTransportCall = true := ⟨control_at_rest _ (by decide), rfl, look_some (by decide)⟩

/-- Each kind of transition. -/
theorem witness_StatesFollowTheTable :
    (∃ t, step { idle with port := [.present 0x0000000000#37 []], env := accepting 1 [] } = .next t ∧ t.st = .opened) ∧
    (∃ t, step { session with port := [.present 0x0100000000#37 []], env := accepting 1 [] } = .next t ∧ t.st = .closed) ∧
    (handshaking.Control ∧ ∃ t, step handshaking = .next t ∧ t.st = .failed) ∧
    (State.Control { session with port := [.present 0x0300000000#37 []], env := accepting 1 [.bytes good.toList] } ∧
      ∃ t, step { session with port := [.present 0x0300000000#37 []], env := accepting 1 [.bytes good.toList] } = .next t ∧
        t.st = .enabled) ∧
    (erasing.Control ∧ ∃ t, step { erasing with env := accepting 5 [.bytes bad.toList, .bytes []] } = .next t ∧ t.st = .resetReleased) ∧
    (State.Control { session with st := .enabled, port := [.present 0x0400000000#37 []], env := accepting 1 [.bytes []] } ∧
      ∃ t, step { session with st := .enabled, port := [.present 0x0400000000#37 []], env := accepting 1 [.bytes []] } = .next t ∧
        t.st = .erasing) :=
  ⟨look_some (by decide), look_some (by decide), ⟨control_handshaking, look_some (by decide)⟩,
    ⟨control_at_rest _ (by decide), look_some (by decide)⟩, ⟨control_erasing, look_some (by decide)⟩, control_at_rest _ (by decide),
    look_some (by decide)⟩

/-- An operation refused, a failed OPEN, a failed handshake, an erase without opcode, a failed exchange, a failed LED write. -/
theorem witness_StateAfterError :
    (State.Control { session with port := [.present 0x0000000000#37 []] } ∧
      ∃ t, step { session with port := [.present 0x0000000000#37 []] } = .next t ∧ t.resBuf = some ⟨10#4, 0#32⟩) ∧
    (∃ t, step { idle with port := [.present 0x0000000000#37 []], env := ⟨[false], [], [], []⟩ } = .next t ∧ t.resBuf = some ⟨4#4, 0#32⟩) ∧
    (handshaking.Control ∧ handshaking.resBuf = none ∧ ∃ t, step handshaking = .next t ∧ t.resBuf = some ⟨9#4, 0#32⟩) ∧
    (∃ t, step { session with st := .enabled, pd := { part with ceDef := false }, port := [.present 0x0400000000#37 []] } = .next t ∧
      t.resBuf = some ⟨8#4, 0#32⟩) ∧
    (∃ t, step { waiting with env := accepting 0 [.error] } = .next t ∧ t.resBuf = some ⟨6#4, 0#32⟩) ∧
    (∃ t, step { session with port := [.present 0x0600000001#37 []], env := ⟨[], [], [.error], []⟩ } = .next t ∧
      t.resBuf = some ⟨5#4, 0#32⟩) :=
  ⟨⟨control_at_rest _ (by decide), look_some (by decide)⟩, look_some (by decide),
    ⟨control_handshaking, rfl, look_some (by decide)⟩, look_some (by decide), look_some (by decide), look_some (by decide)⟩

/-- Both ways of the statement: a step, and the refusal. -/
theorem witness_OnlyThePollIndexStops : session.Control ∧ (∃ t, step session = .next t ∧ t.st = .opened) ∧
    State.Control { session with pd := { part with pollIndex := 5#3 }, port := [.present 0x0300000000#37 []] } ∧
    look (fun _ => ()) (step { session with pd := { part with pollIndex := 5#3 }, port := [.present 0x0300000000#37 []] }) = none :=
  ⟨control_session, look_some (by decide), control_at_rest _ (by decide), by decide⟩

theorem witness_WaitsAreTheTables : ∃ t, step handshaking = .next t ∧ t.hist.contains (.wait 20) = true := look_some (by decide)

theorem witness_OnlyOpenReadsConfig : Instr.chipErase ≠ .openOp ∧ Instr.chipErase ≠ .pinSetup ∧
    (∀ r raw, Instr.chipErase ≠ .pinSpec r raw) ∧ ∀ g m, Instr.chipErase ≠ .groupMask g m :=
  ⟨by decide, by decide, (by intro r raw; simp), (by intro g m; simp)⟩

end Sys2Proof.Tests
end

section
/-!
SUPPORT. Every step appends to the history within the ranges of R40: a decoded frame is well-formed, fetching adds no event, and
`exec_grows` and `resumeBody_grown` say what the rest of a step adds.
-/

namespace Sys2Proof.Machine

/-! ### The frame a step sends is well-formed (R65, R74) -/

/-- A shift frame's payload is the `length` bytes that stand before the flush byte. -/
theorem takeFrame_wf {p : Params} {bytes rest : List Byte} {i : Instr} (h : takeFrame p bytes = .ok (i, rest)) :
    i.wf p = true := by
  unfold takeFrame at h
  split at h
  · cases h
  split at h
  · split at h <;> cases h
    rfl
  split at h
  · repeat' split at h
    all_goals cases h
    rfl
  split at h
  next hmode =>
    split at h
    next lo hi tail =>
      dsimp only at h
      split at h
      next last _ hdrop =>
        split at h <;> cases h
        have hlen : tail.length - ((word16 lo hi).toNat + 1) = rest.length + 1 := by
          rw [← List.length_drop, hdrop, List.length_cons]
        have hword := (word16 lo hi).isLt
        simp only [Instr.wf, List.length_take, shiftMax, Bool.and_eq_true, decide_eq_true_iff]
        exact ⟨⟨by simpa using hmode, by omega⟩, by omega⟩
      · cases h
    · cases h
  · cases h

theorem decodeFrame_wf {p : Params} {bytes : List Byte} {i : Instr} (h : decodeFrame p bytes = .ok i) : i.wf p = true := by
  unfold decodeFrame at h
  split at h
  next hi => cases h; exact takeFrame_wf hi
  all_goals cases h

/-- Only the frame buffer holds engine frames, and what is read from it is well-formed (R74). -/
theorem decode_wf_of_isFrame {p : Params} {w : Wire} {i : Instr} (h : decode p w = .ok i) (hf : isFrame i = true) :
    i.wf p = true := by
  cases w with
  | frame bytes => exact decodeFrame_wf h
  | cmd w operand => cases h; rw [decodeCmd_isFrame] at hf; cases hf
  | _ => cases h; cases hf

/-! ### Fetching adds no event -/

theorem fetch_instr_grows {s t : State} {w : Wire} (h : fetch s = .instr w t) : Grows s t := by
  unfold fetch at h
  split at h
  · cases h; exact Grows.of_eq rfl rfl rfl
  · split at h
    · cases h; exact Grows.of_eq rfl rfl rfl
    · split at h
      · cases h
      · split at h <;> cases h
        exact Grows.of_eq rfl rfl rfl

theorem fetch_written_same {s t : State} (h : fetch s = .written t) : t.par = s.par ∧ t.hist = s.hist := by
  unfold fetch at h
  split at h
  · cases h
  · split at h
    · cases h
    · split at h
      · cases h
      · split at h <;> cases h
        exact writeRegister_par _ _

theorem resumeReceive_grows {w : RxWait} {s t : State} (h : resumeReceive w s = .next t) : Grows s t :=
  have hread : (receive w.length { s with rx := none }).Grown s := (receive_grown _ _).after (Grows.of_eq rfl rfl rfl)
  settle_grows (resumeBody_grown w.client s hread s) h

/-- A step grows the history as `Grows` says, or is a register write of the host, which leaves it alone (R9). -/
theorem step_grows {s t : State} (h : step s = .next t) : Grows s t ∨ (t.par = s.par ∧ t.hist = s.hist) := by
  unfold step at h
  split at h
  · exact .inl (resumeReceive_grows h)
  · split at h
    next w u hu =>
      split at h
      next i hi =>
        have hsu := fetch_instr_grows hu
        exact .inl (hsu.trans (exec_grows (fun hf _ => hsu.par ▸ decode_wf_of_isFrame hi hf) h))
      next => cases h
    next hu => cases h; exact .inr (fetch_written_same hu)
    next => cases h; exact .inl (.refl s)

/-- Settles O54: by the ways a step goes on, each of which appends events within the ranges (`step_grows`). -/
theorem historyGrowsWithinRanges : Obligations.HistoryGrowsWithinRanges := by
  intro s t h
  rcases step_grows h with hg | ⟨hpar, hhist⟩
  · obtain ⟨l, hl, -, hrange, -⟩ := hg.events
    exact ⟨hg.par, l, hl, hrange⟩
  · exact ⟨hpar, [], by simp [hhist], by simp⟩

end Sys2Proof.Machine
end

section
/-!
SUPPORT. Every step keeps the control state: where a host operation may end, where it may wait, and that each operation's every
end is one or the other.
-/

namespace Sys2Proof.Machine

/-! ### Control states, by who runs -/

/-- A block with no receive loop in progress is in a control state when it is at rest, and a result is ready just when an operation
runs (R50, R66). -/
theorem control_of_rx_none {s : State} (hx : s.rx = none) (hf : s.frame = []) (hclk : s.clk = none)
    (hl : s.live = true ↔ s.st ≠ .closed) (hb : s.running = none ↔ s.resBuf = none)
    (hr : s.st.stable = true ∧ s.attempt = 0#3 ∧ s.rxBuf = []) : s.Control where
  frame := hf
  divisor := hclk
  live := hl
  idle h := ⟨hx, hb.mp h⟩
  busy h := ⟨fun _ => mt hb.mpr h, fun _ => hx⟩
  rest _ := hr
  loop w hw := by rw [hx] at hw; cases hw

/-- The host operation `op` runs in `u`; it neither waits nor has its result ready. -/
structure State.Runs (u : State) (op : BitVec 5) : Prop where
  running : u.running = some op
  frame : u.frame = []
  divisor : u.clk = none
  rx : u.rx = none
  resBuf : u.resBuf = none

/-- The running operation may end in `u`: whatever its result, the block is then in a control state. -/
def State.CanEnd (u : State) : Prop := ∀ r, State.Control { u with resBuf := some r }

/-- The running operation may wait in `u` for `n` bytes on behalf of `c`: the block is then in a control state. -/
def State.CanWait (c : RxClient) (n : Nat) (u : State) : Prop := State.Control { u with rx := some ⟨c, n, .host⟩ }

/-- Every way `r` can end is one of these. -/
def Res.Controlled {α : Type} (r : Res α) : Prop := r.Sat (fun _ u => u.CanEnd) (fun _ u => u.CanEnd) State.CanWait

/-- The DATA value makes no difference. -/
theorem Res.Controlled.withData {α : Type} {r : Res α} (h : r.Controlled) (f : α → BitVec 32) : (r.withData f).Controlled :=
  Res.sat_withData h fun _ _ hu => hu

/-- What a host operation ends in, settled, is a control state (R190). -/
theorem settle_control {r : Res (BitVec 32)} {t : State} (h : settle .host r = .next t) (hr : r.Controlled) : t.Control := by
  cases settle_ended (s := t) h hr with
  | ok d u hu ht => exact ht ▸ hu _
  | err e u hu ht => exact ht ▸ hu _
  | wait c n u hu ht => exact ht ▸ hu

section
variable {s u : State} {op : BitVec 5} {st : St} {n : Nat}

/-- The operation that waited in its receive loop goes on (R127). -/
theorem State.Control.resumes (hc : s.Control) {w : RxWait} (hx : s.rx = some w) (hop : s.running = some op) :
    State.Runs { s with rx := none } op :=
  ⟨hop, hc.frame, hc.divisor, rfl, (hc.waiting hx).2.1⟩

theorem State.Runs.same (h : s.Runs op) (k : SameSession s u) : u.Runs op :=
  ⟨k.running.trans h.running, k.frame.trans h.frame, k.clk.trans h.divisor, k.rx.trans h.rx, k.resBuf.trans h.resBuf⟩

/-- An operation ends where ST is stable, ATTEMPT 0 and nothing accumulated. -/
theorem State.Runs.canEnd (h : u.Runs op) (hl : u.live = true ↔ u.st ≠ .closed)
    (hr : u.st.stable = true ∧ u.attempt = 0#3 ∧ u.rxBuf = []) : u.CanEnd := fun r =>
  control_of_rx_none h.rx h.frame h.divisor hl (by simp [h.running]) hr

/-- The same for an operation inside one session. -/
theorem State.Runs.canEnd_same (h : s.Runs op) (hl : s.live = true) (k : SameSession s u) (hst : u.st ≠ .closed)
    (hr : u.st.stable = true ∧ u.attempt = 0#3 ∧ u.rxBuf = []) : u.CanEnd :=
  (h.same k).canEnd (by simp [k.live, hl, hst]) hr

/-- An operation of a session waits where its rule left it (R128). -/
theorem State.Runs.canWait (h : s.Runs op) (hl : s.live = true) (k : SameSession s u) {c : RxClient}
    (hw : State.Waiting { u with rx := some ⟨c, n, .host⟩ } ⟨c, n, .host⟩) : u.CanWait c n where
  frame := (h.same k).frame
  divisor := (h.same k).divisor
  live := iff_of_true (k.live.trans hl) hw.session
  idle hn := absurd ((h.same k).running.symm.trans hn) (by simp)
  busy _ := by simp [(h.same k).resBuf]
  rest hx := by cases hx
  loop w hw' := by cases hw'; exact hw

/-- An operation that is settled in a stable ST has ended (R170). -/
theorem Settled.canEnd (k : Settled s u st) (h : s.Runs op) (hl : s.live = true) (hst : st = .enabled ∨ st = .failed) :
    u.CanEnd := by
  refine h.canEnd_same hl k.same ?_ ⟨?_, k.attempt, k.rxBuf⟩ <;> rw [k.st] <;> rcases hst with rfl | rfl <;> decide

/-- Who runs a handshake that leaves ST at `st` while it waits (R155, R163, R178). -/
def CallsHandshake (op : BitVec 5) (st : St) : Prop :=
  (op = opProgramEnable ∧ st.takesBringUp = true) ∨ ((op = opInitialize ∨ op = opChipErase) ∧ st = .resetReleased)

/-- The handshake of a waiting control state is called by the operation that runs. -/
theorem State.HandshakeCaller.calls (h : s.HandshakeCaller) : ∃ op, s.running = some op ∧ CallsHandshake op s.st := by
  obtain ⟨hr, hst⟩ | ⟨hr | hr, hst⟩ := h
  · exact ⟨_, hr, .inl ⟨rfl, hst⟩⟩
  · exact ⟨_, hr, .inr ⟨.inl rfl, hst⟩⟩
  · exact ⟨_, hr, .inr ⟨.inr rfl, hst⟩⟩

/-- An attempt of the handshake may wait for its response (R170). -/
theorem Attempting.canWait (k : Attempting s u st n) (h : s.Runs op) (hl : s.live = true) (hc : CallsHandshake op st)
    (hp : pollIndexLegal s.pd.pollIndex = true) : u.CanWait .handshake n := by
  have hrun : u.running = some op := (h.same k.same).running
  have hcaller : u.HandshakeCaller := by
    unfold State.HandshakeCaller
    rw [hrun, k.st]
    exact hc.imp (fun h => ⟨congrArg some h.1, h.2⟩) (fun h => ⟨h.1.imp (congrArg some) (congrArg some), h.2⟩)
  have hst : u.st ≠ .closed := by
    rw [k.st]
    obtain ⟨-, hst⟩ | ⟨-, rfl⟩ := hc
    · rintro rfl; cases hst
    · decide
  exact h.canWait hl k.same {
    level := rfl, length := k.length, short := k.short, called := by simp, session := hst
    exchange := by simp
    handshake := fun _ => ⟨hcaller, k.low, k.high, k.same.pd ▸ hp⟩
    erase := by simp }

/-- EXCHANGE may wait for its response in the ST that took it (R145). -/
theorem State.Runs.canWait_exchange (h : s.Runs opExchange) (hl : s.live = true) (k : SameSession s u) (hn : n = xchgLen)
    (hst : u.st ≠ .closed) (hr : u.st.stable = true) (ha : u.attempt = 0#3) (hshort : u.rxCnt < xchgLen) :
    u.CanWait .exchange n :=
  h.canWait hl k {
    level := rfl, length := hn, short := hshort, called := by simp, session := hst
    exchange := fun _ => ⟨(h.same k).running, hr, ha⟩
    handshake := by simp
    erase := by simp }

/-- CHIP_ERASE may wait for its erase response in `Erasing` (R178). -/
theorem State.Runs.canWait_erase (h : s.Runs opChipErase) (hl : s.live = true) (k : SameSession s u) (hn : n = xchgLen)
    (hst : u.st = .erasing) (ha : u.attempt = 0#3) (hshort : u.rxCnt < xchgLen) : u.CanWait .erase n :=
  h.canWait hl k {
    level := rfl, length := hn, short := hshort, called := by simp, session := hst ▸ (by decide : St.erasing ≠ .closed)
    exchange := by simp
    handshake := by simp
    erase := fun _ => ⟨(h.same k).running, hst, ha⟩ }

end

/-! ### The operations, entered by an idle block -/

/-- The host operation `op` has just been taken by an idle block in a control state (R155). -/
structure State.Entered (u : State) (op : BitVec 5) : Prop where
  runs : u.Runs op
  live : u.live = true ↔ u.st ≠ .closed
  stable : u.st.stable = true
  attempt : u.attempt = 0#3
  rxBuf : u.rxBuf = []

theorem State.Control.entered {s : State} (hc : s.Control) (hr : s.running = none) (rest : List HostMove) (op : BitVec 5) :
    State.Entered { s with port := rest, running := some op } op := by
  obtain ⟨hx, hb⟩ := hc.idle hr
  obtain ⟨hstable, hat, hrb⟩ := hc.rest hx
  exact ⟨⟨rfl, hc.frame, hc.divisor, hx, hb⟩, hc.live, hstable, hat, hrb⟩

section
variable {s : State} {op : BitVec 5}

/-- An operation may end where it was entered. -/
theorem State.Entered.canEnd (h : s.Entered op) : s.CanEnd := h.runs.canEnd h.live ⟨h.stable, h.attempt, h.rxBuf⟩

/-- An operation that changes no ST may end when nothing is accumulated (R145, R148). -/
theorem State.Entered.canEnd_same (h : s.Entered op) (hst : s.st ≠ .closed) {u : State} (k : SameSession s u) (h1 : u.st = s.st)
    (h2 : u.attempt = s.attempt) (h3 : u.rxBuf = []) : u.CanEnd :=
  h.runs.canEnd_same (h.live.mpr hst) k (h1 ▸ hst) ⟨h1 ▸ h.stable, h2.trans h.attempt, h3⟩

/-- A bring-up operation is taken in a session only (R155). -/
theorem State.Entered.live_of_takesBringUp (h : s.Entered op) (hst : s.st.takesBringUp = true) : s.live = true :=
  h.live.mpr (by intro hc; rw [hc] at hst; cases hst)

/-- OPEN (R157). -/
theorem openBody_controlled (h : s.Entered op) (hst : s.st = .closed) : (openBody s).Controlled := by
  have hdead : s.live = false := by rw [← Bool.not_eq_true, h.live]; exact not_not.mpr hst
  have hruns : ∀ u, Opening s u → u.clk = none → u.Runs op := fun u ho hclk =>
    ⟨ho.running.trans h.runs.running, ho.frame.trans h.runs.frame, hclk, ho.rx.trans h.runs.rx, ho.resBuf.trans h.runs.resBuf⟩
  refine (openBody_sat s).mono ?_ ?_ (fun _ _ _ h => h.elim)
  · rintro - u ⟨ho, -, h1, h2, h3, -⟩
    exact (hruns u ho h3).canEnd (by simp [h1, h2]) ⟨h1 ▸ rfl, ho.attempt.trans h.attempt, ho.rxBuf.trans h.rxBuf⟩
  · rintro e u ⟨ho, h1, h2, h3, -⟩
    exact (hruns u ho (h3 h.runs.divisor)).canEnd (by simp [h1, hst, h2 hdead])
      ⟨h1 ▸ h.stable, ho.attempt.trans h.attempt, ho.rxBuf.trans h.rxBuf⟩

/-- CLOSE (R185). -/
theorem closeBody_canEnd (h : s.Entered op) : (closeBody s).CanEnd := by
  obtain ⟨hst, hl, -⟩ := closeBody_ends s
  obtain ⟨ho, hclk⟩ := closeBody_frame s
  have hruns : (closeBody s).Runs op := ⟨ho.running.trans h.runs.running, ho.frame.trans h.runs.frame,
    hclk.trans h.runs.divisor, ho.rx.trans h.runs.rx, ho.resBuf.trans h.runs.resBuf⟩
  exact hruns.canEnd (by simp [hst, hl]) ⟨hst ▸ rfl, ho.attempt.trans h.attempt, ho.rxBuf.trans h.rxBuf⟩

/-- INITIALIZE (R163). -/
theorem initializeBody_controlled (h : s.Entered opInitialize) (hst : s.st.takesBringUp = true) :
    (initializeBody s).Controlled := by
  have hl := h.live_of_takesBringUp hst
  refine (initializeBody_sat s h.rxBuf h.attempt).mono ?_ ?_ ?_
  · exact fun _ u k => k.canEnd h.runs hl (.inl rfl)
  · exact fun _ u k => k.2.canEnd h.runs hl (.inr rfl)
  · rintro _ n u ⟨rfl, k, hp⟩
    exact k.canWait h.runs hl (.inr ⟨.inl rfl, rfl⟩) hp

/-- PROGRAM_ENABLE (R170). -/
theorem programEnable_controlled (h : s.Entered opProgramEnable) (hst : s.st.takesBringUp = true) :
    (programEnable s).Controlled := by
  have hl := h.live_of_takesBringUp hst
  refine (programEnable_sat s h.rxBuf h.attempt).mono ?_ ?_ ?_
  · exact fun _ u k => k.canEnd h.runs hl (.inl rfl)
  · exact fun _ u k => k.2.canEnd h.runs hl (.inr rfl)
  · rintro _ n u ⟨rfl, k, hp⟩
    exact k.canWait h.runs hl (.inl ⟨rfl, hst⟩) hp

/-- CHIP_ERASE (R178). -/
theorem chipEraseBody_controlled (h : s.Entered opChipErase) (hst : s.st = .enabled) : (chipEraseBody s).Controlled := by
  have hl := h.live_of_takesBringUp (by rw [hst]; rfl)
  refine (chipEraseBody_sat s h.rxBuf h.attempt).mono ?_ ?_ ?_
  · exact fun _ u k => k.canEnd h.runs hl (.inl rfl)
  · rintro e u (⟨-, rfl, -⟩ | ⟨-, k⟩)
    · exact h.canEnd
    · exact k.canEnd h.runs hl (.inr rfl)
  · rintro c n u (⟨rfl, k, hp⟩ | ⟨rfl, k, hn, h1, h2, h3⟩)
    · exact k.canWait h.runs hl (.inr ⟨.inr rfl, rfl⟩) hp
    · exact h.runs.canWait_erase hl k hn h1 h2 h3

/-- EXCHANGE (R145). -/
theorem exchange_controlled (h : s.Entered opExchange) (hst : s.st ≠ .closed) (c : Quad) :
    ((exchange c s).waitingFor .exchange).Controlled := by
  refine Res.sat_waitingFor ((exchange_sat c s h.rxBuf).mono ?_ ?_ ?_)
  · exact fun _ u ⟨k, h1, h2, h3⟩ => h.canEnd_same hst k h1 h2 h3
  · exact fun _ u ⟨_, k, h1, h2, h3⟩ => h.canEnd_same hst k h1 h2 h3
  · rintro - n u ⟨k, hn, h1, h2, h3⟩
    exact h.runs.canWait_exchange (h.live.mpr hst) k hn (h1 ▸ hst) (h1 ▸ h.stable) (h2.trans h.attempt) h3

/-- SET_PIN, run by an LED setter (R148 to R151). -/
theorem setPin_controlled (h : s.Entered op) (hst : s.st ≠ .closed) (r : SRole) (v : Bool) : (setPin r v s).Controlled := by
  refine (setPin_sat r v s).mono ?_ ?_ (fun _ _ _ h => h.elim)
  · exact fun _ u ⟨k, h1, h2, h3⟩ => h.canEnd_same hst k h1 h2 (h3.trans h.rxBuf)
  · exact fun _ u ⟨_, k, h1, h2, h3⟩ => h.canEnd_same hst k h1 h2 (h3.trans h.rxBuf)

end

/-! ### The steps -/

/-- A command of the host leaves a control state (R155 to R185). -/
theorem command_control {s t : State} (hc : s.Control) (hr : s.running = none) (rest : List HostMove)
    (h : Command { s with port := rest } t) : t.Control := by
  have entered := hc.entered hr rest
  cases h with
  | refused op code hcode ht => subst ht; exact (entered op).canEnd _
  | opened hst ht => exact settle_control ht ((openBody_controlled (entered _) hst).withData _)
  | closed ht => subst ht; exact closeBody_canEnd (entered _) _
  | initialized hst ht => exact settle_control ht ((initializeBody_controlled (entered _) hst).withData _)
  | enabled hst ht => exact settle_control ht ((programEnable_controlled (entered _) hst).withData _)
  | erased hst ht => exact settle_control ht ((chipEraseBody_controlled (entered _) hst).withData _)
  | exchanged c hst ht => exact settle_control ht ((exchange_controlled (entered _) hst c).withData _)
  | led op hop r v hst ht => exact settle_control ht ((setPin_controlled (entered op) hst r v).withData _)

/-- The next read of a receive loop leaves a control state (R127, R128). -/
theorem resumeReceive_control {s t : State} {w : RxWait} (hc : s.Control) (hx : s.rx = some w)
    (h : resumeReceive w s = .next t) : t.Control := by
  have hw := hc.loop w hx
  obtain ⟨-, -, hl⟩ := hc.waiting hx
  rw [resumeReceive_exchange w s hw.length hw.level] at h
  cases hcl : w.client with
  | shift => exact absurd hcl hw.called
  | exchange =>
    obtain ⟨hop, hstable, hat⟩ := hw.exchange hcl
    have hruns := hc.resumes hx hop
    rw [hcl] at h
    refine settle_control h ((resumeExchange_sat _).mono ?_ ?_ ?_)
    · rintro - u ⟨k, h1, h2, h3⟩
      exact hruns.canEnd_same hl k (h1 ▸ hw.session) ⟨h1 ▸ hstable, h2.trans hat, h3⟩
    · rintro - u ⟨-, k, h1, h2, h3⟩
      exact hruns.canEnd_same hl k (h1 ▸ hw.session) ⟨h1 ▸ hstable, h2.trans hat, h3⟩
    · rintro - n u ⟨rfl, k, hn, h1, h2, h3⟩
      exact hruns.canWait_exchange hl k hn (h1 ▸ hw.session) (h1 ▸ hstable) (h2.trans hat) h3
  | handshake =>
    obtain ⟨hcaller, hlow, hhigh, hp⟩ := hw.handshake hcl
    obtain ⟨op, hop, hcalls⟩ := hcaller.calls
    have hruns := hc.resumes hx hop
    rw [hcl] at h
    refine settle_control h ((resumeHandshake_sat { s with rx := none } hlow hhigh).mono ?_ ?_ ?_)
    · exact fun _ u k => k.canEnd hruns hl (.inl rfl)
    · exact fun _ u k => k.2.canEnd hruns hl (.inr rfl)
    · rintro _ n u ⟨rfl, k⟩
      exact k.canWait hruns hl hcalls hp
  | erase =>
    obtain ⟨hop, hst, hat⟩ := hw.erase hcl
    have hruns := hc.resumes hx hop
    rw [hcl] at h
    refine settle_control h ((resumeErase_sat { s with rx := none } hat).mono ?_ ?_ ?_)
    · exact fun _ u k => k.canEnd hruns hl (.inl rfl)
    · exact fun _ u k => k.2.canEnd hruns hl (.inr rfl)
    · rintro c n u (⟨rfl, k, hp⟩ | ⟨rfl, k, hn, h1, h2, h3⟩)
      · exact k.canWait hruns hl (.inr ⟨.inr rfl, rfl⟩) hp
      · exact hruns.canWait_erase hl k hn (h1.trans hst) h2 h3

/-- Settles O50: by the ways a step goes on (`step_kind`); an operation that begins or goes on may end or wait where its own lemma
says it does. -/
theorem stepsKeepControl : Obligations.StepsKeepControl := by
  intro s t hc h
  cases step_kind hc h with
  | resumed w hx ht => exact resumeReceive_control hc hx ht
  | presented r op hx hr hop ht =>
    subst ht
    exact control_of_rx_none hx hc.frame hc.divisor hc.live (by simp [presentResult]) (hc.rest hx)
  | idle hx hb hr hp ht => exact ht ▸ hc
  | written m rest hx hb hr hp ht =>
    rw [ht]
    exact control_of_rx_none hx hc.frame hc.divisor hc.live (by simp [hb, hr]) (hc.rest hx)
  | command w operand rest hx hb hr hp ht => exact command_control hc hr rest (command_kind hr ht)

end Sys2Proof.Machine
end

section
/-!
SUPPORT. The state after a power-on reset, and the registers the host writes: one move a step.
-/

namespace Sys2Proof.Machine

/-! ### Reset (R26, R220) -/

/-- Settles O12: each register, as R26 and R20 give it. -/
theorem resetLeavesPowerOnValues : Obligations.ResetLeavesPowerOnValues :=
  ⟨rfl, rfl, PinTable.get_zero, fun g => by cases g <;> rfl, rfl, rfl, rfl, rfl, PinTable.get_zero, fun g => by cases g <;> rfl,
    rfl, rfl, rfl, rfl, rfl⟩

/-- The block after a power-on reset is idle and at rest (R26, R220). -/
theorem reset_control : State.reset.Control :=
  control_of_rx_none rfl rfl rfl (by decide) (iff_of_true rfl rfl) ⟨rfl, rfl, rfl⟩

/-- Settles O13: the block is at rest, there is no session, the default parameters are legal, and nothing has been sent. -/
theorem resetMeetsTheInvariants : Obligations.ResetMeetsTheInvariants :=
  ⟨reset_control, (fun h => by cases h), by decide, WholeFrames.nil _⟩

/-! ### Register writes (R20, R21) -/

/-- A host move that is no instruction is made by the step of an idle block (R20, R21). -/
theorem step_writeRegister {s : State} {m : HostMove} {rest : List HostMove} (hx : s.rx = none) (hf : s.frame = [])
    (hb : s.resBuf = none) (hp : s.port = m :: rest) (hm : m.wire = none) :
    step s = .next (writeRegister m { s with port := rest }) := by
  simp [step, fetch, hx, hf, hb, hp, hm]

/-- Settles O6: every register write is a move that is no instruction. -/
theorem hostWritesItsRegisters : Obligations.HostWritesItsRegisters := by
  intro s rest hx hf hb
  have write : ∀ m : HostMove, m.wire = none → s.port = m :: rest → step s = .next (writeRegister m { s with port := rest }) :=
    fun m hm hp => step_writeRegister hx hf hb hp hm
  exact ⟨fun v => write _ rfl, fun v => write _ rfl, fun v => write _ rfl, fun c => write _ rfl, write _ rfl,
    fun c => write _ rfl, write _ rfl, fun i v => write _ rfl, fun d => write _ rfl⟩

/-- A write of one group's entry reads back at its own group and nowhere else. -/
theorem GroupTable.get_set (t : GroupTable) (g k : GRole) (v : Mask) : (t.set g v).get k = if k = g then v else t.get k := by
  by_cases h : k = g
  · subst h; simp
  · simp [h, GroupTable.get_set_ne t v h]

/-- Settles O7: the write of one table entry (`PinTable.get_set`, `GroupTable.get_set`). -/
theorem configWordsAreStored : Obligations.ConfigWordsAreStored :=
  ⟨fun r raw s => ⟨writeCfgPin r raw s, rfl, fun q => PinTable.get_set _ r q raw, rfl⟩,
    fun g mask s => ⟨writeCfgGroup g mask s, rfl, fun k => GroupTable.get_set _ g k mask, rfl⟩⟩

end Sys2Proof.Machine
end

section
/-!
SUPPORT. What a step does to the pin table and the masks of a session (R24): a session begins with the masks PIN_SETUP built,
goes on inside `SameSession`, and ends with the pin table and the fixed masks as they were.
-/

namespace Sys2Proof.Machine

/-- `t` has the pin table, the masks and the liveness bit of `s`. -/
structure SameView (s t : State) : Prop where
  pins : SamePins s t
  live : t.live = s.live

/-- The ways a step treats the pin table and the masks. -/
inductive PinsMoved (s t : State) : Prop
  /-- a session begins -/
  | opened (hst : s.st = .closed) (hm : t.Masks)
  /-- no session is left, and the one that ended leaves all masks but VAL (R27) -/
  | closed (hl : t.live = false)
      (hp : s.st ≠ .closed → t.pinmap = s.pinmap ∧ t.gmask = s.gmask ∧ t.dir = s.dir ∧ t.inv = s.inv)
  /-- work inside one session, from `v` to `u` -/
  | within (v u : State) (hv : SameView s v) (hs : SameSession v u) (hu : SameView u t)

theorem SameView.of_eq {s t u : State} (h : t = u) (k : SameView s u) : SameView s t := h ▸ k

/-- The state an operation begins in or goes on from looks as the one before the step. -/
theorem sameView_begin {s v : State} {op : BitVec 5}
    (h : v = { s with rx := none } ∨ s.running = none ∧ ∃ rest, v = { s with port := rest, running := some op }) :
    SameView s v := by
  obtain rfl | ⟨-, rest, rfl⟩ := h <;> exact ⟨⟨rfl, rfl, rfl, rfl, rfl⟩, rfl⟩

theorem Moved.pins {s t : State} (h : Moved s t) : PinsMoved s t := by
  cases h with
  | quiet h hh hr =>
    exact .within s s ⟨⟨rfl, rfl, rfl, rfl, rfl⟩, rfl⟩ (.refl s) (.of_eq h ⟨⟨rfl, rfl, rfl, rfl, rfl⟩, rfl⟩)
  | openOk rest hr hst u ho hm h1 h2 d ht => subst ht; exact .opened hst (hm.of_eq rfl rfl rfl rfl rfl)
  | openErr rest hr hst e u he ho h1 h2 ht => exact .closed (ht ▸ h2) (absurd hst)
  | closed rest hr ht =>
    subst ht
    exact .closed (closeBody_ends _).2.1 (fun _ => closeBody_same _)
  | exchange v u h0 hop hst hs hst' ht =>
    refine .within v u (sameView_begin h0) hs ?_
    obtain ⟨d, ht⟩ | ⟨e, -, ht⟩ | ⟨n, ht⟩ := ht <;> exact .of_eq ht ⟨⟨rfl, rfl, rfl, rfl, rfl⟩, rfl⟩
  | led rest op hr hop hst u hs hst' ht =>
    refine .within _ u (sameView_begin (op := op) (.inr ⟨hr, rest, rfl⟩)) hs ?_
    obtain ⟨d, ht⟩ | ht := ht <;> exact .of_eq ht ⟨⟨rfl, rfl, rfl, rfl, rfl⟩, rfl⟩
  | bring op v u h0 hop hfrom hst hs ht =>
    refine .within v u (sameView_begin h0) hs ?_
    obtain ⟨-, d, ht⟩ | ⟨e, -, -, ht⟩ | ⟨-, -, -, -, ht⟩ | ⟨n, -, ht⟩ | ⟨n, -, -, -, ht⟩ := ht <;>
      exact .of_eq ht ⟨⟨rfl, rfl, rfl, rfl, rfl⟩, rfl⟩

/-- The masks do not depend on anything else. -/
theorem SameView.masks {s t : State} (h : SameView s t) (hm : s.Masks) : t.Masks :=
  hm.of_eq h.pins.pinmap h.pins.gmask h.pins.dir h.pins.inv h.pins.val

/-- Settles O51: the masks hold when a session begins, and work inside it keeps them (`SameSession.masks`). -/
theorem stepsKeepTheMasks : Obligations.StepsKeepTheMasks := by
  intro s t hc hm h hl
  cases (moved_of_step hc h).pins with
  | opened hst hm' => exact hm'
  | closed hdead hp => rw [hl] at hdead; cases hdead
  | within v u hv hs hu =>
    have hlive : s.live = true := by rw [← hv.live, ← hs.live, ← hu.live]; exact hl
    exact hu.masks (hs.masks (hv.masks (hm hlive)))

/-- Settles O52: neither work inside a session nor its end touches them. -/
theorem pinTableIsFixedInSession : Obligations.PinTableIsFixedInSession := by
  intro s t hc hl h
  have hst := hc.live.mp hl
  cases (moved_of_step hc h).pins with
  | opened hclosed hm => exact absurd hclosed hst
  | closed hdead hp => exact hp hst
  | within v u hv hs hu =>
    exact ⟨hu.pins.pinmap.trans (hs.pinmap.trans hv.pins.pinmap), hu.pins.gmask.trans (hs.gmask.trans hv.pins.gmask),
      hu.pins.dir.trans (hs.dir.trans hv.pins.dir), hu.pins.inv.trans (hs.inv.trans hv.pins.inv)⟩

end Sys2Proof.Machine
end

section
/-!
SUPPORT. Only OPEN reads the configuration registers (R28, R231): every other operation, started with other values in them, ends in
the same way with those values kept. Shown for each piece of an operation, from the bottom of the call tree (R186) to its top.
-/

namespace Sys2Proof.Machine

/-- The block with the configuration registers `c`. -/
def State.withCfg (c : CfgRegs) (s : State) : State := { s with cfg := c }

/-- The piece `f` of an operation does not read the configuration registers: with the values `c` in them it ends in the same way. -/
def CfgBlind {α : Type} (c : CfgRegs) (f : State → Res α) : Prop := ∀ s, f (s.withCfg c) = (f s).onState (State.withCfg c)

section
variable {α β : Type} {c : CfgRegs}

/-! ### Composition -/

theorem CfgBlind.ok (a : α) {g : State → State} (hg : ∀ s, g (s.withCfg c) = (g s).withCfg c) :
    CfgBlind c fun s => .ok a (g s) := fun s => congrArg (Res.ok a) (hg s)

theorem CfgBlind.raise (e : Err) {g : State → State} (hg : ∀ s, g (s.withCfg c) = (g s).withCfg c) :
    CfgBlind c fun s => (.raise e (g s) : Res α) := fun s => congrArg (Res.raise e) (hg s)

theorem CfgBlind.refuse (x : Refusal) : CfgBlind c fun _ => (.refuse x : Res α) := fun _ => rfl

/-- State writes before the piece. -/
theorem CfgBlind.after {f : State → Res α} (hf : CfgBlind c f) {g : State → State}
    (hg : ∀ s, g (s.withCfg c) = (g s).withCfg c) : CfgBlind c fun s => f (g s) :=
  fun s => (congrArg f (hg s)).trans (hf (g s))

theorem CfgBlind.bind {f : State → Res α} {k : α → State → Res β} (hf : CfgBlind c f) (hk : ∀ a, CfgBlind c (k a)) :
    CfgBlind c fun s => (f s).bind (k · ·) := by
  intro s
  dsimp only
  rw [hf s]
  cases f s with
  | ok a t => exact hk a t
  | _ => rfl

theorem CfgBlind.onRaise {f : State → Res α} {g : State → State} (hf : CfgBlind c f)
    (hg : ∀ s, g (s.withCfg c) = (g s).withCfg c) : CfgBlind c fun s => (f s).onRaise g := by
  intro s
  dsimp only
  rw [hf s]
  cases f s with
  | raise e t => exact congrArg (Res.raise e) (hg t)
  | _ => rfl

theorem CfgBlind.finally {f : State → Res α} {g : State → State} (hf : CfgBlind c f)
    (hg : ∀ s, g (s.withCfg c) = (g s).withCfg c) : CfgBlind c fun s => (f s).finally g := by
  intro s
  dsimp only
  rw [hf s]
  cases f s with
  | ok a t => exact congrArg (Res.ok a) (hg t)
  | raise e t => exact congrArg (Res.raise e) (hg t)
  | _ => rfl

theorem CfgBlind.withData {f : State → Res α} {g : α → BitVec 32} (hf : CfgBlind c f) : CfgBlind c fun s => (f s).withData g :=
  hf.bind fun a => .ok (g a) fun _ => rfl

theorem CfgBlind.waitingFor {f : State → Res α} {x : RxClient} (hf : CfgBlind c f) : CfgBlind c fun s => (f s).waitingFor x := by
  intro s
  dsimp only
  rw [hf s]
  cases f s <;> rfl

/-- A condition that does not read the configuration registers. -/
theorem CfgBlind.ite {p : State → Prop} [DecidablePred p] {f g : State → Res α} (hp : ∀ s, p (s.withCfg c) = p s)
    (hf : CfgBlind c f) (hg : CfgBlind c g) : CfgBlind c fun s => if p s then f s else g s := by
  intro s
  by_cases h : p s
  · simp only [hp, h, if_true]; exact hf s
  · simp only [hp, h, if_false]; exact hg s

end

/-! ### The pieces -/

section
variable (c : CfgRegs)

theorem sendFrame_cfgBlind (bytes : List Byte) : CfgBlind c (sendFrame bytes) :=
  .ite (fun _ => rfl) (.ok () fun _ => rfl) (.raise .writeShort fun _ => rfl)

theorem setPin_cfgBlind (r : SRole) (v : Bool) : CfgBlind c (setPin r v) :=
  .ite (fun _ => rfl) (.ok () fun _ => rfl) fun s => sendFrame_cfgBlind c _ (writePinBit (pinBit (pinfield (s.pinmap.get r))) v s)

theorem assignSingle_cfgBlind (r : SRole) (raw : Byte) : CfgBlind c (assignSingle r raw) :=
  .ite (fun _ => rfl) (.ok () fun _ => rfl) <| .ite (fun _ => rfl) (.raise _ fun _ => rfl) <|
    .ite (fun _ => rfl) (.raise _ fun _ => rfl) (.ok () fun _ => rfl)

theorem assignGroup_cfgBlind (g : GRole) (mask : Mask) : CfgBlind c (assignGroup g mask) :=
  .ite (fun _ => rfl) (.raise _ fun _ => rfl) <| .ite (fun _ => rfl) (fun _ => rfl) (.ok () fun _ => rfl)

theorem fixRole_cfgBlind (r : SRole) (want : BitVec 7) : CfgBlind c (fixRole r want) :=
  .ite (fun _ => rfl) (.ok () fun _ => rfl) <| .ite (fun _ => rfl) (.raise _ fun _ => rfl) (.ok () fun _ => rfl)

theorem fixReset_cfgBlind : CfgBlind c fixReset :=
  .ite (fun _ => rfl) (.ok () fun _ => rfl) <| .ite (fun _ => rfl) (.raise _ fun _ => rfl) (.ok () fun _ => rfl)

theorem validateLayout_cfgBlind : CfgBlind c validateLayout :=
  (fixRole_cfgBlind c .clk pinClk).bind fun _ => (fixRole_cfgBlind c .dout pinDout).bind fun _ =>
    (fixRole_cfgBlind c .din pinDin).bind fun _ => fixReset_cfgBlind c

theorem setClock_cfgBlind (hz : BitVec 32) : CfgBlind c (setClock hz) :=
  .finally (.after (sendFrame_cfgBlind c _) fun s => by simp only [reportCaps_eq]; rfl) fun _ => rfl

theorem receive_cfgBlind (n : Nat) : CfgBlind c (receive n) := by
  intro s
  have hans : readAnswer (n - s.rxCnt) (s.withCfg c) = readAnswer (n - s.rxCnt) s := rfl
  have hcnt : (s.withCfg c).rxCnt = s.rxCnt := rfl
  have hbuf : (s.withCfg c).rxBuf = s.rxBuf := rfl
  unfold receive
  rw [hcnt]
  split
  · dsimp only
    rw [hans, hbuf]
    cases readAnswer (n - s.rxCnt) s with
    | error => rfl
    | bytes l => dsimp only; split <;> rfl
  · rfl

theorem shift_cfgBlind (mode : Byte) (n : Nat) (payload : List Byte) : CfgBlind c (shift mode n payload) := by
  refine .ite (fun _ => rfl) (.refuse _) <|
    .bind (.ite (fun _ => rfl) (sendFrame_cfgBlind c _) (.ok () fun _ => rfl)) fun _ => ?_
  exact .ite (fun _ => rfl) (.after (receive_cfgBlind c n) fun _ => rfl) (.ok [] fun _ => rfl)

end

section
variable {c : CfgRegs}

theorem CfgBlind.asResponse {f : State → Res (List Byte)} (hf : CfgBlind c f) : CfgBlind c fun s => asResponse (f s) :=
  hf.bind fun l => .ok (quadOfList l) fun _ => rfl

theorem exchange_cfgBlind (q : Quad) : CfgBlind c (exchange q) :=
  fun s => (shift_cfgBlind c s.par.modeTrx xchgLen q.toList).asResponse s

theorem pulseReset_cfgBlind {next : State → Res Unit} (hn : CfgBlind c next) : CfgBlind c (pulseReset next) :=
  .bind (.onRaise (.bind (setPin_cfgBlind c .reset true) fun _ => .after (setPin_cfgBlind c .reset false) fun _ => rfl)
    fun _ => rfl) fun _ => hn

theorem CfgBlind.judgeAttempt {next : State → Res Unit} (hn : CfgBlind c next) {f : State → Res Quad} (hf : CfgBlind c f) :
    CfgBlind c fun s => judgeAttempt next (f s) := by
  intro s
  dsimp only
  rw [hf s]
  cases f s with
  | ok q t =>
    have hpd : (t.withCfg c).pd = t.pd := rfl
    simp only [Res.onState, Machine.judgeAttempt, hpd]
    split
    · rfl
    · exact pulseReset_cfgBlind hn t
  | raise e t => exact pulseReset_cfgBlind hn t
  | _ => rfl

theorem handshake_cfgBlind (left : Nat) : CfgBlind c (handshake left) := by
  induction left with
  | zero => exact .raise _ fun _ => rfl
  | succ left ih => exact ih.judgeAttempt fun s => exchange_cfgBlind s.pd.peCmd { s with attempt := s.attempt + 1#3 }

theorem programEnable_cfgBlind : CfgBlind c programEnable :=
  .ite (fun _ => rfl) (.refuse _) <| .ite (fun _ => rfl) (.raise _ fun _ => rfl) (.after (handshake_cfgBlind _) fun _ => rfl)

theorem resetSequence_cfgBlind : CfgBlind c resetSequence :=
  .bind (setPin_cfgBlind c .reset false) fun _ => .bind (setPin_cfgBlind c .clk false) fun _ =>
    .bind (.after (setPin_cfgBlind c .reset true) fun _ => rfl) fun _ =>
      .bind (.after (setPin_cfgBlind c .reset false) fun _ => rfl) fun _ => .ok () fun _ => rfl

theorem initializeBody_cfgBlind : CfgBlind c initializeBody :=
  .bind (.onRaise resetSequence_cfgBlind fun _ => rfl) fun _ => programEnable_cfgBlind

theorem CfgBlind.judgeErase {f : State → Res Quad} (hf : CfgBlind c f) : CfgBlind c fun s => judgeErase (f s) := by
  intro s
  dsimp only
  rw [hf s]
  cases f s with
  | ok q t => exact initializeBody_cfgBlind (t.waitFor t.pd.eraseDelay.toNat)
  | _ => rfl

theorem chipEraseBody_cfgBlind : CfgBlind c chipEraseBody :=
  .ite (fun _ => rfl) (.raise _ fun _ => rfl) <| .judgeErase fun s => exchange_cfgBlind s.pd.ceCmd { s with st := .erasing }

theorem closeBody_withCfg (s : State) : closeBody (s.withCfg c) = (closeBody s).withCfg c := by
  have hlive : (s.withCfg c).live = s.live := rfl
  unfold closeBody
  rw [hlive, setPin_cfgBlind c]
  split
  · cases setPin .reset true s <;> rfl
  · rfl

/-! ### Entering and ending an operation -/

/-- The outcome with the configuration registers `c`. -/
def outWithCfg (c : CfgRegs) : Out → Out
  | .next t => .next (t.withCfg c)
  | .fault x => .fault x
  | .refused x => .refused x

theorem settle_withCfg (l : Level) (r : Res (BitVec 32)) : settle l (r.onState (State.withCfg c)) = outWithCfg c (settle l r) := by
  cases r <;> cases l <;> rfl

theorem accept_withCfg (s : State) (op : BitVec 5) : (s.withCfg c).accept op = (s.accept op).withCfg c := by
  have hrun : (s.withCfg c).running = s.running := rfl
  unfold State.accept
  rw [hrun]
  cases s.running <;> rfl

theorem runChecked_withCfg {body : State → Res (BitVec 32)} (hb : CfgBlind c body) (op : BitVec 5) (takes : Bool) (s : State) :
    runChecked op takes body (s.withCfg c) = outWithCfg c (runChecked op takes body s) := by
  have hbody : CfgBlind c fun s => if takes then body s else .raise .badState s := .ite (fun _ => rfl) hb (.raise _ fun _ => rfl)
  unfold runChecked
  rw [accept_withCfg, ← settle_withCfg]
  exact congrArg (settle s.level) (hbody (s.accept op))

theorem runInternal_withCfg {body : State → Res (BitVec 32)} (hb : CfgBlind c body) (op : BitVec 5) (s : State) :
    runInternal op body (s.withCfg c) = outWithCfg c (runInternal op body s) := by
  have hrun : (s.withCfg c).running = s.running := rfl
  unfold runInternal
  rw [hrun, accept_withCfg, hb s, settle_withCfg]
  cases s.running <;> rfl

theorem settle_illegalOp_withCfg (op : BitVec 5) (s : State) :
    settle s.level (.raise .illegalOp ((s.withCfg c).accept op)) =
      outWithCfg c (settle s.level (.raise .illegalOp (s.accept op))) := by
  rw [accept_withCfg]
  exact settle_withCfg s.level (.raise .illegalOp (s.accept op))

end

/-- Settles O60: the body of each operation is blind to the registers, and so is entering and ending it (`runChecked_withCfg`,
`runInternal_withCfg`); sending a frame and presenting a result read none of them. -/
theorem onlyOpenReadsConfig : Obligations.OnlyOpenReadsConfig := by
  intro i s c hopen hsetup hpin hgroup
  have key : exec i (s.withCfg c) = outWithCfg c (exec i s) := by
    cases i with
    | openOp => exact absurd rfl hopen
    | pinSetup => exact absurd rfl hsetup
    | pinSpec r raw => exact absurd rfl (hpin r raw)
    | groupMask g m => exact absurd rfl (hgroup g m)
    | closeOp =>
      unfold exec execClose
      refine runChecked_withCfg ?_ _ _ s
      exact .ok 0#32 closeBody_withCfg
    | initializeOp => exact runChecked_withCfg initializeBody_cfgBlind.withData _ _ s
    | programEnable => exact runChecked_withCfg programEnable_cfgBlind.withData _ _ s
    | chipErase => exact runChecked_withCfg chipEraseBody_cfgBlind.withData _ _ s
    | exchange q => exact runChecked_withCfg (exchange_cfgBlind q).waitingFor.withData _ _ s
    | setLed0 v => exact runChecked_withCfg (setPin_cfgBlind c .led0 v).withData _ _ s
    | setLed1 v => exact runChecked_withCfg (setPin_cfgBlind c .led1 v).withData _ _ s
    | setLed2 v => exact runChecked_withCfg (setPin_cfgBlind c .led2 v).withData _ _ s
    | setLed3 v => exact runChecked_withCfg (setPin_cfgBlind c .led3 v).withData _ _ s
    | assignSingle r raw => exact runInternal_withCfg (assignSingle_cfgBlind c r raw).withData _ s
    | assignGroup g m => exact runInternal_withCfg (assignGroup_cfgBlind c g m).withData _ s
    | validateLayout w x y z =>
      unfold exec execValidateLayout
      refine runInternal_withCfg ?_ _ s
      exact .withData (.after (validateLayout_cfgBlind c) fun _ => rfl)
    | computeDivisor hz =>
      unfold exec execComputeDivisor
      refine runInternal_withCfg ?_ _ s
      exact .ok 0#32 fun _ => rfl
    | setClock hz => exact runInternal_withCfg (setClock_cfgBlind c hz).withData _ s
    | encodeGpioSet =>
      unfold exec execEncodeGpioSet
      refine runInternal_withCfg ?_ _ s
      exact .ok 0#32 fun _ => rfl
    | shift mode n payload => exact runInternal_withCfg (shift_cfgBlind c mode n.toNat payload).withData _ s
    | setPin r v => exact runInternal_withCfg (setPin_cfgBlind c r v).withData _ s
    | reservedLow op => exact settle_illegalOp_withCfg op s
    | reservedHigh op => exact settle_illegalOp_withCfg op s
    | clkFrame d => rfl
    | gpioFrame v d => rfl
    | shiftFrame m payload => rfl
    | hostRes st d => rfl
  refine key.trans ?_
  cases exec i s <;> rfl

end Sys2Proof.Machine
end

section
/-!
SUPPORT. The outgoing stream (R41, R74): whole frames parse back from the first byte, and every step keeps the stream whole frames.
-/

namespace Sys2Proof.Machine

/-! ### Parsing whole frames -/

/-- The bytes of a well-formed frame decode to it, whatever follows. -/
theorem takeFrame_frameBytes {p : Params} (hp : p.wf = true) {f : Instr} (hf : isFrame f = true) (hw : f.wf p = true)
    (rest : List Byte) : takeFrame p (frameBytes f ++ rest) = .ok (f, rest) := by
  cases f with
  | clkFrame d => exact takeFrame_clk p d rest
  | gpioFrame v d => exact takeFrame_gpio p v d rest
  | shiftFrame m payload => exact takeFrame_shift hp rest hw
  | _ => cases hf

/-- A frame at the head of the bytes is the first one parsed. -/
theorem parseFrames_of_takeFrame {p : Params} {fuel : Nat} {bytes tail : List Byte} {f : Instr} {frames : List Instr}
    (h : takeFrame p bytes = .ok (f, tail)) (ht : parseFrames p fuel tail = .ok frames) :
    parseFrames p (fuel + 1) bytes = .ok (f :: frames) := by
  cases bytes with
  | nil => cases h
  | cons b rest => simp only [parseFrames, h, ht]

/-- A frame takes at least one byte, so fuel for every frame is enough. -/
theorem parseFrames_frameBytes {p : Params} (hp : p.wf = true) {frames : List Instr}
    (hf : ∀ f ∈ frames, isFrame f = true ∧ f.wf p = true) {fuel : Nat} (hfuel : frames.length ≤ fuel) :
    parseFrames p fuel (frames.flatMap frameBytes) = .ok frames := by
  induction frames generalizing fuel with
  | nil => cases fuel <;> rfl
  | cons f fs ih =>
    obtain ⟨⟨hframe, hwf⟩, hfs⟩ := List.forall_mem_cons.mp hf
    cases fuel with
    | zero => cases hfuel
    | succ fuel =>
      exact parseFrames_of_takeFrame (takeFrame_frameBytes hp hframe hwf _) (ih hfs (Nat.le_of_succ_le_succ hfuel))

theorem frameBytes_ne_nil {f : Instr} (hf : isFrame f = true) : frameBytes f ≠ [] := by
  cases f with
  | clkFrame d => exact List.cons_ne_nil _ _
  | gpioFrame v d => exact List.cons_ne_nil _ _
  | shiftFrame m payload => exact List.cons_ne_nil _ _
  | _ => cases hf

theorem length_le_frameBytes {frames : List Instr} (hf : ∀ f ∈ frames, isFrame f = true) :
    frames.length ≤ (frames.flatMap frameBytes).length := by
  induction frames with
  | nil => exact Nat.le_refl 0
  | cons f fs ih =>
    obtain ⟨hframe, hfs⟩ := List.forall_mem_cons.mp hf
    have hpos := List.length_pos_of_ne_nil (frameBytes_ne_nil hframe)
    have hrest := ih hfs
    rw [List.flatMap_cons, List.length_append, List.length_cons]
    omega

/-- The parser of a stream gives back the frames it is made of (R74). -/
theorem parseStream_frameBytes {p : Params} (hp : p.wf = true) {frames : List Instr}
    (hf : ∀ f ∈ frames, isFrame f = true ∧ f.wf p = true) : parseStream p (frames.flatMap frameBytes) = .ok frames :=
  parseFrames_frameBytes hp hf (length_le_frameBytes fun f hm => (hf f hm).1)

theorem WholeFrames.parses {p : Params} {bytes : List Byte} (hp : p.wf = true) (h : WholeFrames p bytes) :
    ∃ frames, parseStream p bytes = .ok frames := by
  obtain ⟨frames, hf, rfl⟩ := h
  exact ⟨frames, parseStream_frameBytes hp hf⟩

/-! ### The stream of a run -/

/-- The writes appended to a whole stream leave it whole (R41). -/
theorem Grows.wholeFrames {s t : State} (h : Grows s t) (hp : s.par.wf = true) (hs : WholeFrames s.par (outgoing s.hist)) :
    WholeFrames s.par (outgoing t.hist) := by
  obtain ⟨l, hl, hw, -⟩ := h.events
  rw [hl, outgoing_append]
  exact hs.append (hw hp)

/-- Settles O53: a step appends whole frames only (`step_grows`), and whole frames parse (`WholeFrames.parses`). -/
theorem outgoingStreamIsWholeFrames : Obligations.OutgoingStreamIsWholeFrames := by
  intro s t hp hs h
  have hwhole : t.par = s.par ∧ WholeFrames s.par (outgoing t.hist) := by
    rcases step_grows h with hg | ⟨hpar, hhist⟩
    · exact ⟨hg.par, hg.wholeFrames hp hs⟩
    · exact ⟨hpar, hhist ▸ hs⟩
  obtain ⟨hpar, hwhole⟩ := hwhole
  rw [hpar]
  exact ⟨hwhole, hwhole.parses hp⟩

end Sys2Proof.Machine
end

section
/-!
SUPPORT. A running operation (R50): a step makes its next read or presents its result, and neither touches the host's moves.
-/

namespace Sys2Proof.Machine

/-- However the next read of a host operation goes, it stays inside the session (R127, R145, R170, R178). -/
theorem resumeBody_same {s : State} {w : RxWait} (hc : s.Control) (hx : s.rx = some w) :
    (resumeBody w.client { s with rx := none } (receive xchgLen { s with rx := none })).All
      (SameSession { s with rx := none }) := by
  have hw := hc.loop w hx
  cases hcl : w.client with
  | shift => exact absurd hcl hw.called
  | exchange =>
    exact (resumeExchange_sat _).mono (fun _ _ h => h.1) (fun _ _ h => h.2.1) (fun _ _ _ h => h.2.1)
  | handshake =>
    obtain ⟨-, hlow, hhigh, -⟩ := hw.handshake hcl
    exact (resumeHandshake_sat { s with rx := none } hlow hhigh).mono (fun _ _ h => h.same) (fun _ _ h => h.2.same)
      (fun _ _ _ h => h.2.same)
  | erase =>
    obtain ⟨-, -, hat⟩ := hw.erase hcl
    refine (resumeErase_sat { s with rx := none } hat).mono (fun _ _ h => h.same) (fun _ _ h => h.2.same) ?_
    rintro c n u (⟨-, h, -⟩ | ⟨-, h, -⟩)
    · exact h.same
    · exact h

/-- The operation that waits in its receive loop goes on, and the host's moves stay where they are (R50, R127). -/
theorem resumeReceive_keeps_port {s t : State} {w : RxWait} (hc : s.Control) (hx : s.rx = some w)
    (h : resumeReceive w s = .next t) : t.port = s.port ∧ t.running = s.running := by
  have hw := hc.loop w hx
  rw [resumeReceive_exchange w s hw.length hw.level] at h
  cases settle_ended (s := s) h (resumeBody_same hc hx) with
  | ok d u hu ht => subst ht; exact ⟨hu.port, hu.running⟩
  | err e u hu ht => subst ht; exact ⟨hu.port, hu.running⟩
  | wait c n u hu ht => subst ht; exact ⟨hu.port, hu.running⟩

/-- Settles O9: of the ways a step goes on (`step_kind`), a busy block has only the next read and the result. -/
theorem busyBlockTakesNoOperation : Obligations.BusyBlockTakesNoOperation := by
  intro s t hc hbusy h
  cases step_kind hc h with
  | resumed w hx ht =>
    obtain ⟨hport, hrun⟩ := resumeReceive_keeps_port hc hx ht
    exact ⟨hport, .inl hrun⟩
  | presented r op hx hr hop ht =>
    subst ht
    exact ⟨rfl, .inr ⟨rfl, hr.symm, by simp [hr]⟩⟩
  | idle hx hb hr => exact absurd hr hbusy
  | written m rest hx hb hr => exact absurd hr hbusy
  | command w operand rest hx hb hr => exact absurd hr hbusy

end Sys2Proof.Machine
end

section
/-!
SUPPORT. An engine frame handed to the transport (R44, R45, R63 to R65): its bytes as numbers, and the one write that sends it.
-/

namespace Sys2Proof.Machine

theorem clkBytes_eq (d : BitVec 16) :
    clkBytes d = [0x86#8, BitVec.ofNat 8 (d.toNat % 256), BitVec.ofNat 8 (d.toNat / 256)] := by
  rw [clkBytes, lo8_eq, hi8_eq, opcClkDiv]

theorem gpioBytes_eq (v d : Mask) :
    gpioBytes v d = [0x80#8, BitVec.ofNat 8 (v.toNat % 256), BitVec.ofNat 8 (d.toNat % 256),
      0x82#8, BitVec.ofNat 8 (v.toNat / 256), BitVec.ofNat 8 (d.toNat / 256)] := by
  rw [gpioBytes, lo8_eq, lo8_eq, hi8_eq, hi8_eq, opcGpioLow, opcGpioHigh]

theorem shiftBytes_eq (m : Byte) {payload : List Byte} (h1 : 1 ≤ payload.length) (h2 : payload.length ≤ 65536) :
    shiftBytes m payload =
      [m, BitVec.ofNat 8 ((payload.length - 1) % 256), BitVec.ofNat 8 ((payload.length - 1) / 256)] ++ payload ++ [0x87#8] := by
  rw [shiftBytes, lo8_eq, hi8_eq, lengthField_toNat h2 h1, opcFlush]

/-- One write, whose answer decides the status; the rest of the block is as it was (R44, R45). -/
theorem emitFrame_eq (bytes : List Byte) (s : State) :
    emitFrame bytes s = .next { s with
      env := { s.env with writes := s.env.writes.tail }
      hist := s.hist ++ [.write bytes (writeAnswer bytes s)]
      ret := ⟨if writeAnswer bytes s = .accepted bytes.length then 0#4 else 5#4, 0#32⟩ } := by
  simp only [emitFrame, sentWhole, beq_iff_eq, conclude_inner, tWrite, Err.code]

/-- Settles O26: each frame is its bytes (`clkBytes_eq`, `gpioBytes_eq`, `shiftBytes_eq`), sent by `emitFrame_eq`. -/
theorem framesAreOneWriteEach : Obligations.FramesAreOneWriteEach := by
  intro s sent
  refine ⟨fun d => ?_, fun v d => ?_, fun m payload h1 h2 => ?_⟩
  · rw [← clkBytes_eq]; exact emitFrame_eq _ s
  · rw [← gpioBytes_eq]; exact emitFrame_eq _ s
  · rw [← shiftBytes_eq m h1 h2]; exact emitFrame_eq _ s

end Sys2Proof.Machine
end

section
/-!
SUPPORT. The encodings (R60 to R74): an encoded instruction decodes to itself, a taken frame is made of the bytes it took, and a
stream of frames parses back into them.
-/

namespace Sys2Proof.Machine

/-! ### Command words (R66, R67, R70) -/

/-- The reserved codes below the internal operations decode to themselves (R70). -/
theorem decodeCmd_reservedLow {op : BitVec 5} (hlow : 0x0A ≤ op.toNat) (hhigh : op.toNat ≤ 0x0F) (a : BitVec 32)
    (operand : List Byte) : decodeCmd (mkCmd op a) operand = .reservedLow op := by
  simp only [decodeCmd, opField_mkCmd]
  split
  case h_20 => rw [if_pos hhigh]
  all_goals omega

/-- The reserved codes above the internal operations decode to themselves (R70). -/
theorem decodeCmd_reservedHigh {op : BitVec 5} (hlow : 0x19 ≤ op.toNat) (a : BitVec 32) (operand : List Byte) :
    decodeCmd (mkCmd op a) operand = .reservedHigh op := by
  simp only [decodeCmd, opField_mkCmd]
  split
  case h_20 => rw [if_neg (by omega)]
  all_goals omega

/-- The value a SET_PIN carries in the byte of its operand (log entry 8). -/
theorem argOfRoleByte_value (r : SRole) (v : Bool) : (argOfRoleByte r (if v then 1#8 else 0#8)).getLsbD 0 = v := by
  cases r <;> cases v <;> rfl

/-- A well-formed instruction's command word, with its operand bytes, is read as that instruction (R67, log entry 8). -/
theorem decodeCmd_of_encode {p : Params} {i : Instr} (hi : i.wf p = true) {w : BitVec 37} {operand : List Byte}
    (h : encode i = .cmd w operand) : decodeCmd w operand = i := by
  cases i with
  | reservedLow op =>
    obtain ⟨hlow, hhigh⟩ := (Bool.and_eq_true _ _).mp hi
    cases h
    exact decodeCmd_reservedLow (of_decide_eq_true hlow) (of_decide_eq_true hhigh) _ _
  | reservedHigh op =>
    cases h
    exact decodeCmd_reservedHigh (of_decide_eq_true hi) _ _
  | exchange c => cases h; simp [decodeCmd, opExchange, quad_word]
  | setLed0 v => cases h; simp [decodeCmd, opSetLed0, -BitVec.getLsbD_eq_getElem]
  | setLed1 v => cases h; simp [decodeCmd, opSetLed1, -BitVec.getLsbD_eq_getElem]
  | setLed2 v => cases h; simp [decodeCmd, opSetLed2, -BitVec.getLsbD_eq_getElem]
  | setLed3 v => cases h; simp [decodeCmd, opSetLed3, -BitVec.getLsbD_eq_getElem]
  | assignSingle r raw =>
    cases h
    simp [decodeCmd, opAssignSingle, argOfRoleByte_role, argOfRoleByte_byte, roleOfCode_roleCode]
  | assignGroup g m =>
    cases h
    simp [decodeCmd, opAssignGroup, argOfGroupMask_mask, argOfGroupMask_role, -BitVec.getLsbD_eq_getElem]
  | validateLayout clk dout din reset =>
    cases h
    have hq := quad_word ⟨clk, dout, din, reset⟩
    simp only [quadOfWord, Quad.mk.injEq] at hq
    simp [decodeCmd, opValidateLayout, hq]
  | computeDivisor hz => cases h; simp [decodeCmd, opComputeDivisor]
  | setClock hz => cases h; simp [decodeCmd, opSetClock]
  | shift mode len payload => cases h; simp [decodeCmd, opShift]
  | setPin r v =>
    cases h
    simp [decodeCmd, opSetPin, argOfRoleByte_role, argOfRoleByte_value, roleOfCode_roleCode, -BitVec.getLsbD_eq_getElem]
  | _ => cases h <;> rfl

/-! ### Engine frames (R63 to R65, R74) -/

/-- One frame alone in the frame buffer decodes to itself. -/
theorem decodeFrame_frameBytes {p : Params} (hp : p.wf = true) {f : Instr} (hf : isFrame f = true) (hw : f.wf p = true) :
    decodeFrame p (frameBytes f) = .ok f := by
  have h := takeFrame_frameBytes hp hf hw []
  rw [List.append_nil] at h
  rw [decodeFrame, h]

/-- The length field of a payload as long as the two length bytes say is those bytes (R65). -/
theorem lengthField_word16 {n : Nat} {lo hi : Byte} (h : n = (word16 lo hi).toNat + 1) : lengthField n = word16 lo hi := by
  subst h
  rw [lengthField, Nat.add_sub_cancel, BitVec.ofNat_toNat, BitVec.setWidth_eq]

/-- The bytes of a shift frame, from where its flush byte was found (R65). -/
theorem shiftBytes_of_drop {mode lo hi : Byte} {tail rest : List Byte}
    (h : tail.drop ((word16 lo hi).toNat + 1) = opcFlush :: rest) :
    shiftBytes mode (tail.take ((word16 lo hi).toNat + 1)) ++ rest = mode :: lo :: hi :: tail := by
  have hshort : (word16 lo hi).toNat + 1 ≤ tail.length := by
    have hlen := congrArg List.length h
    rw [List.length_drop, List.length_cons] at hlen
    omega
  have htail : tail.take ((word16 lo hi).toNat + 1) ++ opcFlush :: rest = tail := by rw [← h, List.take_append_drop]
  rw [shiftBytes, lengthField_word16 (List.length_take_of_le hshort), lo8_word16, hi8_word16]
  simp [htail]

/-- What the frame decoder takes is a frame, and the bytes are that frame's and then the rest (R74). -/
theorem takeFrame_exact {p : Params} {bytes rest : List Byte} {i : Instr} (h : takeFrame p bytes = .ok (i, rest)) :
    isFrame i = true ∧ frameBytes i ++ rest = bytes := by
  unfold takeFrame at h
  split at h
  · cases h
  split at h
  next hclk =>
    split at h <;> cases h
    subst hclk
    exact ⟨rfl, by simp [frameBytes, clkBytes, lo8_word16, hi8_word16]⟩
  split at h
  next hgpio =>
    split at h
    · split at h <;> cases h
      next hhigh =>
        subst hgpio hhigh
        exact ⟨rfl, by simp [frameBytes, gpioBytes, lo8_word16, hi8_word16]⟩
    · cases h
  split at h
  · split at h
    · dsimp only at h
      split at h
      next hdrop =>
        split at h <;> cases h
        next hflush =>
          subst hflush
          exact ⟨rfl, shiftBytes_of_drop hdrop⟩
      · cases h
    · cases h
  · cases h

/-! ### Decoding gives back what was encoded -/

/-- A result word's two fields decode to its HOSTRES (R68). -/
theorem decode_result (p : Params) (r : HostRes) : decode p (.result (r.status ++ r.data)) = .ok (.hostRes r.status r.data) := by
  rw [decode, decodeRes, resultWord_status, resultWord_data]

/-- Settles O2: a command word by `decodeCmd_of_encode`, a frame by `decodeFrame_frameBytes`; a result word is its two fields, and a
configuration write stands as it is. -/
theorem decodeOfEncode : Obligations.DecodeOfEncode := by
  intro p i hp hi
  cases i with
  | clkFrame d => exact decodeFrame_frameBytes (f := .clkFrame d) hp rfl hi
  | gpioFrame v d => exact decodeFrame_frameBytes (f := .gpioFrame v d) hp rfl hi
  | shiftFrame m payload => exact decodeFrame_frameBytes (f := .shiftFrame m payload) hp rfl hi
  | pinSpec r raw => rfl
  | groupMask g m => rfl
  | hostRes st d => exact decode_result p ⟨st, d⟩
  | _ => exact congrArg Except.ok (decodeCmd_of_encode hi rfl)

/-- Settles O4: `parseStream_frameBytes`, an induction over the frames with enough fuel for each. -/
theorem streamOfFramesParses : Obligations.StreamOfFramesParses :=
  fun _ _ hp hf => parseStream_frameBytes hp hf

/-- Settles O3: the shape of what was taken is `takeFrame_exact`, its well-formedness `takeFrame_wf`. -/
theorem frameDecodingIsExact : Obligations.FrameDecodingIsExact := by
  intro p bytes rest i h
  obtain ⟨hframe, hbytes⟩ := takeFrame_exact h
  exact ⟨hframe, takeFrame_wf h, hbytes⟩

end Sys2Proof.Machine
end

section
/-!
SUPPORT. What the sequencer reads next and what a step does with it (R9, R50, R66), the result port (R66, R190), and the codes that
are no operation of the host (R70).
-/

namespace Sys2Proof.Machine

/-! ### The places an instruction is read from -/

theorem fetch_frame {s : State} (hf : s.frame ≠ []) : fetch s = .instr (.frame s.frame) { s with frame := [] } := if_pos hf

theorem fetch_result {s : State} {r : HostRes} (hf : s.frame = []) (hr : s.resBuf = some r) :
    fetch s = .instr (.result (r.status ++ r.data)) { s with resBuf := none } := by
  simp only [fetch, hf, ne_eq, not_true_eq_false, if_false, hr]

theorem fetch_move {s : State} {m : HostMove} {rest : List HostMove} {w : Wire} (hf : s.frame = []) (hr : s.resBuf = none)
    (hp : s.port = m :: rest) (hw : m.wire = some w) : fetch s = .instr w { s with port := rest } := by
  simp only [fetch, hf, ne_eq, not_true_eq_false, if_false, hr, hp, hw]

/-- With no receive loop in progress, a step runs the decoded instruction (log entry 1). -/
theorem step_of_fetch {s t : State} {w : Wire} {i : Instr} (hx : s.rx = none) (hf : fetch s = .instr w t)
    (hi : decode s.par w = .ok i) : step s = exec i t := by
  simp only [step, hx, hf, hi]

/-! ### An instruction placed for the next step (log entry 3) -/

@[simp] theorem placeWire_rx (x : Wire) (s : State) : (placeWire x s).rx = none := by cases x <;> rfl
@[simp] theorem placeWire_par (x : Wire) (s : State) : (placeWire x s).par = s.par := by cases x <;> rfl

/-- What is placed is read next, and taking it leaves the state it was placed in. -/
theorem fetch_placeWire {s : State} {x : Wire} (hx : s.rx = none) (hf : s.frame = []) (hr : s.resBuf = none)
    (hne : x ≠ .frame []) : fetch (placeWire x s) = .instr x s := by
  obtain ⟨pinmap, gmask, dir, inv, val, st, live, attempt, clk, samp, frame, rxBuf, rx, cfg, pd, port, running, ret, resBuf, hostRes,
    env, hist, par⟩ := s
  subst hx hf hr
  cases x with
  | cmd w operand => rfl
  | pin r raw => rfl
  | group g mask => rfl
  | frame bytes => exact fetch_frame fun h => hne (congrArg Wire.frame h)
  | result w =>
    have hw : w.extractLsb' 32 4 ++ w.extractLsb' 0 32 = w := extract_append_self (n := 4) (m := 32) w
    rw [fetch_result rfl rfl, hw]
    rfl

theorem step_placeWire {s : State} {x : Wire} {i : Instr} (hx : s.rx = none) (hf : s.frame = []) (hr : s.resBuf = none)
    (hi : decode s.par x = .ok i) : step (placeWire x s) = exec i s := by
  have hne : x ≠ .frame [] := by rintro rfl; cases hi
  exact step_of_fetch (placeWire_rx x s) (fetch_placeWire hx hf hr hne) (by rw [placeWire_par, hi])

/-- Settles O5: `step_of_fetch` at each place (`fetch_frame`, `fetch_result`, `fetch_move`); a word of the table is placed
(`step_placeWire`). -/
theorem stepRunsDecodedInstr : Obligations.StepRunsDecodedInstr := by
  intro s hx
  refine ⟨fun i hf hi => ?_, fun r hf hr => ?_, fun m rest w i hf hr hp hw hi => ?_, fun nbits w x i hf hr hw hi => ?_⟩
  · exact step_of_fetch hx (fetch_frame hf) hi
  · exact step_of_fetch hx (fetch_result hf hr) (decode_result s.par r)
  · exact step_of_fetch hx (fetch_move hf hr hp hw) hi
  · rw [State.withFetchWord, hw]
    exact step_placeWire hx hf hr hi

/-! ### The result port -/

theorem presentResult_busy {s : State} {op : BitVec 5} (h : s.running = some op) (r : HostRes) :
    presentResult r s = { s with hostRes := some r, running := none, hist := s.hist ++ [.result op r] } := by
  rw [presentResult, h]

theorem presentResult_idle {s : State} (h : s.running = none) (r : HostRes) :
    presentResult r s = { s with hostRes := some r } := by
  rw [presentResult, h, List.append_nil, ← h]

/-- Settles O8: presenting a result while an operation runs (`presentResult_busy`) and while none does (`presentResult_idle`). -/
theorem resultIsPresented : Obligations.ResultIsPresented := by
  intro st d s
  exact ⟨fun op h => congrArg Host.Outcome.next (presentResult_busy h ⟨st, d⟩),
    fun h => congrArg Host.Outcome.next (presentResult_idle h ⟨st, d⟩)⟩

/-! ### What is no operation of the host -/

/-- A reserved operation presented by the host (R70). -/
theorem settle_illegalOp_idle {s : State} (h : s.running = none) (op : BitVec 5) :
    settle s.level (.raise .illegalOp (s.accept op)) = .next { s with running := some op, resBuf := some ⟨11#4, 0#32⟩ } := by
  rw [level_idle h, accept_idle h]
  rfl

/-- Settles O11: the codes from 0x0A on are the internal operations (`runInternal_idle`) and the reserved ones
(`settle_illegalOp_idle`); the ten host operations have smaller codes, and the other formats are no command words. -/
theorem internalOpsAreIllegalAtPort : Obligations.InternalOpsAreIllegalAtPort := by
  intro i w operand s he hop hr
  cases i with
  | assignSingle r raw => cases he; rw [opField_mkCmd, exec, execAssignSingle, runInternal_idle hr]
  | assignGroup g m => cases he; rw [opField_mkCmd, exec, execAssignGroup, runInternal_idle hr]
  | validateLayout w x y z => cases he; rw [opField_mkCmd, exec, execValidateLayout, runInternal_idle hr]
  | pinSetup => cases he; rw [opField_mkCmd, exec, execPinSetup, runInternal_idle hr]
  | computeDivisor hz => cases he; rw [opField_mkCmd, exec, execComputeDivisor, runInternal_idle hr]
  | setClock hz => cases he; rw [opField_mkCmd, exec, execSetClock, runInternal_idle hr]
  | encodeGpioSet => cases he; rw [opField_mkCmd, exec, execEncodeGpioSet, runInternal_idle hr]
  | shift mode n payload => cases he; rw [opField_mkCmd, exec, execShift, runInternal_idle hr]
  | setPin r v => cases he; rw [opField_mkCmd, exec, execSetPin, runInternal_idle hr]
  | reservedLow op => cases he; rw [opField_mkCmd]; exact settle_illegalOp_idle hr op
  | reservedHigh op => cases he; rw [opField_mkCmd]; exact settle_illegalOp_idle hr op
  | clkFrame d => cases he
  | gpioFrame v d => cases he
  | shiftFrame m payload => cases he
  | pinSpec r raw => cases he
  | groupMask g m => cases he
  | hostRes st d => cases he
  | _ => cases he; rw [opField_mkCmd] at hop; exact absurd hop (by decide)

end Sys2Proof.Machine
end

section
/-!
SUPPORT. The assignments of the pin mapper, called one at a time (R90 to R95): the claim mask bit by bit, and ASSIGN_SINGLE and
ASSIGN_GROUP by the way they end.
-/

namespace Sys2Proof.Machine

/-! ### The claim mask (R90) -/

/-- The data-in pin's mask holds the bit of that pin and no other. -/
theorem dinMask_getLsbD (spec : Byte) {b : Nat} (hb : b < 16) :
    (dinMask spec).getLsbD b = true ↔ (pinfield spec).toNat = b + 1 := by
  unfold dinMask
  split
  next h => simp [h]
  next h =>
    have hpos : (pinfield spec).toNat ≠ 0 := fun h0 => h (BitVec.eq_of_toNat_eq h0)
    rw [bit_getLsbD, Bool.and_eq_true, decide_eq_true_iff, decide_eq_true_iff, pinBit]
    omega

/-- Settles O15: the two parts of the mask, the second by `dinMask_getLsbD`. -/
theorem claimsAreDirAndDataIn : Obligations.ClaimsAreDirAndDataIn := by
  intro s b hb
  rw [State.claimed, claimed, BitVec.getLsbD_or, Bool.or_eq_true, dinMask_getLsbD _ hb]

/-! ### ASSIGN_SINGLE (R91, R92) -/

section
variable {r : SRole} {raw : Byte} {s : State}

theorem exec_assignSingle_called (h : s.running ≠ none) :
    exec (.assignSingle r raw) s = settle .inner ((assignSingle r raw s).withData fun _ => 0#32) := by
  rw [exec, execAssignSingle, runInternal_called h]

theorem assignSingle_unused : assignSingle r 0#8 s = .ok () s := rfl

theorem assignSingle_outOfRange (h0 : raw ≠ 0#8) (hp : (pinfield raw).toNat < 1 ∨ 11 < (pinfield raw).toNat) :
    assignSingle r raw s = .raise (.pinOutOfRange (.single r)) s := by
  have hr : ¬ pinInRange (pinfield raw) = true := by rw [pinInRange_iff]; omega
  simp [assignSingle, h0, hr]

/-- A pin number from 1 to 11 names the bit below it (R12). -/
theorem pin_in_range {b : Nat} (hp : (pinfield raw).toNat = b + 1) (hb : b ≤ 10) :
    raw ≠ 0#8 ∧ pinInRange (pinfield raw) = true ∧ pinBit (pinfield raw) = b := by
  refine ⟨raw_ne_zero fun h => ?_, (pinInRange_iff _).mpr (by omega), by rw [pinBit, hp]; rfl⟩
  rw [h] at hp
  exact absurd hp (by simp)

theorem assignSingle_taken {b : Nat} (hp : (pinfield raw).toNat = b + 1) (hb : b ≤ 10) (hc : s.claimed.getLsbD b = true) :
    assignSingle r raw s = .raise (.pinConflict (bit b)) s := by
  obtain ⟨h0, hr, hbit⟩ := pin_in_range hp hb
  simp only [assignSingle, h0, hr, hbit, hc, if_true, if_false, Bool.not_true, Bool.false_eq_true]

theorem assignSingle_free {b : Nat} (hp : (pinfield raw).toNat = b + 1) (hb : b ≤ 10) (hc : s.claimed.getLsbD b = false) :
    assignSingle r raw s = .ok () { s with
      pinmap := s.pinmap.set r raw
      dir := if r = .din then s.dir else setBit s.dir b true
      inv := if invflag raw then setBit s.inv b true else s.inv } := by
  obtain ⟨h0, hr, hbit⟩ := pin_in_range hp hb
  simp only [assignSingle, h0, hr, hbit, hc, if_false, Bool.not_true, Bool.false_eq_true]

end

/-- A bit added to a mask under a condition. -/
theorem setBit_under_getLsbD (v : Mask) {b : Nat} (hb : b ≤ 10) (p : Prop) [Decidable p] (i : Nat) :
    (if p then setBit v b true else v).getLsbD i = true ↔ v.getLsbD i = true ∨ (i = b ∧ p) := by
  by_cases hp : p
  · rw [if_pos hp, setBit_getLsbD]
    by_cases hi : i = b
    · simp [hi, hp, show b < 16 by omega]
    · simp [hi]
  · simp [hp]

theorem bit_setWidth_32 {b : Nat} (hb : b ≤ 10) : (bit b).setWidth 32 = BitVec.ofNat 32 (2 ^ b) := by
  have hlt : 2 ^ b < 2 ^ 16 := Nat.pow_lt_pow_right (by decide) (by omega)
  apply BitVec.eq_of_toNat_eq
  rw [bit_eq_ofNat, BitVec.toNat_setWidth, BitVec.toNat_ofNat, BitVec.toNat_ofNat, Nat.mod_eq_of_lt hlt]

/-- Settles O14: one way to end for each kind of spec (`assignSingle_unused`, `assignSingle_outOfRange`, `assignSingle_taken`,
`assignSingle_free`). -/
theorem assignSingleFollowsR91 : Obligations.AssignSingleFollowsR91 := by
  intro r raw s hrun
  rw [exec_assignSingle_called hrun]
  refine ⟨fun h0 => ?_, fun h0 hp => ?_, fun b hp hb => ⟨fun hc => ?_, fun hc => ?_⟩⟩
  · rw [h0, assignSingle_unused]; rfl
  · rw [assignSingle_outOfRange h0 hp]; rfl
  · rw [assignSingle_taken hp hb hc, ← bit_setWidth_32 hb]; rfl
  · rw [assignSingle_free hp hb hc]
    refine ⟨_, rfl, fun q => PinTable.get_set _ _ _ _, fun i => ?_, setBit_under_getLsbD s.inv hb _, rfl⟩
    show (if r = .din then s.dir else setBit s.dir b true).getLsbD i = true ↔ _
    rw [← ite_not, setBit_under_getLsbD s.dir hb]

/-- After ASSIGN_SINGLE has succeeded its pin is in range and claimed (R90, R91). -/
theorem assignSingle_success_claims {r : SRole} {raw : Byte} {s t : State} (hrun : s.running ≠ none) (h0 : raw ≠ 0#8)
    (ht : exec (.assignSingle r raw) s = .next t) (hok : t.ret.status = 0#4) :
    t.running = s.running ∧ ∃ b, (pinfield raw).toNat = b + 1 ∧ b ≤ 10 ∧ t.claimed.getLsbD b = true := by
  obtain ⟨-, hout, hin⟩ := assignSingleFollowsR91 r raw s hrun
  by_cases hp : (pinfield raw).toNat < 1 ∨ 11 < (pinfield raw).toNat
  · cases ht.symm.trans (hout h0 hp)
    exact absurd hok (by simp)
  obtain ⟨b, hb⟩ := Nat.exists_eq_add_of_le' (show 1 ≤ (pinfield raw).toNat by omega)
  have hb10 : b ≤ 10 := by omega
  obtain ⟨htaken, hfree⟩ := hin b hb hb10
  cases hc : s.claimed.getLsbD b with
  | true =>
    cases ht.symm.trans (htaken hc)
    exact absurd hok (by simp)
  | false =>
    obtain ⟨u, hu, hpin, hdir, -, hframe⟩ := hfree hc
    cases hu.symm.trans ht
    refine ⟨by rw [hframe], b, hb, hb10, (claimsAreDirAndDataIn t b (by omega)).mpr ?_⟩
    by_cases hr : r = .din
    · have hdin : t.pinmap.din = raw := (hpin .din).trans (if_pos hr.symm)
      exact .inr (by rw [hdin, hb])
    · exact .inl ((hdir b).mpr (.inr ⟨rfl, hr⟩))

/-- Settles O16: the claim a success leaves (`assignSingle_success_claims`) is what the second role meets; the other two laws are
cases of `assignSingleFollowsR91`. -/
theorem assignSingleLaws : Obligations.AssignSingleLaws := by
  refine ⟨fun r q raw raw' s t hrun _ h0 ht hok hpin => ?_, fun r raw s hrun hp => ?_, fun r s hrun hr hc => ?_⟩
  · obtain ⟨hrun', b, hb, hb10, hc⟩ := assignSingle_success_claims hrun h0 ht hok
    obtain ⟨-, -, hin⟩ := assignSingleFollowsR91 q raw' t (hrun' ▸ hrun)
    exact ⟨_, (hin b (hpin ▸ hb) hb10).1 hc, rfl, rfl⟩
  · obtain ⟨-, hout, -⟩ := assignSingleFollowsR91 r raw s hrun
    refine hout ?_ (.inr hp)
    rintro rfl
    exact absurd hp (by decide)
  · obtain ⟨-, -, hin⟩ := assignSingleFollowsR91 r 0x85#8 s hrun
    obtain ⟨t, ht, -, hdir, hinv, hframe⟩ := (hin 4 (by decide) (by decide)).2 hc
    exact ⟨t, ht, (hdir 4).mpr (.inr ⟨rfl, hr⟩), (hinv 4).mpr (.inr ⟨rfl, by decide⟩), by rw [hframe]⟩

/-! ### ASSIGN_GROUP (R94, R95) -/

section
variable {g : GRole} {mask : Mask} {s : State}

theorem exec_assignGroup_called (h : s.running ≠ none) :
    exec (.assignGroup g mask) s = settle .inner ((assignGroup g mask s).withData fun _ => 0#32) := by
  rw [exec, execAssignGroup, runInternal_called h]

theorem assignGroup_outOfRange (hm : mask.extractLsb' 12 4 ≠ 0#4) :
    assignGroup g mask s = .raise (.pinOutOfRange (.group g)) s := by
  have hr : ¬ groupInRange mask = true := by rwa [groupInRange_iff]
  simp [assignGroup, hr]

theorem assignGroup_taken (hm : mask.extractLsb' 12 4 = 0#4) (hc : mask &&& s.claimed ≠ 0#16) :
    assignGroup g mask s = .raise (.pinConflict (mask &&& s.claimed)) s := by
  simp [assignGroup, (groupInRange_iff mask).mpr hm, hc]

theorem assignGroup_free (hm : mask.extractLsb' 12 4 = 0#4) (hc : mask &&& s.claimed = 0#16) :
    assignGroup g mask s = .ok () { s with gmask := s.gmask.set g mask, dir := s.dir ||| mask } := by
  simp [assignGroup, (groupInRange_iff mask).mpr hm, hc]

end

/-- Settles O17: the three ways ASSIGN_GROUP ends (`assignGroup_outOfRange`, `assignGroup_taken`, `assignGroup_free`). -/
theorem assignGroupFollowsR94 : Obligations.AssignGroupFollowsR94 := by
  intro g mask s hrun
  rw [exec_assignGroup_called hrun]
  refine ⟨fun hm => ?_, fun hm hc => ?_, fun hm hc => ?_⟩
  · rw [assignGroup_outOfRange hm]; rfl
  · rw [assignGroup_taken hm hc, BitVec.ofNat_toNat]; rfl
  · rw [assignGroup_free hm hc]
    exact ⟨_, rfl, fun k => GroupTable.get_set _ _ _ _, rfl, rfl⟩

end Sys2Proof.Machine
end

section
/-!
SUPPORT. VALIDATE_LAYOUT, called with four specs (R97): each correction as arithmetic on the raw byte, and the first offender under
`STRICT`.
-/

namespace Sys2Proof.Machine

/-! ### The corrected specs -/

/-- A raw spec is its inversion flag above its pin field (R60). -/
theorem flag_append_toNat (raw : Byte) (pin : BitVec 7) :
    (raw.extractLsb' 7 1 ++ pin).toNat = 128 * (raw.toNat / 128) + pin.toNat := by
  have hflag : raw.toNat >>> 7 = raw.toNat / 128 := Nat.shiftRight_eq_div_pow _ _
  have hlt : raw.toNat / 128 < 2 := by omega
  rw [BitVec.toNat_append, BitVec.extractLsb'_toNat, hflag, Nat.mod_eq_of_lt hlt, ← Nat.shiftLeft_add_eq_or_of_lt pin.isLt,
    Nat.shiftLeft_eq]
  omega

theorem pinfield_toNat (raw : Byte) : (pinfield raw).toNat = raw.toNat % 128 := by
  rw [pinfield, BitVec.extractLsb'_toNat]
  rfl

/-- The reset role's spec after R97: its own pin when legal, else the default. -/
theorem correctedLayout_reset_toNat (c : PinTable) : (correctedLayout c).reset.toNat = 128 * (c.reset.toNat / 128) +
    if 4 ≤ c.reset.toNat % 128 ∧ c.reset.toNat % 128 ≤ 11 then c.reset.toNat % 128 else 4 := by
  unfold correctedLayout
  rw [pinfield_toNat]
  split
  · exact (Nat.div_add_mod _ _).symm
  · exact flag_append_toNat _ _

theorem exec_validateLayout_called {clk dout din reset : Byte} {s : State} (h : s.running ≠ none) :
    exec (.validateLayout clk dout din reset) s = settle .inner
      ((validateLayout { s with samp := { s.samp with clk := clk, dout := dout, din := din, reset := reset } }).withData
        fun _ => 0#32) := by
  rw [exec, execValidateLayout, runInternal_called h]

/-- Settles O18: what VALIDATE_LAYOUT returns (`validateLayout_autocorrect`), each spec as arithmetic. -/
theorem layoutIsCorrected : Obligations.LayoutIsCorrected := by
  intro clk dout din reset s hrun hpol
  rw [exec_validateLayout_called hrun, validateLayout_autocorrect (by exact hpol)]
  exact ⟨_, rfl, flag_append_toNat _ _, flag_append_toNat _ _, flag_append_toNat _ _, correctedLayout_reset_toNat _, rfl, rfl⟩

/-! ### The first offender -/

theorem fixRole_strict {r : SRole} {want : BitVec 7} {s : State} (h : s.par.layout = .strict)
    (hp : pinfield (s.samp.get r) ≠ want) : fixRole r want s = .raise (.pinLayoutInvalid r) s := by
  rw [fixRole, if_neg hp, if_pos h]

theorem fixReset_strict {s : State} (h : s.par.layout = .strict) (hp : ¬ resetPinLegal (pinfield s.samp.reset) = true) :
    fixReset s = .raise (.pinLayoutInvalid .reset) s := by
  rw [fixReset, if_neg hp, if_pos h]

/-- The first role of R97's order whose spec is wrong, of a layout that is wrong somewhere. -/
def firstOffender (c : PinTable) : SRole :=
  if pinfield c.clk ≠ 1#7 then .clk else if pinfield c.dout ≠ 2#7 then .dout else if pinfield c.din ≠ 3#7 then .din else .reset

/-- A wrong layout under `STRICT` ends at its first offender (R97). -/
theorem validateLayout_strict_first {s : State} (h : s.par.layout = .strict)
    (hd : layoutDiags s.samp.clk s.samp.dout s.samp.din s.samp.reset ≠ []) :
    validateLayout s = .raise (.pinLayoutInvalid (firstOffender s.samp)) s := by
  rw [Ne, layoutDiags_eq_nil] at hd
  unfold validateLayout firstOffender
  by_cases h1 : pinfield s.samp.clk = 1#7
  case neg => rw [fixRole_strict h (by exact h1), if_pos h1, Res.bind_raise]
  rw [fixRole_right (by exact h1), Res.bind_ok, if_neg (not_not.mpr h1)]
  by_cases h2 : pinfield s.samp.dout = 2#7
  case neg => rw [fixRole_strict h (by exact h2), if_pos h2, Res.bind_raise]
  rw [fixRole_right (by exact h2), Res.bind_ok, if_neg (not_not.mpr h2)]
  by_cases h3 : pinfield s.samp.din = 3#7
  case neg => rw [fixRole_strict h (by exact h3), if_pos h3, Res.bind_raise]
  rw [fixRole_right (by exact h3), Res.bind_ok, if_neg (not_not.mpr h3)]
  exact fixReset_strict h fun h4 => hd ⟨h1, h2, h3, h4⟩

/-- Settles O19: a right layout (`validateLayout_right`) and a wrong one (`validateLayout_strict_first`). -/
theorem strictLayoutIsRefused : Obligations.StrictLayoutIsRefused := by
  intro clk dout din reset s hrun hpol given
  rw [exec_validateLayout_called hrun]
  refine ⟨fun hd => ?_, fun hd => ?_⟩
  · rw [validateLayout_right (by exact hd)]; rfl
  · have hgiven : validateLayout given = _ := validateLayout_strict_first hpol hd
    exact ⟨by rw [hgiven]; rfl, hgiven⟩

end Sys2Proof.Machine
end

section
/-!
SUPPORT. PIN_SETUP, called (R99): its exact next state for a layout that is refused and for one it goes on with, what every success
meets, and why a legal configuration has no error.
-/

namespace Sys2Proof.Machine

/-- R97's diagnostics for a table of raw specs. -/
def PinTable.layoutDiags (c : PinTable) : List Event := Machine.layoutDiags c.clk c.dout c.din c.reset

theorem exec_pinSetup_called {s : State} (h : s.running ≠ none) :
    exec .pinSetup s = settle .inner ((pinSetup s).withData fun _ => 0#32) := by
  rw [exec, execPinSetup, runInternal_called h]

/-! ### Every ending -/

/-- How PIN_SETUP can end, whatever the configuration: with the masks of R24, or with one of three errors (R99, R191). -/
theorem pinSetup_ending {s t : State} (h : s.running ≠ none) (ht : exec .pinSetup s = .next t) :
    (t.ret.status = 0#4 → t.Masks ∧ t.val = 0#16) ∧
    (t.ret.status = 0#4 ∨ t.ret.status = 1#4 ∨ t.ret.status = 2#4 ∨ t.ret.status = 3#4) := by
  rw [exec_pinSetup_called h] at ht
  obtain ⟨d, u, ⟨-, hm, hv⟩, rfl⟩ | ⟨e, u, ⟨-, he⟩, rfl⟩ | ⟨-, -, -, hw, -⟩ :=
    settle_sat ht (Res.sat_withData (Q := fun _ t => PinWork s t ∧ t.Masks ∧ t.val = 0#16) (pinSetup_sat s) fun _ _ h => h)
  · exact ⟨fun _ => ⟨{ hm with }, hv⟩, .inl rfl⟩
  · obtain ⟨r, rfl⟩ | ⟨r, rfl⟩ | ⟨m, rfl⟩ := he <;> simp [Err.code]
  · exact hw.elim

theorem layoutDiags_are_diags {c : PinTable} : ∀ e ∈ c.layoutDiags, ∃ k d, e = Event.diag k d := by
  have hif : ∀ (p : Prop) [Decidable p] (k : DiagKind) (d : DiagInfo),
      ∀ e ∈ (if p then [] else [Event.diag k d]), ∃ k d, e = Event.diag k d := by
    intro p _ k d e he
    split at he
    · cases he
    · exact ⟨k, d, List.mem_singleton.mp he⟩
  intro e he
  simp only [PinTable.layoutDiags, layoutDiags, List.mem_append] at he
  obtain ((he | he) | he) | he := he <;> exact hif _ _ _ e he

/-! ### The layout refused, and the layout gone on with (R97, R99) -/

theorem pinSetup_refused {s : State} (h : s.running ≠ none) (hpol : s.par.layout = .strict) (hd : s.cfg.pin.layoutDiags ≠ []) :
    exec .pinSetup s = .next { clearSession s with ret := ⟨3#4, 0#32⟩ } := by
  rw [exec_pinSetup_called h, pinSetup, validateLayout_strict_first (s := clearSession s) hpol hd]
  rfl

/-- VALIDATE_LAYOUT where it does not refuse: a right layout is its own correction. -/
theorem validateLayout_corrected {s : State} (h : s.par.layout = .autocorrect ∨ s.samp.layoutDiags = []) :
    validateLayout s = .ok () { s with samp := correctedLayout s.samp, hist := s.hist ++ s.samp.layoutDiags } := by
  obtain hpol | hd := h
  · exact validateLayout_autocorrect hpol
  · rw [validateLayout_right hd, correctedLayout_right hd, hd, List.append_nil]

/-- Before the first assignment nothing is assigned. -/
theorem eq_assignedTo_zero {s : State} (hp : s.pinmap = .zero) (hg : s.gmask = .zero) (hd : s.dir = 0#16) (hi : s.inv = 0#16)
    (c : PinTable) (g : GroupTable) : s = s.assignedTo c g 0 := by
  have hdir : dirOf .zero .zero = s.dir := by rw [hd]; decide
  have hinv : invOf .zero = s.inv := by rw [hi]; decide
  show s = { s with pinmap := .zero, gmask := .zero, dir := dirOf .zero .zero, inv := invOf .zero }
  rw [hdir, hinv, ← hp, ← hg]

theorem pinSetup_assigns {s : State} (h : s.running ≠ none) (hl : s.par.layout = .autocorrect ∨ s.cfg.pin.layoutDiags = []) :
    exec .pinSetup s = .next { s.assignedTo (correctedLayout s.cfg.pin) s.cfg.group
        (setupDone (correctedLayout s.cfg.pin) s.cfg.group) with
      val := 0#16, samp := correctedLayout s.cfg.pin, hist := s.hist ++ s.cfg.pin.layoutDiags
      ret := setupResult (correctedLayout s.cfg.pin) s.cfg.group } := by
  rw [exec_pinSetup_called h, pinSetup, validateLayout_corrected (by exact hl), Res.bind_ok,
    assignments_settle _ rfl rfl (eq_assignedTo_zero rfl rfl rfl rfl _ _)]
  rfl

/-- Settles O21: the refused layout (`pinSetup_refused`), else the ten assignments on the corrected specs (`pinSetup_assigns`); the
masks and the statuses are those of every ending (`pinSetup_ending`). -/
theorem pinSetupBuildsTheMasks : Obligations.PinSetupBuildsTheMasks := by
  intro s hrun
  by_cases hl : s.par.layout = .autocorrect ∨ s.cfg.pin.layoutDiags = []
  · have ht := pinSetup_assigns hrun hl
    obtain ⟨hmasks, hstatus⟩ := pinSetup_ending hrun ht
    refine ⟨_, s.cfg.pin.layoutDiags, ht, rfl, layoutDiags_are_diags, hmasks, hstatus, rfl, fun hpol hd => ?_,
      fun _ => ⟨rfl, rfl⟩, fun hok => ?_⟩
    · obtain hauto | hnil := hl
      · exact absurd hpol (autocorrect_ne_strict hauto)
      · exact absurd hnil hd
    · have hdone := setupDone_of_success _ _ hok
      rw [hdone]
      exact ⟨rfl, rfl, rfl⟩
  · obtain ⟨hpol, hd⟩ := not_or.mp hl
    have hstrict : s.par.layout = .strict := by
      cases hp : s.par.layout with
      | autocorrect => exact absurd hp hpol
      | strict => rfl
    have ht := pinSetup_refused hrun hstrict hd
    obtain ⟨hmasks, hstatus⟩ := pinSetup_ending hrun ht
    exact ⟨_, [], ht, (List.append_nil _).symm, by simp, hmasks, hstatus, rfl, fun _ _ => rfl, fun h => absurd h hl,
      fun hok => absurd hok (by simp)⟩

/-! ### A legal configuration (R91, R94, R96) -/

/-- The pin mask of a raw spec holds the bit below its pin number and no other (R12). -/
theorem pinMask_getLsbD (raw : Byte) (b : Nat) :
    (pinMask raw).getLsbD b = true ↔ b < 16 ∧ (pinfield raw).toNat = b + 1 := by
  by_cases hb : b < 16
  · rw [← dinMask_eq_pinMask, dinMask_getLsbD raw hb]
    simp [hb]
  · simp [BitVec.getLsbD_of_ge _ _ (Nat.le_of_not_lt hb), hb]

theorem pinMasks_getLsbD (c : PinTable) (roles : List SRole) (b : Nat) :
    (pinMasks c roles).getLsbD b = true ↔ ∃ r ∈ roles, (pinMask (c.get r)).getLsbD b = true := by
  induction roles with
  | nil => simp [pinMasks]
  | cons r rs ih =>
    simp only [pinMasks, List.foldr] at ih ⊢
    rw [BitVec.getLsbD_or, Bool.or_eq_true, ih]
    simp

/-- A spec that names a pin is no unused spec. -/
theorem ne_zero_of_pinMask {raw : Byte} {b : Nat} (h : (pinMask raw).getLsbD b = true) : raw ≠ 0#8 := by
  rintro rfl
  rw [pinMask_zero] at h
  simp at h

section
variable {c : CfgRegs} (hc : c.Legal)
include hc

theorem CfgRegs.Legal.layoutDiags : c.pin.layoutDiags = [] := by
  obtain ⟨h1, h2, h3, h4⟩ := hc.fixed
  exact layoutDiags_eq_nil.mpr ⟨h1, h2, h3, (resetPinLegal_iff _).mpr h4⟩

/-- No role's spec fails once other roles' pins are claimed. -/
theorem CfgRegs.Legal.singleError {r : SRole} {roles : List SRole} (hr : r ∉ roles) :
    singleError (pinMasks c.pin roles) (c.pin.get r) = none := by
  unfold Machine.singleError
  split
  · rfl
  next h0 =>
    have hfree : pinMask (c.pin.get r) &&& pinMasks c.pin roles = 0#16 := by
      refine (and_eq_zero_iff _ _).mpr fun b ⟨hb, hbs⟩ => ?_
      obtain ⟨q, hq, hqb⟩ := (pinMasks_getLsbD _ _ _).mp hbs
      refine hc.disjoint r q (fun h => hr (h ▸ hq)) h0 (ne_zero_of_pinMask hqb) (BitVec.eq_of_toNat_eq ?_)
      rw [((pinMask_getLsbD _ _).mp hb).2, ((pinMask_getLsbD _ _).mp hqb).2]
    rw [if_neg (by have := hc.range r h0; omega), if_neg (not_not.mpr hfree)]

/-- No group's mask meets a role's pin. -/
theorem CfgRegs.Legal.group_free (g : GRole) (roles : List SRole) : c.group.get g &&& pinMasks c.pin roles = 0#16 := by
  refine (and_eq_zero_iff _ _).mpr fun b ⟨hb, hbs⟩ => ?_
  obtain ⟨r, -, hrb⟩ := (pinMasks_getLsbD _ _ _).mp hbs
  have hfree := hc.groups.2 g r (ne_zero_of_pinMask hrb)
  rw [pinBit, ((pinMask_getLsbD _ _).mp hrb).2, Nat.add_sub_cancel, hb] at hfree
  cases hfree

theorem CfgRegs.Legal.pwrError (roles : List SRole) : groupError (pinMasks c.pin roles) c.group.pwr = none := by
  have hfree : c.group.pwr &&& pinMasks c.pin roles = 0#16 := hc.group_free .pwr roles
  rw [groupError, if_neg (not_not.mpr hc.groupRange.1), if_neg (not_not.mpr hfree)]

theorem CfgRegs.Legal.bufError (roles : List SRole) : groupError (pinMasks c.pin roles ||| c.group.pwr) c.group.buf = none := by
  have hfree : c.group.buf &&& (pinMasks c.pin roles ||| c.group.pwr) = 0#16 := by
    have hroles : c.group.buf &&& pinMasks c.pin roles = 0#16 := hc.group_free .buf roles
    rw [BitVec.and_or_distrib_left, hroles, BitVec.and_comm, hc.groups.1]
    rfl
  rw [groupError, if_neg (not_not.mpr hc.groupRange.2), if_neg (not_not.mpr hfree)]

/-- None of the ten assignments fails. -/
theorem CfgRegs.Legal.setupErrors : ∀ o ∈ setupErrors c.pin c.group, o = none := by
  simp only [Machine.setupErrors, List.forall_mem_cons]
  exact ⟨hc.singleError (r := .clk) (by decide), hc.singleError (r := .dout) (by decide), hc.singleError (r := .din) (by decide),
    hc.singleError (r := .reset) (by decide), hc.singleError (r := .led0) (by decide), hc.singleError (r := .led1) (by decide),
    hc.singleError (r := .led2) (by decide), hc.singleError (r := .led3) (by decide), hc.pwrError _, hc.bufError _,
    List.forall_mem_nil _⟩

theorem CfgRegs.Legal.setupResult : setupResult c.pin c.group = ⟨0#4, 0#32⟩ := by
  have hnone : (Machine.setupErrors c.pin c.group).findSome? id = none := List.findSome?_eq_none_iff.mpr hc.setupErrors
  rw [Machine.setupResult, hnone]
  rfl

end

/-- A legal configuration is taken as it stands. -/
theorem pinSetup_legal {s : State} (h : s.running ≠ none) (hc : s.cfg.Legal) :
    exec .pinSetup s = .next { s.assignedTo s.cfg.pin s.cfg.group 10 with
      val := 0#16, samp := s.cfg.pin, ret := ⟨0#4, 0#32⟩ } := by
  have hdone := setupDone_of_success s.cfg.pin s.cfg.group (by rw [hc.setupResult])
  rw [pinSetup_assigns h (.inr hc.layoutDiags), correctedLayout_right hc.layoutDiags, hdone, hc.setupResult, hc.layoutDiags,
    List.append_nil]
  rfl

/-- Settles O20: the state a legal configuration leads to (`pinSetup_legal`) is a success, which meets R24 (`pinSetup_ending`). -/
theorem pinSetupAcceptsLegalConfig : Obligations.PinSetupAcceptsLegalConfig := by
  intro s hrun hc
  have ht := pinSetup_legal hrun hc
  obtain ⟨hmasks, -⟩ := pinSetup_ending hrun ht
  exact ⟨_, ht, (hmasks rfl).1, rfl⟩

end Sys2Proof.Machine
end

section
/-!
SUPPORT. The divisor arithmetic (R110 to R114): the rounded quotient by multiplication, the clamp, and where the caps lie; and
SET_CLOCK, called, with what it reports and sends (R115).
-/

namespace Sys2Proof.Machine

/-! ### The rounded quotient and the clamp (R110, R111) -/

section
variable {hz : Nat}

/-- The rounded quotient compared without a division: every bound of R111 and R112 is a case of this. -/
theorem le_roundHalfUp_iff (h : 0 < hz) (k : Nat) : k ≤ roundHalfUp fMaster hz ↔ k * (2 * hz) ≤ 12000000 + hz := by
  rw [roundHalfUp, fMaster, Nat.le_div_iff_mul_le (by omega)]

theorem clampInt_eq_max_min {x lo hi : Int} (h : lo ≤ hi) : clampInt x lo hi = max lo (min x hi) := by
  unfold clampInt
  split
  · omega
  · split <;> omega

theorem divisorOf_zero : divisorOf 0 = 65535#16 := by decide

/-- The clamped raw divisor fits the register. -/
theorem divisorOf_toNat (h : 0 < hz) : ((divisorOf hz).toNat : Int) = max 0 (min ((roundHalfUp fMaster hz : Int) - 1) 65535) := by
  rw [divisorOf, if_neg (by omega), divMax, clampInt_eq_max_min (by omega), rawDivisor, BitVec.toNat_ofNat]
  omega

theorem divisorOf_fastest (h : 4000001 ≤ hz) : divisorOf hz = 0#16 := by
  have hquot : ¬ 2 ≤ roundHalfUp fMaster hz := by rw [le_roundHalfUp_iff (by omega)]; omega
  have hdiv := divisorOf_toNat (hz := hz) (by omega)
  exact BitVec.eq_of_toNat_eq (by rw [BitVec.toNat_ofNat]; omega)

theorem divisorOf_slowest (h : hz ≤ 91) : divisorOf hz = 65535#16 := by
  obtain rfl | hpos := Nat.eq_zero_or_pos hz
  · exact divisorOf_zero
  have hquot : 65537 ≤ roundHalfUp fMaster hz := by rw [le_roundHalfUp_iff hpos]; omega
  have hdiv := divisorOf_toNat hpos
  exact BitVec.eq_of_toNat_eq (by rw [BitVec.toNat_ofNat]; omega)

/-- Between the caps nothing is clamped: the divisor is one less than the rounded quotient. -/
theorem divisorOf_succ_of_uncapped (hlow : 92 ≤ hz) (hhigh : hz ≤ 6000000) :
    (divisorOf hz).toNat + 1 = roundHalfUp fMaster hz := by
  have hfast : 1 ≤ roundHalfUp fMaster hz := by rw [le_roundHalfUp_iff (by omega)]; omega
  have hslow : ¬ 65537 ≤ roundHalfUp fMaster hz := by rw [le_roundHalfUp_iff (by omega)]; omega
  have hdiv := divisorOf_toNat (hz := hz) (by omega)
  omega

/-! ### The caps (R112, R113) -/

theorem capMaxOf_iff : capMaxOf hz = true ↔ 6000000 < hz := by rw [capMaxOf, decide_eq_true_iff, fMaster]

theorem capMinOf_iff_quotient (h : 0 < hz) : capMinOf hz = true ↔ 65535 < (roundHalfUp fMaster hz : Int) - 1 := by
  rw [capMinOf, if_neg (by omega), decide_eq_true_iff, divMax, rawDivisor]

/-- The divisor register is exceeded up to 91 Hz, and the frequency 0 counts as the slowest. -/
theorem capMinOf_iff : capMinOf hz = true ↔ hz ≤ 91 := by
  obtain rfl | hpos := Nat.eq_zero_or_pos hz
  · decide
  have hquot := le_roundHalfUp_iff hpos 65537
  rw [capMinOf_iff_quotient hpos]
  omega

end

/-! ### COMPUTE_DIVISOR (R110) -/

theorem exec_computeDivisor_called {hz : BitVec 32} {s : State} (h : s.running ≠ none) :
    exec (.computeDivisor hz) s = .next { s with clk := some (computeDivisor hz), ret := ⟨0#4, 0#32⟩ } := by
  rw [exec, execComputeDivisor, runInternal_called h, settle_ok, conclude_inner]

/-- Settles O22: the frequency 0 by evaluation; for any other, the divisor by `divisorOf_toNat` and the flags by `capMaxOf_iff` and
`capMinOf_iff_quotient`. -/
theorem divisorIsComputedExactly : Obligations.DivisorIsComputedExactly := by
  intro hz s hrun
  refine ⟨computeDivisor hz, exec_computeDivisor_called hrun, fun h0 => ?_, fun hne => ?_⟩
  · subst h0; decide
  · have hpos : 0 < hz.toNat := Nat.pos_of_ne_zero fun h0 => hne (BitVec.eq_of_toNat_eq h0)
    exact ⟨divisorOf_toNat hpos, capMaxOf_iff, capMinOf_iff_quotient hpos, rfl⟩

/-- Settles O23: the divisor plus one is the rounded quotient (`divisorOf_succ_of_uncapped`), and the next integer is above it. -/
theorem divisorIsNearestInRange : Obligations.DivisorIsNearestInRange := by
  intro hz hlow hhigh
  have hsucc := divisorOf_succ_of_uncapped hlow hhigh
  have hbound := le_roundHalfUp_iff (hz := hz.toNat) (by omega)
  refine ⟨?_, ?_, ?_, ?_⟩
  · rw [Nat.mul_comm]
    exact (hbound _).mp hsucc.le
  · rw [Nat.mul_comm, ← Nat.not_le]
    exact (hbound _).not.mp (by rw [← hsucc]; exact Nat.not_succ_le_self _)
  · exact Bool.eq_false_iff.mpr fun h => absurd (capMaxOf_iff.mp h) (by omega)
  · exact Bool.eq_false_iff.mpr fun h => absurd (capMinOf_iff.mp h) (by omega)

/-- Settles O24: the bounds of the caps (`capMaxOf_iff`, `capMinOf_iff`) and the divisor beyond them. -/
theorem capsAreReportedAtTheirBounds : Obligations.CapsAreReportedAtTheirBounds := by
  intro hz
  refine ⟨capMaxOf_iff, capMinOf_iff, fun ⟨hmax, hmin⟩ => ?_, divisorOf_fastest, divisorOf_slowest⟩
  have hhigh := capMaxOf_iff.mp hmax
  have hlow := capMinOf_iff.mp hmin
  omega

/-! ### SET_CLOCK (R115) -/

theorem effective_fastest {hz : BitVec 32} (h : 6000000 < hz.toNat) : (computeDivisor hz).effective = 6000000 := by
  rw [computeDivisor, divisorOf_fastest (by omega)]; rfl

theorem effective_slowest {hz : BitVec 32} (h : hz.toNat ≤ 91) : (computeDivisor hz).effective = 91 := by
  rw [computeDivisor, divisorOf_slowest h]; rfl

/-- What is reported, by the requested frequency alone (R112, R114). -/
theorem capEvents_computeDivisor (hz : BitVec 32) : capEvents (computeDivisor hz) hz = capDiags hz := by
  have hmax : (computeDivisor hz).capMax = true ↔ 6000000 < hz.toNat := capMaxOf_iff
  have hmin : (computeDivisor hz).capMin = true ↔ hz.toNat ≤ 91 := capMinOf_iff
  unfold capEvents capDiags
  congr 1
  · by_cases h : 6000000 < hz.toNat
    · rw [if_pos (hmax.mpr h), if_pos h, effective_fastest h]
    · rw [if_neg (hmax.not.mpr h), if_neg h]
  · by_cases h : hz.toNat ≤ 91
    · rw [if_pos (hmin.mpr h), if_pos h, effective_slowest h]
    · rw [if_neg (hmin.not.mpr h), if_neg h]

/-- The diagnostics, then the clock frame; DIVISOR is gone however the write goes. -/
theorem setClock_eq (hz : BitVec 32) (s : State) :
    setClock hz s = (sendFrame (clkBytes (computeDivisor hz).divisor)
      { s with clk := some (computeDivisor hz), hist := s.hist ++ capDiags hz }).finally fun t => { t with clk := none } := by
  rw [setClock, reportCaps_eq, capEvents_computeDivisor]

theorem exec_setClock_called {hz : BitVec 32} {s : State} (h : s.running ≠ none) :
    exec (.setClock hz) s = settle .inner ((setClock hz s).withData fun _ => 0#32) := by
  rw [exec, execSetClock, runInternal_called h]

/-- Settles O25: the work is `setClock_eq`; the transport's answer to the frame (`clkBytes_eq`) decides how it ends. -/
theorem setClockSendsTheDivisor : Obligations.SetClockSendsTheDivisor := by
  intro hz s hrun d bytes ans
  have hbytes : clkBytes d = bytes := clkBytes_eq d
  rw [exec_setClock_called hrun, setClock_eq, hbytes]
  by_cases hans : ans = .accepted 3
  · rw [sendFrame_whole (by exact hans), if_pos hans]; rfl
  · rw [sendFrame_short (by exact hans), if_neg hans]; rfl

end Sys2Proof.Machine
end

section
/-!
SUPPORT. ENCODE_GPIO_SET and SHIFT, called (R120 to R127): the phases of SHIFT one at a time, and one read of its receive loop by
what the transport answers.
-/

namespace Sys2Proof.Machine

/-! ### ENCODE_GPIO_SET (R120, R121) -/

theorem exec_encodeGpioSet_called {s : State} (h : s.running ≠ none) :
    exec .encodeGpioSet s = .next { s with frame := gpioBytes s.val s.dir, ret := ⟨0#4, 0#32⟩ } := by
  rw [exec, execEncodeGpioSet, runInternal_called h, settle_ok, conclude_inner, encodeGpioSet]

theorem decodeFrame_gpioBytes (p : Params) (v d : Mask) : decodeFrame p (gpioBytes v d) = .ok (.gpioFrame v d) := by
  have h := takeFrame_gpio p v d []
  rw [List.append_nil] at h
  rw [decodeFrame, h]

/-- A GPIO frame in the frame buffer is sent by the next step (R22, R44). -/
theorem step_gpioFrame {s : State} {v d : Mask} (hx : s.rx = none) (hf : s.frame = gpioBytes v d) :
    step s = emitFrame (gpioBytes v d) { s with frame := [] } := by
  have hne : s.frame ≠ [] := by rw [hf]; exact List.cons_ne_nil _ _
  refine step_of_fetch hx (fetch_frame hne) (i := .gpioFrame v d) ?_
  rw [hf]
  exact decodeFrame_gpioBytes s.par v d

/-- Settles O27: the frame is `gpioBytes` of the masks, and the step that finds it sends it (`step_gpioFrame`). -/
theorem gpioFrameOfTheMasks : Obligations.GpioFrameOfTheMasks := by
  intro s hrun bytes
  refine ⟨exec_encodeGpioSet_called hrun, fun hx => ?_⟩
  rw [step_gpioFrame (v := s.val) (d := s.dir) (by exact hx) rfl, emitFrame_eq]
  exact ⟨_, rfl, rfl, rfl, rfl, _, rfl⟩

/-! ### The phases of SHIFT (R123 to R126) -/

section
variable {mode : Byte} {n : Nat} {payload : List Byte} {s : State}

theorem exec_shift_called {m : BitVec 24} (h : s.running ≠ none) :
    exec (.shift mode m payload) s = settle .inner ((shift mode m.toNat payload s).withData fun _ => 0#32) := by
  rw [exec, execShift, runInternal_called h]

theorem shift_illegal (h : ¬ shiftLegal s.par mode n payload = true) : shift mode n payload s = .refuse .shiftOperands := by
  simp [shift, h]

/-- A failed write ends SHIFT before any read (R123). -/
theorem shift_cut (hl : shiftLegal s.par mode n payload = true) (hs : modeSends s.par mode = true)
    (hw : writeAnswer (shiftBytes mode payload) s ≠ .accepted (shiftBytes mode payload).length) :
    shift mode n payload s = .raise .writeShort (tWrite (shiftBytes mode payload) s) := by
  simp [shift, hl, hs, sendFrame_short hw]

/-- A transmit-only SHIFT ends with its write (R126). -/
theorem shift_sent (hl : shiftLegal s.par mode n payload = true) (hs : modeSends s.par mode = true)
    (hr : modeReceives s.par mode = false)
    (hw : writeAnswer (shiftBytes mode payload) s = .accepted (shiftBytes mode payload).length) :
    shift mode n payload s = .ok [] (tWrite (shiftBytes mode payload) s) := by
  simp [shift, hl, hs, hr, sendFrame_whole hw]

/-- A two-way SHIFT goes on from its write to its receive phase (R123). -/
theorem shift_sent_receives (hl : shiftLegal s.par mode n payload = true) (hs : modeSends s.par mode = true)
    (hr : modeReceives s.par mode = true)
    (hw : writeAnswer (shiftBytes mode payload) s = .accepted (shiftBytes mode payload).length) :
    shift mode n payload s = receive n { tWrite (shiftBytes mode payload) s with rxBuf := [] } := by
  simp [shift, hl, hs, hr, sendFrame_whole hw]

/-- A receive-only SHIFT writes nothing (R126). -/
theorem shift_receives (hl : shiftLegal s.par mode n payload = true) (hs : modeSends s.par mode = false)
    (hr : modeReceives s.par mode = true) : shift mode n payload s = receive n { s with rxBuf := [] } := by
  simp [shift, hl, hs, hr]

end

/-! ### One read of the receive loop (R127) -/

theorem tRead_answered {s : State} {room : Nat} {a : ReadAns} (h : readAnswer room s = a) :
    tRead room s = s.readIn room a s.env.reads.tail := by
  subst h; rfl

section
variable {n : Nat} {s : State} {l : List Byte}

theorem receive_whole (hlt : s.rxCnt < n) (h : readAnswer (n - s.rxCnt) s = .bytes l) (hl : s.rxCnt + l.length = n) :
    receive n s = .ok (s.rxBuf ++ l) { s.readIn (n - s.rxCnt) (.bytes l) s.env.reads.tail with rxBuf := s.rxBuf ++ l } := by
  have hall : ¬ (s.rxBuf ++ l).length < n := by rw [List.length_append]; exact hl.ge.not_gt
  simp only [receive, hlt, if_true, h, hall, if_false, tRead_answered h]

theorem receive_short (hlt : s.rxCnt < n) (h : readAnswer (n - s.rxCnt) s = .bytes l) (hl : s.rxCnt + l.length < n) :
    receive n s = .wait .shift n { s.readIn (n - s.rxCnt) (.bytes l) s.env.reads.tail with rxBuf := s.rxBuf ++ l } := by
  have hmissing : (s.rxBuf ++ l).length < n := by rw [List.length_append]; exact hl
  simp only [receive, hlt, if_true, h, hmissing, tRead_answered h]

theorem receive_error (hlt : s.rxCnt < n) (h : readAnswer (n - s.rxCnt) s = .error) :
    receive n s = .raise .readFailed { s.readIn (n - s.rxCnt) .error s.env.reads.tail with rxBuf := [] } := by
  simp only [receive, hlt, if_true, h, tRead_answered h]

/-- The first read of the loop asks for all of it. -/
theorem receive_first_whole (hn : 1 ≤ n) (h : readAnswer n s = .bytes l) (hl : l.length = n) :
    receive n { s with rxBuf := [] } = .ok l { s.readIn n (.bytes l) s.env.reads.tail with rxBuf := l } :=
  receive_whole (s := { s with rxBuf := [] }) hn h ((Nat.zero_add _).trans hl)

theorem receive_first_short (h : readAnswer n s = .bytes l) (hl : l.length < n) :
    receive n { s with rxBuf := [] } = .wait .shift n { s.readIn n (.bytes l) s.env.reads.tail with rxBuf := l } :=
  receive_short (s := { s with rxBuf := [] }) (Nat.zero_lt_of_lt hl) h ((Nat.zero_add _).trans_lt hl)

theorem receive_first_error (hn : 1 ≤ n) (h : readAnswer n s = .error) :
    receive n { s with rxBuf := [] } = .raise .readFailed { s.readIn n .error s.env.reads.tail with rxBuf := [] } :=
  receive_error (s := { s with rxBuf := [] }) hn h

end

/-! ### SHIFT, called -/

/-- Settles O28: the operands are legal and the mode only sends (`modes_of_wf`); the write ends it (`shift_sent`, `shift_cut`). -/
theorem shiftTransmits : Obligations.ShiftTransmits := by
  intro n payload s hrun hp h1 h2 hlen bytes
  obtain ⟨hs, hr, -⟩ := modes_of_wf hp
  have hl : shiftLegal s.par s.par.modeTx n.toNat payload = true :=
    (shiftLegal_iff _ _ _ _).mpr ⟨.inl rfl, h1, h2, fun _ => hlen⟩
  have hbytes : shiftBytes s.par.modeTx payload = bytes := by rw [shiftBytes_eq _ (by omega) (by omega), hlen]
  have hcount : (shiftBytes s.par.modeTx payload).length = n.toNat + 4 := by rw [shiftBytes_length, hlen]
  rw [exec_shift_called hrun, ← hbytes, ← hcount]
  by_cases hw : writeAnswer (shiftBytes s.par.modeTx payload) s = .accepted (shiftBytes s.par.modeTx payload).length
  · rw [shift_sent hl hs hr hw, if_pos hw]; rfl
  · rw [shift_cut hl hs hw, if_neg hw]; rfl

/-- Settles O29: the mode only receives, so SHIFT is its first read (`shift_receives`), which ends in one of three ways. -/
theorem shiftReceives : Obligations.ShiftReceives := by
  intro n payload s hrun hp h1 h2 read
  obtain ⟨-, -, hs, hr, -⟩ := modes_of_wf hp
  have hl : shiftLegal s.par s.par.modeRx n.toNat payload = true :=
    (shiftLegal_iff _ _ _ _).mpr ⟨.inr (.inl rfl), h1, h2, fun h => by rw [hs] at h; cases h⟩
  rw [exec_shift_called hrun, shift_receives hl hs hr]
  refine ⟨fun l ha hlen => ?_, fun l ha hlen => ?_, fun ha => ?_⟩
  · rw [receive_first_whole h1 ha hlen]; rfl
  · rw [receive_first_short ha hlen]; rfl
  · rw [receive_first_error h1 ha]; rfl

/-- Settles O30: the mode sends and receives; a failed write ends it (`shift_cut`), and after a full one comes its first read
(`shift_sent_receives`). -/
theorem shiftExchanges : Obligations.ShiftExchanges := by
  intro n payload s hrun hp h1 h2 hlen bytes
  obtain ⟨-, -, -, -, hs, hr⟩ := modes_of_wf hp
  have hl : shiftLegal s.par s.par.modeTrx n.toNat payload = true :=
    (shiftLegal_iff _ _ _ _).mpr ⟨.inr (.inr rfl), h1, h2, fun _ => hlen⟩
  have hbytes : shiftBytes s.par.modeTrx payload = bytes := by rw [shiftBytes_eq _ (by omega) (by omega), hlen]
  have hcount : (shiftBytes s.par.modeTrx payload).length = n.toNat + 4 := by rw [shiftBytes_length, hlen]
  rw [exec_shift_called hrun, ← hbytes, ← hcount]
  refine ⟨fun hw => ?_, fun w q a hw hq => ?_⟩
  · rw [shift_cut hl hs hw]; rfl
  · obtain ⟨hsent, hans⟩ := tWrite_of (bytes := shiftBytes s.par.modeTrx payload) hw (fun m hm => by cases hm; exact le_rfl)
    rw [shift_sent_receives hl hs hr hans, hsent]
    refine ⟨?_, ?_, ?_⟩
    · rintro l rfl hl
      rw [receive_first_whole h1 (tRead_of (by exact hq) (by rintro _ ⟨⟩; exact hl.le)).2 hl]
      simp [State.readIn, State.wrote, hq]
    · rintro l rfl hl
      rw [receive_first_short (tRead_of (by exact hq) (by rintro _ ⟨⟩; exact hl.le)).2 hl]
      simp [State.readIn, State.wrote, hq]
    · rintro rfl
      rw [receive_first_error h1 (tRead_of (by exact hq) (by rintro _ ⟨⟩)).2]
      simp [State.readIn, State.wrote, hq, Err.code, Err.data]

/-- Settles O31: the operands of SHIFT are not legal (`shiftLegal_iff`), so it is refused (`shift_illegal`). -/
theorem illegalShiftIsRefused : Obligations.IllegalShiftIsRefused := by
  intro mode n payload s hrun hbad
  have hl : ¬ shiftLegal s.par mode n.toNat payload = true := by
    rw [shiftLegal_iff]
    rintro ⟨hmode, h1, h2, -⟩
    rcases hbad with ⟨htx, hrx, htrx⟩ | hn | hn
    · rcases hmode with h | h | h <;> contradiction
    · omega
    · omega
  rw [exec_shift_called hrun, shift_illegal hl]
  rfl

end Sys2Proof.Machine
end

section
/-!
SUPPORT. The receive loop, one read a step (R127, R128): what a read that leaves bytes missing, the last bytes and an error lead to,
for each operation that waits; and runs of such steps.
-/

namespace Sys2Proof.Machine

/-! ### The next read -/

/-- The block after the last read of a receive loop, whose accumulator is gone (R22). -/
def State.readEnded (s : State) (room : Nat) (a : ReadAns) : State :=
  { s.readIn room a s.env.reads.tail with rx := none, rxBuf := [] }

section
variable {s : State} {w : RxWait} {n : Nat} {lev : Level}

theorem step_waiting (hx : s.rx = some w) :
    step s = settle w.level (resumeBody w.client s (receive w.length { s with rx := none })) := by
  simp only [step, hx, resumeReceive]

/-- Whoever waits goes on waiting while bytes are missing. -/
theorem settle_resumeBody_wait (l : Level) (c : RxClient) (n : Nat) (s t : State) :
    settle l (resumeBody c s (.wait .shift n t)) = .next { t with rx := some ⟨c, n, l⟩ } := by
  cases c <;> rfl

/-- A read that leaves bytes missing appends what came, an empty read included (R127, R128). -/
theorem step_waiting_short {l : List Byte} (hx : s.rx = some w) (hlt : s.rxCnt < w.length)
    (h : readAnswer (w.length - s.rxCnt) s = .bytes l) (hl : s.rxCnt + l.length < w.length) :
    step s = .next { s.readIn (w.length - s.rxCnt) (.bytes l) s.env.reads.tail with rxBuf := s.rxBuf ++ l } := by
  rw [step_waiting hx, receive_short (s := { s with rx := none }) hlt h hl, settle_resumeBody_wait]
  simp only [State.readIn, hx]
  rfl

/-- An error discards the bytes that came before it (R127). -/
theorem response_readEnded_error (hlt : s.rxCnt < n) (h : readAnswer (n - s.rxCnt) s = .error) :
    asResponse (receive n { s with rx := none }) = .raise .readFailed (s.readEnded (n - s.rxCnt) .error) := by
  rw [receive_error (s := { s with rx := none }) hlt h]
  rfl

/-- The last bytes of a response (R127, R145). -/
theorem response_readEnded {l : List Byte} {q : Quad} (hlt : s.rxCnt < 4) (h : readAnswer (4 - s.rxCnt) s = .bytes l)
    (hq : s.rxBuf ++ l = q.toList) :
    asResponse (receive 4 { s with rx := none }) = .ok q (s.readEnded (4 - s.rxCnt) (.bytes l)) := by
  rw [response_whole (s := { s with rx := none }) hlt h hq, tRead_answered (by exact h)]
  rfl

/-! ### SHIFT and EXCHANGE (R123, R145) -/

theorem step_shift (hx : s.rx = some ⟨.shift, n, lev⟩) :
    step s = settle lev ((receive n { s with rx := none }).withData fun _ => 0#32) := step_waiting hx

theorem step_exchange (hx : s.rx = some ⟨.exchange, n, lev⟩) :
    step s = settle lev (((asResponse (receive n { s with rx := none })).waitingFor .exchange).withData wordOfQuad) :=
  step_waiting hx

/-- EXCHANGE ends with its last bytes (R145). -/
theorem step_exchange_whole {l : List Byte} {q : Quad} (hx : s.rx = some ⟨.exchange, 4, .host⟩) (hlt : s.rxCnt < 4)
    (h : readAnswer (4 - s.rxCnt) s = .bytes l) (hq : s.rxBuf ++ l = q.toList) :
    step s = .next { s.readEnded (4 - s.rxCnt) (.bytes l) with resBuf := some ⟨0#4, wordOfQuad q⟩ } := by
  rw [step_exchange hx, response_readEnded hlt h hq]
  rfl

/-! ### The erase exchange (R178) -/

theorem step_erase (hx : s.rx = some ⟨.erase, n, lev⟩) :
    step s = settle lev ((judgeErase (asResponse (receive n { s with rx := none }))).withData fun _ => 0#32) := step_waiting hx

/-- The erase exchange's last bytes are followed by the part's delay and INITIALIZE (R178). -/
theorem step_erase_whole {l : List Byte} {q : Quad} (hx : s.rx = some ⟨.erase, 4, .host⟩) (hlt : s.rxCnt < 4)
    (h : readAnswer (4 - s.rxCnt) s = .bytes l) (hq : s.rxBuf ++ l = q.toList) :
    step s = settle .host ((initializeBody
      ((s.readEnded (4 - s.rxCnt) (.bytes l)).waitFor s.pd.eraseDelay.toNat)).withData fun _ => 0#32) := by
  rw [step_erase hx, response_readEnded hlt h hq]
  rfl

/-- An answer with its next state under another operation's name. -/
def runningAs (x : Option (BitVec 5)) : Out → Out
  | .next t => .next { t with running := x }
  | .fault z => .fault z
  | .refused z => .refused z

/-- Run under another name and from another ST, INITIALIZE ends alike but for the name: where it waits, it waits in `ResetReleased`
(R163). -/
theorem initializeBody_settles_under (x : Option (BitVec 5)) (y : St) {u : State} (hu : u.rx = none) :
    settle .host ((initializeBody (u.under x y)).withData fun _ => 0#32) =
      runningAs x (settle .host ((initializeBody u).withData fun _ => 0#32)) := by
  have hrx : (initializeBody u).All fun t => t.rx = none := by
    have h := initializeBody_rx u
    rwa [hu] at h
  have hself := (initializeBody_under (x := u.running) (y := u.st) u).settle hrx
  rw [show u.under u.running u.st = u from rfl] at hself
  rw [(initializeBody_under (x := x) (y := y) u).settle hrx]
  cases ho : settle .host ((initializeBody u).withData fun _ => 0#32) with
  | next t =>
    rw [ho] at hself
    have hst : t.st = if t.rx = none then t.st else .resetReleased := congrArg State.st (Host.Outcome.next.inj hself)
    simp only [← hst, runningAs]
  | fault z => rfl
  | refused z => rfl

theorem exec_initialize_idle {s : State} (h : s.running = none) (hst : s.st.takesBringUp = true) :
    exec .initializeOp s =
      settle .host ((initializeBody { s with running := some opInitialize }).withData fun _ => 0#32) := by
  rw [exec, execInitialize, runCallable_idle h, if_pos hst]

/-! ### The handshake (R170, R173) -/

theorem step_handshake (hx : s.rx = some ⟨.handshake, n, lev⟩) :
    step s = settle lev ((judgeAttempt (handshake (peAttempts - s.attempt.toNat))
      (asResponse (receive n { s with rx := none }))).withData fun _ => 0#32) := step_waiting hx

/-- The answer to the last read of an attempt makes it a failed one: an error, or a response that does not match. -/
def State.AttemptFailed (s : State) (a : ReadAns) : Prop :=
  a = .error ∨ ∃ l, ∃ q : Quad, a = .bytes l ∧ s.rxBuf ++ l = q.toList ∧ polledByte q s.pd.pollIndex ≠ s.pd.pollValue

/-- A failed attempt, by its error or its mismatch, goes on to its reset pulse. -/
theorem judgeAttempt_readEnded {next : State → Res Unit} {a : ReadAns} (hlt : s.rxCnt < 4)
    (ha : readAnswer (4 - s.rxCnt) s = a) (hfail : s.AttemptFailed a) :
    judgeAttempt next (asResponse (receive 4 { s with rx := none })) = pulseReset next (s.readEnded (4 - s.rxCnt) a) := by
  rcases hfail with rfl | ⟨l, q, rfl, hq, hne⟩
  · rw [response_readEnded_error hlt ha]; rfl
  · rw [response_readEnded hlt ha hq]
    exact judgeAttempt_mismatch next hne

/-- The failed attempt's pulse fails (R170). -/
theorem step_handshake_cut {a : ReadAns} {c : PulseCut} {ws : List WriteAns} (hx : s.rx = some ⟨.handshake, 4, .host⟩)
    (hlt : s.rxCnt < 4) (ha : readAnswer (4 - s.rxCnt) s = a) (hr : s.assigned .reset = true) (hfail : s.AttemptFailed a)
    (hcut : c.Fails) (hw : s.env.writes = c.writes ++ ws) :
    step s = .next { s.readEnded (4 - s.rxCnt) a with
      val := c.val (s.valWith .reset true s.val) (s.valWith .reset false s.val), st := .failed, attempt := 0#3
      resBuf := some ⟨5#4, 0#32⟩, env := { (s.readEnded (4 - s.rxCnt) a).env with writes := ws }
      hist := (s.readEnded (4 - s.rxCnt) a).hist ++
        c.events (s.valWith .reset true s.val) (s.valWith .reset false s.val) s.dir } := by
  rw [step_handshake hx, judgeAttempt_readEnded hlt ha hfail,
    pulseReset_cut (s := s.readEnded (4 - s.rxCnt) a) _ hr hcut hw]
  rfl

/-- The failed attempt's pulse is accepted, and the handshake goes on with the attempts left (R170). -/
theorem step_handshake_pulsed {a : ReadAns} {fails : List AttemptFail} {e : HandshakeEnd} {ws : List WriteAns} {rs : List ReadAns}
    (hx : s.rx = some ⟨.handshake, 4, .host⟩) (hlt : s.rxCnt < 4) (ha : readAnswer (4 - s.rxCnt) s = a)
    (hp : s.par.wf = true) (hr : s.assigned .reset = true)
    (hi1 : 1 ≤ s.pd.pollIndex.toNat) (hi4 : s.pd.pollIndex.toNat ≤ 4) (hfail : s.AttemptFailed a)
    (hmade : s.attempt.toNat + fails.length ≤ 4) (hfs : ∀ f ∈ fails, f.fails s.pd = true)
    (hfit : e.Fits s.pd (4 - (s.attempt.toNat + fails.length)))
    (hw : s.env.writes = [.accepted 6, .accepted 6] ++ (fails.flatMap AttemptFail.writes ++ (e.writes ++ ws)))
    (hrd : s.env.reads.tail = fails.flatMap AttemptFail.reads ++ (e.reads ++ rs)) :
    step s = .next (State.afterAttempts { s.readEnded (4 - s.rxCnt) a with
      val := s.valWith .reset false s.val
      hist := (s.readEnded (4 - s.rxCnt) a).hist ++
        pulseEvents (s.valWith .reset true s.val) (s.valWith .reset false s.val) s.dir } s.attempt.toNat fails e ws rs) := by
  rw [step_handshake hx, judgeAttempt_readEnded hlt ha hfail,
    pulseReset_accepted (s := s.readEnded (4 - s.rxCnt) a) _ hr hw]
  have hleft : s.attempt.toNat + (peAttempts - s.attempt.toNat) = 4 := Nat.add_sub_cancel' (show s.attempt.toNat ≤ 4 by omega)
  rw [Nat.sub_add_eq] at hfit
  refine (handshake_settles e ws rs fails _ _ (by exact hp) rfl (by exact hr) (by exact hi1) (by exact hi4) (by exact hleft) ?_
    (by exact hfs) (by exact hfit) rfl (by exact hrd)).trans ?_
  · rw [peAttempts]; omega
  · cases e <;> rfl

end

/-- Settles O32: the next read by its answer (`step_waiting_short`, `response_readEnded`, `response_readEnded_error`), and what each
operation that waits does with it. -/
theorem receiveLoopGoesOn : Obligations.ReceiveLoopGoesOn := by
  rintro s ⟨c, n, lev⟩ hx hlt room read
  refine ⟨fun l ha hl => step_waiting_short hx hlt ha hl, ?shiftError, ?shiftWhole, ?exchangeError, ?exchangeWhole, ?eraseError,
    ?eraseWhole, ?matched, ?failed⟩
  case shiftError =>
    rintro rfl rfl ha
    rw [step_shift hx, receive_error (s := { s with rx := none }) hlt ha]
    rfl
  case shiftWhole =>
    rintro l rfl rfl ha hl
    rw [step_shift hx, receive_whole (s := { s with rx := none }) hlt ha hl]
    rfl
  case exchangeError =>
    rintro rfl rfl ha
    rw [step_exchange hx, response_readEnded_error hlt ha]
    rfl
  case exchangeWhole =>
    rintro l q rfl rfl ha hq rfl
    exact step_exchange_whole hx hlt ha hq
  case eraseError =>
    rintro rfl rfl ha
    rw [step_erase hx, response_readEnded_error hlt ha]
    rfl
  case eraseWhole =>
    rintro l q rfl rfl ha hq rfl
    rw [step_erase_whole hx hlt ha hq]
    split
    all_goals
      next z hz =>
        rw [exec_initialize_idle rfl rfl] at hz
        have hend := congrArg (runningAs s.running) hz
        rw [← initializeBody_settles_under s.running s.st rfl] at hend
        exact hend
  case matched =>
    rintro l q rfl rfl ha hq rfl - - hv
    rw [step_handshake hx, response_readEnded hlt ha hq, judgeAttempt_match _ (by exact hv)]
    rfl
  case failed =>
    rintro a rfl rfl rfl ha hp hr hat hi1 hi4 hfail on off failed
    exact ⟨fun c ws hc hw => step_handshake_cut hx hlt ha hr hfail hc hw,
      fun fails e ws rs hmade hfs hfit hw hrd =>
        step_handshake_pulsed hx hlt ha hp hr hi1 hi4 hfail hmade hfs hfit hw hrd⟩

/-! ### Runs of the receive loop (R127, R128) -/

theorem run_of_step (M : Host.Core) {s t : M.State} (h : M.step s = .next t) (k : Nat) : M.run (k + 1) s = M.run k t := by
  rw [Host.Core.run, h]

/-- A scripted read that leaves bytes missing. -/
theorem step_waiting_scripted {s : State} {w : RxWait} {l : List Byte} {rest : List ReadAns} (hx : s.rx = some w)
    (hr : s.env.reads = .bytes l :: rest) (hl : s.rxCnt + l.length < w.length) :
    step s = .next { s.readIn (w.length - s.rxCnt) (.bytes l) rest with rxBuf := s.rxBuf ++ l } := by
  have ha : readAnswer (w.length - s.rxCnt) s = .bytes l := (tRead_of hr (by rintro _ ⟨⟩; omega)).2
  rw [step_waiting_short hx (by omega) ha hl, hr]
  rfl

/-- Settles O33, by induction on the number of empty reads: each leaves the loop where it was (`step_waiting_scripted`). -/
theorem emptyReadsHang : Obligations.EmptyReadsHang := by
  intro k
  induction k with
  | zero =>
    intro s w rest hx hlt hr
    have hrest : s.env.reads = rest := hr
    subst hrest
    simp [Host.Core.run]
  | succ k ih =>
    intro s w rest hx hlt hr
    rw [run_of_step core (step_waiting_scripted (l := []) hx hr hlt)]
    rw [ih _ w rest (by exact hx) (by simpa [State.rxCnt] using hlt) rfl]
    simp [State.readIn, State.rxCnt, List.replicate_succ]

/-- Settles O34, by induction on the pieces: bytes are missing until the last one (`step_waiting_scripted`), which is not empty and
ends the exchange (`step_exchange_whole`). -/
theorem exchangeEndsWithItsBytes : Obligations.ExchangeEndsWithItsBytes := by
  intro pieces
  induction pieces with
  | nil => rintro s q rest hx hq ⟨l, hl, -⟩; cases hl
  | cons p ps ih =>
    rintro s q rest hx hq ⟨last, hlast, hne⟩ hr
    have hpos := List.length_pos_iff.mpr hne
    have htotal : s.rxCnt + (p.length + ps.flatten.length) = 4 := by simpa [State.rxCnt] using congrArg List.length hq
    cases ps with
    | nil =>
      obtain rfl : p = last := by simpa using hlast
      have hall : s.rxCnt + p.length = 4 := by simpa using htotal
      have ha : readAnswer (4 - s.rxCnt) s = .bytes p := (tRead_of hr (by rintro _ ⟨⟩; omega)).2
      rw [List.length_singleton, run_of_step core (step_exchange_whole hx (by omega) ha (by simpa using hq))]
      exact ⟨_, rfl, rfl, rfl, rfl, congrArg List.tail hr, rfl⟩
    | cons p' ps' =>
      have hlast' : (p' :: ps').getLast? = some last := by rwa [List.getLast?_cons_cons] at hlast
      have hmore : last.length ≤ (p' :: ps').flatten.length :=
        (List.sublist_flatten_of_mem (List.mem_of_getLast? hlast')).length_le
      rw [List.length_cons, run_of_step core (step_waiting_scripted hx hr (show _ < 4 by omega))]
      exact ih _ q rest hx (by simpa using hq) ⟨last, hlast', hne⟩ rfl

end Sys2Proof.Machine
end

section
/-!
SUPPORT. TransactionEngine (R140 to R151): how SET_PIN ends, called and as an LED setter of the host, and how EXCHANGE ends as a host
operation; and the words of the spec's examples.
-/

namespace Sys2Proof.Machine

/-- Settles O1: nine closed words, each decoded by evaluation. -/
theorem specWordsDecode : Obligations.SpecWordsDecode := by
  unfold Obligations.SpecWordsDecode
  decide

/-! ### SET_PIN (R140 to R142) -/

/-- A frame sent as the last work of an operation: the answer to the one write is its status (R45, R190). -/
theorem settle_sendFrame (l : Level) (bytes : List Byte) (s : State) :
    settle l ((sendFrame bytes s).withData fun _ => 0#32) =
      .next (conclude l (if writeAnswer bytes s = .accepted bytes.length then 0#4 else 5#4) 0#32 (tWrite bytes s)) := by
  by_cases h : writeAnswer bytes s = .accepted bytes.length
  · rw [sendFrame_whole h, if_pos h]; rfl
  · rw [sendFrame_short h, if_neg h]; rfl

/-- The value bit that is written, with all others unchanged (R140, R141). -/
theorem writePinBit_val_getLsbD {b : Nat} (hb : b ≤ 10) (v : Bool) (s : State) (i : Nat) :
    (writePinBit b v s).val.getLsbD i = if i = b then v ^^ s.inv.getLsbD b else s.val.getLsbD i := by
  rw [writePinBit_val, setBit_getLsbD]
  by_cases hi : i = b
  · rw [if_pos ⟨hi, by omega⟩, if_pos hi]
  · rw [if_neg fun h => hi h.1, if_neg hi]

section
variable {r : SRole} {v : Bool} {s : State} {b : Nat}

/-- A role without a pin: success, and no write (R142). -/
theorem setPin_unassigned (h : pinfield (s.pinmap.get r) = 0#7) : setPin r v s = .ok () s := by
  simp only [setPin, h, if_true]

/-- A role with a pin: its value bit, then the whole masks in one write (R140). -/
theorem setPin_assigned (hp : (pinfield (s.pinmap.get r)).toNat = b + 1) (hb : b ≤ 10) :
    setPin r v s = sendFrame (gpioBytes (writePinBit b v s).val s.dir) (writePinBit b v s) := by
  obtain ⟨-, -, hbit⟩ := pin_in_range hp hb
  have h0 : pinfield (s.pinmap.get r) ≠ 0#7 := fun h => by rw [h] at hp; cases hp
  simp only [setPin, h0, if_false, hbit, encodeGpioSet, writePinBit_dir]

theorem settle_setPin_assigned (l : Level) (hp : (pinfield (s.pinmap.get r)).toNat = b + 1) (hb : b ≤ 10) :
    settle l ((setPin r v s).withData fun _ => 0#32) =
      let bytes := gpioBytes (writePinBit b v s).val s.dir
      .next (conclude l (if writeAnswer bytes s = .accepted 6 then 0#4 else 5#4) 0#32 (tWrite bytes (writePinBit b v s))) := by
  rw [setPin_assigned hp hb, settle_sendFrame]
  rfl

theorem exec_setPin_called (h : s.running ≠ none) :
    exec (.setPin r v) s = settle .inner ((setPin r v s).withData fun _ => 0#32) := by
  rw [exec, execSetPin, runInternal_called h]

/-- VAL after a called SET_PIN, whatever the transport answered (R140, R141). -/
theorem exec_setPin_val {t : State} (h : s.running ≠ none) (hp : (pinfield (s.pinmap.get r)).toNat = b + 1) (hb : b ≤ 10)
    (ht : exec (.setPin r v) s = .next t) : t.val = setBit s.val b (v ^^ s.inv.getLsbD b) := by
  rw [exec_setPin_called h, settle_setPin_assigned .inner hp hb] at ht
  cases ht
  rfl

end

/-- Settles O35: a role without a pin (`setPin_unassigned`) and one with a pin (`settle_setPin_assigned`), whose value bit is
`writePinBit_val_getLsbD`. -/
theorem setPinFollowsR140 : Obligations.SetPinFollowsR140 := by
  intro r v s hrun
  rw [exec_setPin_called hrun]
  refine ⟨fun h => ?_, fun b hp hb => ⟨_, writePinBit_val_getLsbD hb v s, ?_⟩⟩
  · rw [setPin_unassigned h]; rfl
  · rw [settle_setPin_assigned .inner hp hb]; rfl

/-- Settles O36: VAL after each write is `exec_setPin_val`, and flipping both the value and the pin's polarity flips nothing. -/
theorem invertedOnIsPlainOff : Obligations.InvertedOnIsPlainOff := by
  intro r v s t u inv b hrun hp hb hplain hinv ht hu
  rw [exec_setPin_val (s := { s with inv := inv }) hrun hp hb ht, exec_setPin_val hrun hp hb hu, hplain, hinv, Bool.xor_true, Bool.xor_false]

/-! ### The LED setters (R148 to R151) -/

section
variable {v : Bool} {i : Instr} {r : SRole} {op : BitVec 5} {s : State}

/-- An LED setter is SET_PIN of its role, behind the acceptance check (R155). -/
theorem exec_led (hi : (i, r, op) ∈ ledOps v) :
    exec i s = runChecked op s.st.takesSession (fun t => (setPin r v t).withData fun _ => 0#32) s := by
  simp only [ledOps, List.mem_cons, Prod.mk.injEq, List.not_mem_nil, or_false] at hi
  rcases hi with ⟨rfl, rfl, rfl⟩ | ⟨rfl, rfl, rfl⟩ | ⟨rfl, rfl, rfl⟩ | ⟨rfl, rfl, rfl⟩ <;> rfl

theorem exec_led_closed (hi : (i, r, op) ∈ ledOps v) (h : s.running = none) (hst : s.st = .closed) :
    exec i s = .next { s with running := some op, resBuf := some ⟨10#4, 0#32⟩ } := by
  rw [exec_led hi, runChecked_idle h, hst]
  rfl

theorem exec_led_session (hi : (i, r, op) ∈ ledOps v) (h : s.running = none) (hst : s.st ≠ .closed) :
    exec i s = settle .host ((setPin r v { s with running := some op }).withData fun _ => 0#32) := by
  rw [exec_led hi, runChecked_idle h, if_pos ((takesSession_iff _).mpr hst)]

end

/-- Settles O37: in Closed `exec_led_closed`; in a session (`exec_led_session`) the two ways of SET_PIN. -/
theorem ledSettersSetTheirPin : Obligations.LedSettersSetTheirPin := by
  intro v i r op s hi hrun
  refine ⟨exec_led_closed hi hrun, fun hst h => ?_, fun b hst hp hb => ⟨_, writePinBit_val_getLsbD hb v s, ?_⟩⟩
  · rw [exec_led_session hi hrun hst, setPin_unassigned (by exact h)]; rfl
  · rw [exec_led_session hi hrun hst, settle_setPin_assigned .host (by exact hp) hb]; rfl

/-! ### EXCHANGE (R145) -/

/-- An exchange whose frame the transport does not take whole (R145, R45). -/
theorem exchange_writeShort {c : Quad} {s : State} (hp : s.par.wf = true)
    (hw : writeAnswer (s.exchangeFrame c) s ≠ .accepted 8) :
    exchange c s = .raise .writeShort (tWrite (s.exchangeFrame c) s) := by
  obtain ⟨-, -, -, -, hsends, -⟩ := modes_of_wf hp
  have hbytes := shiftBytes_quad s.par s rfl c
  rw [exchange, shift_cut (xchgShift_legal s.par c) hsends (by rw [hbytes]; exact hw), hbytes]
  rfl

/-- A frame and the first read after it, as one change of the block. -/
theorem wrote_readIn (s : State) (bytes : List Byte) (a : WriteAns) (w : List WriteAns) (n : Nat) (x : ReadAns) (q : List ReadAns) :
    (s.wrote bytes a w).readIn n x q = { s with
      env := { s.env with writes := w, reads := q }
      hist := s.hist ++ [.write bytes a, .read n x] } := by
  simp [State.wrote, State.readIn]

section
variable {c : Quad} {s : State}

theorem exec_exchange_closed (h : s.running = none) (hst : s.st = .closed) :
    exec (.exchange c) s = .next { s with running := some 0x05#5, resBuf := some ⟨10#4, 0#32⟩ } := by
  rw [exec, execExchange, runCallable_idle h, hst]
  rfl

theorem exec_exchange_session (h : s.running = none) (hst : s.st ≠ .closed) :
    exec (.exchange c) s =
      settle .host (((exchange c { s with running := some 0x05#5 }).waitingFor .exchange).withData wordOfQuad) := by
  rw [exec, execExchange, runCallable_idle h, if_pos ((takesSession_iff _).mpr hst)]
  rfl

end

/-- Settles O38: in Closed `exec_exchange_closed`; in a session (`exec_exchange_session`) a write that is not taken whole
(`exchange_writeShort`) and the three answers to the first read (`exchange_whole`, `exchange_short`, `exchange_readError`). -/
theorem exchangeFollowsR145 : Obligations.ExchangeFollowsR145 := by
  intro c s hrun hpar bytes
  refine ⟨exec_exchange_closed hrun, fun hst hw => ?_, fun w q a hst hw hq => ?_⟩
  · rw [exec_exchange_session hrun hst, exchange_writeShort (by exact hpar) (by exact hw)]; rfl
  intro sent
  rw [exec_exchange_session hrun hst]
  refine ⟨?whole, ?short, ?error⟩
  case whole =>
    rintro r rfl
    rw [exchange_whole c r (by exact hpar) (by exact hw) (by exact hq), wrote_readIn]; rfl
  case short =>
    rintro l rfl hl
    rw [exchange_short c (by exact hpar) (by exact hw) (by exact hq) hl, wrote_readIn]; rfl
  case error =>
    rintro rfl
    rw [exchange_readError c (by exact hpar) (by exact hw) (by exact hq), wrote_readIn]; rfl

end Sys2Proof.Machine
end

section
/-!
SUPPORT. The acceptance table (R155): a host operation presented in a state that does not take it ends with BadState, and no
operation that is taken ends so.
-/

namespace Sys2Proof.Machine

/-- An operation that is not taken ends with BadState, and one that is taken ends as its body, which never raises it. -/
theorem runChecked_acceptance {s : State} {op : BitVec 5} {takes : Bool} {body : State → Res (BitVec 32)} {P : Prop}
    (hr : s.running = none) (htakes : takes = true ↔ P)
    (hcalm : ∀ u, Calm u (body u) (· ≠ .badState)) :
    (¬ P → runChecked op takes body s = .next { s with running := some op, resBuf := some ⟨10#4, 0#32⟩ }) ∧
    (P → s.resBuf = none → ∀ t, runChecked op takes body s = .next t → t.resBuf ≠ some ⟨10#4, 0#32⟩) := by
  rw [runChecked_idle hr, ← htakes]
  refine ⟨fun hno => ?_, fun hyes hb t ht => ?_⟩
  · rw [if_neg hno]
    exact settle_badState _
  · rw [if_pos hyes] at ht
    exact settle_not_badState ht (by exact hb) (hcalm _)

/-- Presented by the host, an operation that others call too is checked alike. -/
theorem runCallable_acceptance {s : State} {op : BitVec 5} {takes : Bool} {body : State → Res (BitVec 32)} {P : Prop}
    (hr : s.running = none) (htakes : takes = true ↔ P)
    (hcalm : ∀ u, Calm u (body u) (· ≠ .badState)) :
    (¬ P → runCallable op takes body s = .next { s with running := some op, resBuf := some ⟨10#4, 0#32⟩ }) ∧
    (P → s.resBuf = none → ∀ t, runCallable op takes body s = .next t → t.resBuf ≠ some ⟨10#4, 0#32⟩) := by
  have hidle : runCallable op takes body s = runChecked op takes body s := by simp [runCallable, hr]
  rw [hidle]
  exact runChecked_acceptance hr htakes hcalm

theorem St.takesOpen_iff (st : St) : st.takesOpen = true ↔ st ∈ [St.closed] := by cases st <;> decide

theorem St.takesBringUp_iff (st : St) : st.takesBringUp = true ↔ st ∈ [St.opened, .enabled, .failed] := by cases st <;> decide

theorem St.takesErase_iff (st : St) : st.takesErase = true ↔ st ∈ [St.enabled] := by cases st <;> decide

/-- CLOSE is taken in every state the host can observe (R16). -/
theorem St.mem_of_stable {st : St} (h : st.stable = true) : st ∈ [St.closed, .opened, .enabled, .failed] := by
  revert h; cases st <;> decide

theorem bringUpErr_ne_badState {e : Err} (h : bringUpErr e) : e ≠ .badState := by
  rintro rfl
  obtain h | h | h := h <;> cases h

theorem exchangeErr_ne_badState {e : Err} (h : exchangeErr e) : e ≠ .badState := by
  rintro rfl
  obtain h | h := h <;> cases h

theorem calm_close (s : State) : Calm s (.ok 0#32 (closeBody s) : Res (BitVec 32)) (· ≠ .badState) :=
  (closeBody_frame s).1.resBuf

/-- The operations of R155's table, each behind its acceptance check. -/
theorem hostOp_acceptance {i : Instr} {op : BitVec 5} {sts : List St} {s : State} (hi : (i, op, sts) ∈ hostOps)
    (hr : s.running = none) (hst : s.st.stable = true) :
    (s.st ∉ sts → exec i s = .next { s with running := some op, resBuf := some ⟨10#4, 0#32⟩ }) ∧
    (s.st ∈ sts → s.resBuf = none → ∀ t, exec i s = .next t → t.resBuf ≠ some ⟨10#4, 0#32⟩) := by
  simp only [hostOps, List.mem_cons, Prod.mk.injEq, List.not_mem_nil, or_false] at hi
  obtain ⟨rfl, rfl, rfl⟩ | ⟨rfl, rfl, rfl⟩ | ⟨rfl, rfl, rfl⟩ | ⟨rfl, rfl, rfl⟩ | ⟨rfl, rfl, rfl⟩ := hi
  · exact runChecked_acceptance hr s.st.takesOpen_iff fun u => calm_data _ (calm_open u)
  · exact runChecked_acceptance hr (iff_of_true rfl (St.mem_of_stable hst)) calm_close
  · exact runCallable_acceptance hr s.st.takesBringUp_iff fun u =>
      calm_data _ ((calm_init u).imp fun _ => bringUpErr_ne_badState)
  · exact runCallable_acceptance hr s.st.takesBringUp_iff fun u =>
      calm_data _ ((calm_pe u).imp fun _ => bringUpErr_ne_badState)
  · exact runChecked_acceptance hr s.st.takesErase_iff fun u => calm_data _ (calm_erase u)

/-- Settles O10: the table's operations (`hostOp_acceptance`), EXCHANGE, and the LED setters, whose one error is WriteShort
(`setPin_sat`). -/
theorem acceptanceTable : Obligations.AcceptanceTable := by
  refine ⟨fun i op sts s => hostOp_acceptance, fun c s hr => ?exchange, fun v i r op s hi hr => ?led⟩
  case exchange =>
    have htable := runCallable_acceptance (op := opExchange) hr (takesSession_iff s.st) fun u =>
      calm_data wordOfQuad (Res.sat_waitingFor (c := .exchange) ((calm_exchange c u).imp fun _ => exchangeErr_ne_badState))
    exact ⟨exec_exchange_closed hr, htable.2⟩
  case led =>
    refine ⟨exec_led_closed hi hr, fun hst t ht => ?_⟩
    rw [exec_led_session hi hr hst] at ht
    obtain ⟨d, u, -, rfl⟩ | ⟨e, u, ⟨rfl, -⟩, rfl⟩ | ⟨-, -, -, hw, -⟩ :=
      settle_sat ht (Res.sat_withData (Q := fun _ _ => True) (setPin_sat r v _) fun _ _ _ => trivial)
    · simp
    · simp [Err.code]
    · exact hw.elim

end Sys2Proof.Machine
end

section
/-!
SUPPORT. OPEN as a host operation (R157): its pin setup is PIN_SETUP as called, and what follows is the three transport calls.
-/

namespace Sys2Proof.Machine

/-! ### PIN_SETUP inside OPEN (R99, R157) -/

/-- How PIN_SETUP ends as a piece of OPEN, from how it ends when called. -/
theorem pinSetup_of_called {s p : State} (h : s.running ≠ none) (hp : exec .pinSetup s = .next p) :
    (p.ret = ⟨0#4, 0#32⟩ ∧ pinSetup s = .ok () { p with ret := s.ret }) ∨
      ∃ e, configErr e ∧ p.ret = ⟨e.code, e.data⟩ ∧ pinSetup s = .raise e { p with ret := s.ret } := by
  rw [exec_pinSetup_called h] at hp
  have hsat := pinSetup_sat s
  cases hr : pinSetup s with
  | ok a u =>
    rw [hr] at hp hsat
    cases hp
    exact .inl ⟨rfl, by rw [← hsat.1.ret]; rfl⟩
  | raise e u =>
    rw [hr] at hp hsat
    cases hp
    exact .inr ⟨e, hsat.2, rfl, by rw [← hsat.1.ret]; rfl⟩
  | wait c n u => rw [hr] at hsat; exact hsat.elim
  | refuse x => rw [hr] at hp; cases hp

/-- The statuses of the configuration errors (R191). -/
theorem configErr_status {e : Err} (h : configErr e) : e.code ∈ [1#4, 2#4, 3#4] := by
  obtain ⟨r, rfl⟩ | ⟨r, rfl⟩ | ⟨m, rfl⟩ := h <;> simp [Err.code]

section
variable {s p : State} (hr : s.running = none) (hst : s.st = .closed)
  (hp : exec .pinSetup { s with running := some 0x00#5 } = .next p)
include hr hst

theorem exec_open_closed :
    exec .openOp s = settle .host ((openBody { s with running := some 0x00#5 }).withData fun _ => 0#32) := by
  rw [exec, execOpen, runChecked_idle hr, hst]
  rfl

include hp

/-- A configuration error ends OPEN where PIN_SETUP left it (R157, R193). -/
theorem exec_open_setup_fails (hfail : p.ret.status ≠ 0#4) :
    exec .openOp s = .next { p with ret := s.ret, resBuf := some p.ret } := by
  obtain ⟨hret, -⟩ | ⟨e, -, hret, hset⟩ := pinSetup_of_called (by simp) hp
  · exact absurd (congrArg HostRes.status hret) hfail
  · rw [exec_open_closed hr hst, openBody, hset, hret]
    rfl

/-- Otherwise the transport calls follow (R157). -/
theorem exec_open_setup_done (hok : p.ret.status = 0#4) :
    exec .openOp s =
      settle .host ((openTransport s.cfg.vid s.cfg.pid s.cfg.hz { p with ret := s.ret }).withData fun _ => 0#32) := by
  obtain ⟨-, hset⟩ | ⟨e, he, hret, -⟩ := pinSetup_of_called (by simp) hp
  · rw [exec_open_closed hr hst, openBody, hset]
    rfl
  · have hcode : e.code = 0#4 := by rw [hret] at hok; exact hok
    have hmem := configErr_status he
    rw [hcode] at hmem
    exact absurd hmem (by decide)

end

/-! ### A willing transport (R157, R158) -/

theorem tOpen_willing {s : State} {o : List Bool} (vid pid : BitVec 16) (ho : s.env.opens = true :: o) :
    openAnswer vid pid s = true ∧
      tOpen vid pid s = { s with env := { s.env with opens := o }, hist := s.hist ++ [.opened vid pid true] } := by
  have hans : openAnswer vid pid s = true := by simp [openAnswer, ho]
  exact ⟨hans, by simp [tOpen, hans, ho]⟩

theorem tSetMode_willing {s : State} {m : List Bool} (dir : Mask) (mode : Byte) (hm : s.env.modes = true :: m) :
    modeAnswer dir mode s = true ∧
      tSetMode dir mode s = { s with env := { s.env with modes := m }, hist := s.hist ++ [.setMode dir mode true] } := by
  have hans : modeAnswer dir mode s = true := by simp [modeAnswer, hm]
  exact ⟨hans, by simp [tSetMode, hans, hm]⟩

theorem setClock_willing {s : State} {w : List WriteAns} (hz : BitVec 32) (hw : s.env.writes = .accepted 3 :: w) :
    setClock hz s = .ok () { s with
      clk := none, env := { s.env with writes := w }
      hist := s.hist ++ capDiags hz ++ [.write (clkBytes (computeDivisor hz).divisor) (.accepted 3)] } := by
  obtain ⟨hsent, hans⟩ := tWrite_of (a := .accepted 3) (w := w) (bytes := clkBytes (computeDivisor hz).divisor)
    (s := { s with clk := some (computeDivisor hz), hist := s.hist ++ capDiags hz }) hw (by rintro n ⟨⟩; exact le_rfl)
  rw [setClock_eq, sendFrame_whole (by exact hans), hsent]
  rfl

/-- The three calls in order, each accepted. -/
theorem openTransport_willing {s : State} {o m : List Bool} {w : List WriteAns} (vid pid : BitVec 16) (hz : BitVec 32)
    (ho : s.env.opens = true :: o) (hm : s.env.modes = true :: m) (hw : s.env.writes = .accepted 3 :: w) :
    openTransport vid pid hz s = .ok () { s with
      st := .opened, live := true, clk := none, env := { s.env with opens := o, modes := m, writes := w }
      hist := s.hist ++ [.opened vid pid true, .setMode s.dir s.par.modeSelect true] ++ capDiags hz ++
        [.write (clkBytes (computeDivisor hz).divisor) (.accepted 3)] } := by
  obtain ⟨hopen, htOpen⟩ := tOpen_willing vid pid ho
  rw [openTransport, if_pos hopen, htOpen, openMode]
  obtain ⟨hmode, htMode⟩ := tSetMode_willing (m := m)
    (s := { s with env := { s.env with opens := o }, hist := s.hist ++ [.opened vid pid true] }) s.dir s.par.modeSelect hm
  rw [if_pos (by exact hmode), htMode, openClock, setClock_willing (w := w) hz (by exact hw)]
  simp

/-- OPEN with a configuration PIN_SETUP accepts and a willing transport. -/
theorem exec_open_willing {s p : State} {o m : List Bool} {w : List WriteAns} (hr : s.running = none) (hst : s.st = .closed)
    (hp : exec .pinSetup { s with running := some 0x00#5 } = .next p) (hok : p.ret.status = 0#4)
    (ho : p.env.opens = true :: o) (hm : p.env.modes = true :: m) (hw : p.env.writes = .accepted 3 :: w) :
    exec .openOp s = .next { p with
      ret := s.ret, st := .opened, live := true, clk := none, resBuf := some ⟨0#4, 0#32⟩
      env := { p.env with opens := o, modes := m, writes := w }
      hist := p.hist ++ [.opened s.cfg.vid s.cfg.pid true, .setMode p.dir p.par.modeSelect true] ++ capDiags s.cfg.hz ++
        [.write (clkBytes (computeDivisor s.cfg.hz).divisor) (.accepted 3)] } := by
  rw [exec_open_setup_done hr hst hp hok, openTransport_willing _ _ _ (by exact ho) (by exact hm) (by exact hw)]
  rfl

/-- PIN_SETUP of the power-on configuration: the layout is corrected to the four fixed pins, and no other role has one
(R97, R157). -/
theorem pinSetup_powerOn {s : State} (h : s.running ≠ none) (hcfg : s.cfg = State.reset.cfg)
    (hpol : s.par.layout = .autocorrect) :
    exec .pinSetup s = .next { s with
      pinmap := ⟨0x01#8, 0x02#8, 0x03#8, 0x04#8, 0#8, 0#8, 0#8, 0#8⟩, gmask := .zero
      dir := 0x000B#16, inv := 0#16, val := 0#16
      samp := ⟨0x01#8, 0x02#8, 0x03#8, 0x04#8, 0#8, 0#8, 0#8, 0#8⟩, ret := ⟨0#4, 0#32⟩
      hist := s.hist ++ [.diag .layoutCorrected (.role 0#32), .diag .layoutCorrected (.role 1#32),
        .diag .layoutCorrected (.role 2#32), .diag .resetDefaulted (.role 3#32)] } := by
  have hlayout : correctedLayout State.reset.cfg.pin = ⟨0x01#8, 0x02#8, 0x03#8, 0x04#8, 0#8, 0#8, 0#8, 0#8⟩ := by decide
  have hdiags : State.reset.cfg.pin.layoutDiags = [.diag .layoutCorrected (.role 0#32), .diag .layoutCorrected (.role 1#32),
    .diag .layoutCorrected (.role 2#32), .diag .resetDefaulted (.role 3#32)] := by decide
  have hres : setupResult (correctedLayout State.reset.cfg.pin) State.reset.cfg.group = ⟨0#4, 0#32⟩ := by decide
  have hdone := setupDone_of_success _ _ (congrArg HostRes.status hres)
  have hdir : dirOf (tableAfter (correctedLayout State.reset.cfg.pin) 10) (groupsAfter State.reset.cfg.group 10) = 0x000B#16 := by
    decide
  have hgroups : groupsAfter State.reset.cfg.group 10 = .zero := by decide
  have hinv : invOf (tableAfter (correctedLayout State.reset.cfg.pin) 10) = 0#16 := by decide
  rw [pinSetup_assigns h (.inl hpol), hcfg, hdone, hres, hdiags, State.assignedTo, hdir, hinv, hlayout, hgroups,
    ← hcfg]
  rfl

/-- Settles O39: `pinSetup_powerOn`, then `exec_open_willing`; 150,000 Hz is the divisor 39 and not capped. -/
theorem openOfPowerOnConfig : Obligations.OpenOfPowerOnConfig := by
  intro s o m w hr hst hcfg hpol ho hm hw
  have hp := pinSetup_powerOn (s := { s with running := some 0x00#5 }) (by simp) hcfg hpol
  have hcaps : capDiags State.reset.cfg.hz = [] := by decide
  have hclock : clkBytes (computeDivisor State.reset.cfg.hz).divisor = [0x86#8, 0x27#8, 0x00#8] := by decide
  rw [exec_open_willing hr hst hp rfl (by exact ho) (by exact hm) (by exact hw), hcfg, hcaps, hclock]
  simp [State.reset, vidDefault, pidDefault]

/-- Settles O40: PIN_SETUP takes the configuration as it stands (`pinSetupAcceptsLegalConfig`); then `exec_open_willing`. -/
theorem openOfLegalConfig : Obligations.OpenOfLegalConfig := by
  intro s o m w hr hst hc ho hm hw
  obtain ⟨p, hp, hmasks, heq⟩ := pinSetupAcceptsLegalConfig { s with running := some 0x00#5 } (by simp) hc
  generalize p.dir = dir, p.inv = inv at heq
  subst heq
  exact ⟨_, exec_open_willing hr hst hp rfl (by exact ho) (by exact hm) (by exact hw), { hmasks with }, rfl⟩

/-! ### Any transport (R157, R193, R195) -/

/-- How OPEN ends after its pin setup: which of its transport calls fails, if one does. -/
inductive OpenEnd where
  | openFailed
  | modeFailed
  | cut (a : WriteAns)
  | done

/-- Its status (R191). -/
def OpenEnd.status : OpenEnd → BitVec 4
  | .openFailed => 4#4
  | .modeFailed => 7#4
  | .cut _ => 5#4
  | .done => 0#4

/-- The events of its calls; a handle that was opened is released unless all went well. -/
def OpenEnd.calls (vid pid : BitVec 16) (dir : Mask) (mode : Byte) (hz : BitVec 32) : OpenEnd → List Event
  | .openFailed => [.opened vid pid false]
  | .modeFailed => [.opened vid pid true, .setMode dir mode false, .close]
  | .cut a => [.opened vid pid true, .setMode dir mode true] ++ capDiags hz ++
      [.write (clkBytes (computeDivisor hz).divisor) a, .close]
  | .done => [.opened vid pid true, .setMode dir mode true] ++ capDiags hz ++
      [.write (clkBytes (computeDivisor hz).divisor) (.accepted 3)]

theorem OpenEnd.status_openFailed_iff (e : OpenEnd) : e.status = 4#4 ↔ e = .openFailed := by cases e <;> simp [OpenEnd.status]
theorem OpenEnd.status_modeFailed_iff (e : OpenEnd) : e.status = 7#4 ↔ e = .modeFailed := by cases e <;> simp [OpenEnd.status]
theorem OpenEnd.status_done_iff (e : OpenEnd) : e.status = 0#4 ↔ e = .done := by cases e <;> simp [OpenEnd.status]

theorem OpenEnd.status_cut_iff {e : OpenEnd} (h : ∀ a, e = .cut a → a ≠ .accepted 3) :
    e.status = 5#4 ↔ ∃ a, a ≠ .accepted 3 ∧ e = .cut a := by
  cases e with
  | cut a => exact iff_of_true rfl ⟨a, h a rfl, rfl⟩
  | _ => simp [OpenEnd.status]

section
variable (vid pid : BitVec 16) (dir : Mask) (mode : Byte) (hz : BitVec 32)

/-- The calls tell the ends apart. -/
theorem OpenEnd.calls_inj (e f : OpenEnd) : e.calls vid pid dir mode hz = f.calls vid pid dir mode hz ↔ e = f := by
  cases e <;> cases f <;> simp [OpenEnd.calls]

/-- The handle is held after a success only. -/
theorem OpenEnd.handleOpen_calls (e : OpenEnd) : handleOpen (e.calls vid pid dir mode hz) false = true ↔ e.status = 0#4 := by
  have hcaps : ∀ x, handleOpen (capDiags hz) x = x := fun x => by
    rw [← capEvents_computeDivisor]
    exact handleOpen_diags (capEvents_diags _ _) x
  cases e <;> simp [OpenEnd.calls, OpenEnd.status, handleOpen_append, handleOpen, hcaps]

end

/-- OPEN after its pin setup, whatever the transport answers (R157). -/
theorem openTransport_settles (vid pid : BitVec 16) (hz : BitVec 32) {s : State} (hst : s.st = .closed) (hl : s.live = false) :
    ∃ (e : OpenEnd) (t : State), settle .host ((openTransport vid pid hz s).withData fun _ => 0#32) = .next t ∧
      SamePins s t ∧ t.resBuf = some ⟨e.status, 0#32⟩ ∧ t.hist = s.hist ++ e.calls vid pid s.dir s.par.modeSelect hz ∧
      (∀ a, e = .cut a → a ≠ .accepted 3) ∧ (e.status = 0#4 → t.st = .opened ∧ t.live = true) ∧
      (e.status ≠ 0#4 → t.st = .closed ∧ t.live = false) := by
  have hends := openTransport_ends vid pid hz s
  simp only [capEvents_computeDivisor] at hends
  obtain ⟨t, ht, hpins, h1, h2, hh⟩ | ⟨t, ht, hpins, h1, h2, hh⟩ | ⟨t, a, ht, hpins, h1, h2, ha, hh⟩ |
    ⟨t, ht, hpins, h1, h2, hh⟩ := hends
  · exact ⟨.openFailed, { t with resBuf := some ⟨4#4, 0#32⟩ }, by rw [ht]; rfl, { hpins with }, rfl, hh, nofun, nofun,
      fun _ => ⟨h1.trans hst, h2.trans hl⟩⟩
  · exact ⟨.modeFailed, { t with resBuf := some ⟨7#4, 0#32⟩ }, by rw [ht]; rfl, { hpins with }, rfl, hh, nofun, nofun,
      fun _ => ⟨h1.trans hst, h2.trans hl⟩⟩
  · exact ⟨.cut a, { t with resBuf := some ⟨5#4, 0#32⟩ }, by rw [ht]; rfl, { hpins with }, rfl,
      hh.trans (List.append_assoc _ _ _), by rintro _ ⟨⟩; exact ha, nofun, fun _ => ⟨h1.trans hst, h2⟩⟩
  · exact ⟨.done, { t with resBuf := some ⟨0#4, 0#32⟩ }, by rw [ht]; rfl, { hpins with }, rfl,
      hh.trans (List.append_assoc _ _ _), nofun, fun _ => ⟨h1, h2⟩, fun h => absurd rfl h⟩

/-- Settles O41: a failed PIN_SETUP ends it (`exec_open_setup_fails`); after a good one the four ends of the transport calls
(`openTransport_settles`), told apart by their events (`OpenEnd.calls_inj`). -/
theorem failedOpenReleasesTheHandle : Obligations.FailedOpenReleasesTheHandle := by
  intro s hr hst hl
  obtain ⟨p, diags, hp, hhist, hdiags, -, hstatus, heq, -⟩ :=
    pinSetupBuildsTheMasks { s with running := some 0x00#5 } (by simp)
  have hpst : p.st = .closed := by rw [heq]; exact hst
  have hpl : p.live = false := by rw [heq]; exact hl
  have hmode : p.par = s.par := by rw [heq]
  have hsilent : ∀ e ∈ diags, isTransportCall e = false := fun e he => by obtain ⟨k, i, rfl⟩ := hdiags e he; rfl
  by_cases hok : p.ret.status = 0#4
  case neg =>
    have hconfig : p.ret.status ∈ [1#4, 2#4, 3#4] := by
      obtain h | h | h | h := hstatus
      · exact absurd h hok
      all_goals rw [h]; decide
    exact ⟨_, p.ret.data, diags, p.ret.status, p, exec_open_setup_fails hr hst hp hok, rfl, hhist, hp, rfl, rfl, rfl, rfl, rfl,
      fun h => absurd h hok,
      fun _ => ⟨hpst, hpl, handleOpen_diags hdiags _, List.mem_append_left [4#4, 5#4, 7#4] hconfig⟩, fun _ => hsilent,
      fun _ => ⟨rfl, hconfig, rfl, rfl⟩, fun h => absurd h hok⟩
  case pos =>
    obtain ⟨e, t, ht, hpins, hres, hcalls, hcut, hgood, hbad⟩ :=
      openTransport_settles s.cfg.vid s.cfg.pid s.cfg.hz (s := { p with ret := s.ret }) hpst hpl
    have hhandle : handleOpen (diags ++ e.calls s.cfg.vid s.cfg.pid p.dir p.par.modeSelect s.cfg.hz) false = true ↔
        e.status = 0#4 := by
      rw [handleOpen_append, handleOpen_diags hdiags, OpenEnd.handleOpen_calls]
    refine ⟨t, 0#32, _, e.status, p, (exec_open_setup_done hr hst hp hok).trans ht, hres,
      by rw [hcalls, hhist, List.append_assoc], hp, hpins.pinmap, hpins.gmask, hpins.dir, hpins.inv, hpins.val,
      fun h => ⟨(hgood h).1, (hgood h).2, hhandle.mpr h⟩,
      fun h => ⟨(hbad h).1, (hbad h).2, Bool.eq_false_iff.mpr (hhandle.not.mpr h), ?_⟩, fun h => ?_, fun h => absurd hok h,
      fun _ => ?_⟩
    · cases e <;> simp [OpenEnd.status] at h ⊢
    · cases e <;> simp [OpenEnd.status] at h
    have same : ∀ f : OpenEnd, e = f ↔
        t.hist = p.hist ++ f.calls s.cfg.vid s.cfg.pid p.dir s.par.modeSelect s.cfg.hz := fun f => by
      rw [hcalls, ← hmode, List.append_right_inj, OpenEnd.calls_inj]
    refine ⟨rfl, ?_, ?_, ?_, ?_, ?_⟩
    · cases e <;> simp [OpenEnd.status]
    · exact e.status_openFailed_iff.trans (same .openFailed)
    · exact e.status_modeFailed_iff.trans (same .modeFailed)
    · refine (OpenEnd.status_cut_iff hcut).trans (exists_congr fun a => and_congr_right fun _ => ?_)
      rw [List.append_assoc]
      exact same (.cut a)
    · rw [List.append_assoc]; exact e.status_done_iff.trans (same .done)

end Sys2Proof.Machine
end

section
/-!
SUPPORT. PROGRAM_ENABLE as a host operation (R170, R173): the four ways its handshake goes on after failed attempts, each
a case of `programEnable_settles`.
-/

namespace Sys2Proof.Machine

theorem St.takesBringUp_of {st : St} (h : st = .opened ∨ st = .enabled ∨ st = .failed) : st.takesBringUp = true :=
  st.takesBringUp_iff.mpr (by simpa using h)

section
variable {s : State} {fails : List AttemptFail} {w : List WriteAns} {rs : List ReadAns} (hs : s.ReadyToEnable)
  (hst : s.st = .opened ∨ s.st = .enabled ∨ s.st = .failed) (hfs : ∀ f ∈ fails, f.fails s.pd = true)
include hs hst hfs

/-- Failed attempts, then the handshake goes on with `e`. -/
theorem exec_programEnable_goes_on (e : HandshakeEnd) (hlen : fails.length ≤ 4) (hfit : e.Fits s.pd (4 - fails.length))
    (hw : s.env.writes = fails.flatMap AttemptFail.writes ++ (e.writes ++ w))
    (hrd : s.env.reads = fails.flatMap AttemptFail.reads ++ (e.reads ++ rs)) :
    exec .programEnable s = .next (State.afterAttempts { s with running := some 0x03#5, attempt := 0#3 } 0 fails e w rs) :=
  programEnable_settles fails e w rs hs (St.takesBringUp_of hst) hlen hfs hfit hw hrd

end

/-- Settles O45: after the failed attempts a match, or a response that is short. -/
theorem handshakeMatches : Obligations.HandshakeMatches := by
  constructor
  · intro s fails q w rs hs hst hlen hfs hmatch hw hrd
    exact exec_programEnable_goes_on hs hst hfs (.matched q) hlen.le ⟨by omega, hmatch⟩ hw hrd
  · intro s fails l w rs hs hst hlen hfs hl hw hrd
    rw [exec_programEnable_goes_on hs hst hfs (.short l) hlen.le ⟨by omega, hl⟩ hw hrd, State.afterAttempts, Nat.zero_add]
    rfl

/-- Settles O46: four failed attempts leave none, and a pulse that fails ends the handshake at once. -/
theorem handshakeFailsAfterFour : Obligations.HandshakeFailsAfterFour := by
  constructor
  · intro s fails w rs hs hst hlen hfs hw hrd
    have hne : fails ≠ [] := by rintro rfl; cases hlen
    have hpe := exec_programEnable_goes_on hs hst hfs .exhausted hlen.le (show 4 - fails.length = 0 by omega) hw hrd
    rw [State.afterAttempts, if_neg hne, HandshakeEnd.events, List.append_nil] at hpe
    exact hpe
  · intro s fails f c w rs hs hst hlen hfs hf hc hw hrd
    have hpe := exec_programEnable_goes_on hs hst hfs (.cut f c) hlen.le ⟨by omega, hf, hc⟩ hw hrd
    rw [State.afterAttempts, HandshakeEnd.events, ← List.append_assoc] at hpe
    exact hpe

end Sys2Proof.Machine
end

section
/-!
SUPPORT. INITIALIZE as a host operation (R163): its reset sequence, accepted or cut at one of its writes, and the handshake
after it; and a descriptor that neither it nor PROGRAM_ENABLE can run with (R171, R172).
-/

namespace Sys2Proof.Machine

/-! ### What stands between the reset sequence and the handshake -/

/-- The block after an accepted reset sequence, with `w` the answers left (R163). -/
def State.released (s : State) (w : List WriteAns) : State :=
  { s with val := s.initVals.2.2.2, st := .resetReleased, env := { s.env with writes := w }, hist := s.hist ++ s.initEvents }

/-- INITIALIZE with an accepted reset sequence goes on as PROGRAM_ENABLE (R163). -/
theorem exec_initialize_released {s : State} {w : List WriteAns} (h : s.running = none)
    (hst : s.st = .opened ∨ s.st = .enabled ∨ s.st = .failed) (hr : s.assigned .reset = true) (hc : s.assigned .clk = true)
    (hw : s.env.writes = List.replicate 4 (WriteAns.accepted 6) ++ w) :
    exec .initializeOp s =
      settle .host ((programEnable { s.released w with running := some 0x02#5 }).withData fun _ => 0#32) := by
  rw [exec_initialize_idle h (St.takesBringUp_of hst), initializeBody,
    resetSequence_accepted (by exact hr) (by exact hc) (by exact hw)]
  rfl

theorem programEnable_usable {s : State} (hi : 1 ≤ s.pd.pollIndex.toNat ∧ s.pd.pollIndex.toNat ≤ 4)
    (hd : s.pd.peDef = true) :
    programEnable s = handshake peAttempts { s with attempt := 0#3 } := by
  simp [programEnable, (pollIndexLegal_iff _).mpr hi, hd]

/-- An undefined opcode (R172). -/
theorem programEnable_undefined {s : State} (hi : 1 ≤ s.pd.pollIndex.toNat ∧ s.pd.pollIndex.toNat ≤ 4)
    (hd : s.pd.peDef = false) :
    programEnable s = .raise .operationUnsupported { s with st := .failed } := by
  simp [programEnable, (pollIndexLegal_iff _).mpr hi, hd]

/-- A poll index out of range (R171). -/
theorem programEnable_refused {s : State} (hi : s.pd.pollIndex.toNat < 1 ∨ 4 < s.pd.pollIndex.toNat) :
    programEnable s = .refuse .pollIndexOutOfRange := by
  have hillegal : ¬ pollIndexLegal s.pd.pollIndex = true := by rw [pollIndexLegal_iff]; omega
  simp [programEnable, hillegal]

theorem exec_programEnable_idle {s : State} (h : s.running = none) (hst : s.st.takesBringUp = true) :
    exec .programEnable s = settle .host ((programEnable { s with running := some 0x03#5 }).withData fun _ => 0#32) := by
  rw [exec, execProgramEnable, runCallable_idle h, if_pos hst]
  rfl

/-- Settles O43: the reset sequence is accepted (`exec_initialize_released`); then a match at the first attempt
(`handshake_settles`), and in general the handshake, which does not depend on who runs it or on ST (`programEnable_under`). -/
theorem initializeFollowsR163 : Obligations.InitializeFollowsR163 := by
  constructor
  · intro s q w rs hs hst hmatch hw hrd
    rw [exec_initialize_released hs.idle hst hs.reset hs.clock hw, programEnable_usable (by exact hs.index) (by exact hs.defined)]
    refine (handshake_settles (.matched q) w rs [] peAttempts
      { s.released (.accepted 8 :: w) with running := some 0x02#5, attempt := 0#3 } (by exact hs.modes) (by exact hs.quiet)
      (by exact hs.reset) hs.index.1 hs.index.2 rfl (by decide) nofun ⟨by decide, hmatch⟩ rfl hrd).trans ?_
    rw [State.afterAttempts, List.flatMap_nil, List.append_nil]
    rfl
  · intro s w hr hx hst hreset hclk hw
    let u : State := { s.released w with running := some 0x03#5, st := .opened }
    have hu : u.rx = none := hx
    rw [exec_initialize_released hr hst hreset hclk hw, exec_programEnable_idle (by exact hr) rfl]
    have hrx := programEnable_rx u
    rw [hu] at hrx
    exact (programEnable_under (x := some 0x02#5) (y := .resetReleased) u).settle hrx

/-- Settles O47: the descriptor is met where the handshake begins (`programEnable_refused`, `programEnable_undefined`), in
INITIALIZE after its reset sequence. -/
theorem unusableDescriptor : Obligations.UnusableDescriptor := by
  intro s hr hst
  have hpe := exec_programEnable_idle hr (St.takesBringUp_of hst)
  refine ⟨fun hi => ?_, fun h1 h4 hd => ?_, fun w hreset hclk hw => ?_⟩
  · rw [hpe, programEnable_refused (by exact hi)]; rfl
  · rw [hpe, programEnable_undefined (by exact ⟨h1, h4⟩) (by exact hd)]; rfl
  rw [exec_initialize_released hr hst hreset hclk hw]
  refine ⟨fun hi => ?_, fun h1 h4 hd => ?_⟩
  · rw [programEnable_refused (by exact hi)]; rfl
  · rw [programEnable_undefined (by exact ⟨h1, h4⟩) (by exact hd)]; rfl

/-! ### A write of the reset sequence fails -/

/-- `r`, begun in `s`, makes `k` writes, then one answered with `a`, and ends at once with WriteShort; `w` are the answers
left. -/
def CutAfter {α : Type} (s : State) (k : Nat) (a : WriteAns) (w : List WriteAns) (r : Res α) : Prop :=
  ∃ t l bytes, r = Res.raise Err.writeShort t ∧ t.running = s.running ∧ t.env.writes = w ∧
    t.hist = s.hist ++ l ++ [Event.write bytes a] ∧ (l.filter isTransportCall).length = k

section
variable {α : Type} {s : State} {k : Nat} {a : WriteAns} {w : List WriteAns} {r : Res α}

/-- A wait and a write of ST before it are no calls. -/
theorem CutAfter.after_wait (st : St) (d : Nat) (h : CutAfter ({ s with st := st }.waitFor d) k a w r) :
    CutAfter s k a w r := by
  obtain ⟨t, l, bytes, hr, hrun, hw, hh, hl⟩ := h
  exact ⟨t, .wait d :: l, bytes, hr, hrun, hw, by simp [hh, State.waitFor, State.emit], hl⟩

/-- SET_PIN of an assigned role is the write that fails, or the first of those before it (R140). -/
theorem cutAfter_setPin {p : SRole} (v : Bool) {f : Unit → State → Res α} (hp : s.assigned p = true)
    (hw : s.env.writes = List.replicate k (WriteAns.accepted 6) ++ a :: w) (ha : ∀ n, a = .accepted n → n < 6)
    (hf : ∀ t j, k = j + 1 → t.pinmap = s.pinmap → t.env.writes = List.replicate j (WriteAns.accepted 6) ++ a :: w →
      CutAfter t j a w (f () t)) : CutAfter s k a w ((setPin p v s).bind f) := by
  cases k with
  | zero =>
    rw [setPin_cut v hp hw ha]
    exact ⟨_, [], gpioBytes (s.valWith p v s.val) s.dir, rfl, rfl, rfl, by simp [State.wrote], rfl⟩
  | succ j =>
    rw [List.replicate_succ, List.cons_append] at hw
    rw [setPin_accepted v hp hw]
    let frame := gpioBytes (s.valWith p v s.val) s.dir
    let u : State := State.wrote { s with val := s.valWith p v s.val } frame (.accepted 6)
      (List.replicate j (WriteAns.accepted 6) ++ a :: w)
    obtain ⟨t, l, bytes, hr, hrun, hw', hh, hl⟩ := hf u j rfl rfl rfl
    exact ⟨t, .write frame (.accepted 6) :: l, bytes, hr, hrun, hw', by simp [hh, u, State.wrote],
      by simp [List.filter_cons, isTransportCall, hl]⟩

end

/-- The reset sequence has four writes, and any of them may fail (R163). -/
theorem resetSequence_cut {s : State} {k : Nat} {a : WriteAns} {w : List WriteAns} (hr : s.assigned .reset = true)
    (hc : s.assigned .clk = true) (hk : k < 4) (ha : ∀ n, a = .accepted n → n < 6)
    (hw : s.env.writes = List.replicate k (WriteAns.accepted 6) ++ a :: w) : CutAfter s k a w (resetSequence s) := by
  have pinned : ∀ {t : State} (p : SRole), t.pinmap = s.pinmap → s.assigned p = true → t.assigned p = true := by
    intro t p h hp
    rwa [State.assigned, h]
  unfold resetSequence
  refine cutAfter_setPin false hr hw ha fun t1 k1 hk1 hp1 hw1 => ?_
  refine cutAfter_setPin false (pinned .clk hp1 hc) hw1 ha fun t2 k2 hk2 hp2 hw2 => ?_
  have hp2 := hp2.trans hp1
  refine .after_wait t2.st tInit (cutAfter_setPin true (pinned .reset (by exact hp2) hr) hw2 ha fun t3 k3 hk3 hp3 hw3 => ?_)
  have hp3 : t3.pinmap = s.pinmap := hp3.trans hp2
  refine .after_wait .resetAsserted tInit
    (cutAfter_setPin false (pinned .reset (by exact hp3) hr) hw3 ha fun t4 k4 hk4 => ?_)
  omega

/-- Settles O44: the failed write ends the reset sequence (`resetSequence_cut`), and INITIALIZE with it. -/
theorem initializeStopsAtFailedWrite : Obligations.InitializeStopsAtFailedWrite := by
  intro s k a w hr hst hreset hclk hk ha hw
  obtain ⟨t, l, bytes, hcut, hrun, hleft, hh, hl⟩ :=
    resetSequence_cut (s := { s with running := some opInitialize }) (by exact hreset) (by exact hclk) hk ha hw
  refine ⟨{ t with st := .failed, resBuf := some ⟨5#4, 0#32⟩ }, l ++ [Event.write bytes a], ?_, rfl, rfl, hrun, hleft,
    by simpa using hh, ?_, bytes, by simp⟩
  · rw [exec_initialize_idle hr (St.takesBringUp_of hst), initializeBody, hcut]
    rfl
  · simp [hl, List.filter_cons, isTransportCall]

end Sys2Proof.Machine
end

section
/-!
SUPPORT. CHIP_ERASE as a host operation (R178): how its exchange goes, and INITIALIZE after it under another name; and CLOSE
(R185).
-/

namespace Sys2Proof.Machine

/-! ### CHIP_ERASE (R178) -/

/-- Two pieces that end alike under another name settle alike but for the name, where the second waits in the same ST only
(`hq`). -/
theorem SameEnd.settle_runningAs {x z : Option (BitVec 5)} {y : St} {r q : Res Unit} (h : SameEnd x y r q)
    (hq : SameEnd z y q q) :
    Machine.settle .host (r.withData fun _ => 0#32) = runningAs x (Machine.settle .host (q.withData fun _ => 0#32)) := by
  cases q with
  | ok b t =>
    cases r with
    | ok a s => obtain ⟨rfl, rfl⟩ := h; rfl
    | _ => exact h.elim
  | raise f t =>
    cases r with
    | raise e s => obtain ⟨rfl, rfl⟩ := h; rfl
    | _ => exact h.elim
  | wait d m t =>
    cases r with
    | wait c n s =>
      obtain ⟨rfl, rfl, rfl⟩ := h
      have hst : t.st = y := congrArg State.st hq.2.2
      subst hst
      rfl
    | _ => exact h.elim
  | refuse v =>
    cases r with
    | refuse u => cases h; rfl
    | _ => exact h.elim

/-- INITIALIZE under another name and from another ST ends alike but for the name; unlike `initializeBody_settles_under`,
this needs no premise on `rx`. -/
theorem initializeBody_runningAs (x : Option (BitVec 5)) (y : St) (u : State) :
    settle .host ((initializeBody (u.under x y)).withData fun _ => 0#32) =
      runningAs x (settle .host ((initializeBody u).withData fun _ => 0#32)) :=
  (initializeBody_under u).settle_runningAs (initializeBody_under (x := u.running) (y := u.st) u)

section
variable {s : State} (hr : s.running = none) (hst : s.st = .enabled)
include hr hst

theorem exec_chipErase_idle :
    exec .chipErase s = settle .host ((chipEraseBody { s with running := some 0x04#5 }).withData fun _ => 0#32) := by
  rw [exec, execChipErase, runChecked_idle hr, hst]
  rfl

/-- With an opcode CHIP_ERASE is its exchange and what that leads to. -/
theorem exec_chipErase_defined (hd : s.pd.ceDef = true) : exec .chipErase s =
    settle .host
      ((judgeErase (exchange s.pd.ceCmd { s with running := some 0x04#5, st := .erasing })).withData fun _ => 0#32) := by
  rw [exec_chipErase_idle hr hst, chipEraseBody, hd]
  rfl

/-- The erase response has come: after the part's delay all of INITIALIZE, under CHIP_ERASE's name. -/
theorem exec_chipErase_answered {q : Quad} {w : List WriteAns} {rs : List ReadAns} (hd : s.pd.ceDef = true) (hp : s.par.wf = true)
    (hw : s.env.writes = .accepted 8 :: w) (hrd : s.env.reads = .bytes q.toList :: rs) :
    exec .chipErase s = runningAs (some 0x04#5) (exec .initializeOp { s with
      rxBuf := [], env := { s.env with writes := w, reads := rs }
      hist := s.hist ++ [.write (s.exchangeFrame s.pd.ceCmd) (.accepted 8), .read 4 (.bytes q.toList),
        .wait s.pd.eraseDelay.toNat] }) := by
  rw [exec_chipErase_defined hr hst hd, exchange_whole s.pd.ceCmd q (by exact hp) (by exact hw) (by exact hrd), wrote_readIn,
    exec_initialize_idle (by exact hr) (by rw [hst]; rfl), ← initializeBody_runningAs (some 0x04#5) .erasing]
  simp only [judgeErase, State.waitFor, State.emit, State.under, List.append_assoc]
  rfl

end

/-- Settles O48: no opcode; the exchange that fails (`exchange_writeShort`, `exchange_readError`), is short (`exchange_short`) or
answered (`exec_chipErase_answered`), after which INITIALIZE may match at once (`initializeFollowsR163`). -/
theorem chipEraseFollowsR178 : Obligations.ChipEraseFollowsR178 := by
  intro s hr hst
  refine ⟨fun hd => ?undefined, fun hd hp hw => ?writeShort, fun w rs hd hp hw hrd => ?readError,
    fun q0 q w rs hd hs hmatch hw hrd => ?matched, fun l w rs hd hp hw hrd hl => ?short, fun q w rs hd hp hw hrd => ?answered⟩
  case undefined =>
    rw [exec_chipErase_idle hr hst, chipEraseBody, hd]; rfl
  case writeShort =>
    rw [exec_chipErase_defined hr hst hd, exchange_writeShort (by exact hp) (by exact hw)]; rfl
  case readError =>
    rw [exec_chipErase_defined hr hst hd, exchange_readError _ (by exact hp) (by exact hw) (by exact hrd), wrote_readIn]; rfl
  case matched =>
    let u : State := { s with
      rxBuf := []
      env := { s.env with
        writes := List.replicate 4 (WriteAns.accepted 6) ++ .accepted 8 :: w, reads := .bytes q.toList :: rs }
      hist := s.hist ++ [.write (s.exchangeFrame s.pd.ceCmd) (.accepted 8), .read 4 (.bytes q0.toList),
        .wait s.pd.eraseDelay.toNat] }
    have hready : u.ReadyToEnable := { hs with quiet := rfl }
    have hinit := initializeFollowsR163.1 u q w rs hready (.inr (.inl hst)) hmatch rfl rfl
    rw [exec_chipErase_answered hr hst hd hs.modes hw hrd, hinit, hs.quiet]
    rfl
  case short =>
    rw [exec_chipErase_defined hr hst hd, exchange_short _ (by exact hp) (by exact hw) (by exact hrd) hl, wrote_readIn]; rfl
  case answered =>
    rw [exec_chipErase_answered hr hst hd hp hw hrd]
    rfl

/-! ### CLOSE (R185) -/

theorem exec_close_idle {s : State} (h : s.running = none) :
    exec .closeOp s = .next { closeBody { s with running := some 0x01#5 } with resBuf := some ⟨0#4, 0#32⟩ } := by
  rw [exec, execClose, runChecked_idle h]
  rfl

/-- With no live transport CLOSE only closes the session (R185). -/
theorem exec_close_dead {s : State} (h : s.running = none) (hl : s.live = false) :
    exec .closeOp s = .next { s with st := .closed, running := some 0x01#5, resBuf := some ⟨0#4, 0#32⟩ } := by
  obtain ⟨-, -, hdead⟩ := closeBody_ends { s with running := some 0x01#5 }
  rw [exec_close_idle h, hdead hl]

/-- CLOSE leaves no session and no live transport (R185). -/
theorem exec_close_leaves {s t : State} (h : s.running = none) (ht : exec .closeOp s = .next t) :
    t.st = .closed ∧ t.live = false := by
  obtain ⟨hst, hl, -⟩ := closeBody_ends { s with running := some 0x01#5 }
  rw [exec_close_idle h] at ht
  cases ht
  exact ⟨hst, hl⟩

/-- Whether its frame is accepted or not, the write of reset `ON` leaves one state. -/
theorem stateOf_sendFrame (s t : State) (bytes : List Byte) : stateOf s (sendFrame bytes t) = tWrite bytes t := by
  unfold sendFrame
  split <;> rfl

/-- Settles O49: `exec_close_dead`, for a second CLOSE too (`exec_close_leaves`); with a live transport the one write and the
release. -/
theorem closeFollowsR185 : Obligations.CloseFollowsR185 := by
  intro s hr
  refine ⟨exec_close_dead hr, fun b hl hp hb => ?_, fun t ht => ?_⟩
  · rw [exec_close_idle hr, closeBody, if_pos (by exact hl), setPin_assigned (by exact hp) hb, stateOf_sendFrame]
    have hval : s.valWith .reset true s.val = (writePinBit b true s).val := by
      rw [State.valWith, State.bitOf, PinTable.get, (pin_in_range hp hb).2.2]; rfl
    rw [hval]
    simp only [tClose, State.emit, tWrite, List.append_assoc]
    rfl
  · obtain ⟨hst, hl⟩ := exec_close_leaves hr ht
    rw [exec_close_dead rfl (by exact hl), ← hst]

end Sys2Proof.Machine
end

section
/-!
SUPPORT. What a step from a control state does to ST, and when it calls the transport, as cases of `Moved` (R155, R156, R185).
-/

namespace Sys2Proof.Machine

/-- CLOSE without a session makes no call (R185). -/
theorem closeBody_silent {s : State} (h : s.live = false) : (closeBody s).hist = s.hist := by
  obtain ⟨-, -, hdead⟩ := closeBody_ends s
  rw [hdead h]

/-- Settles O55: of the ways a step moves (`moved_of_step`), with no session only OPEN adds a transport call to the history. -/
theorem closedBlockIsSilent : Obligations.ClosedBlockIsSilent := by
  rintro s t l hc hst h hl ⟨e, he, hcall⟩
  have hdead : s.live = false := by rw [← Bool.not_eq_true, hc.live]; exact not_not.mpr hst
  have hadds : t.hist ≠ s.hist := fun hsame => by
    rw [hl, List.append_right_eq_self] at hsame
    subst hsame
    cases he
  cases moved_of_step hc h with
  | quiet hmove hh hr =>
    obtain hsame | ⟨op, r, -, -, -, -, hres⟩ := hh
    · exact absurd hsame hadds
    · rw [hl, List.append_right_inj] at hres
      subst hres
      rw [List.mem_singleton.mp he] at hcall
      cases hcall
  | openOk rest hr hst u ho hm h1 h2 d ht => exact ⟨hr, by rw [ht]; exact ho.running⟩
  | openErr rest hr hst e u he ho h1 h2 ht => exact ⟨hr, by rw [ht]; exact ho.running⟩
  | closed rest hr ht => exact absurd (by rw [ht]; exact closeBody_silent hdead) hadds
  | exchange v u h0 hop hst' hs hst'' ht => exact absurd hst hst'
  | led rest op hr hop hst' u hs hst'' ht => exact absurd hst hst'
  | bring op v u h0 hop hfrom hst' hs ht => exact absurd hst hst'

/-! ### The arrows of ST (R156) -/

/-- The arrows that a running bring-up operation makes, as a step shows them: from `st` to `st'`. -/
def BringUpArrow (running : Option (BitVec 5)) (st st' : St) : Prop :=
  (running = some 0x02#5 ∧ (st = .opened ∨ st = .enabled ∨ st = .failed ∨ st = .resetReleased) ∧
    (st' = .enabled ∨ st' = .failed ∨ st' = .resetReleased)) ∨
  (running = some 0x03#5 ∧ (st = .opened ∨ st = .enabled ∨ st = .failed) ∧ (st' = .enabled ∨ st' = .failed)) ∨
  (running = some 0x04#5 ∧ (st = .enabled ∨ st = .erasing ∨ st = .resetReleased) ∧
    (st' = .enabled ∨ st' = .failed ∨ st' = .resetReleased)) ∨
  (running = some 0x04#5 ∧ st = .enabled ∧ st' = .erasing)

/-- Where a bring-up operation ends or waits in its handshake, it has come along its arrows. -/
theorem BringsUpFrom.arrow {op : BitVec 5} {st st' : St} (h : BringsUpFrom op st)
    (h' : st' = .enabled ∨ st' = .failed ∨ op ≠ opProgramEnable ∧ st' = .resetReleased) :
    BringUpArrow (some op) st st' := by
  have hbring : ∀ {st : St}, st.takesBringUp = true → st = .opened ∨ st = .enabled ∨ st = .failed := fun {st} h => by
    simpa using st.takesBringUp_iff.mp h
  have hto : st' = .enabled ∨ st' = .failed ∨ st' = .resetReleased := h'.imp_right (Or.imp_right And.right)
  obtain ⟨rfl, hst⟩ | ⟨rfl, hst⟩ | ⟨rfl, hst⟩ := h
  · refine .inl ⟨rfl, ?_, hto⟩
    obtain hst | rfl := hst
    · obtain h | h | h := hbring hst <;> simp [h]
    · simp
  · refine .inr (.inl ⟨rfl, hbring hst, ?_⟩)
    obtain h | h | ⟨h, -⟩ := h'
    · exact .inl h
    · exact .inr h
    · exact absurd rfl h
  · exact .inr (.inr (.inl ⟨rfl, hst, hto⟩))

/-- Settles O56: of the ways a step moves (`moved_of_step`), OPEN, CLOSE and the bring-up operations write ST. -/
theorem statesFollowTheTable : Obligations.StatesFollowTheTable := by
  intro s t hc h hne
  cases moved_of_step hc h with
  | quiet hmove hh hr => exact absurd (congrArg State.st hmove) hne
  | openOk rest hr hst u ho hm h1 h2 d ht =>
    subst ht
    exact .inl ⟨hst, h1, ho.running⟩
  | openErr rest hr hst e u he ho h1 h2 ht =>
    subst ht
    exact absurd (h1.trans hst.symm) hne
  | closed rest hr ht =>
    subst ht
    have hst := (closeBody_ends { s with port := rest, running := some opClose }).1
    exact .inr (.inl ⟨fun h => hne (hst.trans h.symm), hst, (closeBody_frame _).1.running⟩)
  | exchange v u h0 hop hst hs hst' ht =>
    obtain ⟨d, rfl⟩ | ⟨e, -, rfl⟩ | ⟨n, rfl⟩ := ht <;> exact absurd hst' hne
  | led rest op hr hop hst u hs hst' ht =>
    obtain ⟨d, rfl⟩ | rfl := ht <;> exact absurd hst' hne
  | bring op v u h0 hop hfrom hst hs ht =>
    have hrun : u.running = some op := hs.running.trans hop
    obtain ⟨hu, d, rfl⟩ | ⟨e, -, hu, rfl⟩ | ⟨-, -, rfl, -, rfl⟩ | ⟨n, hu | hu, rfl⟩ | ⟨n, rfl, hu, hfrom, rfl⟩ := ht
    · exact .inr (.inr (hrun ▸ hfrom.arrow (.inl hu)))
    · exact .inr (.inr (hrun ▸ hfrom.arrow (.inr (.inl hu))))
    · obtain rfl | ⟨-, rest, rfl⟩ := h0 <;> exact absurd rfl hne
    · exact absurd hu hne
    · exact .inr (.inr (hrun ▸ hfrom.arrow (.inr (.inr hu))))
    · obtain h | h := hfrom
      · exact .inr (.inr (.inr (.inr (.inr ⟨hrun, h, hu⟩))))
      · exact absurd (hu.trans h.symm) hne

end Sys2Proof.Machine
end

section
/-!
SUPPORT. How a step ends a host operation with an error (R190 to R193), read off the ways of `Moved`.
-/

namespace Sys2Proof.Machine

/-! ### The statuses of each operation (R191, R192) -/

theorem openErr_status {e : Err} (h : openErr e) : e.code ∈ [1#4, 2#4, 3#4, 4#4, 5#4, 7#4] := by
  obtain h | rfl | rfl | rfl := h
  · have hcfg := configErr_status h
    simp only [List.mem_cons, List.not_mem_nil, or_false] at hcfg ⊢
    tauto
  all_goals simp [Err.code]

theorem exchangeErr_status {e : Err} (h : exchangeErr e) : e.code ∈ [5#4, 6#4] := by
  obtain rfl | rfl := h <;> simp [Err.code]

theorem bringUpErr_status {e : Err} (h : bringUpErr e) : e.code ∈ [5#4, 8#4, 9#4] := by
  obtain rfl | rfl | rfl := h <;> simp [Err.code]

/-- CHIP_ERASE can also end with the ReadFailed of its own exchange (R192). -/
theorem bringUp_status {op : BitVec 5} {st : St} {e : Err} (hfrom : BringsUpFrom op st)
    (he : bringUpErr e ∨ e = .readFailed ∧ op = opChipErase) :
    ((op = 0x02#5 ∨ op = 0x03#5) ∧ e.code ∈ [5#4, 8#4, 9#4]) ∨ (op = 0x04#5 ∧ e.code ∈ [5#4, 6#4, 8#4, 9#4]) := by
  obtain he | ⟨rfl, rfl⟩ := he
  · have hcode := bringUpErr_status he
    obtain ⟨rfl, -⟩ | ⟨rfl, -⟩ | ⟨rfl, -⟩ := hfrom
    · exact .inl ⟨.inl rfl, hcode⟩
    · exact .inl ⟨.inr rfl, hcode⟩
    · simp only [List.mem_cons, List.not_mem_nil, or_false] at hcode ⊢
      exact .inr ⟨rfl, by tauto⟩
  · exact .inr ⟨rfl, by simp [Err.code]⟩

/-! ### The state a failed operation leaves -/

/-- The operation that runs in `t` has ended with an error of its own, and where it leaves ST and LIVE: the rows of R192 and R193,
after a step from `s`. -/
def EndedInError (s t : State) (status : BitVec 4) : Prop :=
  (t.running = some 0x00#5 ∧ t.st = .closed ∧ t.live = false ∧ status ∈ [1#4, 2#4, 3#4, 4#4, 5#4, 7#4]) ∨
  ((t.running = some 0x02#5 ∨ t.running = some 0x03#5) ∧ t.st = .failed ∧ t.live = true ∧ status ∈ [5#4, 8#4, 9#4]) ∨
  (t.running = some 0x04#5 ∧ t.live = true ∧ status ∈ [5#4, 6#4, 8#4, 9#4] ∧
    (t.st = .failed ∨ status = 8#4 ∧ s.pd.ceDef = false ∧ t.st = .enabled ∧ t.hist = s.hist)) ∨
  (t.running = some 0x05#5 ∧ t.st = s.st ∧ t.live = true ∧ status ∈ [5#4, 6#4]) ∨
  ((t.running = some 0x06#5 ∨ t.running = some 0x07#5 ∨ t.running = some 0x08#5 ∨ t.running = some 0x09#5) ∧
    t.st = s.st ∧ t.live = true ∧ status = 5#4)

/-- No status of an operation of its own is a refusal's (R155, R70). -/
theorem EndedInError.not_refused {s t : State} {status : BitVec 4} (h : EndedInError s t status) :
    ¬ (status = 10#4 ∨ status = 11#4) := by
  have hmem : status ∈ [1#4, 2#4, 3#4, 4#4, 5#4, 6#4, 7#4, 8#4, 9#4] := by
    simp only [EndedInError, List.mem_cons, List.not_mem_nil, or_false] at h ⊢
    tauto
  rintro (rfl | rfl) <;> exact absurd hmem (by decide)

/-- A step inside a session keeps the operation, LIVE and the empty result latch of the state it goes on from. -/
theorem SameSession.of_begin {s v u : State} {op : BitVec 5} (hl : s.live = true) (hb : s.resBuf = none)
    (h0 : v = { s with rx := none } ∨ s.running = none ∧ ∃ rest, v = { s with port := rest, running := some op })
    (hop : v.running = some op) (hs : SameSession v u) : u.running = some op ∧ u.live = true ∧ u.resBuf = none := by
  have hbuf : v.resBuf = none := by obtain rfl | ⟨-, rest, rfl⟩ := h0 <;> exact hb
  exact ⟨hs.running.trans hop, hs.live.trans ((sameView_begin h0).live.trans hl), hs.resBuf.trans hbuf⟩

/-- A step that ends an operation with an error either refuses it, which moves nothing (R193), or ends it as R192 and R193 say. -/
theorem Moved.error {s t : State} {status : BitVec 4} {d : BitVec 32} (hc : s.Control) (hb : s.resBuf = none) (h : Moved s t)
    (hres : t.resBuf = some ⟨status, d⟩) (hne : status ≠ 0#4) :
    ((status = 10#4 ∨ status = 11#4) ∧ t.st = s.st ∧ t.live = s.live ∧ t.hist = s.hist) ∨ EndedInError s t status := by
  cases h with
  | quiet hmove hh hr =>
    rw [hres, hb] at hr
    have hcode : status = 10#4 ∨ status = 11#4 := by
      obtain hr | hr | hr | hr := hr <;> cases hr
      · exact .inl rfl
      · exact .inr rfl
    have hhist : t.hist = s.hist := by
      obtain hsame | ⟨op, r, hr, -⟩ := hh
      · exact hsame
      · rw [hb] at hr; cases hr
    exact .inl ⟨hcode, by rw [hmove], by rw [hmove], hhist⟩
  | openOk rest hr hst u ho hm h1 h2 d' ht => subst ht; cases hres; exact absurd rfl hne
  | openErr rest hr hst e u he ho h1 h2 ht =>
    subst ht
    cases hres
    exact .inr (.inl ⟨ho.running, h1, h2, openErr_status he⟩)
  | closed rest hr ht => subst ht; cases hres; exact absurd rfl hne
  | exchange v u h0 hop hst hs hst' ht =>
    obtain ⟨hrun, hlive, hbuf⟩ := SameSession.of_begin (hc.live.mpr hst) hb h0 hop hs
    obtain ⟨d', rfl⟩ | ⟨e, he, rfl⟩ | ⟨n, rfl⟩ := ht
    · cases hres; exact absurd rfl hne
    · cases hres
      exact .inr (.inr (.inr (.inr (.inl ⟨hrun, hst', hlive, exchangeErr_status he⟩))))
    · exact absurd (hbuf.symm.trans hres) (by simp)
  | led rest op hr hop hst u hs hst' ht =>
    obtain ⟨hrun, hlive, hbuf⟩ :=
      SameSession.of_begin (hc.live.mpr hst) hb (.inr ⟨hr, rest, rfl⟩) rfl hs
    obtain ⟨d', rfl⟩ | rfl := ht
    · cases hres; exact absurd rfl hne
    · cases hres
      have hled : u.running = some 0x06#5 ∨ u.running = some 0x07#5 ∨ u.running = some 0x08#5 ∨ u.running = some 0x09#5 := by
        rw [hrun]; exact hop.imp (congrArg some) (Or.imp (congrArg some) (Or.imp (congrArg some) (congrArg some)))
      exact .inr (.inr (.inr (.inr (.inr ⟨hled, hst', hlive, rfl⟩))))
  | bring op v u h0 hop hfrom hst hs ht =>
    obtain ⟨hrun, hlive, hbuf⟩ := SameSession.of_begin (hc.live.mpr hst) hb h0 hop hs
    obtain ⟨-, d', rfl⟩ | ⟨e, he, hu, rfl⟩ | ⟨hen, rfl, rfl, hdef, rfl⟩ | ⟨n, -, rfl⟩ | ⟨n, -, -, -, rfl⟩ := ht
    · cases hres; exact absurd rfl hne
    · cases hres
      obtain ⟨rfl | rfl, hcode⟩ | ⟨rfl, hcode⟩ := bringUp_status hfrom he
      · exact .inr (.inr (.inl ⟨.inl hrun, hu, hlive, hcode⟩))
      · exact .inr (.inr (.inl ⟨.inr hrun, hu, hlive, hcode⟩))
      · exact .inr (.inr (.inr (.inl ⟨hrun, hlive, hcode, .inl hu⟩)))
    · cases hres
      have hview : u.st = .enabled ∧ u.hist = s.hist := by obtain rfl | ⟨-, rest, rfl⟩ := h0 <;> exact ⟨hen, rfl⟩
      exact .inr (.inr (.inr (.inl ⟨hrun, hlive, by simp, .inr ⟨rfl, hdef, hview⟩⟩)))
    · exact absurd (hbuf.symm.trans hres) (by simp)
    · exact absurd (hbuf.symm.trans hres) (by simp)

/-- Settles O57: of the ways a step moves, those that end with an error (`Moved.error`). -/
theorem stateAfterError : Obligations.StateAfterError := by
  intro s t status d hc hb h hres hne
  obtain ⟨hcode, hkept⟩ | hown := (moved_of_step hc h).error hc hb hres hne
  · exact ⟨fun _ => hkept, fun h10 h11 => (hcode.elim h10 h11).elim⟩
  · exact ⟨fun hcode => absurd hcode hown.not_refused, fun _ _ => hown⟩

end Sys2Proof.Machine
end

section
/-!
SUPPORT. What can stop a step: a piece of an operation is refused by its poll index or not at all (R171, R190, R196). Shown for
each piece, from the bottom of the call tree (R186) to its top.
-/

namespace Sys2Proof.Machine

/-- Where the spec gives `r` no step, the reason satisfies `Q`. -/
def Res.RefusesOnly {α : Type} (r : Res α) (Q : Refusal → Prop) : Prop :=
  match r with
  | .refuse x => Q x
  | .ok _ _ | .raise _ _ | .wait _ _ _ => True

section
variable {α β : Type} {Q : Refusal → Prop} {r : Res α}

/-! ### Composition -/

/-- Composition, for what is known of the state between the two pieces. -/
theorem Res.RefusesOnly.bind_sat {f : α → State → Res β} {P : α → State → Prop} {E : Err → State → Prop}
    {W : RxClient → Nat → State → Prop} (h : r.RefusesOnly Q) (hr : r.Sat P E W)
    (hf : ∀ a t, P a t → (f a t).RefusesOnly Q) : (r.bind f).RefusesOnly Q := by
  cases r with
  | ok a t => exact hf a t hr
  | raise e t => trivial
  | wait c n t => trivial
  | refuse x => exact h

theorem Res.RefusesOnly.bind {f : α → State → Res β} (h : r.RefusesOnly Q) (hf : ∀ a t, (f a t).RefusesOnly Q) :
    (r.bind f).RefusesOnly Q := by
  cases r with
  | ok a t => exact hf a t
  | raise e t => trivial
  | wait c n t => trivial
  | refuse x => exact h

theorem Res.RefusesOnly.withData (h : r.RefusesOnly Q) (f : α → BitVec 32) : (r.withData f).RefusesOnly Q :=
  h.bind fun _ _ => trivial

theorem Res.RefusesOnly.onRaise (h : r.RefusesOnly Q) (f : State → State) : (r.onRaise f).RefusesOnly Q := by
  cases r <;> exact h

theorem Res.RefusesOnly.finally (h : r.RefusesOnly Q) (f : State → State) : (r.finally f).RefusesOnly Q := by
  cases r <;> exact h

theorem Res.RefusesOnly.waitingFor (h : r.RefusesOnly Q) (c : RxClient) : (r.waitingFor c).RefusesOnly Q := by
  cases r <;> exact h

theorem Res.RefusesOnly.ite {p : Prop} [Decidable p] {q : Res α} (hr : r.RefusesOnly Q) (hq : q.RefusesOnly Q) :
    (if p then r else q).RefusesOnly Q := by
  split <;> assumption

end

/-! ### The pieces that always go on -/

section
variable {Q : Refusal → Prop}

theorem sendFrame_refusesOnly (bytes : List Byte) (s : State) : (sendFrame bytes s).RefusesOnly Q := .ite trivial trivial

theorem setPin_refusesOnly (r : SRole) (v : Bool) (s : State) : (setPin r v s).RefusesOnly Q :=
  .ite trivial (sendFrame_refusesOnly _ _)

theorem setClock_refusesOnly (hz : BitVec 32) (s : State) : (setClock hz s).RefusesOnly Q :=
  (sendFrame_refusesOnly _ _).finally _

theorem assignSingle_refusesOnly (r : SRole) (raw : Byte) (s : State) : (assignSingle r raw s).RefusesOnly Q :=
  .ite trivial (.ite trivial (.ite trivial trivial))

theorem assignGroup_refusesOnly (g : GRole) (m : Mask) (s : State) : (assignGroup g m s).RefusesOnly Q :=
  .ite trivial (.ite trivial trivial)

theorem assignRoles_refusesOnly (rs : List SRole) : ∀ s, (assignRoles rs s).RefusesOnly Q := by
  induction rs with
  | nil => exact fun s => trivial
  | cons r rs ih => exact fun s => (assignSingle_refusesOnly _ _ _).bind fun _ t => ih t

theorem fixRole_refusesOnly (r : SRole) (want : BitVec 7) (s : State) : (fixRole r want s).RefusesOnly Q :=
  .ite trivial (.ite trivial trivial)

theorem fixReset_refusesOnly (s : State) : (fixReset s).RefusesOnly Q := .ite trivial (.ite trivial trivial)

theorem validateLayout_refusesOnly (s : State) : (validateLayout s).RefusesOnly Q :=
  (fixRole_refusesOnly _ _ _).bind fun _ _ => (fixRole_refusesOnly _ _ _).bind fun _ _ =>
    (fixRole_refusesOnly _ _ _).bind fun _ _ => fixReset_refusesOnly _

theorem pinSetup_refusesOnly (s : State) : (pinSetup s).RefusesOnly Q :=
  (validateLayout_refusesOnly _).bind fun _ _ => (assignRoles_refusesOnly _ _).bind fun _ _ =>
    (assignGroup_refusesOnly _ _ _).bind fun _ _ => assignGroup_refusesOnly _ _ _

/-- OPEN (R157). -/
theorem openBody_refusesOnly (s : State) : (openBody s).RefusesOnly Q :=
  (pinSetup_refusesOnly s).bind fun _ _ =>
    .ite (.ite (.bind ((setClock_refusesOnly _ _).onRaise _) fun _ _ => trivial) trivial) trivial

theorem receive_refusesOnly (n : Nat) (s : State) : (receive n s).RefusesOnly Q := by
  unfold receive
  split
  · dsimp only
    split
    · trivial
    · exact .ite trivial trivial
  · trivial

theorem Res.RefusesOnly.asResponse {r : Res (List Byte)} (h : r.RefusesOnly Q) : (asResponse r).RefusesOnly Q :=
  h.bind fun _ _ => trivial

/-- An exchange calls SHIFT with legal operands only (R124, R145). -/
theorem exchange_refusesOnly (c : Quad) (s : State) : (exchange c s).RefusesOnly Q := by
  refine Res.RefusesOnly.asResponse ?_
  rw [shift, xchgShift_legal]
  exact .bind (.ite (sendFrame_refusesOnly _ _) trivial) fun _ _ => .ite (receive_refusesOnly _ _) trivial

theorem pulseReset_refusesOnly {next : State → Res Unit} (hn : ∀ t, (next t).RefusesOnly Q) (s : State) :
    (pulseReset next s).RefusesOnly Q :=
  .bind (.onRaise (.bind (setPin_refusesOnly _ _ _) fun _ _ => setPin_refusesOnly _ _ _) _) fun _ t => hn t

theorem Res.RefusesOnly.judgeAttempt {next : State → Res Unit} (hn : ∀ t, (next t).RefusesOnly Q) {r : Res Quad}
    (h : r.RefusesOnly Q) : (judgeAttempt next r).RefusesOnly Q := by
  cases r with
  | ok q t => exact .ite trivial (pulseReset_refusesOnly hn t)
  | raise e t => exact pulseReset_refusesOnly hn t
  | wait c n t => trivial
  | refuse x => exact h

/-- The handshake, once its poll index has been taken (R170). -/
theorem handshake_refusesOnly (left : Nat) : ∀ s, (handshake left s).RefusesOnly Q := by
  induction left with
  | zero => exact fun s => trivial
  | succ left ih => exact fun s => (exchange_refusesOnly _ _).judgeAttempt ih

theorem resetSequence_refusesOnly (s : State) : (resetSequence s).RefusesOnly Q :=
  (setPin_refusesOnly _ _ _).bind fun _ _ => (setPin_refusesOnly _ _ _).bind fun _ _ =>
    (setPin_refusesOnly _ _ _).bind fun _ _ => (setPin_refusesOnly _ _ _).bind fun _ _ => trivial

end

/-! ### The pieces that reach the poll index (R171) -/

/-- The poll index is out of range, and that is why there is no step (R171, log entry 14). -/
def PollIndexStop (pd : PdRegs) (x : Refusal) : Prop :=
  x = .pollIndexOutOfRange ∧ ¬ (1 ≤ pd.pollIndex.toNat ∧ pd.pollIndex.toNat ≤ 4)

theorem programEnable_refusesOnly (s : State) : (programEnable s).RefusesOnly (PollIndexStop s.pd) := by
  unfold programEnable
  split
  next hillegal => exact ⟨rfl, by rw [← pollIndexLegal_iff]; simpa using hillegal⟩
  next => exact .ite trivial (handshake_refusesOnly _ _)

/-- INITIALIZE reads the poll index that stood there at its start (R163). -/
theorem initializeBody_refusesOnly (s : State) : (initializeBody s).RefusesOnly (PollIndexStop s.pd) := by
  have hsat := Res.sat_onRaise (E := fun _ _ => True) (f := fun s => { s with st := .failed }) (resetSequence_sat s)
    fun _ _ _ => trivial
  refine .bind_sat ((resetSequence_refusesOnly s).onRaise _) hsat ?_
  rintro - t ⟨hsame, -⟩
  rw [← hsame.pd]
  exact programEnable_refusesOnly t

/-- What the erase exchange leads to, when it leaves the part descriptor alone (R178). -/
theorem judgeErase_refusesOnly {r : Res Quad} {pd : PdRegs} {E : Err → State → Prop} {W : RxClient → Nat → State → Prop}
    (h : r.RefusesOnly (PollIndexStop pd)) (hr : r.Sat (fun _ t => t.pd = pd) E W) :
    (judgeErase r).RefusesOnly (PollIndexStop pd) := by
  cases r with
  | ok q t =>
    obtain rfl : t.pd = pd := hr
    exact initializeBody_refusesOnly (t.waitFor t.pd.eraseDelay.toNat)
  | raise e t => trivial
  | wait c n t => trivial
  | refuse x => exact h

theorem chipEraseBody_refusesOnly {s : State} (h0 : s.rxBuf = []) : (chipEraseBody s).RefusesOnly (PollIndexStop s.pd) :=
  .ite trivial <| judgeErase_refusesOnly (exchange_refusesOnly _ _) <|
    (exchange_sat s.pd.ceCmd { s with st := .erasing } h0).mono (fun _ _ h => h.1.pd) (fun _ _ h => h) fun _ _ _ h => h

/-- Each client of the receive loop goes on with the next read (R127, R128). -/
theorem resumeBody_refusesOnly (c : RxClient) (s : State) :
    (resumeBody c s (receive xchgLen s)).RefusesOnly (PollIndexStop s.pd) := by
  have hread : (asResponse (receive xchgLen s)).RefusesOnly (PollIndexStop s.pd) := (receive_refusesOnly _ s).asResponse
  cases c with
  | shift => exact (receive_refusesOnly _ s).withData _
  | exchange => exact (hread.waitingFor _).withData _
  | handshake => exact (hread.judgeAttempt (handshake_refusesOnly _)).withData _
  | erase =>
    have hsat := (response_sat s).mono (P' := fun _ t => t.pd = s.pd) (fun _ _ h => h.1.pd) (fun _ _ h => h) fun _ _ _ h => h
    exact (judgeErase_refusesOnly hread hsat).withData _

/-! ### A step -/

/-- There is a next state, or the poll index is out of range. -/
def GoesOn (pd : PdRegs) (o : Out) : Prop :=
  (∃ t, o = .next t) ∨ (o = .refused .pollIndexOutOfRange ∧ ¬ (1 ≤ pd.pollIndex.toNat ∧ pd.pollIndex.toNat ≤ 4))

theorem GoesOn.next (pd : PdRegs) (t : State) : GoesOn pd (.next t) := .inl ⟨t, rfl⟩

/-- An error is a status: settling stops only where a piece of the operation does (R190). -/
theorem settle_goesOn {pd : PdRegs} {r : Res (BitVec 32)} (l : Level) (h : r.RefusesOnly (PollIndexStop pd)) :
    GoesOn pd (settle l r) := by
  cases r with
  | ok d t => exact .next pd _
  | raise e t => exact .next pd _
  | wait c n t => exact .next pd _
  | refuse x =>
    obtain ⟨rfl, hidx⟩ := h
    exact .inr ⟨rfl, hidx⟩

section
variable {s : State} {body : State → Res (BitVec 32)}

/-- A host operation goes on when its body does: a failed acceptance check is a status (R155). -/
theorem runChecked_goesOn (hr : s.running = none) {op : BitVec 5}
    (h : (body { s with running := some op }).RefusesOnly (PollIndexStop s.pd)) (takes : Bool) :
    GoesOn s.pd (runChecked op takes body s) := by
  rw [runChecked_idle hr]
  exact settle_goesOn _ (.ite h trivial)

theorem runInternal_goesOn (hr : s.running = none) (op : BitVec 5) (body : State → Res (BitVec 32)) :
    GoesOn s.pd (runInternal op body s) := by
  rw [runInternal_idle hr]
  exact .next _ _

/-- Every instruction goes on from an idle block: the frames and the register writes have no condition, and the internal operations,
SHIFT among them, are IllegalOp at the host port (R70). -/
theorem exec_goesOn (hr : s.running = none) (h0 : s.rxBuf = []) (i : Instr) : GoesOn s.pd (exec i s) := by
  cases i with
  | openOp => unfold exec execOpen; exact runChecked_goesOn hr ((openBody_refusesOnly _).withData _) _
  | closeOp => unfold exec execClose; exact runChecked_goesOn hr (by trivial) _
  | initializeOp => unfold exec execInitialize; exact runChecked_goesOn hr ((initializeBody_refusesOnly _).withData _) _
  | programEnable => unfold exec execProgramEnable; exact runChecked_goesOn hr ((programEnable_refusesOnly _).withData _) _
  | chipErase => unfold exec execChipErase; exact runChecked_goesOn hr ((chipEraseBody_refusesOnly (by exact h0)).withData _) _
  | exchange c => unfold exec execExchange; exact runChecked_goesOn hr (((exchange_refusesOnly c _).waitingFor _).withData _) _
  | setLed0 v => unfold exec execSetLed0; exact runChecked_goesOn hr ((setPin_refusesOnly .led0 v _).withData _) _
  | setLed1 v => unfold exec execSetLed1; exact runChecked_goesOn hr ((setPin_refusesOnly .led1 v _).withData _) _
  | setLed2 v => unfold exec execSetLed2; exact runChecked_goesOn hr ((setPin_refusesOnly .led2 v _).withData _) _
  | setLed3 v => unfold exec execSetLed3; exact runChecked_goesOn hr ((setPin_refusesOnly .led3 v _).withData _) _
  | assignSingle r raw => unfold exec execAssignSingle; exact runInternal_goesOn hr _ _
  | assignGroup g m => unfold exec execAssignGroup; exact runInternal_goesOn hr _ _
  | validateLayout w x y z => unfold exec execValidateLayout; exact runInternal_goesOn hr _ _
  | pinSetup => unfold exec execPinSetup; exact runInternal_goesOn hr _ _
  | computeDivisor hz => unfold exec execComputeDivisor; exact runInternal_goesOn hr _ _
  | setClock hz => unfold exec execSetClock; exact runInternal_goesOn hr _ _
  | encodeGpioSet => unfold exec execEncodeGpioSet; exact runInternal_goesOn hr _ _
  | shift mode n payload => unfold exec execShift; exact runInternal_goesOn hr _ _
  | setPin r v => unfold exec execSetPin; exact runInternal_goesOn hr _ _
  | reservedLow op => exact .next _ _
  | reservedHigh op => exact .next _ _
  | clkFrame d => exact .next _ _
  | gpioFrame v d => exact .next _ _
  | shiftFrame m payload => exact .next _ _
  | pinSpec r raw => exact .next _ _
  | groupMask g m => exact .next _ _
  | hostRes st d => exact .next _ _

end

/-- What a host move brings is never a frame, so it decodes (R70, R74). -/
theorem HostMove.wire_decodes (p : Params) {m : HostMove} {w : Wire} (h : m.wire = some w) : ∃ i, decode p w = .ok i := by
  cases m <;> cases h <;> exact ⟨_, rfl⟩

/-- Settles O58: a waiting operation makes its next read (`resumeBody_refusesOnly`); otherwise the step presents the result, stays
idle, writes a register or runs the command of the host (`exec_goesOn`). -/
theorem onlyThePollIndexStops : Obligations.OnlyThePollIndexStops := by
  intro s hc
  change GoesOn s.pd (step s)
  cases hx : s.rx with
  | some w =>
    have hw := hc.loop w hx
    have hstep : step s = resumeReceive w s := by rw [step, hx]
    rw [hstep, resumeReceive_exchange w s hw.length hw.level]
    exact settle_goesOn .host (resumeBody_refusesOnly w.client { s with rx := none })
  | none =>
    obtain ⟨-, hresult, hmove, -⟩ := stepRunsDecodedInstr s hx
    cases hb : s.resBuf with
    | some r => rw [hresult r hc.frame hb]; exact .next _ _
    | none =>
      have hr : s.running = none := by_contra fun hr => (hc.busy hr).mp hx hb
      cases hp : s.port with
      | nil =>
        have hidle : step s = .next s := by simp [step, fetch, hx, hc.frame, hb, hp]
        exact hidle ▸ .next _ _
      | cons m rest =>
        cases hwire : m.wire with
        | none => rw [step_writeRegister hx hc.frame hb hp hwire]; exact .next _ _
        | some w =>
          obtain ⟨i, hi⟩ := m.wire_decodes s.par hwire
          rw [hmove m rest w i hc.frame hb hp hwire hi]
          exact exec_goesOn (s := { s with port := rest }) hr (hc.rest hx).2.2 i

end Sys2Proof.Machine
end

section
/-!
SUPPORT. A new session and the one before it (R221): PIN_SETUP starts from the sampled and cleared state, so what it clears cannot
matter, to it or to OPEN; and a closed block is in no receive loop.
-/

namespace Sys2Proof.Machine

/-! ### What OPEN clears first cannot matter -/

section
variable {s t : State} (h : clearSession s = clearSession t)
include h

theorem pinSetup_eq_of_clearSession_eq : pinSetup s = pinSetup t := by rw [pinSetup, h, pinSetup]

/-- OPEN reads PIN_SETUP's outcome and the configuration, which clearing leaves as it is (R99, R157). -/
theorem openBody_eq_of_clearSession_eq : openBody s = openBody t := by
  have hcfg : s.cfg = t.cfg := by simpa using congrArg State.cfg h
  rw [openBody, pinSetup_eq_of_clearSession_eq h, hcfg, openBody]

end

/-! ### Closed -/

/-- Only a session waits in a receive loop (R127). -/
theorem State.Control.rx_of_closed {s : State} (hc : s.Control) (hst : s.st = .closed) : s.rx = none := by
  cases hx : s.rx with
  | none => rfl
  | some w => exact absurd hst (hc.loop w hx).session

theorem State.Control.live_of_closed {s : State} (hc : s.Control) (hst : s.st = .closed) : s.live = false := by
  rw [← Bool.not_eq_true, hc.live]
  exact not_not.mpr hst

/-- Settles O42: two states that differ in what PIN_SETUP samples and clears have the same `clearSession`; and in a control
state that is Closed, `live` is false and no receive loop waits, so ATTEMPT is at rest. -/
theorem openForgetsTheLastSession : Obligations.OpenForgetsTheLastSession := by
  refine ⟨fun s pinmap samp gmask dir inv val => ⟨fun hr hst => ?_, fun hr => ?_⟩, fun s hc hst => ?_⟩
  · rw [exec_open_closed hr hst, exec_open_closed (by exact hr) (by exact hst)]
    exact congrArg (fun r : Res Unit => settle .host (r.withData fun _ => 0#32)) (openBody_eq_of_clearSession_eq rfl)
  · rw [exec_pinSetup_called hr, exec_pinSetup_called (by exact hr)]
    exact congrArg (fun r : Res Unit => settle .inner (r.withData fun _ => 0#32)) (pinSetup_eq_of_clearSession_eq rfl)
  · obtain ⟨-, hattempt, -⟩ := hc.rest (hc.rx_of_closed hst)
    exact ⟨hc.live_of_closed hst, hattempt⟩

end Sys2Proof.Machine
end

section
/-!
SUPPORT. The waits of the history (R236), read off what a step appends.
-/

namespace Sys2Proof.Machine

/-- Settles O59: what a step appends is as `Grows` says (`step_grows`), and a register write appends nothing. -/
theorem waitsAreTheTables : Obligations.WaitsAreTheTables := by
  intro s t l d h hl hd
  rcases step_grows h with hg | ⟨-, hhist⟩
  · obtain ⟨m, hm, -, -, hwaits⟩ := hg.events
    obtain rfl : l = m := List.append_cancel_left (hl.symm.trans hm)
    exact hwaits d hd
  · obtain rfl : l = [] := List.append_right_eq_self.mp (hl.symm.trans hhist)
    cases hd

end Sys2Proof.Machine
end
